-- ==== Sys2Proof/Word.lean ====
section
/-! DEFINITION. The 32-bit word of commands and registers, the opcode byte, and the bit string of the channels. -/

namespace Sys2Proof

/-- A command word, a register value, an error information word: 32 bits (30_encoding R300, 10_state R110). -/
abbrev Word := BitVec 32

/-- An opcode: bits 31:24 of a command word (30_encoding R300). -/
abbrev Opcode := BitVec 8

/-- The operand field OPND: bits 9:0 of a command word (30_encoding R300). -/
abbrev Opnd := BitVec 10

/-- A bit string in stream order, first bit first (00_scope R12). -/
abbrev Bits := List Bool

end Sys2Proof
end

