-- ==== Sys2Proof/Syntax.lean ====
section
/-! DEFINITION. The 21 commands of the opcode table (30_encoding R320), one constructor per row. -/

namespace Sys2Proof

/-- A command. A format-S command carries its symbol operand and a format-X command its node index, each as the
10-bit OPND field of the command word (30_encoding R301); which values are legal is `Instr.WellFormed`. -/
inductive Instr where
  | nop
  | softReset
  | countFreq
  | writeFreq (sym : Opnd)
  | readFreq (sym : Opnd)
  | buildTree
  | readNode (idx : Opnd)
  | genCodes
  | lookupCode (sym : Opnd)
  | writeMagic
  | serializeHeader
  | checkMagic
  | deserializeHeader
  | rewindInput
  | encodeSymbol (sym : Opnd)
  | encodePayload
  | closeOutput
  | decodeSymbol
  | decodePayload
  | compress
  | decompress
  deriving DecidableEq, Repr

/-- The operand format of a command (30_encoding R301): none, a symbol, or a node index. -/
inductive Format where
  | n
  | s
  | x
  deriving DecidableEq, Repr

/-- Why a command word is not legal: the sub-codes of ILLEGAL_COMMAND (60_exceptions R801). -/
inductive IllegalSub where
  | badOpcode
  | rsvNonzero
  | badOperand
  deriving DecidableEq, Repr

end Sys2Proof
end

