-- ==== Sys2Proof/Machine/Types.lean ====
section
/-! DEFINITION. The data the machine holds: errors, tree nodes, code entries, channels, register groups, host
operations, parameters. Types only. -/

namespace Sys2Proof.Machine

/-- Sub-codes of MALFORMED_HEADER (60_exceptions R801). -/
inductive HeaderSub where
  | eof
  | badSymbol
  | capacity
  | rootLeaf
  deriving DecidableEq, Repr

/-- Sub-codes of IO_ERROR: the channel call that failed (60_exceptions R801). -/
inductive IoSub where
  | inRead
  | inReset
  | outWrite
  | outClose
  deriving DecidableEq, Repr

/-- Sub-codes of NOT_READY: the unmet prerequisite (40_control R405, 60_exceptions R801). -/
inductive ReadySub where
  | noTree
  | noCodes
  | badIndex
  deriving DecidableEq, Repr

/-- The errors of 60_exceptions R800, each with exactly the sub-codes R801 lists for it, so that a reserved error
code or an unlisted sub-code (93 U16) cannot be written down. -/
inductive Err where
  | invalidFormat
  | malformedHeader (sub : HeaderSub)
  | truncatedStream
  | emptyInput
  | ioError (sub : IoSub)
  | illegalCommand (sub : IllegalSub)
  | notReady (sub : ReadySub)
  | missingCode
  | countOverflow
  deriving DecidableEq, Repr

/-- One slot of NODE, the tagged variant of 10_state R121. The fields the rule fixes at zero (a leaf's children, an
internal node's symbol) are not stored; `Node.sym`, `Node.left` and `Node.right` read them as zero. -/
inductive Node where
  | leaf (symbol : BitVec 9) (weight : BitVec 41)
  | internal (weight : BitVec 41) (left right : BitVec 10)
  deriving DecidableEq, Repr, Inhabited

/-- One entry of CODE (10_state R122). -/
structure CodeEntry where
  valid : Bool
  len : BitVec 9
  bits : BitVec 256
  deriving DecidableEq, Repr, Inhabited

/-- The STATUS register (10_state R112), its reserved bits left out. `err` is the one home of ERR, ERR_CODE and
ERR_SUB, which are always set and cleared together: none is no error. -/
structure Status where
  busy : Bool
  done : Bool
  err : Option Err
  treeValid : Bool
  codesValid : Bool
  eosSeen : Bool
  cmdOverrun : Bool
  closeFailed : Bool
  infoEof : Bool
  lastOp : Opcode
  deriving DecidableEq, Repr

/-- RES_LEN (10_state R131): CVALID and LEN. -/
structure ResLen where
  cvalid : Bool
  len : BitVec 9
  deriving DecidableEq, Repr

/-- RES_NODE (10_state R134): KIND (true for a leaf), RIGHT and LEFT. -/
structure ResNode where
  kind : Bool
  right : BitVec 10
  left : BitVec 10
  deriving DecidableEq, Repr

/-- The readable channel IN (10_state R140). -/
structure InChannel where
  bits : Bits
  pos : Nat
  deriving DecidableEq, Repr

/-- The writable channel OUT (10_state R141). -/
structure OutChannel where
  bits : Bits
  closed : Bool
  deriving DecidableEq, Repr

/-- How the host has IN attached to BLOCK (70_reset_and_hazards R910, R920): connected; connected and due to be released,
because a COMPRESS or DECOMPRESS has been issued on it; released, with nothing connected since. -/
inductive InLink where
  | connected
  | due
  | released
  deriving DecidableEq, Repr

/-- What the host gets back from OUT (70_reset_and_hazards R920): its bits, and, once it is closed, its byte image. -/
structure OutReading where
  bits : Bits
  image : Option (List (BitVec 8))
  deriving DecidableEq, Repr

/-- One entry of the completion log (10_state R151): the command word, ERR with ERR_CODE and ERR_SUB, ERR_INFO and
ERR_OP. -/
structure LogEntry where
  cmd : Word
  err : Option Err
  info : Word
  op : Opcode
  deriving DecidableEq, Repr

/-- A register read the host made: the offset and the value it got. -/
structure ReadEntry where
  off : BitVec 8
  value : Word
  deriving DecidableEq, Repr

/-- What the environment does at one channel call of BLOCK: the call goes through, the channel fails it with a code
(20_memory R214), or a hardware reset arrives before it (70_reset_and_hazards R901). -/
inductive IoDraw where
  | pass
  | fail (e : Word)
  | reset
  deriving DecidableEq, Repr

/-- One operation of the host (10_state R110, 30_encoding R340, 70_reset_and_hazards R920). Offsets are from the
window base; `bytes` is the width of the access. -/
inductive HostOp where
  /-- A register write. -/
  | write (off : BitVec 8) (bytes : Nat) (v : Word)
  /-- A register read. -/
  | read (off : BitVec 8) (bytes : Nat)
  /-- WAIT: poll STATUS until BUSY = 0 and DONE = 1. -/
  | wait
  /-- A write of CMD that, when a command is running, lands after its last access and before its completion. -/
  | writeCmdLate (v : Word)
  /-- Connect a new IN, which discards the one before, or change its bits or its position. -/
  | setIn (bits : Bits) (pos : Nat)
  /-- Connect a new OUT, or change it. -/
  | setOut (bits : Bits) (closed : Bool)
  /-- Look at a channel without changing it. -/
  | lookAtChannels
  /-- Read OUT's bits, and its byte image when it is closed. -/
  | readOut
  /-- Release IN: close or discard it. -/
  | releaseIn
  /-- Hardware reset. -/
  | reset
  deriving DecidableEq, Repr

/-- The order in which equal weights leave the priority queue (42_tree_builder R503, R504). -/
inductive TieBreak where
  | seq
  | any
  deriving DecidableEq, Repr

/-- Where IN stands after a read that answered EOF (20_memory R210). -/
inductive InEofPos where
  | keep
  | toEnd
  deriving DecidableEq, Repr

/-- An answer of OUT_AFTER_CLOSE (20_memory R215): OK, with the bits appended or not, or an error code. -/
inductive ClosedAnswer where
  | ok (append : Bool)
  | ioErr (e : Word)
  deriving DecidableEq, Repr, Inhabited

/-- How a closed OUT chooses that answer: always the same one, or a free draw at each call. -/
inductive ClosedPolicy where
  | fixed (a : ClosedAnswer)
  | drawn
  deriving DecidableEq, Repr

/-- The named parameters of 00_scope R8, fixed for one machine. IO_FAIL, a draw per call, is `State.io`. -/
structure Params where
  magic : Word
  tieBreak : TieBreak
  inEofPos : InEofPos
  /-- PAD: to complete a byte that lacks k bits, the channel appends the first k bits of this field. -/
  pad : BitVec 7
  /-- OUT_AFTER_CLOSE for a write. -/
  afterCloseWrite : ClosedPolicy
  /-- OUT_AFTER_CLOSE for a close. -/
  afterCloseClose : ClosedPolicy
  /-- REG_BASE, which no rule reads. -/
  regBase : Nat
  deriving DecidableEq, Repr

/-- What InRead answers (20_memory R210). -/
inductive InReply where
  | val (v : Nat)
  | eof
  | ioErr (e : Word)
  deriving DecidableEq, Repr

/-- What InReset, OutWrite and OutClose answer (20_memory R211 to R213). -/
inductive IoReply where
  | ok
  | ioErr (e : Word)
  deriving DecidableEq, Repr

/-- The counters n, I and L of DESERIALIZE_HEADER (44_header_codec R630). -/
structure ParseCount where
  n : Nat
  internals : Nat
  leaves : Nat
  deriving DecidableEq, Repr

end Sys2Proof.Machine
end

