-- ==== Sys2Proof/Config.lean ====
section
/-! DEFINITION. What an implementation fixes (00_scope R7, R8), the parameter values of the machine at reset, and the
FREE VALUES: constants with no body, about which nothing can be proved. -/

namespace Sys2Proof.Config

/-- NSYM, the number of symbol values (00_scope R7). -/
abbrev nsym : Nat := 257

/-- END_OF_STREAM (00_scope R7). -/
abbrev endOfStream : Nat := 256

/-- NODE_CAP (00_scope R8). -/
abbrev nodeCap : Nat := 513

/-- MAX_INTERNAL (00_scope R8). -/
abbrev maxInternal : Nat := 256

/-- MAX_COUNT = 2^32 - 1 (00_scope R8). -/
abbrev maxCount : Word := 0xFFFFFFFF#32

/-- The parameter values that State.reset carries. MAGIC, TIE_BREAK and PAD are the spec's defaults (00_scope R8).
IN_EOF_POS has none: DESIGN CHOICE KEEP, the convention of 95_test_vectors (unsafe, log 12). OUT_AFTER_CLOSE has none
and stays a draw (safe, log 14). REG_BASE has none: DESIGN CHOICE 0, read by no rule (unsafe in form only, log 15). -/
def defaultParams : Machine.Params where
  magic := 0xFACE8201#32
  tieBreak := .seq
  inEofPos := .keep
  pad := 0#7
  afterCloseWrite := .drawn
  afterCloseClose := .drawn
  regBase := 0

/-- FREE VALUE. Which of the equal-weight candidates TIE_BREAK = ANY takes (42_tree_builder R504, 93 U1). -/
opaque freeTie : Nat → Nat

/-- FREE VALUE. NODE where its contents are unspecified (93 U3). -/
opaque freeNodes : Nat → Vector Machine.Node 513

/-- FREE VALUE. CODE where its contents are unspecified (93 U3). -/
opaque freeCodes : Nat → Vector Machine.CodeEntry 257

/-- FREE VALUE. A register read that R137 leaves unspecified (93 U4). -/
opaque freeWord : Nat → Word

/-- FREE VALUE. IN.pos after a channel failure, taken modulo the number of positions (93 U5). -/
opaque freePos : Nat → Nat

/-- FREE VALUE. The bits by which a failing OutWrite extended OUT (93 U5). -/
opaque freeBits : Nat → Bits

/-- FREE VALUE. The answer of a closed OUT whose policy is a draw per call (93 U9). -/
opaque freeClosed : Nat → Machine.ClosedAnswer

end Sys2Proof.Config
end

