-- ==== Sys2Proof/WellFormed.lean ====
section
/-! DEFINITION. Which operands a command may carry (30_encoding R301). -/

namespace Sys2Proof

/-- A command's operand is in the legal range of its format: a symbol is at most 256, a node index at most 512
(30_encoding R301). A format-N command has no operand to check. -/
def Instr.wellFormed : Instr → Bool
  | .writeFreq sym | .readFreq sym | .lookupCode sym | .encodeSymbol sym => decide (sym.toNat ≤ 256)
  | .readNode idx => decide (idx.toNat ≤ 512)
  | .nop | .softReset | .countFreq | .buildTree | .genCodes | .writeMagic | .serializeHeader | .checkMagic
  | .deserializeHeader | .rewindInput | .encodePayload | .closeOutput | .decodeSymbol | .decodePayload
  | .compress | .decompress => true

/-- `Instr.wellFormed` as a proposition. -/
abbrev Instr.WellFormed (i : Instr) : Prop := i.wellFormed = true

end Sys2Proof
end

