-- ==== Sys2Proof/Decode.lean ====
section
/-! DEFINITION. The command word: its fields, its decoder with the legality checks in the spec's order, its encoder
(30_encoding R300 to R302, R320). -/

namespace Sys2Proof

/-- OPC, bits 31:24 (30_encoding R300). -/
def opcField (w : Word) : Opcode := w.extractLsb' 24 8

/-- RSV, bits 23:10, which must be zero (30_encoding R300). -/
def rsvField (w : Word) : BitVec 14 := w.extractLsb' 10 14

/-- OPND, bits 9:0 (30_encoding R300). -/
def opndField (w : Word) : Opnd := w.extractLsb' 0 10

/-- The legal OPND values of a format (30_encoding R301). -/
def formatAdmits : Format → Opnd → Bool
  | .n, v => v == 0#10
  | .s, v => decide (v.toNat ≤ 256)
  | .x, v => decide (v.toNat ≤ 512)

/-- A row of the opcode map: opcode, format, and the command that an operand gives. A format-N row ignores the
operand, which `formatAdmits` has already required to be zero. -/
abbrev OpcodeRow := Opcode × Format × (Opnd → Instr)

/-- The rows of groups 0x0_ and 0x1_ (30_encoding R320, R321): control, frequency table, tree builder. -/
def opcodeRowsTree : List OpcodeRow :=
  [(0x00#8, .n, fun _ => .nop),
   (0x01#8, .n, fun _ => .softReset),
   (0x10#8, .n, fun _ => .countFreq),
   (0x11#8, .s, .writeFreq),
   (0x12#8, .s, .readFreq),
   (0x18#8, .n, fun _ => .buildTree),
   (0x19#8, .x, .readNode)]

/-- The rows of group 0x2_ (30_encoding R320, R321): code table, stream envelope, header. -/
def opcodeRowsHeader : List OpcodeRow :=
  [(0x20#8, .n, fun _ => .genCodes),
   (0x21#8, .s, .lookupCode),
   (0x28#8, .n, fun _ => .writeMagic),
   (0x29#8, .n, fun _ => .serializeHeader),
   (0x2A#8, .n, fun _ => .checkMagic),
   (0x2B#8, .n, fun _ => .deserializeHeader)]

/-- The rows of groups 0x3_ and 0x4_ (30_encoding R320, R321): payload codec, channel control, macro commands. -/
def opcodeRowsPayload : List OpcodeRow :=
  [(0x30#8, .n, fun _ => .rewindInput),
   (0x31#8, .s, .encodeSymbol),
   (0x32#8, .n, fun _ => .encodePayload),
   (0x33#8, .n, fun _ => .closeOutput),
   (0x34#8, .n, fun _ => .decodeSymbol),
   (0x35#8, .n, fun _ => .decodePayload),
   (0x40#8, .n, fun _ => .compress),
   (0x41#8, .n, fun _ => .decompress)]

/-- The opcode map of 30_encoding R320. -/
def opcodeMap : List OpcodeRow := opcodeRowsTree ++ opcodeRowsHeader ++ opcodeRowsPayload

/-- The row of the opcode map for an opcode; none for the 235 illegal opcodes (30_encoding R321). -/
def opcodeRow (opc : Opcode) : Option (Format × (Opnd → Instr)) :=
  (opcodeMap.find? fun r => r.1 == opc).map (·.2)

/-- Checks 1 to 3 of 30_encoding R302, in that order; a word that passes them is the command it encodes. Check 4
reads ARG and stands in `Machine.legalCommand`. -/
def decode (w : Word) : Except IllegalSub Instr :=
  match opcodeRow (opcField w) with
  | none => .error .badOpcode
  | some (fmt, build) =>
    if rsvField w != 0#14 then .error .rsvNonzero
    else if !formatAdmits fmt (opndField w) then .error .badOperand
    else .ok (build (opndField w))

/-- The decoder on a word whose bits are numbered as the opcode table numbers them: a command is one 32-bit access
(30_encoding R300), so the word is the number itself. -/
def decodeTableWord (nbits w : Nat) : Option Instr :=
  match decode (BitVec.ofNat 32 (w % 2 ^ nbits)) with
  | .ok i => some i
  | .error _ => none

/-- The opcode of a command (30_encoding R320). -/
def Instr.opcode : Instr → Opcode
  | .nop => 0x00#8
  | .softReset => 0x01#8
  | .countFreq => 0x10#8
  | .writeFreq _ => 0x11#8
  | .readFreq _ => 0x12#8
  | .buildTree => 0x18#8
  | .readNode _ => 0x19#8
  | .genCodes => 0x20#8
  | .lookupCode _ => 0x21#8
  | .writeMagic => 0x28#8
  | .serializeHeader => 0x29#8
  | .checkMagic => 0x2A#8
  | .deserializeHeader => 0x2B#8
  | .rewindInput => 0x30#8
  | .encodeSymbol _ => 0x31#8
  | .encodePayload => 0x32#8
  | .closeOutput => 0x33#8
  | .decodeSymbol => 0x34#8
  | .decodePayload => 0x35#8
  | .compress => 0x40#8
  | .decompress => 0x41#8

/-- The OPND field of a command: its operand, or zero in format N (30_encoding R301). -/
def Instr.opnd : Instr → Opnd
  | .writeFreq v | .readFreq v | .readNode v | .lookupCode v | .encodeSymbol v => v
  | .nop | .softReset | .countFreq | .buildTree | .genCodes | .writeMagic | .serializeHeader | .checkMagic
  | .deserializeHeader | .rewindInput | .encodePayload | .closeOutput | .decodeSymbol | .decodePayload
  | .compress | .decompress => 0#10

/-- The command word of a command: OPC, fourteen zero bits, OPND (30_encoding R300). -/
def encode (i : Instr) : Word := i.opcode ++ (0#14 ++ i.opnd)

end Sys2Proof
end

