-- ==== Sys2Proof/Machine/State.lean ====
section
/-! DEFINITION. The machine's state as plain data, why a step can stop, and the state after reset. -/

namespace Sys2Proof.Machine

/-- Why a step faults: the spec gives it no next state. -/
inductive Fault where
  /-- Raised by GEN_CODES, SERIALIZE_HEADER and the decode walk when NODE does not hold a complete tree although
  TREE_VALID = 1 (10_state R125, invariant 2, is broken). No run from reset reaches it. Safe: the machine stops. -/
  | brokenTree
  /-- Raised by a loop that would not end: DECODE_PAYLOAD on a root leaf for a byte (45_payload_codec R701), which no
  run from reset reaches. Safe: the machine stops. -/
  | hang
  /-- Raised by step when BUSY = 1 and CMD holds no legal command word, which no run from reset reaches. Safe: the
  machine stops. -/
  | badCommandWord
  deriving DecidableEq, Repr

/-- Why a step has no meaning. -/
inductive Refusal where
  /-- Raised by the arm of an instruction that has no meaning yet. Safe: nothing is claimed of it. -/
  | notModelled (mnemonic : String)
  /-- Raised by a host register access that is not 32 bits wide and 32-bit aligned, which the spec refuses
  (20_memory R202). Safe: nothing is claimed of the run. -/
  | badAccess
  /-- Raised when the host touches IN or OUT while BUSY = 1, which the spec refuses (20_memory R222). Safe: nothing is
  claimed of the run. -/
  | channelTouched
  /-- Raised by the acceptance of a command that reads IN when IN has not been released since a COMPRESS or DECOMPRESS
  was issued on it, a host duty whose breach the spec refuses (70_reset_and_hazards R920). Safe: nothing is claimed of
  the run. -/
  | inNotReleased
  /-- Raised by the acceptance of a command that reads IN when IN has been released and nothing connected since, a host
  duty whose breach the spec refuses (70_reset_and_hazards R910, R920). Safe: nothing is claimed of the run. -/
  | inNotConnected
  deriving DecidableEq, Repr

/-- How a command body ends early: it raises an error with its information word (60_exceptions R820), it is stuck, or a
hardware reset cuts it off (70_reset_and_hazards R901). -/
inductive Stop where
  | raised (e : Err) (info : Word)
  | stuck (f : Fault)
  | cut
  deriving DecidableEq, Repr

/-- STATUS with every field zero (10_state R160). -/
def Status.zero : Status where
  busy := false
  done := false
  err := none
  treeValid := false
  codesValid := false
  eosSeen := false
  cmdOverrun := false
  closeFailed := false
  infoEof := false
  lastOp := 0#8

/-- Everything the spec gives the machine (10_state R110 to R151), its parameters, and the environment it talks to. -/
structure State where
  /-- The parameters of 00_scope R8; no step changes them. MAGIC_ID reads `params.magic` (10_state R135). -/
  params : Params
  /-- CMD (10_state R111). -/
  cmd : Word
  /-- ARG (10_state R113). -/
  arg : Word
  /-- STATUS (10_state R112). -/
  status : Status
  /-- ERR_INFO (10_state R114). -/
  errInfo : Word
  /-- ERR_OP, bits 7:0 (10_state R115). -/
  errOp : Opcode
  /-- NODE_COUNT, bits 9:0 (10_state R116). -/
  nodeCount : BitVec 10
  /-- LEAF_COUNT, bits 8:0 (10_state R117). -/
  leafCount : BitVec 9
  /-- RES_SYM, bits 8:0 (10_state R130). -/
  resSym : BitVec 9
  /-- RES_LEN (10_state R131). -/
  resLen : ResLen
  /-- RES_WLO (10_state R132). -/
  resWlo : Word
  /-- RES_WHI, bits 8:0 (10_state R133). -/
  resWhi : BitVec 9
  /-- RES_NODE (10_state R134). -/
  resNode : ResNode
  /-- RC, which RES_CODE0 to RES_CODE7 hold (10_state R136). -/
  resCode : BitVec 256
  /-- FREQ (10_state R120). -/
  freq : Vector Word 257
  /-- NODE (10_state R121). -/
  nodes : Vector Node 513
  /-- CODE (10_state R122). -/
  codes : Vector CodeEntry 257
  /-- IN (10_state R140). -/
  inCh : InChannel
  /-- OUT (10_state R141). -/
  outCh : OutChannel
  /-- The completion log, oldest first (10_state R151). -/
  log : List LogEntry
  /-- While BUSY = 1: ARG as the running command read it at its start (10_state R113, 70_reset_and_hazards R933). -/
  accArg : Word
  /-- While BUSY = 1: STATUS as it stood at command acceptance (10_state R137). -/
  accStatus : Status
  /-- The host's operations still to be issued, oldest first. The model's own field. -/
  host : List HostOp
  /-- What the host's register reads returned, oldest first. The model's own field. -/
  readLog : List ReadEntry
  /-- How IN is attached (70_reset_and_hazards R910, R920). The host's side. -/
  inLink : InLink
  /-- What the host's reads of OUT returned, oldest first. The model's own field. -/
  outReads : List OutReading
  /-- The draws of the coming channel calls (20_memory R214); past its end every call passes. The model's own field. -/
  io : List IoDraw
  /-- How many free values have been drawn. The model's own field. -/
  draws : Nat
  deriving DecidableEq, Repr

/-- FREQ at reset (10_state R160): 0 for every byte, 1 for END_OF_STREAM. -/
def resetFreq : Vector Word 257 := (Vector.replicate 257 0#32).set 256 1#32

/-- The machine right after hardware reset (10_state R160, 70_reset_and_hazards R900). DESIGN CHOICE: NODE and CODE,
which the spec leaves unspecified (log 8, unsafe); IN empty at position 0 and connected, and OUT empty and open, which
are external (log 17, unsafe); the model's own fields empty (log 2, 16, 26, 29). -/
def State.reset : State where
  params := Config.defaultParams
  cmd := 0#32
  arg := 0#32
  status := Status.zero
  errInfo := 0#32
  errOp := 0#8
  nodeCount := 0#10
  leafCount := 0#9
  resSym := 0#9
  resLen := { cvalid := false, len := 0#9 }
  resWlo := 0#32
  resWhi := 0#9
  resNode := { kind := false, right := 0#10, left := 0#10 }
  resCode := 0#256
  freq := resetFreq
  nodes := Vector.replicate 513 (.leaf 0#9 0#41)
  codes := Vector.replicate 257 { valid := false, len := 0#9, bits := 0#256 }
  inCh := { bits := [], pos := 0 }
  outCh := { bits := [], closed := false }
  log := []
  accArg := 0#32
  accStatus := Status.zero
  host := []
  readLog := []
  inLink := .connected
  outReads := []
  io := []
  draws := 0

end Sys2Proof.Machine
end

