-- ==== Sys2Proof/Machine/Operands.lean ====
section
/-! DEFINITION. Operand forms: bit strings and their values, the symbol and index operands, the fields of a tree node,
the code of a code entry. -/

namespace Sys2Proof.Machine

/-- `val(p)`: the unsigned value of a bit string, first bit most significant (00_scope R12). -/
def val (p : Bits) : Nat := p.foldl (fun acc b => 2 * acc + b.toNat) 0

/-- `msb(n, v)`: the low `n` bits of `v`, most significant first (00_scope R12). -/
def msb : Nat → Nat → Bits
  | 0, _ => []
  | n + 1, v => v.testBit n :: msb n v

/-- The table index of an operand: a symbol or a node index, zero-extended (30_encoding R301). -/
def operandIndex (v : Opnd) : Nat := v.toNat

/-- A symbol operand as RES_SYM holds it (10_state R130). -/
def symbolField (v : Opnd) : BitVec 9 := v.setWidth 9

/-- A node's `kind` is LEAF (10_state R121). -/
def Node.isLeaf : Node → Bool
  | .leaf _ _ => true
  | .internal _ _ _ => false

/-- A node's `sym`; 0 for an internal node (10_state R121). -/
def Node.sym : Node → BitVec 9
  | .leaf s _ => s
  | .internal _ _ _ => 0#9

/-- A node's `weight` (10_state R121). -/
def Node.weight : Node → BitVec 41
  | .leaf _ w => w
  | .internal w _ _ => w

/-- A node's `left`; 0 for a leaf (10_state R121). -/
def Node.left : Node → BitVec 10
  | .leaf _ _ => 0#10
  | .internal _ l _ => l

/-- A node's `right`; 0 for a leaf (10_state R121). -/
def Node.right : Node → BitVec 10
  | .leaf _ _ => 0#10
  | .internal _ _ r => r

/-- The code entry with no code (10_state R122). -/
def CodeEntry.none : CodeEntry := { valid := false, len := 0#9, bits := 0#256 }

/-- The code entry of a path `p` (43_code_table R550): `(1, len(p), val(p))`. -/
def CodeEntry.ofPath (p : Bits) : CodeEntry :=
  { valid := true, len := BitVec.ofNat 9 p.length, bits := BitVec.ofNat 256 (val p) }

/-- The code of a valid entry as a bit string: `msb(len, bits)` (10_state R122). -/
def CodeEntry.path (e : CodeEntry) : Bits := msb e.len.toNat e.bits.toNat

/-- `RC[32k+31:32k]`, what RES_CODEk holds (10_state R136). -/
def resCodeWord (rc : BitVec 256) (k : Nat) : Word := rc.extractLsb' (32 * k) 32

/-- The bits PAD adds to a bit string to complete its last byte (10_state R141, 00_scope R8). -/
def padBits (pad : BitVec 7) (len : Nat) : Bits := (msb 7 pad.toNat).take ((8 - len % 8) % 8)

/-- The first `k` bytes of a bit string. -/
def bytesOf : Nat → Bits → List (BitVec 8)
  | 0, _ => []
  | k + 1, p => BitVec.ofNat 8 (val (p.take 8)) :: bytesOf k (p.drop 8)

/-- The byte image of OUT: `OUT.bits ++ PAD`, a whole number of bytes (10_state R141). -/
def byteImage (pad : BitVec 7) (p : Bits) : List (BitVec 8) :=
  bytesOf ((p.length + 7) / 8) (p ++ padBits pad p.length)

end Sys2Proof.Machine
end

