-- ==== Sys2Proof/Machine/Flags.lean ====
section
/-! DEFINITION. The STATUS register: error codes and sub-codes, its 32-bit view, and the flag updates the commands
share. -/

namespace Sys2Proof.Machine

/-- ERR_CODE of an error (60_exceptions R800). -/
def Err.code : Err → BitVec 4
  | .invalidFormat => 1#4
  | .malformedHeader _ => 2#4
  | .truncatedStream => 3#4
  | .emptyInput => 4#4
  | .ioError _ => 5#4
  | .illegalCommand _ => 6#4
  | .notReady _ => 7#4
  | .missingCode => 8#4
  | .countOverflow => 9#4

/-- ERR_SUB of an error (60_exceptions R801). -/
def Err.sub : Err → BitVec 4
  | .malformedHeader .eof => 1#4
  | .malformedHeader .badSymbol => 2#4
  | .malformedHeader .capacity => 3#4
  | .malformedHeader .rootLeaf => 4#4
  | .ioError .inRead => 1#4
  | .ioError .inReset => 2#4
  | .ioError .outWrite => 3#4
  | .ioError .outClose => 4#4
  | .illegalCommand .badOpcode => 1#4
  | .illegalCommand .rsvNonzero => 2#4
  | .illegalCommand .badOperand => 3#4
  | .notReady .noTree => 1#4
  | .notReady .noCodes => 2#4
  | .notReady .badIndex => 3#4
  | .invalidFormat | .truncatedStream | .emptyInput | .missingCode | .countOverflow => 0#4

/-- The field ERR_CODE; 0 when there is no error (60_exceptions R800). -/
def Status.errCode (st : Status) : BitVec 4 := (st.err.map Err.code).getD 0#4

/-- The field ERR_SUB; 0 when there is no error (60_exceptions R801). -/
def Status.errSub (st : Status) : BitVec 4 := (st.err.map Err.sub).getD 0#4

/-- A one-bit field. -/
def flagBit (b : Bool) : BitVec 1 := BitVec.ofBool b

/-- STATUS as a read returns it, bit 31 first (10_state R112); bits 23:18 and bit 3 read 0. -/
def Status.word (st : Status) : Word :=
  st.lastOp ++ (0#6 ++ (flagBit st.infoEof ++ (flagBit st.closeFailed ++ (flagBit st.cmdOverrun ++
    (flagBit st.eosSeen ++ (flagBit st.codesValid ++ (flagBit st.treeValid ++ (st.errSub ++ (st.errCode ++
      (0#1 ++ (flagBit st.err.isSome ++ (flagBit st.done ++ flagBit st.busy))))))))))))

/-- TREE_VALID and CODES_VALID cleared: what every command does first that writes FREQ or replaces the tree
(10_state R123). -/
def State.invalidateTree (s : State) : State :=
  { s with status := { s.status with treeValid := false, codesValid := false } }

/-- EOS_SEEN set to `b` (10_state R112). -/
def State.setEosSeen (s : State) (b : Bool) : State := { s with status := { s.status with eosSeen := b } }

/-- CODES_VALID set to `b` (10_state R112). -/
def State.setCodesValid (s : State) (b : Bool) : State := { s with status := { s.status with codesValid := b } }

/-- A complete tree of `n` nodes and `l` leaves has been stored: NODE_COUNT, LEAF_COUNT, TREE_VALID = 1
(10_state R116, R117, R123). -/
def State.treeDone (s : State) (n l : Nat) : State :=
  { s with nodeCount := BitVec.ofNat 10 n, leafCount := BitVec.ofNat 9 l,
           status := { s.status with treeValid := true } }

/-- No tree: TREE_VALID = CODES_VALID = 0 and NODE_COUNT = LEAF_COUNT = 0, the start of BUILD_TREE and of
DESERIALIZE_HEADER (42_tree_builder R500, 44_header_codec R630). -/
def State.treeGone (s : State) : State := { s.invalidateTree with nodeCount := 0#10, leafCount := 0#9 }

/-- The protocol's first step on a new command word (40_control R403): CMD and LAST_OP recorded, the report of the
previous command cleared. -/
def State.clearReport (s : State) (w : Word) : State :=
  { s with cmd := w, errInfo := 0#32, errOp := 0#8,
           status := { s.status with done := false, err := none, closeFailed := false, infoEof := false,
                                     lastOp := opcField w } }

end Sys2Proof.Machine
end

