-- ==== Sys2Proof/Machine/Ops.lean ====
section
/-! DEFINITION. The named operations the commands share: table access, the four channel calls, completing a command and
raising an error, hardware reset, running a body and a macro command, reading a register. -/

namespace Sys2Proof.Machine

/-- What one step of the machine answers. -/
abbrev StepResult := Host.Outcome State Fault Refusal

/-- A command body: it changes the state and may stop early. What it did before a stop stays done (60_exceptions
R821). -/
abbrev Body (α : Type) := EStateM Stop State α

/-! ## Tables -/

/-- `FREQ[i]` (10_state R120). -/
def State.freqAt (s : State) (i : Nat) : Word := s.freq[i]?.getD 0#32

/-- `FREQ[i] <- c` (10_state R120). -/
def State.setFreq (s : State) (i : Nat) (c : Word) : State := { s with freq := s.freq.setIfInBounds i c }

/-- `CODE[i]` (10_state R122). -/
def State.codeAt (s : State) (i : Nat) : CodeEntry := s.codes[i]?.getD CodeEntry.none

/-- `NODE[i] <- nd` (10_state R121). -/
def State.setNode (s : State) (i : Nat) (nd : Node) : State := { s with nodes := s.nodes.setIfInBounds i nd }

/-- The index of the root, `NODE_COUNT - 1` (10_state R124). -/
def State.root (s : State) : Nat := s.nodeCount.toNat - 1

/-- NODE unspecified: a free table (93 U3). -/
def State.freeNodes (s : State) : State := { s with nodes := Config.freeNodes s.draws, draws := s.draws + 1 }

/-! ## Channel calls -/

/-- InRead when no failure is drawn (20_memory R210): the next `n` bits, or EOF when fewer are left. -/
def State.readBits (s : State) (n : Nat) : InReply × State :=
  if s.inCh.pos + n ≤ s.inCh.bits.length then
    (.val (val ((s.inCh.bits.drop s.inCh.pos).take n)), { s with inCh := { s.inCh with pos := s.inCh.pos + n } })
  else
    match s.params.inEofPos with
    | .keep => (.eof, s)
    | .toEnd => (.eof, { s with inCh := { s.inCh with pos := s.inCh.bits.length } })

/-- IN after a failed read or rewind: the position is a free value within the string (20_memory R215, 93 U5). -/
def State.loseInPos (s : State) : State :=
  { s with inCh := { s.inCh with pos := Config.freePos s.draws % (s.inCh.bits.length + 1) }, draws := s.draws + 1 }

/-- OUT after a failed write: extended by free bits (20_memory R215, 93 U5). -/
def State.extendOutFreely (s : State) : State :=
  { s with outCh := { s.outCh with bits := s.outCh.bits ++ Config.freeBits s.draws }, draws := s.draws + 1 }

/-- `InRead(n)` (20_memory R210). -/
def inRead (n : Nat) : Body InReply := fun s =>
  match s.io with
  | .reset :: io => .error .cut { s with io := io }
  | .fail e :: io => .ok (.ioErr e) { s with io := io }.loseInPos
  | .pass :: io => .ok ({ s with io := io }.readBits n).1 ({ s with io := io }.readBits n).2
  | [] => .ok (s.readBits n).1 (s.readBits n).2

/-- `InReset()` (20_memory R211). -/
def inReset : Body IoReply := fun s =>
  match s.io with
  | .reset :: io => .error .cut { s with io := io }
  | .fail e :: io => .ok (.ioErr e) { s with io := io }.loseInPos
  | .pass :: io => .ok .ok { s with io := io, inCh := { s.inCh with pos := 0 } }
  | [] => .ok .ok { s with inCh := { s.inCh with pos := 0 } }

/-- The answer of OUT_AFTER_CLOSE under a policy (20_memory R215). A draw advances the counter. -/
def State.closedAnswer (s : State) : ClosedPolicy → ClosedAnswer × State
  | .fixed a => (a, s)
  | .drawn => (Config.freeClosed s.draws, { s with draws := s.draws + 1 })

/-- A write to an OUT that has been closed (20_memory R212, R215). -/
def State.writeClosed (s : State) (n v : Nat) : IoReply × State :=
  match s.closedAnswer s.params.afterCloseWrite with
  | (.ok true, t) => (.ok, { t with outCh := { t.outCh with bits := t.outCh.bits ++ msb n v } })
  | (.ok false, t) => (.ok, t)
  | (.ioErr e, t) => (.ioErr e, t.extendOutFreely)

/-- A channel call takes the coming draw. A closed OUT answers by OUT_AFTER_CLOSE whatever was drawn, so there the draw
only marks the call's place among the others, for a hardware reset between them (20_memory R212, R213,
70_reset_and_hazards R901). -/
def State.takeDraw (s : State) : State := { s with io := s.io.tail }

/-- `OutWrite(n, v)` (20_memory R212). -/
def outWrite (n v : Nat) : Body IoReply := fun s =>
  match s.io, s.outCh.closed with
  | .reset :: io, _ => .error .cut { s with io := io }
  | _, true => .ok (s.takeDraw.writeClosed n v).1 (s.takeDraw.writeClosed n v).2
  | .fail e :: io, false => .ok (.ioErr e) { s with io := io }.extendOutFreely
  | .pass :: io, false => .ok .ok { s with io := io, outCh := { s.outCh with bits := s.outCh.bits ++ msb n v } }
  | [], false => .ok .ok { s with outCh := { s.outCh with bits := s.outCh.bits ++ msb n v } }

/-- A close of an OUT that has been closed (20_memory R213, R215). -/
def State.closeClosed (s : State) : IoReply × State :=
  match s.closedAnswer s.params.afterCloseClose with
  | (.ok _, t) => (.ok, t)
  | (.ioErr e, t) => (.ioErr e, t)

/-- `OutClose()` (20_memory R213). -/
def outClose : Body IoReply := fun s =>
  match s.io, s.outCh.closed with
  | .reset :: io, _ => .error .cut { s with io := io }
  | _, true => .ok s.takeDraw.closeClosed.1 s.takeDraw.closeClosed.2
  | .fail e :: io, false => .ok (.ioErr e) { s with io := io }
  | .pass :: io, false => .ok .ok { s with io := io, outCh := { s.outCh with closed := true } }
  | [], false => .ok .ok { s with outCh := { s.outCh with closed := true } }

/-- `raise E(sub, info)` from inside a body (00_scope R13). -/
def raise {α : Type} (e : Err) (info : Word) : Body α := fun s => .error (.raised e info) s

/-- A body with no next state: see `Fault`. -/
def stuck {α : Type} (f : Fault) : Body α := fun s => .error (.stuck f) s

/-- `InRead(n)` with `check_io(r, IN_READ)` (00_scope R13): none is EOF. -/
def readIn (n : Nat) : Body (Option Nat) := do
  match ← inRead n with
  | .ioErr e => raise (.ioError .inRead) e
  | .eof => pure none
  | .val v => pure (some v)

/-- A reply with `check_io(r, sub)` (00_scope R13). -/
def checkIo (sub : IoSub) : IoReply → Body Unit
  | .ok => pure ()
  | .ioErr e => raise (.ioError sub) e

/-- `OutWrite(n, v)` with `check_io(r, OUT_WRITE)` (00_scope R13). -/
def writeOut (n v : Nat) : Body Unit := do checkIo .outWrite (← outWrite n v)

/-- A sequence of writes, each a width and a value, in order (20_memory R220). -/
def writeAll : List (Nat × Nat) → Body Unit
  | [] => pure ()
  | (n, v) :: ws => do
    writeOut n v
    writeAll ws

/-- How many bits of IN are left, for bounding loops (40_control R408). -/
def State.inLeft (s : State) : Nat := s.inCh.bits.length - s.inCh.pos

/-! ## Ends of a command -/

/-- The copies of ARG and STATUS that exist only while a command runs (10_state R150). -/
def State.releaseCommand (s : State) : State := { s with accArg := 0#32, accStatus := Status.zero }

/-- `complete()` (40_control R406). -/
def State.complete (s : State) : State :=
  { s.releaseCommand with
      status := { s.status with busy := false, done := true },
      log := s.log ++ [{ cmd := s.cmd, err := none, info := 0#32, op := 0#8 }] }

/-- TAKING AN ERROR: `raise E(sub, info)` with ERR_OP = `op`, the error entry of 60_exceptions R820. -/
def State.raise (s : State) (e : Err) (info : Word) (op : Opcode) : State :=
  { s.releaseCommand with
      status := { s.status with busy := false, done := true, err := some e },
      errInfo := info,
      errOp := op,
      log := s.log ++ [{ cmd := s.cmd, err := some e, info := info, op := op }] }

/-- Hardware reset (70_reset_and_hazards R900, R901): every HUFFCORE state at its reset value, NODE and CODE
unspecified, the log empty; the parameters, the channels and the environment stay. -/
def State.hardReset (s : State) : State :=
  { State.reset with
      params := s.params,
      nodes := Config.freeNodes s.draws,
      codes := Config.freeCodes s.draws,
      inCh := s.inCh,
      outCh := s.outCh,
      host := s.host,
      readLog := s.readLog,
      inLink := s.inLink,
      outReads := s.outReads,
      io := s.io,
      draws := s.draws + 1 }

/-! ## Running a command -/

/-- How a primitive command's body ends the command: success, the error it raised with its own opcode (10_state
R115), a hardware reset, or no next state. -/
def finish (op : Opcode) : EStateM.Result Stop State Unit → StepResult
  | .ok _ t => .next t.complete
  | .error (.raised e info) t => .next (t.raise e info op)
  | .error (.stuck f) _ => .fault f
  | .error .cut t => .next t.hardReset

/-- Run a primitive command: its body, then its end (40_control R400). -/
def runCommand (op : Opcode) (body : Body Unit) (s : State) : StepResult := finish op (body s)

/-- A prerequisite of 40_control R405: NOT_READY with its sub-code when it does not hold, before any access. -/
def require (c : Bool) (sub : ReadySub) : Body Unit := if c then pure () else raise (.notReady sub) 0#32

/-- Prerequisite TREE_VALID = 1 (40_control R405). -/
def requireTree : Body Unit := do require (← get).status.treeValid .noTree

/-- Prerequisite CODES_VALID = 1 (40_control R405). -/
def requireCodes : Body Unit := do require (← get).status.codesValid .noCodes

/-- A body after whose error NODE holds unspecified values (60_exceptions R821). -/
def nodesLostOnError (body : Body Unit) : Body Unit := fun s =>
  match body s with
  | .error (.raised e info) t => .error (.raised e info) t.freeNodes
  | r => r

/-- The opcode of CLOSE_OUTPUT (30_encoding R320). -/
abbrev closeOutputOp : Opcode := 0x33#8

/-- The error path of a macro command (46_orchestration R740): unless the failing body is CLOSE_OUTPUT, one close of
OUT, whose failure sets CLOSE_FAILED; then the first error, with the failing body's opcode. -/
def errorPath (op : Opcode) (e : Err) (info : Word) (s : State) : StepResult :=
  if op = closeOutputOp then .next (s.raise e info op)
  else
    match outClose s with
    | .ok .ok t => .next (t.raise e info op)
    | .ok (.ioErr _) t => .next ({ t with status := { t.status with closeFailed := true } }.raise e info op)
    | .error .cut t => .next t.hardReset
    | .error (.stuck f) _ => .fault f
    | .error (.raised e' info') t => .next (t.raise e' info' op)

/-- Run the bodies of a macro command in order (46_orchestration R720, R730); PHASE is the place in the list. -/
def runSteps : List (Opcode × Body Unit) → State → StepResult
  | [], s => .next s.complete
  | (op, body) :: rest, s =>
    match body s with
    | .ok _ t => runSteps rest t
    | .error (.raised e info) t => errorPath op e info t
    | .error (.stuck f) _ => .fault f
    | .error .cut t => .next t.hardReset

/-! ## The register window -/

/-- What a read of the register at an offset returns while BUSY = 0 (10_state R110); reserved offsets read 0. -/
def regRead (off : BitVec 8) (s : State) : Word :=
  match off.toNat with
  | 0x00 => s.cmd
  | 0x04 => s.status.word
  | 0x08 => s.arg
  | 0x0C => s.errInfo
  | 0x10 => s.errOp.setWidth 32
  | 0x14 => s.nodeCount.setWidth 32
  | 0x18 => s.leafCount.setWidth 32
  | 0x1C => s.resSym.setWidth 32
  | 0x20 => flagBit s.resLen.cvalid ++ (0#22 ++ s.resLen.len)
  | 0x24 => s.resWlo
  | 0x28 => s.resWhi.setWidth 32
  | 0x2C => flagBit s.resNode.kind ++ (0#5 ++ (s.resNode.right ++ (0#6 ++ s.resNode.left)))
  | 0x30 => s.params.magic
  | 0x40 => resCodeWord s.resCode 0
  | 0x44 => resCodeWord s.resCode 1
  | 0x48 => resCodeWord s.resCode 2
  | 0x4C => resCodeWord s.resCode 3
  | 0x50 => resCodeWord s.resCode 4
  | 0x54 => resCodeWord s.resCode 5
  | 0x58 => resCodeWord s.resCode 6
  | 0x5C => resCodeWord s.resCode 7
  | _ => 0#32

/-- An offset that no register has (10_state R110): 0x34 to 0x3C and 0x60 to 0xFC. -/
def reservedOffset (off : BitVec 8) : Bool :=
  (decide (0x34 ≤ off.toNat) && decide (off.toNat ≤ 0x3F)) || decide (0x60 ≤ off.toNat)

/-- What a read returns while BUSY = 1 (10_state R137): STATUS as at command acceptance, CMD, ARG, MAGIC_ID their
values, a reserved offset 0, any other register a free value. -/
def busyRead (off : BitVec 8) (s : State) : Word :=
  if off = 0x04#8 then s.accStatus.word
  else if off = 0x00#8 ∨ off = 0x08#8 ∨ off = 0x30#8 then regRead off s
  else if reservedOffset off then 0#32
  else Config.freeWord s.draws

end Sys2Proof.Machine
end

