-- ==== Sys2Proof/Machine/Control.lean ====
section
/-! DEFINITION. The control commands NOP and SOFT_RESET (40_control R410, R411). -/

namespace Sys2Proof.Machine

/-- NOP (40_control R410): no body. -/
def execNop (s : State) : StepResult := runCommand 0x00#8 (pure ()) s

/-- The body of SOFT_RESET (40_control R411): every state at its reset value, except CMD, the log, the parameters and
what is external; LAST_OP = 0x01; BUSY stays 1 until the completion; NODE and CODE unspecified. -/
def softResetBody : Body Unit := modify fun s =>
  { State.reset with
      params := s.params,
      cmd := s.cmd,
      status := { Status.zero with busy := s.status.busy, lastOp := 0x01#8 },
      nodes := Config.freeNodes s.draws,
      codes := Config.freeCodes s.draws,
      inCh := s.inCh,
      outCh := s.outCh,
      log := s.log,
      accArg := s.accArg,
      accStatus := s.accStatus,
      host := s.host,
      readLog := s.readLog,
      inLink := s.inLink,
      outReads := s.outReads,
      io := s.io,
      draws := s.draws + 1 }

/-- SOFT_RESET (40_control R411). -/
def execSoftReset (s : State) : StepResult := runCommand 0x01#8 softResetBody s

end Sys2Proof.Machine
end

