-- ==== Sys2Proof/Machine/CodeTable.lean ====
section
/-! DEFINITION. The code-table generator: GEN_CODES and LOOKUP_CODE (43_code_table R550, R560). -/

namespace Sys2Proof.Machine

/-- `visit(i, p)` of GEN_CODES (43_code_table R550), left subtree first. The first argument bounds the depth: a child
has a lower index than its parent (10_state R124), so the number of nodes is enough. None: the tree is broken. -/
def visit (nodes : Vector Node 513) : Nat → Nat → Bits → Vector CodeEntry 257 → Option (Vector CodeEntry 257)
  | 0, _, _, _ => none
  | k + 1, i, p, codes =>
    match nodes[i]? with
    | none => none
    | some (.leaf sym _) =>
      if sym.toNat < Config.nsym then some (codes.setIfInBounds sym.toNat (CodeEntry.ofPath p)) else none
    | some (.internal _ l r) =>
      match visit nodes k l.toNat (p ++ [false]) codes with
      | none => none
      | some codes' => visit nodes k r.toNat (p ++ [true]) codes'

/-- The body of GEN_CODES after its prerequisite (43_code_table R550). -/
def genCodesBody : Body Unit := do
  modify fun s => s.setCodesValid false
  let s ← get
  match visit s.nodes s.nodeCount.toNat s.root [] (Vector.replicate 257 CodeEntry.none) with
  | none => stuck .brokenTree
  | some codes => set ({ s with codes := codes }.setCodesValid true)

/-- GEN_CODES (43_code_table R550). -/
def execGenCodes (s : State) : StepResult := runCommand 0x20#8 (do requireTree; genCodesBody) s

/-- The body of LOOKUP_CODE after its prerequisite (43_code_table R560). -/
def lookupCodeBody (sym : Opnd) : Body Unit := modify fun s =>
  { s with
    resSym := symbolField sym,
    resLen := { cvalid := (s.codeAt (operandIndex sym)).valid, len := (s.codeAt (operandIndex sym)).len },
    resCode := (s.codeAt (operandIndex sym)).bits }

/-- LOOKUP_CODE (43_code_table R560). -/
def execLookupCode (sym : Opnd) (s : State) : StepResult :=
  runCommand 0x21#8 (do requireCodes; lookupCodeBody sym) s

end Sys2Proof.Machine
end

