-- ==== Sys2Proof/Machine/Frequency.lean ====
section
/-! DEFINITION. The frequency counter: COUNT_FREQ, WRITE_FREQ, READ_FREQ (41_frequency R450 to R470). -/

namespace Sys2Proof.Machine

/-- The loop of COUNT_FREQ (41_frequency R450). Each turn reads 8 bits or ends, so one turn more than the number of
whole bytes left is enough (40_control R408). -/
def countLoop : Nat → Body Unit
  | 0 => stuck .hang
  | k + 1 => do
    match ← readIn 8 with
    | none => pure ()
    | some b =>
      if (← get).freqAt b = Config.maxCount then raise .countOverflow (BitVec.ofNat 32 b)
      else do
        modify fun s => s.setFreq b (s.freqAt b + 1#32)
        countLoop k

/-- The body of COUNT_FREQ (41_frequency R450). -/
def countFreqBody : Body Unit := do
  modify fun s => { s.invalidateTree with freq := resetFreq }
  countLoop ((← get).inLeft / 8 + 1)

/-- COUNT_FREQ (41_frequency R450). -/
def execCountFreq (s : State) : StepResult := runCommand 0x10#8 countFreqBody s

/-- The body of WRITE_FREQ (41_frequency R460). ARG is the value read when the command word was written, which a later
write of ARG does not change (70_reset_and_hazards R933). -/
def writeFreqBody (sym : Opnd) : Body Unit :=
  modify fun s => s.invalidateTree.setFreq (operandIndex sym) s.accArg

/-- WRITE_FREQ (41_frequency R460). -/
def execWriteFreq (sym : Opnd) (s : State) : StepResult := runCommand 0x11#8 (writeFreqBody sym) s

/-- The body of READ_FREQ (41_frequency R470). -/
def readFreqBody (sym : Opnd) : Body Unit := modify fun s =>
  { s with resSym := symbolField sym, resWlo := s.freqAt (operandIndex sym), resWhi := 0#9 }

/-- READ_FREQ (41_frequency R470). -/
def execReadFreq (sym : Opnd) (s : State) : StepResult := runCommand 0x12#8 (readFreqBody sym) s

end Sys2Proof.Machine
end

