-- ==== Sys2Proof/Machine/HeaderCodec.lean ====
section
/-! DEFINITION. The stream envelope and the header codec: WRITE_MAGIC, SERIALIZE_HEADER, CHECK_MAGIC,
DESERIALIZE_HEADER (44_header_codec R600 to R632). -/

namespace Sys2Proof.Machine

/-- The body of WRITE_MAGIC (44_header_codec R600). -/
def writeMagicBody : Body Unit := do writeOut 32 (← get).params.magic.toNat

/-- WRITE_MAGIC (44_header_codec R600). -/
def execWriteMagic (s : State) : StepResult := runCommand 0x28#8 writeMagicBody s

/-- The writes of `ser(i)` (44_header_codec R610) in order, each a width and a value; the traversal only reads NODE,
which no write changes. The first argument bounds the depth, as in `visit`. None: the tree is broken. -/
def serWrites (nodes : Vector Node 513) : Nat → Nat → Option (List (Nat × Nat))
  | 0, _ => none
  | k + 1, i =>
    match nodes[i]? with
    | none => none
    | some (.leaf sym _) => some [(1, 1), (9, sym.toNat)]
    | some (.internal _ l r) =>
      match serWrites nodes k l.toNat, serWrites nodes k r.toNat with
      | some wl, some wr => some ((1, 0) :: (wl ++ wr))
      | _, _ => none

/-- The body of SERIALIZE_HEADER after its prerequisite (44_header_codec R610). -/
def serializeBody : Body Unit := do
  let s ← get
  match serWrites s.nodes s.nodeCount.toNat s.root with
  | none => stuck .brokenTree
  | some ws => writeAll ws

/-- SERIALIZE_HEADER (44_header_codec R610). -/
def execSerializeHeader (s : State) : StepResult := runCommand 0x29#8 (do requireTree; serializeBody) s

/-- The body of CHECK_MAGIC (44_header_codec R620). -/
def checkMagicBody : Body Unit := do
  match ← readIn 32 with
  | none => do
    modify fun s => { s with status := { s.status with infoEof := true } }
    raise .invalidFormat 0#32
  | some v =>
    if BitVec.ofNat 32 v = (← get).params.magic then pure ()
    else raise .invalidFormat (BitVec.ofNat 32 v)

/-- CHECK_MAGIC (44_header_codec R620). -/
def execCheckMagic (s : State) : StepResult := runCommand 0x2A#8 checkMagicBody s

/-- `parse()` of DESERIALIZE_HEADER (44_header_codec R630): answers the slot of the subtree's root and the counters.
The first argument bounds the depth: each level has read one more internal bit, and the 257th raises CAPACITY. -/
def parse : Nat → ParseCount → Body (Nat × ParseCount)
  | 0, _ => stuck .hang
  | k + 1, c => do
    match ← readIn 1 with
    | none => raise (.malformedHeader .eof) 0#32
    | some 0 =>
      if Config.maxInternal < c.internals + 1 then raise (.malformedHeader .capacity) 0#32
      else do
        let (l, cl) ← parse k { c with internals := c.internals + 1 }
        let (r, cr) ← parse k cl
        modify fun s => s.setNode cr.n (.internal 0#41 (BitVec.ofNat 10 l) (BitVec.ofNat 10 r))
        pure (cr.n, { cr with n := cr.n + 1 })
    | some _ =>
      match ← readIn 9 with
      | none => raise (.malformedHeader .eof) 0#32
      | some v =>
        if Config.endOfStream < v then raise (.malformedHeader .badSymbol) (BitVec.ofNat 32 v)
        else do
          modify fun s => s.setNode c.n (.leaf (BitVec.ofNat 9 v) 0#41)
          pure (c.n, { c with n := c.n + 1, leaves := c.leaves + 1 })

/-- The root check of DESERIALIZE_HEADER (44_header_codec R631): the symbol of a root leaf that is not END_OF_STREAM. -/
def badRootLeaf : Option Node → Option (BitVec 9)
  | some (.leaf sym _) => if sym.toNat = Config.endOfStream then none else some sym
  | some (.internal _ _ _) => none
  | none => none

/-- The body of DESERIALIZE_HEADER (44_header_codec R630). -/
def deserializeBody : Body Unit := nodesLostOnError do
  modify State.treeGone
  let (r, c) ← parse 257 { n := 0, internals := 0, leaves := 0 }
  match badRootLeaf (← get).nodes[r]? with
  | some sym => raise (.malformedHeader .rootLeaf) (sym.setWidth 32)
  | none => modify fun s => s.treeDone c.n c.leaves

/-- DESERIALIZE_HEADER (44_header_codec R630). -/
def execDeserializeHeader (s : State) : StepResult := runCommand 0x2B#8 deserializeBody s

end Sys2Proof.Machine
end

