-- ==== Sys2Proof/Machine/PayloadCodec.lean ====
section
/-! DEFINITION. The payload codec and channel control: REWIND_INPUT, ENCODE_SYMBOL, ENCODE_PAYLOAD, CLOSE_OUTPUT,
DECODE_SYMBOL, DECODE_PAYLOAD (45_payload_codec R650 to R703). -/

namespace Sys2Proof.Machine

/-- The body of REWIND_INPUT (45_payload_codec R650). -/
def rewindBody : Body Unit := do checkIo .inReset (← inReset)

/-- REWIND_INPUT (45_payload_codec R650). -/
def execRewindInput (s : State) : StepResult := runCommand 0x30#8 rewindBody s

/-- The writes of a code (45_payload_codec R660): one bit at a time, from `bits[len-1]` down to `bits[0]`. -/
def codeWrites (bits : BitVec 256) : Nat → List (Nat × Nat)
  | 0 => []
  | k + 1 => (1, (bits.getLsbD k).toNat) :: codeWrites bits k

/-- `encode(s)` (45_payload_codec R660), shared by ENCODE_SYMBOL and ENCODE_PAYLOAD. -/
def encodeCode (sym : Nat) : Body Unit := do
  let e := (← get).codeAt sym
  if e.valid then writeAll (codeWrites e.bits e.len.toNat)
  else raise .missingCode (BitVec.ofNat 32 sym)

/-- ENCODE_SYMBOL (45_payload_codec R660). -/
def execEncodeSymbol (sym : Opnd) (s : State) : StepResult :=
  runCommand 0x31#8 (do requireCodes; encodeCode (operandIndex sym)) s

/-- The loop of ENCODE_PAYLOAD (45_payload_codec R670); the bound is that of `countLoop`. -/
def encodeLoop : Nat → Body Unit
  | 0 => stuck .hang
  | k + 1 => do
    match ← readIn 8 with
    | none => pure ()
    | some b => do
      encodeCode b
      encodeLoop k

/-- The body of ENCODE_PAYLOAD after its prerequisite (45_payload_codec R670). -/
def encodePayloadBody : Body Unit := do
  encodeLoop ((← get).inLeft / 8 + 1)
  encodeCode Config.endOfStream

/-- ENCODE_PAYLOAD (45_payload_codec R670). -/
def execEncodePayload (s : State) : StepResult := runCommand 0x32#8 (do requireCodes; encodePayloadBody) s

/-- The body of CLOSE_OUTPUT (45_payload_codec R680). -/
def closeOutputBody : Body Unit := do checkIo .outClose (← outClose)

/-- CLOSE_OUTPUT (45_payload_codec R680). -/
def execCloseOutput (s : State) : StepResult := runCommand closeOutputOp closeOutputBody s

/-- `walk()` from a node (45_payload_codec R690): a leaf ends it without a read; at an internal node one bit is read.
Each read takes a bit of IN or ends the walk, so one more than the bits left is enough (40_control R408). -/
def walkFrom : Nat → Nat → Body (BitVec 9)
  | k, c => do
    match (← get).nodes[c]? with
    | none => stuck .brokenTree
    | some (.leaf sym _) => pure sym
    | some (.internal _ l r) =>
      match k with
      | 0 => stuck .hang
      | k + 1 => do
        match ← readIn 1 with
        | none => raise .truncatedStream 0#32
        | some 0 => walkFrom k l.toNat
        | some _ => walkFrom k r.toNat

/-- `walk()` from the root (45_payload_codec R690). -/
def walk : Body (BitVec 9) := do
  let s ← get
  walkFrom (s.inLeft + 1) s.root

/-- The body of DECODE_SYMBOL after its prerequisite (45_payload_codec R690). -/
def decodeSymbolBody : Body Unit := do
  modify fun s => s.setEosSeen false
  let sym ← walk
  modify fun s => { s with resSym := sym }.setEosSeen (sym.toNat == Config.endOfStream)

/-- DECODE_SYMBOL (45_payload_codec R690). -/
def execDecodeSymbol (s : State) : StepResult := runCommand 0x34#8 (do requireTree; decodeSymbolBody) s

/-- The loop of DECODE_PAYLOAD (45_payload_codec R700). Each turn that writes a byte has read a bit (R701), so one
more turn than the bits left is enough; running out is the hang of R701. -/
def decodeLoop : Nat → Body Unit
  | 0 => stuck .hang
  | k + 1 => do
    let sym ← walk
    if sym.toNat = Config.endOfStream then modify fun s => s.setEosSeen true
    else do
      writeOut 8 sym.toNat
      decodeLoop k

/-- The body of DECODE_PAYLOAD after its prerequisite (45_payload_codec R700). -/
def decodePayloadBody : Body Unit := do
  modify fun s => s.setEosSeen false
  decodeLoop ((← get).inLeft + 1)

/-- DECODE_PAYLOAD (45_payload_codec R700). -/
def execDecodePayload (s : State) : StepResult := runCommand 0x35#8 (do requireTree; decodePayloadBody) s

end Sys2Proof.Machine
end

