-- ==== Sys2Proof/Machine/TreeBuilder.lean ====
section
/-! DEFINITION. The tree builder: BUILD_TREE and READ_NODE (42_tree_builder R500 to R510). -/

namespace Sys2Proof.Machine

/-- The leaves of BUILD_TREE (42_tree_builder R502): for each symbol of the list, in order, a leaf in the next slot
when its count is not zero. Answers the number of leaves and the arena. -/
def placeLeaves (freq : Nat → Word) : List Nat → Nat → Vector Node 513 → Nat × Vector Node 513
  | [], l, nodes => (l, nodes)
  | sym :: syms, l, nodes =>
    if freq sym = 0#32 then placeLeaves freq syms l nodes
    else
      placeLeaves freq syms (l + 1)
        (nodes.setIfInBounds l (.leaf (BitVec.ofNat 9 sym) ((freq sym).setWidth 41)))

/-- The weight of the node in a slot. -/
def nodeWeight (nodes : Vector Node 513) (i : Nat) : Nat := ((nodes[i]?.map Node.weight).getD 0#41).toNat

/-- The members of the priority queue of least weight (42_tree_builder R501). -/
def lightest (nodes : Vector Node 513) (pq : List Nat) : List Nat :=
  pq.filter fun i => pq.all fun j => decide (nodeWeight nodes i ≤ nodeWeight nodes j)

/-- `extractMin()` (42_tree_builder R501): among the members of least weight, the least index under SEQ (R503), any
one, a free draw, under ANY (R504). Removing it from the queue is the caller's. -/
def extractMin (tie : TieBreak) (draws : Nat) (nodes : Vector Node 513) (pq : List Nat) : Nat :=
  match tie with
  | .seq => (lightest nodes pq).min?.getD 0
  | .any => (lightest nodes pq)[Config.freeTie draws % (lightest nodes pq).length]?.getD 0

/-- The draw counter after one extraction. -/
def nextDraw : TieBreak → Nat → Nat
  | .seq, d => d
  | .any, d => d + 1

/-- The node that a merge of `a` and `b` creates (42_tree_builder R500): first extracted left, second right. -/
def mergedNode (nodes : Vector Node 513) (a b : Nat) : Node :=
  .internal (BitVec.ofNat 41 (nodeWeight nodes a + nodeWeight nodes b)) (BitVec.ofNat 10 a) (BitVec.ofNat 10 b)

/-- The loop `while size(PQ) > 1` of BUILD_TREE (42_tree_builder R500). Each turn makes the queue one shorter, so its
length bounds the turns. Answers the next free slot, the draw counter and the arena. -/
def mergeLoop (tie : TieBreak) : Nat → List Nat → Nat → Nat → Vector Node 513 → Nat × Nat × Vector Node 513
  | k + 1, x :: y :: pq, n, d, nodes =>
    let a := extractMin tie d nodes (x :: y :: pq)
    let rest := (x :: y :: pq).erase a
    let b := extractMin tie (nextDraw tie d) nodes rest
    mergeLoop tie k (rest.erase b ++ [n]) (n + 1) (nextDraw tie (nextDraw tie d))
      (nodes.setIfInBounds n (mergedNode nodes a b))
  | _, _, n, d, nodes => (n, d, nodes)

/-- The construction of BUILD_TREE after its flags are cleared (42_tree_builder R500). -/
def buildFrom (s : State) : Nat × Nat × Nat × Vector Node 513 :=
  let leaves := placeLeaves s.freqAt (List.range 257) 0 s.nodes
  (leaves.1, mergeLoop s.params.tieBreak leaves.1 (List.range leaves.1) leaves.1 s.draws leaves.2)

/-- The body of BUILD_TREE (42_tree_builder R500). -/
def buildTreeBody : Body Unit := nodesLostOnError do
  modify State.treeGone
  let s ← get
  let r := buildFrom s
  if r.1 = 0 then raise .emptyInput 0#32
  else set ({ s with draws := r.2.2.1, nodes := r.2.2.2 }.treeDone r.2.1 r.1)

/-- BUILD_TREE (42_tree_builder R500). -/
def execBuildTree (s : State) : StepResult := runCommand 0x18#8 buildTreeBody s

/-- The body of READ_NODE after its prerequisites (42_tree_builder R510). -/
def readNodeBody (idx : Opnd) : Body Unit := do
  let s ← get
  match s.nodes[operandIndex idx]? with
  | none => stuck .brokenTree
  | some nd =>
    set { s with
      resNode := { kind := nd.isLeaf, right := nd.right, left := nd.left },
      resSym := nd.sym,
      resWlo := nd.weight.extractLsb' 0 32,
      resWhi := nd.weight.extractLsb' 32 9 }

/-- Prerequisite idx < NODE_COUNT (40_control R405). -/
def requireIndex (idx : Opnd) : Body Unit := do
  require (decide (operandIndex idx < (← get).nodeCount.toNat)) .badIndex

/-- READ_NODE (42_tree_builder R510), its prerequisites in the order of 40_control R405. -/
def execReadNode (idx : Opnd) (s : State) : StepResult :=
  runCommand 0x19#8 (do requireTree; requireIndex idx; readNodeBody idx) s

end Sys2Proof.Machine
end

