-- ==== Sys2Proof/Machine/Sequencer.lean ====
section
/-! DEFINITION. The macro commands COMPRESS and DECOMPRESS (46_orchestration R720, R730). -/

namespace Sys2Proof.Machine

/-- The steps of COMPRESS (46_orchestration R720), each with its own opcode. -/
def compressSteps : List (Opcode × Body Unit) :=
  [(0x10#8, countFreqBody),
   (0x18#8, buildTreeBody),
   (0x20#8, genCodesBody),
   (0x28#8, writeMagicBody),
   (0x29#8, serializeBody),
   (0x30#8, rewindBody),
   (0x32#8, encodePayloadBody),
   (closeOutputOp, closeOutputBody)]

/-- COMPRESS (46_orchestration R720). -/
def execCompress (s : State) : StepResult := runSteps compressSteps s

/-- The first step of DECOMPRESS: the body of CHECK_MAGIC, with CODES_VALID = 0, which R730 and R934 give after
DECOMPRESS whatever its outcome, and which no later step clears when this one fails (log 35). -/
def decompressMagicBody : Body Unit := do
  modify fun s => s.setCodesValid false
  checkMagicBody

/-- The steps of DECOMPRESS (46_orchestration R730), each with its own opcode. -/
def decompressSteps : List (Opcode × Body Unit) :=
  [(0x2A#8, decompressMagicBody),
   (0x2B#8, deserializeBody),
   (0x35#8, decodePayloadBody),
   (closeOutputOp, closeOutputBody)]

/-- DECOMPRESS (46_orchestration R730). -/
def execDecompress (s : State) : StepResult := runSteps decompressSteps s

end Sys2Proof.Machine
end

