-- ==== Sys2Proof/Machine/Dispatch.lean ====
section
/-! DEFINITION. exec: one arm per command, each one direct call of its meaning. -/

namespace Sys2Proof.Machine

def exec (i : Instr) (s : State) : Host.Outcome State Fault Refusal :=
  match i with
  | .nop => Sys2Proof.Machine.execNop s
  | .softReset => Sys2Proof.Machine.execSoftReset s
  | .countFreq => Sys2Proof.Machine.execCountFreq s
  | .writeFreq sym => Sys2Proof.Machine.execWriteFreq sym s
  | .readFreq sym => Sys2Proof.Machine.execReadFreq sym s
  | .buildTree => Sys2Proof.Machine.execBuildTree s
  | .readNode idx => Sys2Proof.Machine.execReadNode idx s
  | .genCodes => Sys2Proof.Machine.execGenCodes s
  | .lookupCode sym => Sys2Proof.Machine.execLookupCode sym s
  | .writeMagic => Sys2Proof.Machine.execWriteMagic s
  | .serializeHeader => Sys2Proof.Machine.execSerializeHeader s
  | .checkMagic => Sys2Proof.Machine.execCheckMagic s
  | .deserializeHeader => Sys2Proof.Machine.execDeserializeHeader s
  | .rewindInput => Sys2Proof.Machine.execRewindInput s
  | .encodeSymbol sym => Sys2Proof.Machine.execEncodeSymbol sym s
  | .encodePayload => Sys2Proof.Machine.execEncodePayload s
  | .closeOutput => Sys2Proof.Machine.execCloseOutput s
  | .decodeSymbol => Sys2Proof.Machine.execDecodeSymbol s
  | .decodePayload => Sys2Proof.Machine.execDecodePayload s
  | .compress => Sys2Proof.Machine.execCompress s
  | .decompress => Sys2Proof.Machine.execDecompress s

end Sys2Proof.Machine
end

