-- ==== Sys2Proof/Machine/HostPort.lean ====
section
/-! DEFINITION. The host's side: the command protocol at a CMD write, register accesses, the channels between commands,
BLOCK's turn (40_control R400 to R404, 10_state R110 to R137, 70_reset_and_hazards R920). -/

namespace Sys2Proof.Machine

/-- `legal(w)` (30_encoding R302): checks 1 to 3 by the decoder, then check 4, which keeps FREQ[256] ≥ 1. -/
def legalCommand (arg : Word) (w : Word) : Except IllegalSub Instr :=
  match decode w with
  | .error sub => .error sub
  | .ok i =>
    if i = .writeFreq 256#10 ∧ arg = 0#32 then .error .badOperand else .ok i

/-- A legal word is accepted (40_control R400): BUSY = 1; ARG is read (41_frequency R460, 70 R933) and STATUS is kept
as it stands (10_state R137). -/
def State.accept (s : State) : State :=
  { s with
    status := { s.status with busy := true },
    accArg := s.arg,
    accStatus := { s.status with busy := true } }

/-- COMPRESS and DECOMPRESS leave IN due to be released by the host (70_reset_and_hazards R920). -/
def State.markInDue (s : State) : Instr → State
  | .compress | .decompress => { s with inLink := .due }
  | .nop | .softReset | .countFreq | .writeFreq _ | .readFreq _ | .buildTree | .readNode _ | .genCodes
  | .lookupCode _ | .writeMagic | .serializeHeader | .checkMagic | .deserializeHeader | .rewindInput
  | .encodeSymbol _ | .encodePayload | .closeOutput | .decodeSymbol | .decodePayload => s

/-- A word written to CMD while BUSY = 0 (40_control R400, R403, R404): the report cleared, then accepted, or
completed at once as ILLEGAL_COMMAND. -/
def State.takeCommand (s : State) (w : Word) : State :=
  match legalCommand s.arg w with
  | .error sub => (s.clearReport w).raise (.illegalCommand sub) w (opcField w)
  | .ok i => (s.clearReport w).accept.markInDue i

/-- Whether a command, issued in this state, reads IN: by its opcode, and with its prerequisites met, since without
them it makes no access (40_control R405). -/
def State.readsIn (s : State) : Instr → Bool
  | .countFreq | .checkMagic | .deserializeHeader | .rewindInput | .compress | .decompress => true
  | .decodeSymbol | .decodePayload => s.status.treeValid
  | .encodePayload => s.status.codesValid
  | .nop | .softReset | .writeFreq _ | .readFreq _ | .buildTree | .readNode _ | .genCodes | .lookupCode _
  | .writeMagic | .serializeHeader | .encodeSymbol _ | .closeOutput => false

/-- The host duty about IN that a command issued in this state finds broken, if any (70_reset_and_hazards R910, R920). -/
def State.brokenDuty (s : State) (w : Word) : Option Refusal :=
  match legalCommand s.arg w with
  | .error _ => none
  | .ok i =>
    if s.readsIn i then
      match s.inLink with
      | .connected => none
      | .due => some .inNotReleased
      | .released => some .inNotConnected
    else none

/-- A CMD write while BUSY = 0: taken, or the run refused when the host has broken a duty. -/
def issueCommand (w : Word) (s : State) : StepResult :=
  match s.brokenDuty w with
  | some r => .refused r
  | none => .next (s.takeCommand w)

/-- A host access is 32 bits wide and 32-bit aligned (20_memory R202). -/
def accessOk (off : BitVec 8) (bytes : Nat) : Bool := bytes == 4 && off.toNat % 4 == 0

/-- A write of CMD (10_state R111): taken while BUSY = 0; dropped, with CMD_OVERRUN = 1, while BUSY = 1 (40_control
R402). -/
def writeCmd (v : Word) (s : State) : StepResult :=
  if s.status.busy then .next { s with status := { s.status with cmdOverrun := true } } else issueCommand v s

/-- A host register write (10_state R110): CMD and ARG take it; every other offset ignores it. -/
def hostWrite (off : BitVec 8) (bytes : Nat) (v : Word) (s : State) : StepResult :=
  if !accessOk off bytes then .refused .badAccess
  else if off = 0x00#8 then writeCmd v s
  else if off = 0x08#8 then .next { s with arg := v }
  else .next s

/-- A host register read (10_state R110, R137): its value goes to the host; no other effect (20_memory R205). -/
def hostRead (off : BitVec 8) (bytes : Nat) (s : State) : StepResult :=
  if !accessOk off bytes then .refused .badAccess
  else if s.status.busy then
    .next { s with readLog := s.readLog ++ [{ off := off, value := busyRead off s }], draws := s.draws + 1 }
  else .next { s with readLog := s.readLog ++ [{ off := off, value := regRead off s }] }

/-- A host action on a channel: refused while BUSY = 1 (20_memory R222), free between commands. -/
def hostChannel (act : State → State) (s : State) : StepResult :=
  if s.status.busy then .refused .channelTouched else .next (act s)

/-- The host connects IN, in place of what was connected, or moves it; a position beyond the end is the end (10_state R140). -/
def State.connectIn (s : State) (bits : Bits) (pos : Nat) : State :=
  { s with inCh := { bits := bits, pos := min pos bits.length }, inLink := .connected }

/-- The host releases IN: closes or discards it, and nothing of it is left (70_reset_and_hazards R920). -/
def State.releaseIn (s : State) : State := { s with inCh := { bits := [], pos := 0 }, inLink := .released }

/-- The host reads OUT: its bits, and its byte image after close (70_reset_and_hazards R920). -/
def State.readOut (s : State) : State :=
  { s with
    outReads := s.outReads ++ [{
      bits := s.outCh.bits,
      image := if s.outCh.closed then some (byteImage s.params.pad s.outCh.bits) else none }] }

/-- The host connects or changes OUT (70_reset_and_hazards R920). -/
def State.connectOut (s : State) (bits : Bits) (closed : Bool) : State :=
  { s with outCh := { bits := bits, closed := closed } }

/-- BLOCK's turn: the command word in CMD is decoded and its command runs to its end (40_control R400, R408). -/
def runBlock (s : State) : StepResult :=
  match decode s.cmd with
  | .ok i => exec i s
  | .error _ => .fault .badCommandWord

/-- BLOCK's turn with a CMD write landing between the command's last access and its completion: the write is dropped
and CMD_OVERRUN = 1 (40_control R402), unless a hardware reset abandoned the command, which leaves DONE = 0. -/
def runBlockLate (rest : List HostOp) (s : State) : StepResult :=
  match runBlock s with
  | .next t =>
    .next { t with host := rest, status := { t.status with cmdOverrun := t.status.cmdOverrun || t.status.done } }
  | .fault f => .fault f
  | .refused r => .refused r

/-- The host's next operation is issued; `rest` are the ones after it. WAIT, and a late CMD write, let BLOCK finish a
running command first. -/
def hostTurn (op : HostOp) (rest : List HostOp) (s : State) : StepResult :=
  match op with
  | .write off bytes v => hostWrite off bytes v { s with host := rest }
  | .read off bytes => hostRead off bytes { s with host := rest }
  | .wait =>
    if s.status.busy then runBlock s
    else if s.status.done then .next { s with host := rest }
    else .next s
  | .writeCmdLate v =>
    if s.status.busy then runBlockLate rest s else issueCommand v { s with host := rest }
  | .setIn bits pos => hostChannel (fun t => t.connectIn bits pos) { s with host := rest }
  | .setOut bits closed => hostChannel (fun t => t.connectOut bits closed) { s with host := rest }
  | .lookAtChannels => hostChannel id { s with host := rest }
  | .readOut => hostChannel State.readOut { s with host := rest }
  | .releaseIn => hostChannel State.releaseIn { s with host := rest }
  | .reset => .next { s with host := rest }.hardReset

/-- `s` with a command word as the one BLOCK runs next: taken as a CMD write to an idle machine takes it, the host
then waiting for it. A word that is not legal is left to the host's write, which completes it as ILLEGAL_COMMAND. -/
def State.withCommand (s : State) (w : Word) : State :=
  match legalCommand s.arg w with
  | .ok i => { (s.clearReport w).accept.markInDue i with host := .wait :: s.host }
  | .error _ => { s with status := { s.status with busy := false }, host := .write 0x00#8 4 w :: s.host }

end Sys2Proof.Machine
end

