-- ==== Sys2Proof/Machine/Step.lean ====
section
/-! DEFINITION. One step of the machine, and a state whose next step runs a given command word. -/

namespace Sys2Proof.Machine

/-- One step. The host's next operation is issued, if there is one; otherwise BLOCK runs the accepted command, if
there is one; otherwise the machine is idle and keeps its state (60_exceptions R835). Each CMD write is one step up to
its acceptance (or its completion as ILLEGAL_COMMAND), and the command itself is one step (40_control R408), so that
host operations can land while BUSY = 1. -/
def step (s : State) : Host.Outcome State Fault Refusal :=
  match s.host with
  | [] => if s.status.busy then runBlock s else .next s
  | op :: rest => hostTurn op rest s

/-- `s` with the command word `w` accepted and waited for, so that the next step runs it. -/
def State.withFetchWord (s : State) (nbits w : Nat) : State := s.withCommand (BitVec.ofNat 32 (w % 2 ^ nbits))

end Sys2Proof.Machine
end

