-- ==== Sys2Proof/Safety.lean ====
section
/-! DEFINITION. The terms claims are stated in: channel premises, what stays unchanged, the tree that NODE holds, the
invariant. Nothing here is part of the machine. -/

namespace Sys2Proof.Machine

/-! ## Premises about the environment -/

/-- No coming channel call fails and no hardware reset arrives: the premise "no channel call failed" (20_memory
R214). -/
def State.ioClear (s : State) : Prop := ∀ d ∈ s.io, d = .pass

/-- No hardware reset arrives between the coming channel calls. -/
def State.noReset (s : State) : Prop := ∀ d ∈ s.io, d ≠ .reset

/-- What is left of IN. -/
def State.inRest (s : State) : Bits := s.inCh.bits.drop s.inCh.pos

/-- The whole bytes of a bit string, in order; fewer than 8 bits at its end are no byte (41_frequency R450). -/
def wholeBytes (p : Bits) : List Nat := (List.range (p.length / 8)).map fun j => val ((p.drop (8 * j)).take 8)

/-- Where a loop of 8-bit reads leaves IN: after the last whole byte under KEEP, at the end under END
(20_memory R210). -/
def State.posAfterBytes (s : State) : Nat :=
  match s.params.inEofPos with
  | .keep => s.inCh.pos + 8 * ((s.inRest).length / 8)
  | .toEnd => s.inCh.bits.length

/-! ## What stays unchanged -/

/-- The result registers (10_state R130 to R136) are unchanged. -/
def KeepsResults (s t : State) : Prop :=
  t.resSym = s.resSym ∧ t.resLen = s.resLen ∧ t.resWlo = s.resWlo ∧ t.resWhi = s.resWhi ∧
    t.resNode = s.resNode ∧ t.resCode = s.resCode

/-- FREQ is unchanged. -/
def KeepsFreq (s t : State) : Prop := t.freq = s.freq

/-- NODE, NODE_COUNT and LEAF_COUNT are unchanged. -/
def KeepsTree (s t : State) : Prop :=
  t.nodes = s.nodes ∧ t.nodeCount = s.nodeCount ∧ t.leafCount = s.leafCount

/-- CODE is unchanged. -/
def KeepsCodes (s t : State) : Prop := t.codes = s.codes

/-- IN and OUT are unchanged, and no channel call was made. -/
def KeepsChannels (s t : State) : Prop := t.inCh = s.inCh ∧ t.outCh = s.outCh ∧ t.io = s.io

/-- The parameters, CMD, ARG, and the host's side are unchanged. -/
def KeepsHost (s t : State) : Prop :=
  t.params = s.params ∧ t.cmd = s.cmd ∧ t.arg = s.arg ∧ t.host = s.host ∧ t.readLog = s.readLog ∧
    t.inLink = s.inLink ∧ t.outReads = s.outReads

/-- The STATUS fields that no completion writes, and the error registers, are unchanged. -/
def KeepsReport (s t : State) : Prop :=
  t.status.err = s.status.err ∧ t.status.closeFailed = s.status.closeFailed ∧
    t.status.infoEof = s.status.infoEof ∧ t.errInfo = s.errInfo ∧ t.errOp = s.errOp

/-- TREE_VALID and CODES_VALID are unchanged. -/
def KeepsValid (s t : State) : Prop :=
  t.status.treeValid = s.status.treeValid ∧ t.status.codesValid = s.status.codesValid

/-- EOS_SEEN, CMD_OVERRUN and LAST_OP are unchanged. -/
def KeepsSeen (s t : State) : Prop :=
  t.status.eosSeen = s.status.eosSeen ∧ t.status.cmdOverrun = s.status.cmdOverrun ∧
    t.status.lastOp = s.status.lastOp

/-- Success (40_control R406): BUSY = 0, DONE = 1, one entry added to the log, the report of errors untouched. -/
def Succeeded (s t : State) : Prop :=
  t.status.busy = false ∧ t.status.done = true ∧ KeepsReport s t ∧
    t.log = s.log ++ [{ cmd := s.cmd, err := none, info := 0#32, op := 0#8 }]

/-- Error completion (60_exceptions R820): the error with its information word and the opcode of the body that raised
it, BUSY = 0, DONE = 1, one entry added to the log. -/
def FailedWith (e : Err) (info : Word) (op : Opcode) (s t : State) : Prop :=
  t.status.busy = false ∧ t.status.done = true ∧ t.status.err = some e ∧ t.errInfo = info ∧ t.errOp = op ∧
    t.log = s.log ++ [{ cmd := s.cmd, err := some e, info := info, op := op }]

/-! ## The tree in NODE -/

/-- A binary tree with symbols at its leaves (00_scope R14), without slots and weights. -/
inductive HTree where
  | leaf (sym : BitVec 9)
  | node (left right : HTree)
  deriving DecidableEq, Repr

/-- The number of leaves. -/
def HTree.leaves : HTree → Nat
  | .leaf _ => 1
  | .node l r => l.leaves + r.leaves

/-- The number of internal nodes. -/
def HTree.internals : HTree → Nat
  | .leaf _ => 0
  | .node l r => l.internals + r.internals + 1

/-- The preorder header of a tree (30_encoding R331). -/
def HTree.header : HTree → Bits
  | .leaf sym => true :: msb 9 sym.toNat
  | .node l r => false :: (l.header ++ r.header)

/-- The leaves from left to right, each with the path that leads to it: 0 left, 1 right (00_scope R14). -/
def HTree.paths : HTree → List (BitVec 9 × Bits)
  | .leaf sym => [(sym, [])]
  | .node l r =>
    (l.paths.map fun q => (q.1, false :: q.2)) ++ (r.paths.map fun q => (q.1, true :: q.2))

/-- The path of the last leaf that holds a symbol (43_code_table R550): its code. -/
def HTree.codeOf (T : HTree) (sym : Nat) : Option Bits :=
  (T.paths.reverse.find? fun q => q.1.toNat == sym).map (·.2)

/-- Walk a bit string down the tree (45_payload_codec R690): the symbol of the leaf reached and what is left of the
string; none when the string ends at an internal node. -/
def HTree.walk : HTree → Bits → Option (BitVec 9 × Bits)
  | .leaf sym, p => some (sym, p)
  | .node _ _, [] => none
  | .node l _, false :: p => l.walk p
  | .node _ r, true :: p => r.walk p

/-- A bit string decodes to byte symbols followed by END_OF_STREAM, with `rest` left over (45_payload_codec R700). -/
def HTree.decodes (T : HTree) : Bits → List (BitVec 9) → Bits → Prop
  | p, [], rest => T.walk p = some (256#9, rest)
  | p, b :: bs, rest => b ≠ 256#9 ∧ ∃ mid, T.walk p = some (b, mid) ∧ T.decodes mid bs rest

/-- A bit string decodes to byte symbols and then ends at an internal node (45_payload_codec R702). -/
def HTree.breaksOff (T : HTree) : Bits → List (BitVec 9) → Prop
  | p, [] => T.walk p = none
  | p, b :: bs => b ≠ 256#9 ∧ ∃ mid, T.walk p = some (b, mid) ∧ T.breaksOff mid bs

/-- The header that DESERIALIZE_HEADER accepts (30_encoding R332): symbols at most 256, at most 256 internal nodes, a
root leaf only for END_OF_STREAM. -/
def HTree.acceptable (T : HTree) : Prop :=
  (∀ q ∈ T.paths, q.1.toNat ≤ 256) ∧ T.internals ≤ 256 ∧ ∀ sym, T = .leaf sym → sym = 256#9

/-! ## Headers that break off -/

/-- A place inside a preorder header (30_encoding R332), as the levels entered so far: none, a left subtree has been
entered; some T, the left subtree T has been read and the right one entered. The bits read up to that place. -/
def headerSoFar : List (Option HTree) → Bits
  | [] => []
  | none :: c => false :: headerSoFar c
  | some T :: c => false :: (T.header ++ headerSoFar c)

/-- The internal-node bits among them. -/
def internalsSoFar : List (Option HTree) → Nat
  | [] => 0
  | none :: c => internalsSoFar c + 1
  | some T :: c => T.internals + internalsSoFar c + 1

/-- Where IN stands after a read that answered EOF `n` bits further on (20_memory R210). -/
def State.posAfterEof (s : State) (n : Nat) : Nat :=
  match s.params.inEofPos with
  | .keep => s.inCh.pos + n
  | .toEnd => s.inCh.bits.length

/-! ## Channel calls and macro steps -/

/-- The channel calls a primitive command makes, as the sub-codes of IO_ERROR they can end it with (60_exceptions R801). -/
def callSubs : Instr → List IoSub
  | .countFreq | .checkMagic | .deserializeHeader | .decodeSymbol => [.inRead]
  | .rewindInput => [.inReset]
  | .writeMagic | .serializeHeader | .encodeSymbol _ => [.outWrite]
  | .encodePayload | .decodePayload => [.inRead, .outWrite]
  | .closeOutput => [.outClose]
  | .nop | .softReset | .writeFreq _ | .readFreq _ | .buildTree | .readNode _ | .genCodes | .lookupCode _
  | .compress | .decompress => []

/-- The same for the macro commands, each sub-code with the opcode of the step that makes the call (46_orchestration
R720, R730). -/
def macroSubs : Instr → List (Opcode × IoSub)
  | .compress => [(0x10#8, .inRead), (0x28#8, .outWrite), (0x29#8, .outWrite), (0x30#8, .inReset), (0x32#8, .inRead),
      (0x32#8, .outWrite), (0x33#8, .outClose)]
  | .decompress => [(0x2A#8, .inRead), (0x2B#8, .inRead), (0x35#8, .inRead), (0x35#8, .outWrite), (0x33#8, .outClose)]
  | .nop | .softReset | .countFreq | .writeFreq _ | .readFreq _ | .buildTree | .readNode _ | .genCodes
  | .lookupCode _ | .writeMagic | .serializeHeader | .checkMagic | .deserializeHeader | .rewindInput
  | .encodeSymbol _ | .encodePayload | .closeOutput | .decodeSymbol | .decodePayload => []

/-- The bodies of these steps succeed one after the other and lead from `s` to `t` (46_orchestration R720, R730). -/
def runsTo : List (Opcode × Body Unit) → State → State → Prop
  | [], s, t => t = s
  | (_, body) :: rest, s, t => ∃ u, body s = .ok () u ∧ runsTo rest u t

/-! ## The tree below a slot -/

/-- The tree below a slot of NODE, if the slots hold one of depth less than the bound. -/
def treeAt (nodes : Vector Node 513) : Nat → Nat → Option HTree
  | 0, _ => none
  | k + 1, i =>
    match nodes[i]? with
    | none => none
    | some (.leaf sym _) => some (.leaf sym)
    | some (.internal _ l r) =>
      match treeAt nodes k l.toNat, treeAt nodes k r.toNat with
      | some tl, some tr => some (.node tl tr)
      | _, _ => none

/-- The tree that NODE holds, from the root (10_state R124). -/
def State.tree (s : State) : Option HTree := treeAt s.nodes s.nodeCount.toNat s.root

/-- The children of a node: none for a leaf, left then right for an internal node. -/
def Node.children : Node → List Nat
  | .leaf _ _ => []
  | .internal _ l r => [l.toNat, r.toNat]

/-- The child indices that the first `n` slots of NODE hold, in slot order. -/
def childIndices (nodes : Vector Node 513) (n : Nat) : List Nat :=
  (List.range n).flatMap fun i => (nodes[i]?.map Node.children).getD []

/-- NODE holds a complete tree: 10_state R125, invariant 2. -/
structure CompleteTree (s : State) : Prop where
  leafCount_pos : 1 ≤ s.leafCount.toNat
  leafCount_le : s.leafCount.toNat ≤ 257
  nodeCount_eq : s.nodeCount.toNat = 2 * s.leafCount.toNat - 1
  children_below : ∀ i, i < s.nodeCount.toNat → ∀ w l r, s.nodes[i]? = some (.internal w l r) →
    l.toNat < i ∧ r.toNat < i
  one_parent : (childIndices s.nodes s.nodeCount.toNat).Perm (List.range (s.nodeCount.toNat - 1))
  symbols_ok : ∀ i, i < s.nodeCount.toNat → ∀ sym w, s.nodes[i]? = some (.leaf sym w) → sym.toNat ≤ 256
  root_ok : ∀ sym w, s.nodes[s.root]? = some (.leaf sym w) → sym = 256#9

/-- CODE holds exactly the code table of the tree in NODE (10_state R123, 43_code_table R550). -/
def CodesCurrent (s : State) : Prop :=
  ∀ T, s.tree = some T → ∀ sym, sym < 257 → s.codeAt sym =
    match T.codeOf sym with
    | some p => CodeEntry.ofPath p
    | none => CodeEntry.none

/-- The invariant: 10_state R125, invariants 1, 2 and 4; what CODES_VALID = 1 asserts of CODE (R123); IN's position
within its string (R140); and, while BUSY = 1, a legal command word in CMD, judged with the value of ARG that the
command read. -/
structure Inv (s : State) : Prop where
  eos_counted : s.freqAt 256 ≠ 0#32
  tree_complete : s.status.treeValid = true → CompleteTree s
  codes_need_tree : s.status.codesValid = true → s.status.treeValid = true
  codes_current : s.status.codesValid = true → CodesCurrent s
  in_pos_le : s.inCh.pos ≤ s.inCh.bits.length
  busy_legal : s.status.busy = true → ∃ i, legalCommand s.accArg s.cmd = .ok i

end Sys2Proof.Machine
end

