-- ==== Sys2Proof/Certificates/Slice0/Obligations.lean ====
section
/-! DEFINITION. The statements for the provers. -/

open Sys2Proof Sys2Proof.Machine

/-! ## Encoding -/

/-- 30_encoding R300, R301, R320: a well-formed command's word decodes to that command, for every operand value. -/
def Obligations.DecodeOfEncode : Prop := ∀ i : Instr, i.WellFormed → decode (encode i) = .ok i

/-- 30_encoding R320: a word that decodes is the word of the command it decodes to, and that command's operand is in
range. -/
def Obligations.EncodeOfDecode : Prop :=
  ∀ (w : Word) (i : Instr), decode w = .ok i → encode i = w ∧ i.WellFormed

/-- Words written out from 30_encoding R300, R320 and 95_test_vectors, one or more per family. -/
def Obligations.SpecWordsDecode : Prop :=
  decode 0x00000000#32 = .ok .nop ∧ decode 0x01000000#32 = .ok .softReset ∧
  decode 0x11000062#32 = .ok (.writeFreq 0x62#10) ∧ decode 0x19000004#32 = .ok (.readNode 4#10) ∧
  decode 0x21000100#32 = .ok (.lookupCode 256#10) ∧ decode 0x2B000000#32 = .ok .deserializeHeader ∧
  decode 0x3100007A#32 = .ok (.encodeSymbol 0x7A#10) ∧ decode 0x41000000#32 = .ok .decompress ∧
  decode 0x19000201#32 = .error .badOperand ∧ decode 0x41000800#32 = .error .rsvNonzero ∧
  decode 0x02000000#32 = .error .badOpcode

/-- 30_encoding R302: the legality checks in their order, each failing check deciding the result; a word that passes
all of them is the word of a well-formed command; an illegal word changes nothing but what the protocol records, and
the model's copies of ARG and STATUS, which belong to a running command, are zero after it (log 4, log 5). -/
def Obligations.LegalityInOrder : Prop :=
  ∀ (s : State) (w : Word),
    let opcodes : List Opcode := [0x00#8, 0x01#8, 0x10#8, 0x11#8, 0x12#8, 0x18#8, 0x19#8, 0x20#8, 0x21#8, 0x28#8,
      0x29#8, 0x2A#8, 0x2B#8, 0x30#8, 0x31#8, 0x32#8, 0x33#8, 0x34#8, 0x35#8, 0x40#8, 0x41#8]
    let formatS : List Opcode := [0x11#8, 0x12#8, 0x21#8, 0x31#8]
    let inRange : Prop :=
      if opcField w ∈ formatS then (opndField w).toNat ≤ 256
      else if opcField w = 0x19#8 then (opndField w).toNat ≤ 512 else opndField w = 0#10
    (if opcField w ∉ opcodes then legalCommand s.arg w = .error .badOpcode
     else if rsvField w ≠ 0#14 then legalCommand s.arg w = .error .rsvNonzero
     else if ¬ inRange then legalCommand s.arg w = .error .badOperand
     else if opcField w = 0x11#8 ∧ opndField w = 256#10 ∧ s.arg = 0#32 then
       legalCommand s.arg w = .error .badOperand
     else ∃ i, legalCommand s.arg w = .ok i ∧ i.WellFormed ∧ encode i = w) ∧
    (∀ sub, legalCommand s.arg w = .error sub →
      s.takeCommand w = { s with
        cmd := w, errInfo := w, errOp := opcField w,
        status := { s.status with busy := false, done := true, err := some (.illegalCommand sub),
                                  closeFailed := false, infoEof := false, lastOp := opcField w },
        log := s.log ++ [{ cmd := w, err := some (.illegalCommand sub), info := w, op := opcField w }],
        accArg := 0#32, accStatus := Status.zero })

/-! ## The command protocol and the host's side -/

/-- 40_control R403, R404: a word written to CMD while BUSY = 0, by a host that has kept its duties about IN
(70_reset_and_hazards R910, R920; log 36), clears the previous report and records LAST_OP; a legal one is accepted with
BUSY = 1; an illegal one completes at once with ILLEGAL_COMMAND; either way the validity flags, EOS_SEEN, CMD_OVERRUN,
the result registers, the internal memories and the channels stay. That acceptance copies ARG and STATUS is the
model's reading of R933 and R137 (log 4, log 5); COMPRESS and DECOMPRESS leave IN due to be released (log 36). -/
def Obligations.CommandWordTaken : Prop :=
  ∀ (s : State) (w : Word) (rest : List HostOp),
    s.status.busy = false → s.host = .write 0x00#8 4 w :: rest →
    (∀ i, legalCommand s.arg w = .ok i → s.readsIn i = true → s.inLink = .connected) →
    ∃ t, step s = .next t ∧ t.host = rest ∧ t.cmd = w ∧ t.status.lastOp = opcField w ∧
      t.status.closeFailed = false ∧ t.status.infoEof = false ∧ KeepsValid s t ∧
      t.status.eosSeen = s.status.eosSeen ∧ t.status.cmdOverrun = s.status.cmdOverrun ∧
      KeepsResults s t ∧ KeepsFreq s t ∧ KeepsTree s t ∧ KeepsCodes s t ∧ KeepsChannels s t ∧ t.arg = s.arg ∧
      (∀ i, legalCommand s.arg w = .ok i →
        t.status.busy = true ∧ t.status.done = false ∧ t.status.err = none ∧ t.errInfo = 0#32 ∧ t.errOp = 0#8 ∧
        t.log = s.log ∧ t.accArg = s.arg ∧ t.accStatus = t.status ∧
        t.inLink = if i = .compress ∨ i = .decompress then .due else s.inLink) ∧
      (∀ sub, legalCommand s.arg w = .error sub →
        t.status.busy = false ∧ t.status.done = true ∧ t.status.err = some (.illegalCommand sub) ∧
        t.errInfo = w ∧ t.errOp = opcField w ∧ t.inLink = s.inLink ∧
        t.log = s.log ++ [{ cmd := w, err := some (.illegalCommand sub), info := w, op := opcField w }])

/-- 40_control R402: a write of CMD while BUSY = 1 is dropped and sets CMD_OVERRUN; nothing else changes. CMD_OVERRUN
stays 1 over every step but a hardware reset and a SOFT_RESET. -/
def Obligations.CmdWriteWhileBusyDropped : Prop :=
  (∀ (s : State) (w : Word) (rest : List HostOp),
    s.status.busy = true → s.host = .write 0x00#8 4 w :: rest →
    step s = .next { s with host := rest, status := { s.status with cmdOverrun := true } }) ∧
  (∀ s t : State, step s = .next t → s.status.cmdOverrun = true → (∀ rest, s.host ≠ .reset :: rest) →
    s.noReset → (s.status.busy = true → decode s.cmd ≠ .ok .softReset) → t.status.cmdOverrun = true)

/-- A step runs the decoded command: while BUSY = 1, with no host operation left or the host waiting, step is exec of
the command that CMD decodes to (40_control R400, 10_state R102). When a CMD write lands just before the completion,
it sets CMD_OVERRUN besides (40_control R402; the model's own event, log 6). A legal word placed by withFetchWord
stands in CMD with BUSY = 1, and the next step runs its command. -/
def Obligations.StepRunsDecodedCommand : Prop :=
  (∀ (s : State) (i : Instr), s.status.busy = true → decode s.cmd = .ok i →
    ((s.host = [] ∨ ∃ rest, s.host = .wait :: rest) → step s = exec i s) ∧
    (∀ v rest t, s.host = .writeCmdLate v :: rest → exec i s = .next t →
      step s = .next { t with
        host := rest, status := { t.status with cmdOverrun := t.status.cmdOverrun || t.status.done } })) ∧
  (∀ (s : State) (w : Word) (i : Instr), legalCommand s.arg w = .ok i →
    (s.withFetchWord 32 w.toNat).status.busy = true ∧ (s.withFetchWord 32 w.toNat).cmd = w ∧
    step (s.withFetchWord 32 w.toNat) = exec i (s.withFetchWord 32 w.toNat))

/-- 60_exceptions R835: an idle machine keeps all its state; a WAIT ends when BUSY = 0 and DONE = 1 (30_encoding
R340; that a WAIT takes one step of its own is the model's form, log 28). -/
def Obligations.IdleKeepsState : Prop :=
  ∀ s : State, s.status.busy = false →
    (s.host = [] → step s = .next s) ∧
    (∀ rest, s.host = .wait :: rest → s.status.done = true → step s = .next { s with host := rest })

/-- 10_state R110 to R117, R130 to R136, 60_exceptions R800, R801: which register each offset reads while BUSY = 0,
where the fields stand in its 32-bit value, the number of every error and sub-code, and 0 at the reserved offsets. -/
def Obligations.RegisterLayout : Prop :=
  ∀ s : State,
    let numbers : List (Err × Nat × Nat) := [(.invalidFormat, 1, 0), (.malformedHeader .eof, 2, 1),
      (.malformedHeader .badSymbol, 2, 2), (.malformedHeader .capacity, 2, 3), (.malformedHeader .rootLeaf, 2, 4),
      (.truncatedStream, 3, 0), (.emptyInput, 4, 0), (.ioError .inRead, 5, 1), (.ioError .inReset, 5, 2),
      (.ioError .outWrite, 5, 3), (.ioError .outClose, 5, 4), (.illegalCommand .badOpcode, 6, 1),
      (.illegalCommand .rsvNonzero, 6, 2), (.illegalCommand .badOperand, 6, 3), (.notReady .noTree, 7, 1),
      (.notReady .noCodes, 7, 2), (.notReady .badIndex, 7, 3), (.missingCode, 8, 0), (.countOverflow, 9, 0)]
    (s.status.err = none → s.status.errCode.toNat = 0 ∧ s.status.errSub.toNat = 0) ∧
    (∀ e, s.status.err = some e → ∃ n ∈ numbers, n.1 = e) ∧
    (∀ n ∈ numbers, s.status.err = some n.1 →
      s.status.errCode.toNat = n.2.1 ∧ s.status.errSub.toNat = n.2.2) ∧
    regRead 0x00#8 s = s.cmd ∧ regRead 0x08#8 s = s.arg ∧ regRead 0x0C#8 s = s.errInfo ∧
    (regRead 0x10#8 s).toNat = s.errOp.toNat ∧ (regRead 0x14#8 s).toNat = s.nodeCount.toNat ∧
    (regRead 0x18#8 s).toNat = s.leafCount.toNat ∧ (regRead 0x1C#8 s).toNat = s.resSym.toNat ∧
    regRead 0x24#8 s = s.resWlo ∧
    (∀ off : BitVec 8, (0x34 ≤ off.toNat ∧ off.toNat ≤ 0x3C) ∨ 0x60 ≤ off.toNat → regRead off s = 0#32) ∧
    (regRead 0x04#8 s).toNat =
      s.status.busy.toNat + 2 * s.status.done.toNat + 4 * s.status.err.isSome.toNat +
      2 ^ 4 * s.status.errCode.toNat + 2 ^ 8 * s.status.errSub.toNat + 2 ^ 12 * s.status.treeValid.toNat +
      2 ^ 13 * s.status.codesValid.toNat + 2 ^ 14 * s.status.eosSeen.toNat + 2 ^ 15 * s.status.cmdOverrun.toNat +
      2 ^ 16 * s.status.closeFailed.toNat + 2 ^ 17 * s.status.infoEof.toNat + 2 ^ 24 * s.status.lastOp.toNat ∧
    (regRead 0x20#8 s).toNat = 2 ^ 31 * s.resLen.cvalid.toNat + s.resLen.len.toNat ∧
    (regRead 0x28#8 s).toNat = s.resWhi.toNat ∧
    (regRead 0x2C#8 s).toNat = 2 ^ 31 * s.resNode.kind.toNat + 2 ^ 16 * s.resNode.right.toNat + s.resNode.left.toNat ∧
    (regRead 0x30#8 s) = s.params.magic ∧
    ∀ k, k < 8 → (regRead (BitVec.ofNat 8 (0x40 + 4 * k)) s).toNat = s.resCode.toNat / 2 ^ (32 * k) % 2 ^ 32

/-- 10_state R110: an aligned 32-bit write to any offset but CMD and ARG changes nothing; a write of ARG changes ARG
alone, BUSY or not (R113). -/
def Obligations.RegisterWritesReachOnlyCmdAndArg : Prop :=
  ∀ (s : State) (off : BitVec 8) (v : Word) (rest : List HostOp), off.toNat % 4 = 0 →
    s.host = .write off 4 v :: rest →
    (off ≠ 0x00#8 → off ≠ 0x08#8 → step s = .next { s with host := rest }) ∧
    (off = 0x08#8 → step s = .next { s with host := rest, arg := v })

/-- 20_memory R205, 10_state R137: a host register read changes nothing of the machine; the host gets one value. -/
def Obligations.ReadsHaveNoSideEffect : Prop :=
  ∀ (s t : State) (off : BitVec 8) (bytes : Nat) (rest : List HostOp),
    s.host = .read off bytes :: rest → step s = .next t →
    ∃ v, t = { s with host := rest, readLog := s.readLog ++ [{ off := off, value := v }], draws := t.draws } ∧
      (s.status.busy = false → v = regRead off s)

/-- 10_state R137: reads while BUSY = 1. STATUS reads as it stood at command acceptance, with BUSY = 1; CMD, ARG and
MAGIC_ID read their values; any other register reads a free value, about which nothing is said. The acceptance copy
does not change while the command runs. No read has a side effect at any time: only the host's own operations and
reads, and the counter of free values, move on. -/
def Obligations.ReadsWhileBusy : Prop :=
  (∀ (s : State) (off : BitVec 8) (rest : List HostOp), s.status.busy = true → off.toNat % 4 = 0 →
    s.host = .read off 4 :: rest →
    ∃ t v, step s = .next t ∧ t.readLog = s.readLog ++ [{ off := off, value := v }] ∧
      (off = 0x04#8 → v = s.accStatus.word) ∧ (off = 0x00#8 → v = s.cmd) ∧ (off = 0x08#8 → v = s.arg) ∧
      (off = 0x30#8 → v = s.params.magic)) ∧
  (∀ s : State, s.accept.accStatus = s.accept.status ∧ s.accept.accStatus.busy = true) ∧
  (∀ s t : State, step s = .next t → s.status.busy = true → t.status.busy = true → t.accStatus = s.accStatus) ∧
  (∀ (s t : State) (off : BitVec 8) (bytes : Nat) (rest : List HostOp),
    s.host = .read off bytes :: rest → step s = .next t →
    t = { s with host := rest, readLog := t.readLog, draws := t.draws })

/-- 20_memory R202, R222, 70_reset_and_hazards R910, R920: an access that is not 32 bits wide and aligned is refused;
the host may not touch the channels while BUSY = 1, and between commands it may do anything to them, read OUT's bits
and, once it is closed, its byte image, or release IN. A command that reads IN is refused when IN has not been released
since the last COMPRESS or DECOMPRESS, or has been released and not connected again. That the breach shows there,
that a position beyond the end is taken as the end, and that the pad of the byte image, which 10_state R141 calls PAD,
is the first bits of a field of 7, are the model's choices (log 36, log 22, log 13). -/
def Obligations.RefusedHostActions : Prop :=
  (∀ (s : State) (off : BitVec 8) (bytes : Nat) (v : Word) (rest : List HostOp), bytes ≠ 4 ∨ off.toNat % 4 ≠ 0 →
    (s.host = .write off bytes v :: rest → step s = .refused .badAccess) ∧
    (s.host = .read off bytes :: rest → step s = .refused .badAccess)) ∧
  (∀ (s : State) (bits : Bits) (pos : Nat) (closed : Bool) (rest : List HostOp),
    (s.status.busy = true →
      (s.host = .setIn bits pos :: rest ∨ s.host = .setOut bits closed :: rest ∨ s.host = .lookAtChannels :: rest ∨
        s.host = .readOut :: rest ∨ s.host = .releaseIn :: rest) →
      step s = .refused .channelTouched) ∧
    (s.status.busy = false →
      (s.host = .setIn bits pos :: rest →
        step s = .next { s with
          host := rest, inCh := { bits := bits, pos := min pos bits.length }, inLink := .connected }) ∧
      (s.host = .setOut bits closed :: rest →
        step s = .next { s with host := rest, outCh := { bits := bits, closed := closed } }) ∧
      (s.host = .lookAtChannels :: rest → step s = .next { s with host := rest }) ∧
      (s.host = .releaseIn :: rest →
        step s = .next { s with host := rest, inCh := { bits := [], pos := 0 }, inLink := .released }) ∧
      (s.host = .readOut :: rest → ∃ image,
        step s = .next { s with host := rest, outReads := s.outReads ++ [{ bits := s.outCh.bits, image := image }] } ∧
        (s.outCh.closed = false → image = none) ∧
        (s.outCh.closed = true → ∃ bytes, image = some bytes ∧
          (bytes.flatMap fun b => msb 8 b.toNat) =
            s.outCh.bits ++ (msb 7 s.params.pad.toNat).take ((8 - s.outCh.bits.length % 8) % 8))))) ∧
  (∀ (s : State) (w : Word) (i : Instr) (rest : List HostOp), s.status.busy = false →
    s.host = .write 0x00#8 4 w :: rest → legalCommand s.arg w = .ok i → s.readsIn i = true →
    (s.inLink = .due → step s = .refused .inNotReleased) ∧
    (s.inLink = .released → step s = .refused .inNotConnected))

/-- 70_reset_and_hazards R900, 10_state R160: a hardware reset, idle or BUSY, puts every state at its reset value
(NODE and CODE are unspecified, and nothing is said of them), empties the log, and leaves IN and OUT. -/
def Obligations.HardwareResetState : Prop :=
  ∀ (s : State) (rest : List HostOp), s.host = .reset :: rest →
    ∃ t, step s = .next t ∧ t.cmd = 0#32 ∧ t.arg = 0#32 ∧ t.status = Status.zero ∧ t.errInfo = 0#32 ∧
      t.errOp = 0#8 ∧ t.nodeCount = 0#10 ∧ t.leafCount = 0#9 ∧ t.resSym = 0#9 ∧ t.resLen = ⟨false, 0#9⟩ ∧
      t.resWlo = 0#32 ∧ t.resWhi = 0#9 ∧ t.resNode = ⟨false, 0#10, 0#10⟩ ∧ t.resCode = 0#256 ∧
      (∀ b, b < 256 → t.freqAt b = 0#32) ∧ t.freqAt 256 = 1#32 ∧ t.log = [] ∧ t.params = s.params ∧
      t.inCh = s.inCh ∧ t.outCh = s.outCh ∧ t.io = s.io ∧ t.host = rest

/-- 10_state R160: the values the spec gives for reset, in State.reset. (NODE, CODE and the channels are the model's
choice there, log 8 and log 17, and nothing is said of them.) -/
def Obligations.ResetValues : Prop :=
  State.reset.cmd = 0#32 ∧ State.reset.arg = 0#32 ∧ State.reset.status.word = 0#32 ∧ State.reset.errInfo = 0#32 ∧
  (∀ off : BitVec 8, off ≠ 0x30#8 → regRead off State.reset = 0#32) ∧
  regRead 0x30#8 State.reset = State.reset.params.magic ∧
  (∀ b, b < 256 → State.reset.freqAt b = 0#32) ∧ State.reset.freqAt 256 = 1#32 ∧ State.reset.log = []

/-- 40_control R406, 60_exceptions R820, 70_reset_and_hazards R901: a command that reaches a next state has completed
once, with success or with an error, adding one entry to the log; or a hardware reset that was drawn (log 20)
abandoned it, with no entry recorded and the log empty. -/
def Obligations.CommandEndsOnce : Prop :=
  ∀ (i : Instr) (s t : State), exec i s = .next t →
    (t.status.busy = false ∧ t.status.done = true ∧
      ((t.log = s.log ++ [{ cmd := s.cmd, err := none, info := 0#32, op := 0#8 }]) ∨
        (∃ e info op, FailedWith e info op s t))) ∨
    (¬ s.noReset ∧ t.status = Status.zero ∧ t.log = [] ∧ t.cmd = 0#32 ∧ s.outCh.bits <+: t.outCh.bits)

/-! ## Control commands -/

/-- 40_control R410: NOP completes and changes nothing but the protocol's registers. -/
def Obligations.NopRuns : Prop :=
  ∀ s : State, ∃ t, exec .nop s = .next t ∧ Succeeded s t ∧ KeepsHost s t ∧ KeepsResults s t ∧ KeepsFreq s t ∧
    KeepsTree s t ∧ KeepsCodes s t ∧ KeepsChannels s t ∧ KeepsValid s t ∧ KeepsSeen s t

/-- 40_control R411: SOFT_RESET returns every state to its reset value but CMD, DONE = 1, LAST_OP = 0x01, the log and
MAGIC_ID; NODE and CODE are unspecified, and nothing is said of them; IN and OUT are not touched. -/
def Obligations.SoftResetRuns : Prop :=
  ∀ s : State, ∃ t, exec .softReset s = .next t ∧
    t.status = { Status.zero with done := true, lastOp := 0x01#8 } ∧
    t.cmd = s.cmd ∧ t.arg = 0#32 ∧ t.errInfo = 0#32 ∧ t.errOp = 0#8 ∧ t.nodeCount = 0#10 ∧ t.leafCount = 0#9 ∧
    t.resSym = 0#9 ∧ t.resLen = ⟨false, 0#9⟩ ∧ t.resWlo = 0#32 ∧ t.resWhi = 0#9 ∧
    t.resNode = ⟨false, 0#10, 0#10⟩ ∧ t.resCode = 0#256 ∧
    (∀ b, b < 256 → t.freqAt b = 0#32) ∧ t.freqAt 256 = 1#32 ∧
    t.log = s.log ++ [{ cmd := s.cmd, err := none, info := 0#32, op := 0#8 }] ∧
    t.params = s.params ∧ KeepsChannels s t ∧ t.host = s.host ∧ t.readLog = s.readLog

/-! ## Frequency counter -/

/-- 41_frequency R450: COUNT_FREQ counts the whole bytes from IN.pos to the end, sets FREQ[256] to 1, clears
TREE_VALID and CODES_VALID and changes nothing else but IN.pos, when no channel call fails and no count overflows. -/
def Obligations.CountFreqCounts : Prop :=
  ∀ s : State, s.ioClear → (∀ b, (wholeBytes s.inRest).count b < 2 ^ 32) →
    ∃ t, exec .countFreq s = .next t ∧ Succeeded s t ∧
      (∀ b, b < 256 → (t.freqAt b).toNat = (wholeBytes s.inRest).count b) ∧ t.freqAt 256 = 1#32 ∧
      t.status.treeValid = false ∧ t.status.codesValid = false ∧
      t.inCh.bits = s.inCh.bits ∧ t.inCh.pos = s.posAfterBytes ∧ t.outCh = s.outCh ∧
      KeepsHost s t ∧ KeepsResults s t ∧ KeepsTree s t ∧ KeepsCodes s t ∧ KeepsSeen s t

/-- 41_frequency R450, R801: COUNT_FREQ raises COUNT_OVERFLOW with the byte that is read when its count is already
2^32 - 1; FREQ keeps the counts made so far, with FREQ[256] = 1, and the failing byte has been read. -/
def Obligations.CountOverflowRaised : Prop :=
  ∀ (s : State) (bs : List Nat) (b : Nat) (rest : List Nat), s.ioClear → wholeBytes s.inRest = bs ++ b :: rest →
    bs.count b = 2 ^ 32 - 1 → (∀ c, bs.count c < 2 ^ 32) →
    ∃ t, exec .countFreq s = .next t ∧ FailedWith .countOverflow (BitVec.ofNat 32 b) 0x10#8 s t ∧
      (∀ c, c < 256 → (t.freqAt c).toNat = bs.count c) ∧ t.freqAt 256 = 1#32 ∧
      t.status.treeValid = false ∧ t.status.codesValid = false ∧
      t.inCh = { s.inCh with pos := s.inCh.pos + 8 * (bs.length + 1) } ∧ t.outCh = s.outCh

/-- 41_frequency R460: WRITE_FREQ stores the ARG it read in FREQ[sym], clears TREE_VALID and CODES_VALID, and changes
nothing else. -/
def Obligations.WriteFreqStores : Prop :=
  ∀ (s : State) (sym : Opnd), sym.toNat ≤ 256 →
    ∃ t, exec (.writeFreq sym) s = .next t ∧ Succeeded s t ∧ t.freqAt sym.toNat = s.accArg ∧
      (∀ b, b ≠ sym.toNat → t.freqAt b = s.freqAt b) ∧
      t.status.treeValid = false ∧ t.status.codesValid = false ∧
      KeepsHost s t ∧ KeepsResults s t ∧ KeepsTree s t ∧ KeepsCodes s t ∧ KeepsChannels s t ∧ KeepsSeen s t

/-- 70_reset_and_hazards R933, 41_frequency R460: from the CMD write of WRITE_FREQ on, a write of ARG does not affect
that command: the count stored is ARG at the CMD write. That the read "at its start" (10_state R113) is the one at the
CMD write is the model's reading (log 4). -/
def Obligations.LateArgWriteIgnored : Prop :=
  ∀ (s : State) (sym : Opnd) (v : Word), s.status.busy = false → sym.toNat ≤ 256 →
    ¬ (sym = 256#10 ∧ s.arg = 0#32) →
    s.host = [.write 0x00#8 4 (encode (.writeFreq sym)), .write 0x08#8 4 v, .wait] →
    ∃ t u x, step s = .next t ∧ step t = .next u ∧ step u = .next x ∧ x.freqAt sym.toNat = s.arg ∧ x.arg = v ∧
      x.status.busy = false ∧ x.status.done = true ∧ x.status.err = none

/-- 41_frequency R470: READ_FREQ copies FREQ[sym] to the result registers and changes nothing else. -/
def Obligations.ReadFreqRuns : Prop :=
  ∀ (s : State) (sym : Opnd), sym.toNat ≤ 256 →
    ∃ t, exec (.readFreq sym) s = .next t ∧ Succeeded s t ∧ t.resSym.toNat = sym.toNat ∧
      t.resWlo = s.freqAt sym.toNat ∧ t.resWhi = 0#9 ∧
      t.resLen = s.resLen ∧ t.resNode = s.resNode ∧ t.resCode = s.resCode ∧
      KeepsHost s t ∧ KeepsFreq s t ∧ KeepsTree s t ∧ KeepsCodes s t ∧ KeepsChannels s t ∧ KeepsValid s t ∧
      KeepsSeen s t

/-! ## Tree builder -/

/-- 42_tree_builder R500, R502, R505: BUILD_TREE puts a leaf for every symbol with a non-zero count, in symbol order,
in the first slots; then each turn extracts the minimum of the queue, and the minimum of what is left, and puts an
internal node in the next slot with the first as its left child, the second as its right and the sum of their weights,
which goes into the queue (what a minimum is says ExtractMinOrder); the root weighs the sum of all counts; NODE_COUNT =
2L - 1. With no such symbol it raises EMPTY_INPUT and leaves no tree. -/
def Obligations.BuildTreeBuilds : Prop :=
  ∀ s : State,
    let syms := (List.range 257).filter fun b => s.freqAt b ≠ 0#32
    let L := syms.length
    (L ≠ 0 →
      ∃ t, exec .buildTree s = .next t ∧ Succeeded s t ∧ t.status.treeValid = true ∧ t.status.codesValid = false ∧
        t.leafCount.toNat = L ∧ t.nodeCount.toNat = 2 * L - 1 ∧
        (∀ k sym : Nat, syms[k]? = some sym →
          t.nodes[k]? = some (Node.leaf (BitVec.ofNat 9 sym) ((s.freqAt sym).setWidth 41))) ∧
        (∀ k : Nat, L ≤ k → k < 2 * L - 1 → ∃ a b : Nat, a < k ∧ b < k ∧
          t.nodes[k]? = some (Node.internal (BitVec.ofNat 41 (nodeWeight t.nodes a + nodeWeight t.nodes b))
            (BitVec.ofNat 10 a) (BitVec.ofNat 10 b))) ∧
        (∃ queue : Nat → List Nat, queue 0 = List.range L ∧ ∀ k : Nat, k < L - 1 → ∃ d e a b : Nat,
          2 ≤ (queue k).length ∧ a = extractMin s.params.tieBreak d t.nodes (queue k) ∧
          b = extractMin s.params.tieBreak e t.nodes ((queue k).erase a) ∧
          t.nodes[L + k]? = some (Node.internal (BitVec.ofNat 41 (nodeWeight t.nodes a + nodeWeight t.nodes b))
            (BitVec.ofNat 10 a) (BitVec.ofNat 10 b)) ∧
          queue (k + 1) = ((queue k).erase a).erase b ++ [L + k]) ∧
        nodeWeight t.nodes t.root = (syms.map fun b => (s.freqAt b).toNat).sum ∧
        KeepsHost s t ∧ KeepsResults s t ∧ KeepsFreq s t ∧ KeepsCodes s t ∧ KeepsChannels s t ∧ KeepsSeen s t) ∧
    (L = 0 →
      ∃ t, exec .buildTree s = .next t ∧ FailedWith .emptyInput 0#32 0x18#8 s t ∧ t.status.treeValid = false ∧
        t.status.codesValid = false ∧ t.nodeCount = 0#10 ∧ t.leafCount = 0#9)

/-- 42_tree_builder R503, R504: extractMin answers a member of least weight; under SEQ, of those the one of least
slot index. -/
def Obligations.ExtractMinOrder : Prop :=
  ∀ (nodes : Vector Node 513) (pq : List Nat) (d : Nat), pq ≠ [] →
    (∀ tie, extractMin tie d nodes pq ∈ pq ∧
      ∀ j ∈ pq, nodeWeight nodes (extractMin tie d nodes pq) ≤ nodeWeight nodes j) ∧
    (∀ j ∈ pq, nodeWeight nodes j = nodeWeight nodes (extractMin .seq d nodes pq) →
      extractMin .seq d nodes pq ≤ j)

/-- 42_tree_builder R510: READ_NODE copies a node of the current tree to the result registers and changes nothing
else. -/
def Obligations.ReadNodeRuns : Prop :=
  ∀ (s : State) (idx : Opnd) (nd : Node), s.status.treeValid = true → idx.toNat < s.nodeCount.toNat →
    s.nodes[idx.toNat]? = some nd →
    ∃ t, exec (.readNode idx) s = .next t ∧ Succeeded s t ∧
      t.resNode = { kind := nd.isLeaf, right := nd.right, left := nd.left } ∧ t.resSym = nd.sym ∧
      t.resWlo.toNat = nd.weight.toNat % 2 ^ 32 ∧ t.resWhi.toNat = nd.weight.toNat / 2 ^ 32 ∧
      t.resLen = s.resLen ∧ t.resCode = s.resCode ∧
      KeepsHost s t ∧ KeepsFreq s t ∧ KeepsTree s t ∧ KeepsCodes s t ∧ KeepsChannels s t ∧ KeepsValid s t ∧
      KeepsSeen s t

/-- 40_control R405: the prerequisites. A command whose prerequisite is unmet raises NOT_READY with its sub-code
before it makes any access; READ_NODE checks TREE_VALID before its index. -/
def Obligations.PrerequisitesGate : Prop :=
  ∀ (s : State) (idx sym : Opnd),
    (s.status.treeValid = false →
      exec (.readNode idx) s = .next (s.raise (.notReady .noTree) 0#32 0x19#8) ∧
      exec .genCodes s = .next (s.raise (.notReady .noTree) 0#32 0x20#8) ∧
      exec .serializeHeader s = .next (s.raise (.notReady .noTree) 0#32 0x29#8) ∧
      exec .decodeSymbol s = .next (s.raise (.notReady .noTree) 0#32 0x34#8) ∧
      exec .decodePayload s = .next (s.raise (.notReady .noTree) 0#32 0x35#8)) ∧
    (s.status.treeValid = true → s.nodeCount.toNat ≤ idx.toNat →
      exec (.readNode idx) s = .next (s.raise (.notReady .badIndex) 0#32 0x19#8)) ∧
    (s.status.codesValid = false →
      exec (.lookupCode sym) s = .next (s.raise (.notReady .noCodes) 0#32 0x21#8) ∧
      exec (.encodeSymbol sym) s = .next (s.raise (.notReady .noCodes) 0#32 0x31#8) ∧
      exec .encodePayload s = .next (s.raise (.notReady .noCodes) 0#32 0x32#8))

/-- 10_state R125, invariant 2: a NODE memory that satisfies it holds a tree below its root, with LEAF_COUNT leaves
and one internal node fewer, of the kind DESERIALIZE_HEADER accepts. -/
def Obligations.CompleteTreeHasTree : Prop :=
  ∀ s : State, CompleteTree s →
    ∃ T, s.tree = some T ∧ T.leaves = s.leafCount.toNat ∧ T.internals + 1 = s.leafCount.toNat ∧ T.acceptable

/-! ## Code table -/

/-- 43_code_table R550: GEN_CODES gives every symbol the path of the last leaf that holds it, and no code to the
others; it changes nothing else but CODES_VALID. -/
def Obligations.GenCodesRuns : Prop :=
  ∀ (s : State) (T : HTree), s.status.treeValid = true → s.tree = some T → (∀ q ∈ T.paths, q.1.toNat ≤ 256) →
    ∃ t, exec .genCodes s = .next t ∧ Succeeded s t ∧ t.status.codesValid = true ∧ t.status.treeValid = true ∧
      (∀ sym, sym < 257 → t.codeAt sym =
        match T.codeOf sym with
        | some p => CodeEntry.ofPath p
        | none => CodeEntry.none) ∧
      KeepsHost s t ∧ KeepsResults s t ∧ KeepsFreq s t ∧ KeepsTree s t ∧ KeepsChannels s t ∧ KeepsSeen s t

/-- 43_code_table R551: the codes that GEN_CODES derives from a tree whose leaves hold distinct symbols are
prefix-free, each the path of its leaf, and a symbol has a code exactly when a leaf holds it. -/
def Obligations.GeneratedCodesPrefixFree : Prop :=
  ∀ (s t : State) (T : HTree), s.status.treeValid = true → s.tree = some T → T.leaves ≤ 257 →
    (∀ q ∈ T.paths, q.1.toNat ≤ 256) → (T.paths.map (·.1)).Nodup → exec .genCodes s = .next t →
    (∀ q ∈ T.paths, (t.codeAt q.1.toNat).valid = true ∧ (t.codeAt q.1.toNat).path = q.2) ∧
    (∀ a, a < 257 → (t.codeAt a).valid = true → ∃ q ∈ T.paths, q.1.toNat = a) ∧
    (∀ a b, a < 257 → b < 257 → a ≠ b → (t.codeAt a).valid = true → (t.codeAt b).valid = true →
      ¬ (t.codeAt a).path <+: (t.codeAt b).path)

/-- 43_code_table R560: LOOKUP_CODE copies CODE[sym] to the result registers and changes nothing else. -/
def Obligations.LookupCodeRuns : Prop :=
  ∀ (s : State) (sym : Opnd), sym.toNat ≤ 256 → s.status.codesValid = true →
    ∃ t, exec (.lookupCode sym) s = .next t ∧ Succeeded s t ∧ t.resSym.toNat = sym.toNat ∧
      t.resLen = { cvalid := (s.codeAt sym.toNat).valid, len := (s.codeAt sym.toNat).len } ∧
      t.resCode = (s.codeAt sym.toNat).bits ∧
      t.resWlo = s.resWlo ∧ t.resWhi = s.resWhi ∧ t.resNode = s.resNode ∧
      KeepsHost s t ∧ KeepsFreq s t ∧ KeepsTree s t ∧ KeepsCodes s t ∧ KeepsChannels s t ∧ KeepsValid s t ∧
      KeepsSeen s t

/-! ## Stream envelope and header -/

/-- 44_header_codec R600: WRITE_MAGIC appends msb(32, MAGIC) to an open OUT and changes nothing else. -/
def Obligations.WriteMagicRuns : Prop :=
  ∀ s : State, s.ioClear → s.outCh.closed = false →
    ∃ t, exec .writeMagic s = .next t ∧ Succeeded s t ∧
      t.outCh = { s.outCh with bits := s.outCh.bits ++ msb 32 s.params.magic.toNat } ∧ t.inCh = s.inCh ∧
      KeepsHost s t ∧ KeepsResults s t ∧ KeepsFreq s t ∧ KeepsTree s t ∧ KeepsCodes s t ∧ KeepsValid s t ∧
      KeepsSeen s t

/-- 44_header_codec R610, 30_encoding R331: SERIALIZE_HEADER appends the preorder header of the tree, I + 10 L bits,
to an open OUT and changes nothing else. -/
def Obligations.SerializeHeaderRuns : Prop :=
  ∀ (s : State) (T : HTree), s.status.treeValid = true → s.tree = some T → s.ioClear → s.outCh.closed = false →
    T.header.length = T.internals + 10 * T.leaves ∧
    ∃ t, exec .serializeHeader s = .next t ∧ Succeeded s t ∧
      t.outCh = { s.outCh with bits := s.outCh.bits ++ T.header } ∧ t.inCh = s.inCh ∧
      KeepsHost s t ∧ KeepsResults s t ∧ KeepsFreq s t ∧ KeepsTree s t ∧ KeepsCodes s t ∧ KeepsValid s t ∧
      KeepsSeen s t

/-- 44_header_codec R620: CHECK_MAGIC reads exactly one 32-bit field; it succeeds when that is MAGIC, raises
INVALID_FORMAT with the value when it is not, and raises it with INFO_EOF when fewer than 32 bits are left. -/
def Obligations.CheckMagicRuns : Prop :=
  ∀ s : State, s.ioClear →
    let v := BitVec.ofNat 32 (val (s.inRest.take 32))
    (s.inCh.pos + 32 ≤ s.inCh.bits.length →
      (v = s.params.magic →
        ∃ t, exec .checkMagic s = .next t ∧ Succeeded s t ∧ t.inCh = { s.inCh with pos := s.inCh.pos + 32 } ∧
          t.outCh = s.outCh ∧ KeepsHost s t ∧ KeepsResults s t ∧ KeepsFreq s t ∧ KeepsTree s t ∧ KeepsCodes s t ∧
          KeepsValid s t ∧ KeepsSeen s t) ∧
      (v ≠ s.params.magic →
        ∃ t, exec .checkMagic s = .next t ∧ FailedWith .invalidFormat v 0x2A#8 s t ∧
          t.status.infoEof = s.status.infoEof ∧ t.inCh = { s.inCh with pos := s.inCh.pos + 32 } ∧
          t.outCh = s.outCh)) ∧
    (s.inCh.bits.length < s.inCh.pos + 32 →
      ∃ t, exec .checkMagic s = .next t ∧ FailedWith .invalidFormat 0#32 0x2A#8 s t ∧ t.status.infoEof = true ∧
        t.outCh = s.outCh)

/-- 44_header_codec R630: DESERIALIZE_HEADER reads exactly the bits of an acceptable header and rebuilds its tree,
complete in the sense of 10_state R125, with weights 0; it changes nothing else but the flags and counts. -/
def Obligations.DeserializeHeaderRuns : Prop :=
  ∀ (s : State) (T : HTree) (rest : Bits), s.ioClear → s.inRest = T.header ++ rest → T.acceptable →
    ∃ t, exec .deserializeHeader s = .next t ∧ Succeeded s t ∧ t.tree = some T ∧ CompleteTree t ∧
      t.status.treeValid = true ∧ t.status.codesValid = false ∧
      t.leafCount.toNat = T.leaves ∧ t.nodeCount.toNat = 2 * T.leaves - 1 ∧
      (∀ i, i < t.nodeCount.toNat → nodeWeight t.nodes i = 0) ∧
      t.inCh = { s.inCh with pos := s.inCh.pos + T.header.length } ∧ t.outCh = s.outCh ∧
      KeepsHost s t ∧ KeepsResults s t ∧ KeepsFreq s t ∧ KeepsCodes s t ∧ KeepsSeen s t

/-- 44_header_codec R630, R631: what DESERIALIZE_HEADER rejects, at every place inside a header. An input that ends
before the next node's first bit or inside its symbol field is EOF; a leaf with a symbol above 256 is BAD_SYMBOL; a
257th internal-node bit is CAPACITY; a header that is one leaf for a byte is ROOT_LEAF. No tree is left, and IN stands
after the last bits read. -/
def Obligations.DeserializeHeaderRejects : Prop :=
  ∀ s : State, s.ioClear →
    let rejects (sub : HeaderSub) (info : Word) (position : Option Nat) : Prop :=
      ∃ t, exec .deserializeHeader s = .next t ∧ FailedWith (.malformedHeader sub) info 0x2B#8 s t ∧
        t.status.treeValid = false ∧ t.status.codesValid = false ∧ t.nodeCount = 0#10 ∧ t.leafCount = 0#9 ∧
        t.inCh.bits = s.inCh.bits ∧ (∀ p, position = some p → t.inCh.pos = p) ∧ t.outCh = s.outCh
    (∀ T : HTree, T.acceptable → s.inRest <+: T.header → s.inRest ≠ T.header → rejects .eof 0#32 none) ∧
    (∀ v rest, v < 256 → s.inRest = true :: (msb 9 v ++ rest) →
      rejects .rootLeaf (BitVec.ofNat 32 v) (some (s.inCh.pos + 10))) ∧
    (∀ rest, s.inRest = List.replicate 257 false ++ rest → rejects .capacity 0#32 (some (s.inCh.pos + 257))) ∧
    (∀ c : List (Option HTree), (∀ T, some T ∈ c → ∀ q ∈ T.paths, q.1.toNat ≤ 256) → internalsSoFar c ≤ 256 →
      (s.inRest = headerSoFar c → rejects .eof 0#32 (some (s.posAfterEof (headerSoFar c).length))) ∧
      (∀ q, q.length < 9 → s.inRest = headerSoFar c ++ true :: q →
        rejects .eof 0#32 (some (s.posAfterEof ((headerSoFar c).length + 1)))) ∧
      (∀ v rest, 256 < v → v < 512 → s.inRest = headerSoFar c ++ true :: (msb 9 v ++ rest) →
        rejects .badSymbol (BitVec.ofNat 32 v) (some (s.inCh.pos + (headerSoFar c).length + 10))) ∧
      (internalsSoFar c = 256 → ∀ rest, s.inRest = headerSoFar c ++ false :: rest →
        rejects .capacity 0#32 (some (s.inCh.pos + (headerSoFar c).length + 1))))

/-- 44_header_codec R632: what SERIALIZE_HEADER writes for a complete tree, DESERIALIZE_HEADER reads back as the same
tree: the same shape with the same symbol at each path. -/
def Obligations.HeaderRoundTrip : Prop :=
  ∀ s u : State, s.status.treeValid = true → CompleteTree s → s.ioClear → s.outCh.closed = false →
    s.outCh.bits = [] → u.ioClear →
    ∃ t, exec .serializeHeader s = .next t ∧ Succeeded s t ∧
      (∀ rest, u.inRest = t.outCh.bits ++ rest →
        ∃ v, exec .deserializeHeader u = .next v ∧ Succeeded u v ∧ v.tree = s.tree ∧ v.tree ≠ none ∧
          v.inRest = rest)

/-! ## Payload and channels -/

/-- 45_payload_codec R650, R680, 20_memory R211, R213: REWIND_INPUT sets IN.pos to 0; CLOSE_OUTPUT closes an open OUT;
each changes nothing else. -/
def Obligations.RewindAndCloseRun : Prop :=
  ∀ s : State, s.ioClear →
    (∃ t, exec .rewindInput s = .next t ∧ Succeeded s t ∧ t.inCh = { s.inCh with pos := 0 } ∧ t.outCh = s.outCh ∧
      KeepsHost s t ∧ KeepsResults s t ∧ KeepsFreq s t ∧ KeepsTree s t ∧ KeepsCodes s t ∧ KeepsValid s t ∧
      KeepsSeen s t) ∧
    (s.outCh.closed = false →
      ∃ t, exec .closeOutput s = .next t ∧ Succeeded s t ∧ t.outCh = { s.outCh with closed := true } ∧
        t.inCh = s.inCh ∧ KeepsHost s t ∧ KeepsResults s t ∧ KeepsFreq s t ∧ KeepsTree s t ∧ KeepsCodes s t ∧
        KeepsValid s t ∧ KeepsSeen s t)

/-- 20_memory R213, R214, 60_exceptions R801, 46_orchestration R740: with an OUT that is open and no hardware reset
drawn, a channel call that fails, the first or a later one, ends its command with IO_ERROR, a sub-code of that
command's calls, and the channel's own code unchanged in ERR_INFO; in a macro command ERR_OP is the step's opcode, and
a close that fails on the error path sets CLOSE_FAILED beside the first error. The command's draws before it were
passes, and none after it is taken but by that close. IN's bits stay, and OUT stays open under a primitive command
(that a failed close leaves it open: R213, log 19). The order of draws is the model's form of IO_FAIL (log 16). -/
def Obligations.ChannelFailureReported : Prop :=
  (∀ (i : Instr) (s t : State) (before rest : List IoDraw) (code : Word), (∀ d ∈ before, d = .pass) →
    (∀ d ∈ rest, d ≠ .reset) → s.io = before ++ .fail code :: rest → s.outCh.closed = false → exec i s = .next t →
    let unused : Prop := (∃ left, left <:+ before ∧ t.io = left ++ .fail code :: rest) ∧
      ∀ sub info op, ¬ FailedWith (.ioError sub) info op s t
    t.inCh.bits = s.inCh.bits ∧
    (i ≠ .compress → i ≠ .decompress → unused ∨
      (t.io = rest ∧ t.outCh.closed = false ∧ ∃ sub ∈ callSubs i, FailedWith (.ioError sub) code i.opcode s t)) ∧
    (i = .compress ∨ i = .decompress → unused ∨
      (∃ p ∈ macroSubs i, FailedWith (.ioError p.2) code p.1 s t ∧
        t.io = if p.1 = 0x33#8 then rest else rest.tail) ∨
      (t.io = rest ∧ t.status.closeFailed = true ∧
        ∃ e info op, FailedWith e info op s t ∧ ∀ sub, e ≠ .ioError sub))) ∧
  ∀ (s : State) (e : Word) (io : List IoDraw), s.io = .fail e :: io → s.outCh.closed = false →
    (∃ t, exec .checkMagic s = .next t ∧ FailedWith (.ioError .inRead) e 0x2A#8 s t ∧ t.outCh = s.outCh ∧
      t.inCh.bits = s.inCh.bits) ∧
    (∃ t, exec .rewindInput s = .next t ∧ FailedWith (.ioError .inReset) e 0x30#8 s t ∧ t.outCh = s.outCh ∧
      t.inCh.bits = s.inCh.bits) ∧
    (∃ t, exec .writeMagic s = .next t ∧ FailedWith (.ioError .outWrite) e 0x28#8 s t ∧ t.inCh = s.inCh ∧
      t.outCh.closed = false) ∧
    (∃ t, exec .closeOutput s = .next t ∧ FailedWith (.ioError .outClose) e 0x33#8 s t ∧ t.inCh = s.inCh ∧
      t.outCh = s.outCh)

/-- 45_payload_codec R660: ENCODE_SYMBOL appends the symbol's code to an open OUT, first bit first, and changes
nothing else; without a code it raises MISSING_CODE with the symbol, writing nothing. -/
def Obligations.EncodeSymbolRuns : Prop :=
  ∀ (s : State) (sym : Opnd), sym.toNat ≤ 256 → s.status.codesValid = true → s.ioClear → s.outCh.closed = false →
    ((s.codeAt sym.toNat).valid = true →
      ∃ t, exec (.encodeSymbol sym) s = .next t ∧ Succeeded s t ∧
        t.outCh = { s.outCh with bits := s.outCh.bits ++ (s.codeAt sym.toNat).path } ∧ t.inCh = s.inCh ∧
        KeepsHost s t ∧ KeepsResults s t ∧ KeepsFreq s t ∧ KeepsTree s t ∧ KeepsCodes s t ∧ KeepsValid s t ∧
        KeepsSeen s t) ∧
    ((s.codeAt sym.toNat).valid = false →
      ∃ t, exec (.encodeSymbol sym) s = .next t ∧
        FailedWith .missingCode (BitVec.ofNat 32 sym.toNat) 0x31#8 s t ∧ KeepsChannels s t)

/-- 45_payload_codec R670: ENCODE_PAYLOAD appends the code of every whole byte from IN.pos on, then the code of
END_OF_STREAM, and changes nothing else but IN.pos, when all of them have codes and no channel call fails. At a byte
with no code, or at the end when END_OF_STREAM has none, it raises MISSING_CODE with the symbol, and the codes written
before stay in OUT. -/
def Obligations.EncodePayloadRuns : Prop :=
  ∀ s : State, s.status.codesValid = true → s.ioClear → s.outCh.closed = false →
    (∀ (bs : List Nat) (b : Nat) (rest : List Nat), wholeBytes s.inRest = bs ++ b :: rest →
      (∀ c ∈ bs, (s.codeAt c).valid = true) → (s.codeAt b).valid = false →
      ∃ t, exec .encodePayload s = .next t ∧ FailedWith .missingCode (BitVec.ofNat 32 b) 0x32#8 s t ∧
        t.outCh = { s.outCh with bits := s.outCh.bits ++ bs.flatMap fun c => (s.codeAt c).path } ∧
        t.inCh = { s.inCh with pos := s.inCh.pos + 8 * (bs.length + 1) } ∧ KeepsResults s t ∧ KeepsValid s t) ∧
    ((∀ b ∈ wholeBytes s.inRest, (s.codeAt b).valid = true) → (s.codeAt 256).valid = false →
      ∃ t, exec .encodePayload s = .next t ∧ FailedWith .missingCode 256#32 0x32#8 s t ∧
        t.outCh = { s.outCh with
          bits := s.outCh.bits ++ (wholeBytes s.inRest).flatMap fun c => (s.codeAt c).path } ∧
        t.inCh = { s.inCh with pos := s.posAfterBytes } ∧ KeepsResults s t ∧ KeepsValid s t) ∧
    ((∀ b ∈ wholeBytes s.inRest, (s.codeAt b).valid = true) → (s.codeAt 256).valid = true →
    ∃ t, exec .encodePayload s = .next t ∧ Succeeded s t ∧
      t.outCh = { s.outCh with
        bits := s.outCh.bits ++ ((wholeBytes s.inRest).flatMap fun b => (s.codeAt b).path) ++ (s.codeAt 256).path } ∧
      t.inCh = { s.inCh with pos := s.posAfterBytes } ∧
      KeepsHost s t ∧ KeepsResults s t ∧ KeepsFreq s t ∧ KeepsTree s t ∧ KeepsCodes s t ∧ KeepsValid s t ∧
      KeepsSeen s t)

/-- 45_payload_codec R690: DECODE_SYMBOL walks the tree with the next bits of IN; at a leaf it delivers the symbol,
sets EOS_SEEN for END_OF_STREAM and leaves IN after the bits it walked; when IN ends at an internal node it raises
TRUNCATED_STREAM. OUT is untouched. -/
def Obligations.DecodeSymbolRuns : Prop :=
  ∀ (s : State) (T : HTree), s.status.treeValid = true → s.tree = some T → s.ioClear →
    s.inCh.pos ≤ s.inCh.bits.length →
    (∀ sym rest, T.walk s.inRest = some (sym, rest) →
      ∃ t, exec .decodeSymbol s = .next t ∧ Succeeded s t ∧ t.resSym = sym ∧
        t.status.eosSeen = decide (sym = 256#9) ∧ t.inRest = rest ∧ t.inCh.bits = s.inCh.bits ∧ t.outCh = s.outCh ∧
        t.resLen = s.resLen ∧ t.resWlo = s.resWlo ∧ t.resWhi = s.resWhi ∧ t.resNode = s.resNode ∧
        t.resCode = s.resCode ∧ KeepsHost s t ∧ KeepsFreq s t ∧ KeepsTree s t ∧ KeepsCodes s t ∧ KeepsValid s t ∧
        t.status.cmdOverrun = s.status.cmdOverrun ∧ t.status.lastOp = s.status.lastOp) ∧
    (T.walk s.inRest = none →
      ∃ t, exec .decodeSymbol s = .next t ∧ FailedWith .truncatedStream 0#32 0x34#8 s t ∧
        t.status.eosSeen = false ∧ t.inCh = { s.inCh with pos := s.inCh.bits.length } ∧ t.outCh = s.outCh ∧
        KeepsResults s t)

/-- 45_payload_codec R700, R703: DECODE_PAYLOAD writes each decoded byte to an open OUT and stops with success right
after the END_OF_STREAM code, reading nothing beyond it. -/
def Obligations.DecodePayloadRuns : Prop :=
  ∀ (s : State) (T : HTree) (bs : List (BitVec 9)) (rest : Bits), s.status.treeValid = true → s.tree = some T →
    (∀ sym, T = .leaf sym → sym = 256#9) → s.ioClear → s.outCh.closed = false →
    s.inCh.pos ≤ s.inCh.bits.length → T.decodes s.inRest bs rest →
    ∃ t, exec .decodePayload s = .next t ∧ Succeeded s t ∧ t.status.eosSeen = true ∧
      t.outCh = { s.outCh with bits := s.outCh.bits ++ bs.flatMap fun b => msb 8 b.toNat } ∧
      t.inRest = rest ∧ t.inCh.bits = s.inCh.bits ∧
      KeepsHost s t ∧ KeepsResults s t ∧ KeepsFreq s t ∧ KeepsTree s t ∧ KeepsCodes s t ∧ KeepsValid s t ∧
      t.status.cmdOverrun = s.status.cmdOverrun ∧ t.status.lastOp = s.status.lastOp

/-- 45_payload_codec R700, R702: when IN ends inside a code before END_OF_STREAM, DECODE_PAYLOAD raises
TRUNCATED_STREAM, never succeeds; the bytes decoded before stay in OUT. -/
def Obligations.DecodePayloadTruncated : Prop :=
  ∀ (s : State) (T : HTree) (bs : List (BitVec 9)), s.status.treeValid = true → s.tree = some T →
    (∀ sym, T = .leaf sym → sym = 256#9) → s.ioClear → s.outCh.closed = false →
    s.inCh.pos ≤ s.inCh.bits.length → T.breaksOff s.inRest bs →
    ∃ t, exec .decodePayload s = .next t ∧ FailedWith .truncatedStream 0#32 0x35#8 s t ∧ t.status.eosSeen = false ∧
      t.outCh = { s.outCh with bits := s.outCh.bits ++ bs.flatMap fun b => msb 8 b.toNat } ∧
      t.inCh = { s.inCh with pos := s.inCh.bits.length }

/-! ## Macro commands -/

/-- 46_orchestration R720, R751: COMPRESS of an input at position 0 appends the magic, the header of the tree it
built, the codes of the bytes and the code of END_OF_STREAM to an open OUT, closes it and succeeds, when no channel
call fails and no count overflows; the stream has the size R751 gives. -/
def Obligations.CompressRuns : Prop :=
  ∀ s : State, s.ioClear → s.outCh.closed = false → s.inCh.pos = 0 →
    (∀ b, (wholeBytes s.inRest).count b < 2 ^ 32) →
    ∃ t T, exec .compress s = .next t ∧ Succeeded s t ∧ t.status.treeValid = true ∧ t.status.codesValid = true ∧
      t.tree = some T ∧ (∀ b ∈ wholeBytes s.inRest, ∃ p, T.codeOf b = some p) ∧ (∃ p, T.codeOf 256 = some p) ∧
      t.outCh = { closed := true, bits := s.outCh.bits ++ msb 32 s.params.magic.toNat ++ T.header ++
        ((wholeBytes s.inRest).flatMap fun b => (T.codeOf b).getD []) ++ (T.codeOf 256).getD [] } ∧
      T.leaves = (wholeBytes s.inRest).dedup.length + 1 ∧ T.internals + 1 = T.leaves ∧
      (t.outCh.bits.length = s.outCh.bits.length + (32 + (T.internals + 10 * T.leaves) +
        ((wholeBytes s.inRest).map fun b => ((T.codeOf b).getD []).length).sum + ((T.codeOf 256).getD []).length)) ∧
      t.inCh.bits = s.inCh.bits ∧ KeepsHost s t ∧ KeepsResults s t ∧ KeepsSeen s t

/-- 46_orchestration R730: DECOMPRESS of a stream whose header and payload are well formed writes the decoded bytes to
an open OUT, closes it and succeeds, leaving TREE_VALID = EOS_SEEN = 1 and CODES_VALID = 0, with nothing read after
the END_OF_STREAM code. -/
def Obligations.DecompressRuns : Prop :=
  ∀ (s : State) (T : HTree) (p : Bits) (bs : List (BitVec 9)) (rest : Bits), s.ioClear → s.outCh.closed = false →
    s.inRest = msb 32 s.params.magic.toNat ++ T.header ++ p → T.acceptable → T.decodes p bs rest →
    ∃ t, exec .decompress s = .next t ∧ Succeeded s t ∧ t.status.treeValid = true ∧ t.status.codesValid = false ∧
      t.status.eosSeen = true ∧ t.tree = some T ∧
      t.outCh = { closed := true, bits := s.outCh.bits ++ bs.flatMap fun b => msb 8 b.toNat } ∧
      t.inRest = rest ∧ t.inCh.bits = s.inCh.bits ∧ KeepsHost s t ∧ KeepsResults s t ∧ KeepsFreq s t ∧
      KeepsCodes s t ∧ t.status.cmdOverrun = s.status.cmdOverrun ∧ t.status.lastOp = s.status.lastOp

/-- 46_orchestration R750: decompressing what COMPRESS wrote gives the input back bit for bit, for every byte
sequence, under either tie-break, whatever bits follow the stream. -/
def Obligations.CompressThenDecompress : Prop :=
  ∀ (S : List (BitVec 8)) (s : State), (∀ b, S.count b < 2 ^ 32) → s.ioClear →
    s.inCh = { bits := S.flatMap fun b => msb 8 b.toNat, pos := 0 } → s.outCh = { bits := [], closed := false } →
    ∃ t, exec .compress s = .next t ∧ Succeeded s t ∧
      ∀ (u : State) (pad : Bits), u.ioClear → u.params.magic = s.params.magic →
        u.inCh = { bits := t.outCh.bits ++ pad, pos := 0 } → u.outCh = { bits := [], closed := false } →
        ∃ v, exec .decompress u = .next v ∧ Succeeded u v ∧
          v.outCh = { bits := S.flatMap fun b => msb 8 b.toNat, closed := true }

/-- 46_orchestration R720, R730, R740: COMPRESS and DECOMPRESS run their bodies in order, and a body that raises an
error ends the command through the error path with that body's opcode. The error path closes OUT once unless the
failing body is CLOSE_OUTPUT; a close that does not answer OK sets CLOSE_FAILED; the first error is reported. A failed
close leaves OUT open (20_memory R213; log 19); an OUT that was closed before answers by OUT_AFTER_CLOSE (R215),
and that call takes a draw too, which only a hardware reset gives an effect (log 14). -/
def Obligations.MacroErrorPath : Prop :=
  (compressSteps.map (·.1) = [0x10#8, 0x18#8, 0x20#8, 0x28#8, 0x29#8, 0x30#8, 0x32#8, 0x33#8] ∧
    decompressSteps.map (·.1) = [0x2A#8, 0x2B#8, 0x35#8, 0x33#8]) ∧
  (∀ (before after : List (Opcode × Body Unit)) (op : Opcode) (body : Body Unit) (s u v : State) (e : Err)
      (info : Word), runsTo before s u → body u = .error (.raised e info) v →
    (compressSteps = before ++ (op, body) :: after → exec .compress s = errorPath op e info v) ∧
    (decompressSteps = before ++ (op, body) :: after → exec .decompress s = errorPath op e info v)) ∧
  (∀ (s : State) (op : Opcode) (e : Err) (info : Word), s.noReset → s.outCh.closed = true → op ≠ 0x33#8 →
    ∃ t, errorPath op e info s = .next t ∧ FailedWith e info op s t ∧ t.outCh = s.outCh ∧ t.inCh = s.inCh ∧
      t.io = s.io.tail ∧ KeepsResults s t ∧ KeepsFreq s t ∧ KeepsTree s t ∧ KeepsCodes s t ∧ KeepsValid s t ∧
      (t.status.closeFailed = s.status.closeFailed ∨ t.status.closeFailed = true) ∧
      (∀ append, s.params.afterCloseClose = .fixed (.ok append) → t.status.closeFailed = s.status.closeFailed) ∧
      (∀ c, s.params.afterCloseClose = .fixed (.ioErr c) → t.status.closeFailed = true)) ∧
  ∀ (s : State) (op : Opcode) (e : Err) (info : Word), s.noReset → s.outCh.closed = false →
    ∃ t, errorPath op e info s = .next t ∧ FailedWith e info op s t ∧ t.outCh.bits = s.outCh.bits ∧
      t.inCh = s.inCh ∧ KeepsResults s t ∧ KeepsFreq s t ∧ KeepsTree s t ∧ KeepsCodes s t ∧ KeepsValid s t ∧
      (op = 0x33#8 → t.outCh = s.outCh ∧ t.io = s.io ∧ t.status.closeFailed = s.status.closeFailed) ∧
      (op ≠ 0x33#8 → t.io = s.io.tail ∧
        ((∀ c io, s.io ≠ .fail c :: io) → t.outCh.closed = true ∧ t.status.closeFailed = s.status.closeFailed) ∧
        (∀ c io, s.io = .fail c :: io → t.outCh.closed = false ∧ t.status.closeFailed = true))

/-- 44_header_codec R620, 46_orchestration R730, R740: DECOMPRESS of a stream that does not start with MAGIC reads
only the 32-bit field, reports INVALID_FORMAT with the value and ERR_OP = CHECK_MAGIC, and closes OUT with no bit
written. TREE_VALID stays, and CODES_VALID = 0 follows the prose of R730 and of 70_reset_and_hazards R934 against the
pseudocode of R730 (log 35). -/
def Obligations.DecompressRejectsBadMagic : Prop :=
  ∀ s : State, s.ioClear → s.outCh.closed = false → s.inCh.pos + 32 ≤ s.inCh.bits.length →
    BitVec.ofNat 32 (val (s.inRest.take 32)) ≠ s.params.magic →
    ∃ t, exec .decompress s = .next t ∧
      FailedWith .invalidFormat (BitVec.ofNat 32 (val (s.inRest.take 32))) 0x2A#8 s t ∧
      t.inCh = { s.inCh with pos := s.inCh.pos + 32 } ∧ t.outCh = { s.outCh with closed := true } ∧
      t.status.closeFailed = s.status.closeFailed ∧ KeepsTree s t ∧ KeepsFreq s t ∧ KeepsCodes s t ∧
      t.status.treeValid = s.status.treeValid ∧ t.status.codesValid = false

/-! ## Frames: what no command writes -/

/-- 10_state R130 to R136: the result registers are written by READ_FREQ, READ_NODE, LOOKUP_CODE, DECODE_SYMBOL and
SOFT_RESET only, each writing only its own. -/
def Obligations.ResultsFrame : Prop :=
  ∀ (i : Instr) (s t : State), s.noReset → exec i s = .next t → i ≠ .softReset →
    ((∀ sym, i ≠ .readFreq sym) → (∀ idx, i ≠ .readNode idx) → (∀ sym, i ≠ .lookupCode sym) → i ≠ .decodeSymbol →
      t.resSym = s.resSym) ∧
    ((∀ sym, i ≠ .readFreq sym) → (∀ idx, i ≠ .readNode idx) → t.resWlo = s.resWlo ∧ t.resWhi = s.resWhi) ∧
    ((∀ idx, i ≠ .readNode idx) → t.resNode = s.resNode) ∧
    ((∀ sym, i ≠ .lookupCode sym) → t.resLen = s.resLen ∧ t.resCode = s.resCode)

/-- 10_state R120, R121, R122: FREQ, NODE and CODE are written only by the commands those rules name. -/
def Obligations.TablesFrame : Prop :=
  ∀ (i : Instr) (s t : State), s.noReset → exec i s = .next t → i ≠ .softReset →
    (i ≠ .countFreq → (∀ sym, i ≠ .writeFreq sym) → i ≠ .compress → KeepsFreq s t) ∧
    (i ≠ .buildTree → i ≠ .deserializeHeader → i ≠ .compress → i ≠ .decompress → KeepsTree s t) ∧
    (i ≠ .genCodes → i ≠ .compress → KeepsCodes s t)

/-- 10_state R140, R141, 20_memory R220: BLOCK never changes IN's bits and OUT only grows, whatever the channels do;
a command without channel calls leaves both; one that only reads leaves OUT, one that only writes leaves IN. -/
def Obligations.ChannelsFrame : Prop :=
  ∀ (i : Instr) (s t : State), exec i s = .next t →
    t.inCh.bits = s.inCh.bits ∧ s.outCh.bits <+: t.outCh.bits ∧
    (s.outCh.closed = true → t.outCh.closed = true) ∧
    ((i ∈ [.nop, .softReset, .buildTree, .genCodes] ∨
        (∃ v, i ∈ [.writeFreq v, .readFreq v, .readNode v, .lookupCode v])) → KeepsChannels s t) ∧
    (i ∈ [.countFreq, .checkMagic, .deserializeHeader, .rewindInput, .decodeSymbol] → t.outCh = s.outCh) ∧
    ((i ∈ [.writeMagic, .serializeHeader, .closeOutput] ∨ (∃ v, i = .encodeSymbol v)) → t.inCh = s.inCh)

/-- 10_state R111, R113, R135: no command writes CMD, the parameters or the host's side; ARG is cleared by SOFT_RESET
and written by no other command. -/
def Obligations.HostSideFrame : Prop :=
  ∀ (i : Instr) (s t : State), s.noReset → exec i s = .next t →
    t.params = s.params ∧ t.cmd = s.cmd ∧ t.host = s.host ∧ t.readLog = s.readLog ∧ t.inLink = s.inLink ∧
    t.outReads = s.outReads ∧ (i ≠ .softReset → t.arg = s.arg)

/-- 10_state R112: which commands write which STATUS fields, besides the completion's own BUSY, DONE and error
report. -/
def Obligations.FlagsFrame : Prop :=
  ∀ (i : Instr) (s t : State), s.noReset → exec i s = .next t → i ≠ .softReset →
    t.status.cmdOverrun = s.status.cmdOverrun ∧ t.status.lastOp = s.status.lastOp ∧
    (i ≠ .decodeSymbol → i ≠ .decodePayload → i ≠ .decompress → t.status.eosSeen = s.status.eosSeen) ∧
    (i ∉ [.countFreq, .buildTree, .deserializeHeader, .compress, .decompress] → (∀ v, i ≠ .writeFreq v) →
      t.status.treeValid = s.status.treeValid ∧ (i ≠ .genCodes → t.status.codesValid = s.status.codesValid)) ∧
    (i ≠ .compress → i ≠ .decompress → t.status.closeFailed = s.status.closeFailed) ∧
    (i ≠ .checkMagic → i ≠ .decompress → t.status.infoEof = s.status.infoEof)

/-- 10_state R123: the validity flags after COUNT_FREQ, WRITE_FREQ, SOFT_RESET (both 0), BUILD_TREE and
DESERIALIZE_HEADER (CODES_VALID = 0, and TREE_VALID = 1 only after a success), COMPRESS (both 0 when COUNT_FREQ or
BUILD_TREE failed, both 1 after any later end) and DECOMPRESS (CODES_VALID = 0 always, 46_orchestration R730 and log 35;
TREE_VALID unchanged when CHECK_MAGIC failed, 0 when DESERIALIZE_HEADER failed, 1 after any later end). -/
def Obligations.StaleTreeInvalidated : Prop :=
  ∀ (i : Instr) (s t : State), exec i s = .next t →
    ((i = .countFreq ∨ (∃ v, i = .writeFreq v) ∨ i = .softReset) →
      t.status.treeValid = false ∧ t.status.codesValid = false) ∧
    ((i = .buildTree ∨ i = .deserializeHeader) →
      t.status.codesValid = false ∧ (t.status.treeValid = true →
        t.log = s.log ++ [{ cmd := s.cmd, err := none, info := 0#32, op := 0#8 }])) ∧
    (i = .compress → s.noReset →
      (t.status.codesValid = t.status.treeValid) ∧
      (∀ e info op, FailedWith e info op s t → t.status.treeValid = decide (op ≠ 0x10#8 ∧ op ≠ 0x18#8)) ∧
      (t.log = s.log ++ [{ cmd := s.cmd, err := none, info := 0#32, op := 0#8 }] → t.status.treeValid = true)) ∧
    (i = .decompress →
      t.status.codesValid = false ∧ (s.noReset →
        (∀ e info, FailedWith e info 0x2A#8 s t → t.status.treeValid = s.status.treeValid) ∧
        (∀ e info, FailedWith e info 0x2B#8 s t → t.status.treeValid = false) ∧
        (∀ e info op, FailedWith e info op s t → op ≠ 0x2A#8 → op ≠ 0x2B#8 → t.status.treeValid = true) ∧
        (t.log = s.log ++ [{ cmd := s.cmd, err := none, info := 0#32, op := 0#8 }] → t.status.treeValid = true)))

/-! ## Invariants -/

/-- 10_state R125, R160: the invariant holds at reset. -/
def Obligations.InvAtReset : Prop := Inv State.reset

/-- 10_state R123, R125: every step keeps the invariant (invariants 1, 2 and 4 of R125, what CODES_VALID = 1 asserts of
CODE, IN's position inside its string, a legal command word while BUSY = 1), from every state that has it. -/
def Obligations.StepKeepsInv : Prop := ∀ s t : State, Inv s → step s = .next t → Inv t

/-- 40_control R408: from every state that has the invariant, every well-formed command runs to a next state,
whatever the channels do; none faults, hangs or is refused. -/
def Obligations.EveryCommandTerminates : Prop :=
  ∀ (i : Instr) (s : State), Inv s → i.WellFormed → ∃ t, exec i s = .next t

/-- 00_scope R8, 10_state R135: no step changes a parameter; a read of MAGIC_ID always gives MAGIC, BUSY or not. -/
def Obligations.ParametersNeverChange : Prop :=
  (∀ s t : State, step s = .next t → t.params = s.params) ∧
  ∀ (s : State) (rest : List HostOp), s.host = .read 0x30#8 4 :: rest →
    ∃ t, step s = .next t ∧ t.readLog = s.readLog ++ [{ off := 0x30#8, value := s.params.magic }]

/-- 10_state R151: the completion log only grows, except that a hardware reset empties it. -/
def Obligations.LogOnlyGrows : Prop :=
  ∀ s t : State, step s = .next t → s.log <+: t.log ∨ ((¬ s.noReset ∨ ∃ rest, s.host = .reset :: rest) ∧ t.log = [])
end

