-- ==== Sys2Proof/Laws/Bits.lean ====
section
/-! SUPPORT. Bit strings: lengths, and `val` and `msb` undo each other. -/

namespace Sys2Proof.Machine

@[simp] theorem length_msb (n v : Nat) : (msb n v).length = n := by
  induction n with
  | zero => rfl
  | succ n ih => simp [msb, ih]

@[simp] theorem val_nil : val [] = 0 := rfl

theorem val_foldl (p : Bits) (acc : Nat) :
    p.foldl (fun acc b => 2 * acc + b.toNat) acc = acc * 2 ^ p.length + val p := by
  induction p generalizing acc with
  | nil => simp
  | cons b p ih =>
    have h : val (b :: p) = b.toNat * 2 ^ p.length + val p := by
      simpa [val] using ih b.toNat
    rw [List.foldl_cons, ih, h, List.length_cons, pow_succ]
    ring

theorem val_cons (b : Bool) (p : Bits) : val (b :: p) = b.toNat * 2 ^ p.length + val p := by
  simpa [val] using val_foldl p b.toNat

theorem val_append (p q : Bits) : val (p ++ q) = val p * 2 ^ q.length + val q := by
  rw [val, List.foldl_append]
  exact val_foldl q (val p)

theorem val_lt (p : Bits) : val p < 2 ^ p.length := by
  induction p with
  | nil => simp
  | cons b p ih =>
    rw [val_cons, List.length_cons, pow_succ]
    cases b <;> simp <;> omega

theorem val_msb (n v : Nat) : val (msb n v) = v % 2 ^ n := by
  induction n with
  | zero => simp [msb, Nat.mod_one]
  | succ n ih =>
    rw [msb, val_cons, ih, length_msb, Nat.mod_pow_succ, Nat.toNat_testBit]
    ring

theorem testBit_val_append (p q : Bits) (i : Nat) (h : i < q.length) :
    (val (p ++ q)).testBit i = (val q).testBit i := by
  rw [val_append, Nat.mul_comm, Nat.testBit_two_pow_mul_add _ (val_lt q), if_pos h]

theorem msb_congr {n v w : Nat} (h : ∀ i < n, v.testBit i = w.testBit i) : msb n v = msb n w := by
  induction n with
  | zero => rfl
  | succ n ih =>
    rw [msb, msb, h n (Nat.lt_succ_self n), ih fun i hi => h i (Nat.lt_succ_of_lt hi)]

theorem msb_mod (n v : Nat) : msb n (v % 2 ^ n) = msb n v :=
  msb_congr fun i hi => by simp [Nat.testBit_mod_two_pow, hi]

theorem msb_val (p : Bits) : msb p.length (val p) = p := by
  induction p with
  | nil => rfl
  | cons b p ih =>
    have h : (val (b :: p)).testBit p.length = b := by
      rw [val_cons, Nat.mul_comm, Nat.testBit_two_pow_mul_add _ (val_lt p), if_neg (lt_irrefl _)]
      cases b <;> simp
    rw [List.length_cons, msb, h]
    congr 1
    calc msb p.length (val (b :: p)) = msb p.length (val p) :=
          msb_congr fun i hi => testBit_val_append [b] p i hi
      _ = p := ih

theorem msb_take_val {n : Nat} {p : Bits} (h : n ≤ p.length) : msb n (val (p.take n)) = p.take n := by
  have := msb_val (p.take n)
  rwa [List.length_take, min_eq_left h] at this

/-- The bytes of a bit string that is a whole number of bytes are its bits. -/
theorem bytesOf_bits (k : Nat) {p : Bits} (h : p.length = 8 * k) : (bytesOf k p).flatMap (fun b => msb 8 b.toNat) = p := by
  induction k generalizing p with
  | zero => exact (List.length_eq_zero_iff.mp h).symm
  | succ k ih =>
    have hlt : val (p.take 8) < 2 ^ 8 := (val_lt _).trans_le (Nat.pow_le_pow_right (by norm_num) (by simp))
    rw [bytesOf, List.flatMap_cons, ih (by rw [List.length_drop]; omega), BitVec.toNat_ofNat, Nat.mod_eq_of_lt hlt,
      msb_take_val (by omega), List.take_append_drop]

/-- The byte image of OUT is its bits and the padding of its last byte (10_state R141). -/
theorem byteImage_bits (pad : BitVec 7) (p : Bits) :
    (byteImage pad p).flatMap (fun b => msb 8 b.toNat) = p ++ padBits pad p.length := by
  refine bytesOf_bits _ ?_
  rw [List.length_append, padBits, List.length_take, length_msb]
  omega

end Sys2Proof.Machine
end

