-- ==== Sys2Proof/Laws/State.lean ====
section
/-! SUPPORT. One lemma per field per named state update, each true by unfolding the update, so that no later proof
unfolds a record update. -/

namespace Sys2Proof.Machine

variable (s : State)

/-! ### State.invalidateTree -/

@[simp] theorem State.invalidateTree_params : s.invalidateTree.params = s.params := rfl
@[simp] theorem State.invalidateTree_cmd : s.invalidateTree.cmd = s.cmd := rfl
@[simp] theorem State.invalidateTree_arg : s.invalidateTree.arg = s.arg := rfl
@[simp] theorem State.invalidateTree_status :
    s.invalidateTree.status =
      { s.status with treeValid := false, codesValid := false } := rfl
@[simp] theorem State.invalidateTree_errInfo : s.invalidateTree.errInfo = s.errInfo := rfl
@[simp] theorem State.invalidateTree_errOp : s.invalidateTree.errOp = s.errOp := rfl
@[simp] theorem State.invalidateTree_nodeCount : s.invalidateTree.nodeCount = s.nodeCount := rfl
@[simp] theorem State.invalidateTree_leafCount : s.invalidateTree.leafCount = s.leafCount := rfl
@[simp] theorem State.invalidateTree_resSym : s.invalidateTree.resSym = s.resSym := rfl
@[simp] theorem State.invalidateTree_resLen : s.invalidateTree.resLen = s.resLen := rfl
@[simp] theorem State.invalidateTree_resWlo : s.invalidateTree.resWlo = s.resWlo := rfl
@[simp] theorem State.invalidateTree_resWhi : s.invalidateTree.resWhi = s.resWhi := rfl
@[simp] theorem State.invalidateTree_resNode : s.invalidateTree.resNode = s.resNode := rfl
@[simp] theorem State.invalidateTree_resCode : s.invalidateTree.resCode = s.resCode := rfl
@[simp] theorem State.invalidateTree_freq : s.invalidateTree.freq = s.freq := rfl
@[simp] theorem State.invalidateTree_nodes : s.invalidateTree.nodes = s.nodes := rfl
@[simp] theorem State.invalidateTree_codes : s.invalidateTree.codes = s.codes := rfl
@[simp] theorem State.invalidateTree_inCh : s.invalidateTree.inCh = s.inCh := rfl
@[simp] theorem State.invalidateTree_outCh : s.invalidateTree.outCh = s.outCh := rfl
@[simp] theorem State.invalidateTree_log : s.invalidateTree.log = s.log := rfl
@[simp] theorem State.invalidateTree_accArg : s.invalidateTree.accArg = s.accArg := rfl
@[simp] theorem State.invalidateTree_accStatus : s.invalidateTree.accStatus = s.accStatus := rfl
@[simp] theorem State.invalidateTree_host : s.invalidateTree.host = s.host := rfl
@[simp] theorem State.invalidateTree_readLog : s.invalidateTree.readLog = s.readLog := rfl
@[simp] theorem State.invalidateTree_inLink : s.invalidateTree.inLink = s.inLink := rfl
@[simp] theorem State.invalidateTree_outReads : s.invalidateTree.outReads = s.outReads := rfl
@[simp] theorem State.invalidateTree_io : s.invalidateTree.io = s.io := rfl
@[simp] theorem State.invalidateTree_draws : s.invalidateTree.draws = s.draws := rfl

/-! ### State.setEosSeen -/

@[simp] theorem State.setEosSeen_params (b : Bool) : (s.setEosSeen b).params = s.params := rfl
@[simp] theorem State.setEosSeen_cmd (b : Bool) : (s.setEosSeen b).cmd = s.cmd := rfl
@[simp] theorem State.setEosSeen_arg (b : Bool) : (s.setEosSeen b).arg = s.arg := rfl
@[simp] theorem State.setEosSeen_status (b : Bool) : (s.setEosSeen b).status = { s.status with eosSeen := b } := rfl
@[simp] theorem State.setEosSeen_errInfo (b : Bool) : (s.setEosSeen b).errInfo = s.errInfo := rfl
@[simp] theorem State.setEosSeen_errOp (b : Bool) : (s.setEosSeen b).errOp = s.errOp := rfl
@[simp] theorem State.setEosSeen_nodeCount (b : Bool) : (s.setEosSeen b).nodeCount = s.nodeCount := rfl
@[simp] theorem State.setEosSeen_leafCount (b : Bool) : (s.setEosSeen b).leafCount = s.leafCount := rfl
@[simp] theorem State.setEosSeen_resSym (b : Bool) : (s.setEosSeen b).resSym = s.resSym := rfl
@[simp] theorem State.setEosSeen_resLen (b : Bool) : (s.setEosSeen b).resLen = s.resLen := rfl
@[simp] theorem State.setEosSeen_resWlo (b : Bool) : (s.setEosSeen b).resWlo = s.resWlo := rfl
@[simp] theorem State.setEosSeen_resWhi (b : Bool) : (s.setEosSeen b).resWhi = s.resWhi := rfl
@[simp] theorem State.setEosSeen_resNode (b : Bool) : (s.setEosSeen b).resNode = s.resNode := rfl
@[simp] theorem State.setEosSeen_resCode (b : Bool) : (s.setEosSeen b).resCode = s.resCode := rfl
@[simp] theorem State.setEosSeen_freq (b : Bool) : (s.setEosSeen b).freq = s.freq := rfl
@[simp] theorem State.setEosSeen_nodes (b : Bool) : (s.setEosSeen b).nodes = s.nodes := rfl
@[simp] theorem State.setEosSeen_codes (b : Bool) : (s.setEosSeen b).codes = s.codes := rfl
@[simp] theorem State.setEosSeen_inCh (b : Bool) : (s.setEosSeen b).inCh = s.inCh := rfl
@[simp] theorem State.setEosSeen_outCh (b : Bool) : (s.setEosSeen b).outCh = s.outCh := rfl
@[simp] theorem State.setEosSeen_log (b : Bool) : (s.setEosSeen b).log = s.log := rfl
@[simp] theorem State.setEosSeen_accArg (b : Bool) : (s.setEosSeen b).accArg = s.accArg := rfl
@[simp] theorem State.setEosSeen_accStatus (b : Bool) : (s.setEosSeen b).accStatus = s.accStatus := rfl
@[simp] theorem State.setEosSeen_host (b : Bool) : (s.setEosSeen b).host = s.host := rfl
@[simp] theorem State.setEosSeen_readLog (b : Bool) : (s.setEosSeen b).readLog = s.readLog := rfl
@[simp] theorem State.setEosSeen_inLink (b : Bool) : (s.setEosSeen b).inLink = s.inLink := rfl
@[simp] theorem State.setEosSeen_outReads (b : Bool) : (s.setEosSeen b).outReads = s.outReads := rfl
@[simp] theorem State.setEosSeen_io (b : Bool) : (s.setEosSeen b).io = s.io := rfl
@[simp] theorem State.setEosSeen_draws (b : Bool) : (s.setEosSeen b).draws = s.draws := rfl

/-! ### State.setCodesValid -/

@[simp] theorem State.setCodesValid_params (b : Bool) : (s.setCodesValid b).params = s.params := rfl
@[simp] theorem State.setCodesValid_cmd (b : Bool) : (s.setCodesValid b).cmd = s.cmd := rfl
@[simp] theorem State.setCodesValid_arg (b : Bool) : (s.setCodesValid b).arg = s.arg := rfl
@[simp] theorem State.setCodesValid_status (b : Bool) :
    (s.setCodesValid b).status =
      { s.status with codesValid := b } := rfl
@[simp] theorem State.setCodesValid_errInfo (b : Bool) : (s.setCodesValid b).errInfo = s.errInfo := rfl
@[simp] theorem State.setCodesValid_errOp (b : Bool) : (s.setCodesValid b).errOp = s.errOp := rfl
@[simp] theorem State.setCodesValid_nodeCount (b : Bool) : (s.setCodesValid b).nodeCount = s.nodeCount := rfl
@[simp] theorem State.setCodesValid_leafCount (b : Bool) : (s.setCodesValid b).leafCount = s.leafCount := rfl
@[simp] theorem State.setCodesValid_resSym (b : Bool) : (s.setCodesValid b).resSym = s.resSym := rfl
@[simp] theorem State.setCodesValid_resLen (b : Bool) : (s.setCodesValid b).resLen = s.resLen := rfl
@[simp] theorem State.setCodesValid_resWlo (b : Bool) : (s.setCodesValid b).resWlo = s.resWlo := rfl
@[simp] theorem State.setCodesValid_resWhi (b : Bool) : (s.setCodesValid b).resWhi = s.resWhi := rfl
@[simp] theorem State.setCodesValid_resNode (b : Bool) : (s.setCodesValid b).resNode = s.resNode := rfl
@[simp] theorem State.setCodesValid_resCode (b : Bool) : (s.setCodesValid b).resCode = s.resCode := rfl
@[simp] theorem State.setCodesValid_freq (b : Bool) : (s.setCodesValid b).freq = s.freq := rfl
@[simp] theorem State.setCodesValid_nodes (b : Bool) : (s.setCodesValid b).nodes = s.nodes := rfl
@[simp] theorem State.setCodesValid_codes (b : Bool) : (s.setCodesValid b).codes = s.codes := rfl
@[simp] theorem State.setCodesValid_inCh (b : Bool) : (s.setCodesValid b).inCh = s.inCh := rfl
@[simp] theorem State.setCodesValid_outCh (b : Bool) : (s.setCodesValid b).outCh = s.outCh := rfl
@[simp] theorem State.setCodesValid_log (b : Bool) : (s.setCodesValid b).log = s.log := rfl
@[simp] theorem State.setCodesValid_accArg (b : Bool) : (s.setCodesValid b).accArg = s.accArg := rfl
@[simp] theorem State.setCodesValid_accStatus (b : Bool) : (s.setCodesValid b).accStatus = s.accStatus := rfl
@[simp] theorem State.setCodesValid_host (b : Bool) : (s.setCodesValid b).host = s.host := rfl
@[simp] theorem State.setCodesValid_readLog (b : Bool) : (s.setCodesValid b).readLog = s.readLog := rfl
@[simp] theorem State.setCodesValid_inLink (b : Bool) : (s.setCodesValid b).inLink = s.inLink := rfl
@[simp] theorem State.setCodesValid_outReads (b : Bool) : (s.setCodesValid b).outReads = s.outReads := rfl
@[simp] theorem State.setCodesValid_io (b : Bool) : (s.setCodesValid b).io = s.io := rfl
@[simp] theorem State.setCodesValid_draws (b : Bool) : (s.setCodesValid b).draws = s.draws := rfl

/-! ### State.treeDone -/

@[simp] theorem State.treeDone_params (n l : Nat) : (s.treeDone n l).params = s.params := rfl
@[simp] theorem State.treeDone_cmd (n l : Nat) : (s.treeDone n l).cmd = s.cmd := rfl
@[simp] theorem State.treeDone_arg (n l : Nat) : (s.treeDone n l).arg = s.arg := rfl
@[simp] theorem State.treeDone_status (n l : Nat) :
    (s.treeDone n l).status =
      { s.status with treeValid := true } := rfl
@[simp] theorem State.treeDone_errInfo (n l : Nat) : (s.treeDone n l).errInfo = s.errInfo := rfl
@[simp] theorem State.treeDone_errOp (n l : Nat) : (s.treeDone n l).errOp = s.errOp := rfl
@[simp] theorem State.treeDone_nodeCount (n l : Nat) : (s.treeDone n l).nodeCount = BitVec.ofNat 10 n := rfl
@[simp] theorem State.treeDone_leafCount (n l : Nat) : (s.treeDone n l).leafCount = BitVec.ofNat 9 l := rfl
@[simp] theorem State.treeDone_resSym (n l : Nat) : (s.treeDone n l).resSym = s.resSym := rfl
@[simp] theorem State.treeDone_resLen (n l : Nat) : (s.treeDone n l).resLen = s.resLen := rfl
@[simp] theorem State.treeDone_resWlo (n l : Nat) : (s.treeDone n l).resWlo = s.resWlo := rfl
@[simp] theorem State.treeDone_resWhi (n l : Nat) : (s.treeDone n l).resWhi = s.resWhi := rfl
@[simp] theorem State.treeDone_resNode (n l : Nat) : (s.treeDone n l).resNode = s.resNode := rfl
@[simp] theorem State.treeDone_resCode (n l : Nat) : (s.treeDone n l).resCode = s.resCode := rfl
@[simp] theorem State.treeDone_freq (n l : Nat) : (s.treeDone n l).freq = s.freq := rfl
@[simp] theorem State.treeDone_nodes (n l : Nat) : (s.treeDone n l).nodes = s.nodes := rfl
@[simp] theorem State.treeDone_codes (n l : Nat) : (s.treeDone n l).codes = s.codes := rfl
@[simp] theorem State.treeDone_inCh (n l : Nat) : (s.treeDone n l).inCh = s.inCh := rfl
@[simp] theorem State.treeDone_outCh (n l : Nat) : (s.treeDone n l).outCh = s.outCh := rfl
@[simp] theorem State.treeDone_log (n l : Nat) : (s.treeDone n l).log = s.log := rfl
@[simp] theorem State.treeDone_accArg (n l : Nat) : (s.treeDone n l).accArg = s.accArg := rfl
@[simp] theorem State.treeDone_accStatus (n l : Nat) : (s.treeDone n l).accStatus = s.accStatus := rfl
@[simp] theorem State.treeDone_host (n l : Nat) : (s.treeDone n l).host = s.host := rfl
@[simp] theorem State.treeDone_readLog (n l : Nat) : (s.treeDone n l).readLog = s.readLog := rfl
@[simp] theorem State.treeDone_inLink (n l : Nat) : (s.treeDone n l).inLink = s.inLink := rfl
@[simp] theorem State.treeDone_outReads (n l : Nat) : (s.treeDone n l).outReads = s.outReads := rfl
@[simp] theorem State.treeDone_io (n l : Nat) : (s.treeDone n l).io = s.io := rfl
@[simp] theorem State.treeDone_draws (n l : Nat) : (s.treeDone n l).draws = s.draws := rfl

/-! ### State.treeGone -/

@[simp] theorem State.treeGone_params : s.treeGone.params = s.params := rfl
@[simp] theorem State.treeGone_cmd : s.treeGone.cmd = s.cmd := rfl
@[simp] theorem State.treeGone_arg : s.treeGone.arg = s.arg := rfl
@[simp] theorem State.treeGone_status :
    s.treeGone.status =
      { s.status with treeValid := false, codesValid := false } := rfl
@[simp] theorem State.treeGone_errInfo : s.treeGone.errInfo = s.errInfo := rfl
@[simp] theorem State.treeGone_errOp : s.treeGone.errOp = s.errOp := rfl
@[simp] theorem State.treeGone_nodeCount : s.treeGone.nodeCount = 0#10 := rfl
@[simp] theorem State.treeGone_leafCount : s.treeGone.leafCount = 0#9 := rfl
@[simp] theorem State.treeGone_resSym : s.treeGone.resSym = s.resSym := rfl
@[simp] theorem State.treeGone_resLen : s.treeGone.resLen = s.resLen := rfl
@[simp] theorem State.treeGone_resWlo : s.treeGone.resWlo = s.resWlo := rfl
@[simp] theorem State.treeGone_resWhi : s.treeGone.resWhi = s.resWhi := rfl
@[simp] theorem State.treeGone_resNode : s.treeGone.resNode = s.resNode := rfl
@[simp] theorem State.treeGone_resCode : s.treeGone.resCode = s.resCode := rfl
@[simp] theorem State.treeGone_freq : s.treeGone.freq = s.freq := rfl
@[simp] theorem State.treeGone_nodes : s.treeGone.nodes = s.nodes := rfl
@[simp] theorem State.treeGone_codes : s.treeGone.codes = s.codes := rfl
@[simp] theorem State.treeGone_inCh : s.treeGone.inCh = s.inCh := rfl
@[simp] theorem State.treeGone_outCh : s.treeGone.outCh = s.outCh := rfl
@[simp] theorem State.treeGone_log : s.treeGone.log = s.log := rfl
@[simp] theorem State.treeGone_accArg : s.treeGone.accArg = s.accArg := rfl
@[simp] theorem State.treeGone_accStatus : s.treeGone.accStatus = s.accStatus := rfl
@[simp] theorem State.treeGone_host : s.treeGone.host = s.host := rfl
@[simp] theorem State.treeGone_readLog : s.treeGone.readLog = s.readLog := rfl
@[simp] theorem State.treeGone_inLink : s.treeGone.inLink = s.inLink := rfl
@[simp] theorem State.treeGone_outReads : s.treeGone.outReads = s.outReads := rfl
@[simp] theorem State.treeGone_io : s.treeGone.io = s.io := rfl
@[simp] theorem State.treeGone_draws : s.treeGone.draws = s.draws := rfl

/-! ### State.clearReport -/

@[simp] theorem State.clearReport_params (w : Word) : (s.clearReport w).params = s.params := rfl
@[simp] theorem State.clearReport_cmd (w : Word) : (s.clearReport w).cmd = w := rfl
@[simp] theorem State.clearReport_arg (w : Word) : (s.clearReport w).arg = s.arg := rfl
@[simp] theorem State.clearReport_status (w : Word) :
    (s.clearReport w).status =
      { s.status with done := false, err := none, closeFailed := false, infoEof := false, lastOp := opcField w } := rfl
@[simp] theorem State.clearReport_errInfo (w : Word) : (s.clearReport w).errInfo = 0#32 := rfl
@[simp] theorem State.clearReport_errOp (w : Word) : (s.clearReport w).errOp = 0#8 := rfl
@[simp] theorem State.clearReport_nodeCount (w : Word) : (s.clearReport w).nodeCount = s.nodeCount := rfl
@[simp] theorem State.clearReport_leafCount (w : Word) : (s.clearReport w).leafCount = s.leafCount := rfl
@[simp] theorem State.clearReport_resSym (w : Word) : (s.clearReport w).resSym = s.resSym := rfl
@[simp] theorem State.clearReport_resLen (w : Word) : (s.clearReport w).resLen = s.resLen := rfl
@[simp] theorem State.clearReport_resWlo (w : Word) : (s.clearReport w).resWlo = s.resWlo := rfl
@[simp] theorem State.clearReport_resWhi (w : Word) : (s.clearReport w).resWhi = s.resWhi := rfl
@[simp] theorem State.clearReport_resNode (w : Word) : (s.clearReport w).resNode = s.resNode := rfl
@[simp] theorem State.clearReport_resCode (w : Word) : (s.clearReport w).resCode = s.resCode := rfl
@[simp] theorem State.clearReport_freq (w : Word) : (s.clearReport w).freq = s.freq := rfl
@[simp] theorem State.clearReport_nodes (w : Word) : (s.clearReport w).nodes = s.nodes := rfl
@[simp] theorem State.clearReport_codes (w : Word) : (s.clearReport w).codes = s.codes := rfl
@[simp] theorem State.clearReport_inCh (w : Word) : (s.clearReport w).inCh = s.inCh := rfl
@[simp] theorem State.clearReport_outCh (w : Word) : (s.clearReport w).outCh = s.outCh := rfl
@[simp] theorem State.clearReport_log (w : Word) : (s.clearReport w).log = s.log := rfl
@[simp] theorem State.clearReport_accArg (w : Word) : (s.clearReport w).accArg = s.accArg := rfl
@[simp] theorem State.clearReport_accStatus (w : Word) : (s.clearReport w).accStatus = s.accStatus := rfl
@[simp] theorem State.clearReport_host (w : Word) : (s.clearReport w).host = s.host := rfl
@[simp] theorem State.clearReport_readLog (w : Word) : (s.clearReport w).readLog = s.readLog := rfl
@[simp] theorem State.clearReport_inLink (w : Word) : (s.clearReport w).inLink = s.inLink := rfl
@[simp] theorem State.clearReport_outReads (w : Word) : (s.clearReport w).outReads = s.outReads := rfl
@[simp] theorem State.clearReport_io (w : Word) : (s.clearReport w).io = s.io := rfl
@[simp] theorem State.clearReport_draws (w : Word) : (s.clearReport w).draws = s.draws := rfl

/-! ### State.setFreq -/

@[simp] theorem State.setFreq_params (i : Nat) (c : Word) : (s.setFreq i c).params = s.params := rfl
@[simp] theorem State.setFreq_cmd (i : Nat) (c : Word) : (s.setFreq i c).cmd = s.cmd := rfl
@[simp] theorem State.setFreq_arg (i : Nat) (c : Word) : (s.setFreq i c).arg = s.arg := rfl
@[simp] theorem State.setFreq_status (i : Nat) (c : Word) : (s.setFreq i c).status = s.status := rfl
@[simp] theorem State.setFreq_errInfo (i : Nat) (c : Word) : (s.setFreq i c).errInfo = s.errInfo := rfl
@[simp] theorem State.setFreq_errOp (i : Nat) (c : Word) : (s.setFreq i c).errOp = s.errOp := rfl
@[simp] theorem State.setFreq_nodeCount (i : Nat) (c : Word) : (s.setFreq i c).nodeCount = s.nodeCount := rfl
@[simp] theorem State.setFreq_leafCount (i : Nat) (c : Word) : (s.setFreq i c).leafCount = s.leafCount := rfl
@[simp] theorem State.setFreq_resSym (i : Nat) (c : Word) : (s.setFreq i c).resSym = s.resSym := rfl
@[simp] theorem State.setFreq_resLen (i : Nat) (c : Word) : (s.setFreq i c).resLen = s.resLen := rfl
@[simp] theorem State.setFreq_resWlo (i : Nat) (c : Word) : (s.setFreq i c).resWlo = s.resWlo := rfl
@[simp] theorem State.setFreq_resWhi (i : Nat) (c : Word) : (s.setFreq i c).resWhi = s.resWhi := rfl
@[simp] theorem State.setFreq_resNode (i : Nat) (c : Word) : (s.setFreq i c).resNode = s.resNode := rfl
@[simp] theorem State.setFreq_resCode (i : Nat) (c : Word) : (s.setFreq i c).resCode = s.resCode := rfl
@[simp] theorem State.setFreq_freq (i : Nat) (c : Word) : (s.setFreq i c).freq = s.freq.setIfInBounds i c := rfl
@[simp] theorem State.setFreq_nodes (i : Nat) (c : Word) : (s.setFreq i c).nodes = s.nodes := rfl
@[simp] theorem State.setFreq_codes (i : Nat) (c : Word) : (s.setFreq i c).codes = s.codes := rfl
@[simp] theorem State.setFreq_inCh (i : Nat) (c : Word) : (s.setFreq i c).inCh = s.inCh := rfl
@[simp] theorem State.setFreq_outCh (i : Nat) (c : Word) : (s.setFreq i c).outCh = s.outCh := rfl
@[simp] theorem State.setFreq_log (i : Nat) (c : Word) : (s.setFreq i c).log = s.log := rfl
@[simp] theorem State.setFreq_accArg (i : Nat) (c : Word) : (s.setFreq i c).accArg = s.accArg := rfl
@[simp] theorem State.setFreq_accStatus (i : Nat) (c : Word) : (s.setFreq i c).accStatus = s.accStatus := rfl
@[simp] theorem State.setFreq_host (i : Nat) (c : Word) : (s.setFreq i c).host = s.host := rfl
@[simp] theorem State.setFreq_readLog (i : Nat) (c : Word) : (s.setFreq i c).readLog = s.readLog := rfl
@[simp] theorem State.setFreq_inLink (i : Nat) (c : Word) : (s.setFreq i c).inLink = s.inLink := rfl
@[simp] theorem State.setFreq_outReads (i : Nat) (c : Word) : (s.setFreq i c).outReads = s.outReads := rfl
@[simp] theorem State.setFreq_io (i : Nat) (c : Word) : (s.setFreq i c).io = s.io := rfl
@[simp] theorem State.setFreq_draws (i : Nat) (c : Word) : (s.setFreq i c).draws = s.draws := rfl

/-! ### State.setNode -/

@[simp] theorem State.setNode_params (i : Nat) (nd : Node) : (s.setNode i nd).params = s.params := rfl
@[simp] theorem State.setNode_cmd (i : Nat) (nd : Node) : (s.setNode i nd).cmd = s.cmd := rfl
@[simp] theorem State.setNode_arg (i : Nat) (nd : Node) : (s.setNode i nd).arg = s.arg := rfl
@[simp] theorem State.setNode_status (i : Nat) (nd : Node) : (s.setNode i nd).status = s.status := rfl
@[simp] theorem State.setNode_errInfo (i : Nat) (nd : Node) : (s.setNode i nd).errInfo = s.errInfo := rfl
@[simp] theorem State.setNode_errOp (i : Nat) (nd : Node) : (s.setNode i nd).errOp = s.errOp := rfl
@[simp] theorem State.setNode_nodeCount (i : Nat) (nd : Node) : (s.setNode i nd).nodeCount = s.nodeCount := rfl
@[simp] theorem State.setNode_leafCount (i : Nat) (nd : Node) : (s.setNode i nd).leafCount = s.leafCount := rfl
@[simp] theorem State.setNode_resSym (i : Nat) (nd : Node) : (s.setNode i nd).resSym = s.resSym := rfl
@[simp] theorem State.setNode_resLen (i : Nat) (nd : Node) : (s.setNode i nd).resLen = s.resLen := rfl
@[simp] theorem State.setNode_resWlo (i : Nat) (nd : Node) : (s.setNode i nd).resWlo = s.resWlo := rfl
@[simp] theorem State.setNode_resWhi (i : Nat) (nd : Node) : (s.setNode i nd).resWhi = s.resWhi := rfl
@[simp] theorem State.setNode_resNode (i : Nat) (nd : Node) : (s.setNode i nd).resNode = s.resNode := rfl
@[simp] theorem State.setNode_resCode (i : Nat) (nd : Node) : (s.setNode i nd).resCode = s.resCode := rfl
@[simp] theorem State.setNode_freq (i : Nat) (nd : Node) : (s.setNode i nd).freq = s.freq := rfl
@[simp] theorem State.setNode_nodes (i : Nat) (nd : Node) :
    (s.setNode i nd).nodes =
      s.nodes.setIfInBounds i nd := rfl
@[simp] theorem State.setNode_codes (i : Nat) (nd : Node) : (s.setNode i nd).codes = s.codes := rfl
@[simp] theorem State.setNode_inCh (i : Nat) (nd : Node) : (s.setNode i nd).inCh = s.inCh := rfl
@[simp] theorem State.setNode_outCh (i : Nat) (nd : Node) : (s.setNode i nd).outCh = s.outCh := rfl
@[simp] theorem State.setNode_log (i : Nat) (nd : Node) : (s.setNode i nd).log = s.log := rfl
@[simp] theorem State.setNode_accArg (i : Nat) (nd : Node) : (s.setNode i nd).accArg = s.accArg := rfl
@[simp] theorem State.setNode_accStatus (i : Nat) (nd : Node) : (s.setNode i nd).accStatus = s.accStatus := rfl
@[simp] theorem State.setNode_host (i : Nat) (nd : Node) : (s.setNode i nd).host = s.host := rfl
@[simp] theorem State.setNode_readLog (i : Nat) (nd : Node) : (s.setNode i nd).readLog = s.readLog := rfl
@[simp] theorem State.setNode_inLink (i : Nat) (nd : Node) : (s.setNode i nd).inLink = s.inLink := rfl
@[simp] theorem State.setNode_outReads (i : Nat) (nd : Node) : (s.setNode i nd).outReads = s.outReads := rfl
@[simp] theorem State.setNode_io (i : Nat) (nd : Node) : (s.setNode i nd).io = s.io := rfl
@[simp] theorem State.setNode_draws (i : Nat) (nd : Node) : (s.setNode i nd).draws = s.draws := rfl

/-! ### State.freeNodes -/

@[simp] theorem State.freeNodes_params : s.freeNodes.params = s.params := rfl
@[simp] theorem State.freeNodes_cmd : s.freeNodes.cmd = s.cmd := rfl
@[simp] theorem State.freeNodes_arg : s.freeNodes.arg = s.arg := rfl
@[simp] theorem State.freeNodes_status : s.freeNodes.status = s.status := rfl
@[simp] theorem State.freeNodes_errInfo : s.freeNodes.errInfo = s.errInfo := rfl
@[simp] theorem State.freeNodes_errOp : s.freeNodes.errOp = s.errOp := rfl
@[simp] theorem State.freeNodes_nodeCount : s.freeNodes.nodeCount = s.nodeCount := rfl
@[simp] theorem State.freeNodes_leafCount : s.freeNodes.leafCount = s.leafCount := rfl
@[simp] theorem State.freeNodes_resSym : s.freeNodes.resSym = s.resSym := rfl
@[simp] theorem State.freeNodes_resLen : s.freeNodes.resLen = s.resLen := rfl
@[simp] theorem State.freeNodes_resWlo : s.freeNodes.resWlo = s.resWlo := rfl
@[simp] theorem State.freeNodes_resWhi : s.freeNodes.resWhi = s.resWhi := rfl
@[simp] theorem State.freeNodes_resNode : s.freeNodes.resNode = s.resNode := rfl
@[simp] theorem State.freeNodes_resCode : s.freeNodes.resCode = s.resCode := rfl
@[simp] theorem State.freeNodes_freq : s.freeNodes.freq = s.freq := rfl
@[simp] theorem State.freeNodes_nodes : s.freeNodes.nodes = Config.freeNodes s.draws := rfl
@[simp] theorem State.freeNodes_codes : s.freeNodes.codes = s.codes := rfl
@[simp] theorem State.freeNodes_inCh : s.freeNodes.inCh = s.inCh := rfl
@[simp] theorem State.freeNodes_outCh : s.freeNodes.outCh = s.outCh := rfl
@[simp] theorem State.freeNodes_log : s.freeNodes.log = s.log := rfl
@[simp] theorem State.freeNodes_accArg : s.freeNodes.accArg = s.accArg := rfl
@[simp] theorem State.freeNodes_accStatus : s.freeNodes.accStatus = s.accStatus := rfl
@[simp] theorem State.freeNodes_host : s.freeNodes.host = s.host := rfl
@[simp] theorem State.freeNodes_readLog : s.freeNodes.readLog = s.readLog := rfl
@[simp] theorem State.freeNodes_inLink : s.freeNodes.inLink = s.inLink := rfl
@[simp] theorem State.freeNodes_outReads : s.freeNodes.outReads = s.outReads := rfl
@[simp] theorem State.freeNodes_io : s.freeNodes.io = s.io := rfl
@[simp] theorem State.freeNodes_draws : s.freeNodes.draws = s.draws + 1 := rfl

/-! ### State.loseInPos -/

@[simp] theorem State.loseInPos_params : s.loseInPos.params = s.params := rfl
@[simp] theorem State.loseInPos_cmd : s.loseInPos.cmd = s.cmd := rfl
@[simp] theorem State.loseInPos_arg : s.loseInPos.arg = s.arg := rfl
@[simp] theorem State.loseInPos_status : s.loseInPos.status = s.status := rfl
@[simp] theorem State.loseInPos_errInfo : s.loseInPos.errInfo = s.errInfo := rfl
@[simp] theorem State.loseInPos_errOp : s.loseInPos.errOp = s.errOp := rfl
@[simp] theorem State.loseInPos_nodeCount : s.loseInPos.nodeCount = s.nodeCount := rfl
@[simp] theorem State.loseInPos_leafCount : s.loseInPos.leafCount = s.leafCount := rfl
@[simp] theorem State.loseInPos_resSym : s.loseInPos.resSym = s.resSym := rfl
@[simp] theorem State.loseInPos_resLen : s.loseInPos.resLen = s.resLen := rfl
@[simp] theorem State.loseInPos_resWlo : s.loseInPos.resWlo = s.resWlo := rfl
@[simp] theorem State.loseInPos_resWhi : s.loseInPos.resWhi = s.resWhi := rfl
@[simp] theorem State.loseInPos_resNode : s.loseInPos.resNode = s.resNode := rfl
@[simp] theorem State.loseInPos_resCode : s.loseInPos.resCode = s.resCode := rfl
@[simp] theorem State.loseInPos_freq : s.loseInPos.freq = s.freq := rfl
@[simp] theorem State.loseInPos_nodes : s.loseInPos.nodes = s.nodes := rfl
@[simp] theorem State.loseInPos_codes : s.loseInPos.codes = s.codes := rfl
@[simp] theorem State.loseInPos_inCh :
    s.loseInPos.inCh =
      { s.inCh with pos := Config.freePos s.draws % (s.inCh.bits.length + 1) } := rfl
@[simp] theorem State.loseInPos_outCh : s.loseInPos.outCh = s.outCh := rfl
@[simp] theorem State.loseInPos_log : s.loseInPos.log = s.log := rfl
@[simp] theorem State.loseInPos_accArg : s.loseInPos.accArg = s.accArg := rfl
@[simp] theorem State.loseInPos_accStatus : s.loseInPos.accStatus = s.accStatus := rfl
@[simp] theorem State.loseInPos_host : s.loseInPos.host = s.host := rfl
@[simp] theorem State.loseInPos_readLog : s.loseInPos.readLog = s.readLog := rfl
@[simp] theorem State.loseInPos_inLink : s.loseInPos.inLink = s.inLink := rfl
@[simp] theorem State.loseInPos_outReads : s.loseInPos.outReads = s.outReads := rfl
@[simp] theorem State.loseInPos_io : s.loseInPos.io = s.io := rfl
@[simp] theorem State.loseInPos_draws : s.loseInPos.draws = s.draws + 1 := rfl

/-! ### State.extendOutFreely -/

@[simp] theorem State.extendOutFreely_params : s.extendOutFreely.params = s.params := rfl
@[simp] theorem State.extendOutFreely_cmd : s.extendOutFreely.cmd = s.cmd := rfl
@[simp] theorem State.extendOutFreely_arg : s.extendOutFreely.arg = s.arg := rfl
@[simp] theorem State.extendOutFreely_status : s.extendOutFreely.status = s.status := rfl
@[simp] theorem State.extendOutFreely_errInfo : s.extendOutFreely.errInfo = s.errInfo := rfl
@[simp] theorem State.extendOutFreely_errOp : s.extendOutFreely.errOp = s.errOp := rfl
@[simp] theorem State.extendOutFreely_nodeCount : s.extendOutFreely.nodeCount = s.nodeCount := rfl
@[simp] theorem State.extendOutFreely_leafCount : s.extendOutFreely.leafCount = s.leafCount := rfl
@[simp] theorem State.extendOutFreely_resSym : s.extendOutFreely.resSym = s.resSym := rfl
@[simp] theorem State.extendOutFreely_resLen : s.extendOutFreely.resLen = s.resLen := rfl
@[simp] theorem State.extendOutFreely_resWlo : s.extendOutFreely.resWlo = s.resWlo := rfl
@[simp] theorem State.extendOutFreely_resWhi : s.extendOutFreely.resWhi = s.resWhi := rfl
@[simp] theorem State.extendOutFreely_resNode : s.extendOutFreely.resNode = s.resNode := rfl
@[simp] theorem State.extendOutFreely_resCode : s.extendOutFreely.resCode = s.resCode := rfl
@[simp] theorem State.extendOutFreely_freq : s.extendOutFreely.freq = s.freq := rfl
@[simp] theorem State.extendOutFreely_nodes : s.extendOutFreely.nodes = s.nodes := rfl
@[simp] theorem State.extendOutFreely_codes : s.extendOutFreely.codes = s.codes := rfl
@[simp] theorem State.extendOutFreely_inCh : s.extendOutFreely.inCh = s.inCh := rfl
@[simp] theorem State.extendOutFreely_outCh :
    s.extendOutFreely.outCh =
      { s.outCh with bits := s.outCh.bits ++ Config.freeBits s.draws } := rfl
@[simp] theorem State.extendOutFreely_log : s.extendOutFreely.log = s.log := rfl
@[simp] theorem State.extendOutFreely_accArg : s.extendOutFreely.accArg = s.accArg := rfl
@[simp] theorem State.extendOutFreely_accStatus : s.extendOutFreely.accStatus = s.accStatus := rfl
@[simp] theorem State.extendOutFreely_host : s.extendOutFreely.host = s.host := rfl
@[simp] theorem State.extendOutFreely_readLog : s.extendOutFreely.readLog = s.readLog := rfl
@[simp] theorem State.extendOutFreely_inLink : s.extendOutFreely.inLink = s.inLink := rfl
@[simp] theorem State.extendOutFreely_outReads : s.extendOutFreely.outReads = s.outReads := rfl
@[simp] theorem State.extendOutFreely_io : s.extendOutFreely.io = s.io := rfl
@[simp] theorem State.extendOutFreely_draws : s.extendOutFreely.draws = s.draws + 1 := rfl

/-! ### State.takeDraw -/

@[simp] theorem State.takeDraw_params : s.takeDraw.params = s.params := rfl
@[simp] theorem State.takeDraw_cmd : s.takeDraw.cmd = s.cmd := rfl
@[simp] theorem State.takeDraw_arg : s.takeDraw.arg = s.arg := rfl
@[simp] theorem State.takeDraw_status : s.takeDraw.status = s.status := rfl
@[simp] theorem State.takeDraw_errInfo : s.takeDraw.errInfo = s.errInfo := rfl
@[simp] theorem State.takeDraw_errOp : s.takeDraw.errOp = s.errOp := rfl
@[simp] theorem State.takeDraw_nodeCount : s.takeDraw.nodeCount = s.nodeCount := rfl
@[simp] theorem State.takeDraw_leafCount : s.takeDraw.leafCount = s.leafCount := rfl
@[simp] theorem State.takeDraw_resSym : s.takeDraw.resSym = s.resSym := rfl
@[simp] theorem State.takeDraw_resLen : s.takeDraw.resLen = s.resLen := rfl
@[simp] theorem State.takeDraw_resWlo : s.takeDraw.resWlo = s.resWlo := rfl
@[simp] theorem State.takeDraw_resWhi : s.takeDraw.resWhi = s.resWhi := rfl
@[simp] theorem State.takeDraw_resNode : s.takeDraw.resNode = s.resNode := rfl
@[simp] theorem State.takeDraw_resCode : s.takeDraw.resCode = s.resCode := rfl
@[simp] theorem State.takeDraw_freq : s.takeDraw.freq = s.freq := rfl
@[simp] theorem State.takeDraw_nodes : s.takeDraw.nodes = s.nodes := rfl
@[simp] theorem State.takeDraw_codes : s.takeDraw.codes = s.codes := rfl
@[simp] theorem State.takeDraw_inCh : s.takeDraw.inCh = s.inCh := rfl
@[simp] theorem State.takeDraw_outCh : s.takeDraw.outCh = s.outCh := rfl
@[simp] theorem State.takeDraw_log : s.takeDraw.log = s.log := rfl
@[simp] theorem State.takeDraw_accArg : s.takeDraw.accArg = s.accArg := rfl
@[simp] theorem State.takeDraw_accStatus : s.takeDraw.accStatus = s.accStatus := rfl
@[simp] theorem State.takeDraw_host : s.takeDraw.host = s.host := rfl
@[simp] theorem State.takeDraw_readLog : s.takeDraw.readLog = s.readLog := rfl
@[simp] theorem State.takeDraw_inLink : s.takeDraw.inLink = s.inLink := rfl
@[simp] theorem State.takeDraw_outReads : s.takeDraw.outReads = s.outReads := rfl
@[simp] theorem State.takeDraw_io : s.takeDraw.io = s.io.tail := rfl
@[simp] theorem State.takeDraw_draws : s.takeDraw.draws = s.draws := rfl

/-! ### State.releaseCommand -/

@[simp] theorem State.releaseCommand_params : s.releaseCommand.params = s.params := rfl
@[simp] theorem State.releaseCommand_cmd : s.releaseCommand.cmd = s.cmd := rfl
@[simp] theorem State.releaseCommand_arg : s.releaseCommand.arg = s.arg := rfl
@[simp] theorem State.releaseCommand_status : s.releaseCommand.status = s.status := rfl
@[simp] theorem State.releaseCommand_errInfo : s.releaseCommand.errInfo = s.errInfo := rfl
@[simp] theorem State.releaseCommand_errOp : s.releaseCommand.errOp = s.errOp := rfl
@[simp] theorem State.releaseCommand_nodeCount : s.releaseCommand.nodeCount = s.nodeCount := rfl
@[simp] theorem State.releaseCommand_leafCount : s.releaseCommand.leafCount = s.leafCount := rfl
@[simp] theorem State.releaseCommand_resSym : s.releaseCommand.resSym = s.resSym := rfl
@[simp] theorem State.releaseCommand_resLen : s.releaseCommand.resLen = s.resLen := rfl
@[simp] theorem State.releaseCommand_resWlo : s.releaseCommand.resWlo = s.resWlo := rfl
@[simp] theorem State.releaseCommand_resWhi : s.releaseCommand.resWhi = s.resWhi := rfl
@[simp] theorem State.releaseCommand_resNode : s.releaseCommand.resNode = s.resNode := rfl
@[simp] theorem State.releaseCommand_resCode : s.releaseCommand.resCode = s.resCode := rfl
@[simp] theorem State.releaseCommand_freq : s.releaseCommand.freq = s.freq := rfl
@[simp] theorem State.releaseCommand_nodes : s.releaseCommand.nodes = s.nodes := rfl
@[simp] theorem State.releaseCommand_codes : s.releaseCommand.codes = s.codes := rfl
@[simp] theorem State.releaseCommand_inCh : s.releaseCommand.inCh = s.inCh := rfl
@[simp] theorem State.releaseCommand_outCh : s.releaseCommand.outCh = s.outCh := rfl
@[simp] theorem State.releaseCommand_log : s.releaseCommand.log = s.log := rfl
@[simp] theorem State.releaseCommand_accArg : s.releaseCommand.accArg = 0#32 := rfl
@[simp] theorem State.releaseCommand_accStatus : s.releaseCommand.accStatus = Status.zero := rfl
@[simp] theorem State.releaseCommand_host : s.releaseCommand.host = s.host := rfl
@[simp] theorem State.releaseCommand_readLog : s.releaseCommand.readLog = s.readLog := rfl
@[simp] theorem State.releaseCommand_inLink : s.releaseCommand.inLink = s.inLink := rfl
@[simp] theorem State.releaseCommand_outReads : s.releaseCommand.outReads = s.outReads := rfl
@[simp] theorem State.releaseCommand_io : s.releaseCommand.io = s.io := rfl
@[simp] theorem State.releaseCommand_draws : s.releaseCommand.draws = s.draws := rfl

/-! ### State.complete -/

@[simp] theorem State.complete_params : s.complete.params = s.params := rfl
@[simp] theorem State.complete_cmd : s.complete.cmd = s.cmd := rfl
@[simp] theorem State.complete_arg : s.complete.arg = s.arg := rfl
@[simp] theorem State.complete_status : s.complete.status = { s.status with busy := false, done := true } := rfl
@[simp] theorem State.complete_errInfo : s.complete.errInfo = s.errInfo := rfl
@[simp] theorem State.complete_errOp : s.complete.errOp = s.errOp := rfl
@[simp] theorem State.complete_nodeCount : s.complete.nodeCount = s.nodeCount := rfl
@[simp] theorem State.complete_leafCount : s.complete.leafCount = s.leafCount := rfl
@[simp] theorem State.complete_resSym : s.complete.resSym = s.resSym := rfl
@[simp] theorem State.complete_resLen : s.complete.resLen = s.resLen := rfl
@[simp] theorem State.complete_resWlo : s.complete.resWlo = s.resWlo := rfl
@[simp] theorem State.complete_resWhi : s.complete.resWhi = s.resWhi := rfl
@[simp] theorem State.complete_resNode : s.complete.resNode = s.resNode := rfl
@[simp] theorem State.complete_resCode : s.complete.resCode = s.resCode := rfl
@[simp] theorem State.complete_freq : s.complete.freq = s.freq := rfl
@[simp] theorem State.complete_nodes : s.complete.nodes = s.nodes := rfl
@[simp] theorem State.complete_codes : s.complete.codes = s.codes := rfl
@[simp] theorem State.complete_inCh : s.complete.inCh = s.inCh := rfl
@[simp] theorem State.complete_outCh : s.complete.outCh = s.outCh := rfl
@[simp] theorem State.complete_log :
    s.complete.log =
      s.log ++ [{ cmd := s.cmd, err := none, info := 0#32, op := 0#8 }] := rfl
@[simp] theorem State.complete_accArg : s.complete.accArg = 0#32 := rfl
@[simp] theorem State.complete_accStatus : s.complete.accStatus = Status.zero := rfl
@[simp] theorem State.complete_host : s.complete.host = s.host := rfl
@[simp] theorem State.complete_readLog : s.complete.readLog = s.readLog := rfl
@[simp] theorem State.complete_inLink : s.complete.inLink = s.inLink := rfl
@[simp] theorem State.complete_outReads : s.complete.outReads = s.outReads := rfl
@[simp] theorem State.complete_io : s.complete.io = s.io := rfl
@[simp] theorem State.complete_draws : s.complete.draws = s.draws := rfl

/-! ### State.raise -/

@[simp] theorem State.raise_params (e : Err) (info : Word) (op : Opcode) :
    (s.raise e info op).params =
      s.params := rfl
@[simp] theorem State.raise_cmd (e : Err) (info : Word) (op : Opcode) : (s.raise e info op).cmd = s.cmd := rfl
@[simp] theorem State.raise_arg (e : Err) (info : Word) (op : Opcode) : (s.raise e info op).arg = s.arg := rfl
@[simp] theorem State.raise_status (e : Err) (info : Word) (op : Opcode) :
    (s.raise e info op).status =
      { s.status with busy := false, done := true, err := some e } := rfl
@[simp] theorem State.raise_errInfo (e : Err) (info : Word) (op : Opcode) :
    (s.raise e info op).errInfo =
      info := rfl
@[simp] theorem State.raise_errOp (e : Err) (info : Word) (op : Opcode) : (s.raise e info op).errOp = op := rfl
@[simp] theorem State.raise_nodeCount (e : Err) (info : Word) (op : Opcode) :
    (s.raise e info op).nodeCount =
      s.nodeCount := rfl
@[simp] theorem State.raise_leafCount (e : Err) (info : Word) (op : Opcode) :
    (s.raise e info op).leafCount =
      s.leafCount := rfl
@[simp] theorem State.raise_resSym (e : Err) (info : Word) (op : Opcode) :
    (s.raise e info op).resSym =
      s.resSym := rfl
@[simp] theorem State.raise_resLen (e : Err) (info : Word) (op : Opcode) :
    (s.raise e info op).resLen =
      s.resLen := rfl
@[simp] theorem State.raise_resWlo (e : Err) (info : Word) (op : Opcode) :
    (s.raise e info op).resWlo =
      s.resWlo := rfl
@[simp] theorem State.raise_resWhi (e : Err) (info : Word) (op : Opcode) :
    (s.raise e info op).resWhi =
      s.resWhi := rfl
@[simp] theorem State.raise_resNode (e : Err) (info : Word) (op : Opcode) :
    (s.raise e info op).resNode =
      s.resNode := rfl
@[simp] theorem State.raise_resCode (e : Err) (info : Word) (op : Opcode) :
    (s.raise e info op).resCode =
      s.resCode := rfl
@[simp] theorem State.raise_freq (e : Err) (info : Word) (op : Opcode) : (s.raise e info op).freq = s.freq := rfl
@[simp] theorem State.raise_nodes (e : Err) (info : Word) (op : Opcode) : (s.raise e info op).nodes = s.nodes := rfl
@[simp] theorem State.raise_codes (e : Err) (info : Word) (op : Opcode) : (s.raise e info op).codes = s.codes := rfl
@[simp] theorem State.raise_inCh (e : Err) (info : Word) (op : Opcode) : (s.raise e info op).inCh = s.inCh := rfl
@[simp] theorem State.raise_outCh (e : Err) (info : Word) (op : Opcode) : (s.raise e info op).outCh = s.outCh := rfl
@[simp] theorem State.raise_log (e : Err) (info : Word) (op : Opcode) :
    (s.raise e info op).log =
      s.log ++ [{ cmd := s.cmd, err := some e, info := info, op := op }] := rfl
@[simp] theorem State.raise_accArg (e : Err) (info : Word) (op : Opcode) : (s.raise e info op).accArg = 0#32 := rfl
@[simp] theorem State.raise_accStatus (e : Err) (info : Word) (op : Opcode) :
    (s.raise e info op).accStatus =
      Status.zero := rfl
@[simp] theorem State.raise_host (e : Err) (info : Word) (op : Opcode) : (s.raise e info op).host = s.host := rfl
@[simp] theorem State.raise_readLog (e : Err) (info : Word) (op : Opcode) :
    (s.raise e info op).readLog =
      s.readLog := rfl
@[simp] theorem State.raise_inLink (e : Err) (info : Word) (op : Opcode) :
    (s.raise e info op).inLink =
      s.inLink := rfl
@[simp] theorem State.raise_outReads (e : Err) (info : Word) (op : Opcode) :
    (s.raise e info op).outReads =
      s.outReads := rfl
@[simp] theorem State.raise_io (e : Err) (info : Word) (op : Opcode) : (s.raise e info op).io = s.io := rfl
@[simp] theorem State.raise_draws (e : Err) (info : Word) (op : Opcode) : (s.raise e info op).draws = s.draws := rfl

/-! ### State.hardReset -/

@[simp] theorem State.hardReset_params : s.hardReset.params = s.params := rfl
@[simp] theorem State.hardReset_cmd : s.hardReset.cmd = 0#32 := rfl
@[simp] theorem State.hardReset_arg : s.hardReset.arg = 0#32 := rfl
@[simp] theorem State.hardReset_status : s.hardReset.status = Status.zero := rfl
@[simp] theorem State.hardReset_errInfo : s.hardReset.errInfo = 0#32 := rfl
@[simp] theorem State.hardReset_errOp : s.hardReset.errOp = 0#8 := rfl
@[simp] theorem State.hardReset_nodeCount : s.hardReset.nodeCount = 0#10 := rfl
@[simp] theorem State.hardReset_leafCount : s.hardReset.leafCount = 0#9 := rfl
@[simp] theorem State.hardReset_resSym : s.hardReset.resSym = 0#9 := rfl
@[simp] theorem State.hardReset_resLen : s.hardReset.resLen = { cvalid := false, len := 0#9 } := rfl
@[simp] theorem State.hardReset_resWlo : s.hardReset.resWlo = 0#32 := rfl
@[simp] theorem State.hardReset_resWhi : s.hardReset.resWhi = 0#9 := rfl
@[simp] theorem State.hardReset_resNode :
    s.hardReset.resNode =
      { kind := false, right := 0#10, left := 0#10 } := rfl
@[simp] theorem State.hardReset_resCode : s.hardReset.resCode = 0#256 := rfl
@[simp] theorem State.hardReset_freq : s.hardReset.freq = resetFreq := rfl
@[simp] theorem State.hardReset_nodes : s.hardReset.nodes = Config.freeNodes s.draws := rfl
@[simp] theorem State.hardReset_codes : s.hardReset.codes = Config.freeCodes s.draws := rfl
@[simp] theorem State.hardReset_inCh : s.hardReset.inCh = s.inCh := rfl
@[simp] theorem State.hardReset_outCh : s.hardReset.outCh = s.outCh := rfl
@[simp] theorem State.hardReset_log : s.hardReset.log = [] := rfl
@[simp] theorem State.hardReset_accArg : s.hardReset.accArg = 0#32 := rfl
@[simp] theorem State.hardReset_accStatus : s.hardReset.accStatus = Status.zero := rfl
@[simp] theorem State.hardReset_host : s.hardReset.host = s.host := rfl
@[simp] theorem State.hardReset_readLog : s.hardReset.readLog = s.readLog := rfl
@[simp] theorem State.hardReset_inLink : s.hardReset.inLink = s.inLink := rfl
@[simp] theorem State.hardReset_outReads : s.hardReset.outReads = s.outReads := rfl
@[simp] theorem State.hardReset_io : s.hardReset.io = s.io := rfl
@[simp] theorem State.hardReset_draws : s.hardReset.draws = s.draws + 1 := rfl

/-! ### State.accept -/

@[simp] theorem State.accept_params : s.accept.params = s.params := rfl
@[simp] theorem State.accept_cmd : s.accept.cmd = s.cmd := rfl
@[simp] theorem State.accept_arg : s.accept.arg = s.arg := rfl
@[simp] theorem State.accept_status : s.accept.status = { s.status with busy := true } := rfl
@[simp] theorem State.accept_errInfo : s.accept.errInfo = s.errInfo := rfl
@[simp] theorem State.accept_errOp : s.accept.errOp = s.errOp := rfl
@[simp] theorem State.accept_nodeCount : s.accept.nodeCount = s.nodeCount := rfl
@[simp] theorem State.accept_leafCount : s.accept.leafCount = s.leafCount := rfl
@[simp] theorem State.accept_resSym : s.accept.resSym = s.resSym := rfl
@[simp] theorem State.accept_resLen : s.accept.resLen = s.resLen := rfl
@[simp] theorem State.accept_resWlo : s.accept.resWlo = s.resWlo := rfl
@[simp] theorem State.accept_resWhi : s.accept.resWhi = s.resWhi := rfl
@[simp] theorem State.accept_resNode : s.accept.resNode = s.resNode := rfl
@[simp] theorem State.accept_resCode : s.accept.resCode = s.resCode := rfl
@[simp] theorem State.accept_freq : s.accept.freq = s.freq := rfl
@[simp] theorem State.accept_nodes : s.accept.nodes = s.nodes := rfl
@[simp] theorem State.accept_codes : s.accept.codes = s.codes := rfl
@[simp] theorem State.accept_inCh : s.accept.inCh = s.inCh := rfl
@[simp] theorem State.accept_outCh : s.accept.outCh = s.outCh := rfl
@[simp] theorem State.accept_log : s.accept.log = s.log := rfl
@[simp] theorem State.accept_accArg : s.accept.accArg = s.arg := rfl
@[simp] theorem State.accept_accStatus : s.accept.accStatus = { s.status with busy := true } := rfl
@[simp] theorem State.accept_host : s.accept.host = s.host := rfl
@[simp] theorem State.accept_readLog : s.accept.readLog = s.readLog := rfl
@[simp] theorem State.accept_inLink : s.accept.inLink = s.inLink := rfl
@[simp] theorem State.accept_outReads : s.accept.outReads = s.outReads := rfl
@[simp] theorem State.accept_io : s.accept.io = s.io := rfl
@[simp] theorem State.accept_draws : s.accept.draws = s.draws := rfl

/-! ### State.connectIn -/

@[simp] theorem State.connectIn_params (bits : Bits) (pos : Nat) : (s.connectIn bits pos).params = s.params := rfl
@[simp] theorem State.connectIn_cmd (bits : Bits) (pos : Nat) : (s.connectIn bits pos).cmd = s.cmd := rfl
@[simp] theorem State.connectIn_arg (bits : Bits) (pos : Nat) : (s.connectIn bits pos).arg = s.arg := rfl
@[simp] theorem State.connectIn_status (bits : Bits) (pos : Nat) : (s.connectIn bits pos).status = s.status := rfl
@[simp] theorem State.connectIn_errInfo (bits : Bits) (pos : Nat) :
    (s.connectIn bits pos).errInfo =
      s.errInfo := rfl
@[simp] theorem State.connectIn_errOp (bits : Bits) (pos : Nat) : (s.connectIn bits pos).errOp = s.errOp := rfl
@[simp] theorem State.connectIn_nodeCount (bits : Bits) (pos : Nat) :
    (s.connectIn bits pos).nodeCount =
      s.nodeCount := rfl
@[simp] theorem State.connectIn_leafCount (bits : Bits) (pos : Nat) :
    (s.connectIn bits pos).leafCount =
      s.leafCount := rfl
@[simp] theorem State.connectIn_resSym (bits : Bits) (pos : Nat) : (s.connectIn bits pos).resSym = s.resSym := rfl
@[simp] theorem State.connectIn_resLen (bits : Bits) (pos : Nat) : (s.connectIn bits pos).resLen = s.resLen := rfl
@[simp] theorem State.connectIn_resWlo (bits : Bits) (pos : Nat) : (s.connectIn bits pos).resWlo = s.resWlo := rfl
@[simp] theorem State.connectIn_resWhi (bits : Bits) (pos : Nat) : (s.connectIn bits pos).resWhi = s.resWhi := rfl
@[simp] theorem State.connectIn_resNode (bits : Bits) (pos : Nat) :
    (s.connectIn bits pos).resNode =
      s.resNode := rfl
@[simp] theorem State.connectIn_resCode (bits : Bits) (pos : Nat) :
    (s.connectIn bits pos).resCode =
      s.resCode := rfl
@[simp] theorem State.connectIn_freq (bits : Bits) (pos : Nat) : (s.connectIn bits pos).freq = s.freq := rfl
@[simp] theorem State.connectIn_nodes (bits : Bits) (pos : Nat) : (s.connectIn bits pos).nodes = s.nodes := rfl
@[simp] theorem State.connectIn_codes (bits : Bits) (pos : Nat) : (s.connectIn bits pos).codes = s.codes := rfl
@[simp] theorem State.connectIn_inCh (bits : Bits) (pos : Nat) :
    (s.connectIn bits pos).inCh =
      { bits := bits, pos := min pos bits.length } := rfl
@[simp] theorem State.connectIn_outCh (bits : Bits) (pos : Nat) : (s.connectIn bits pos).outCh = s.outCh := rfl
@[simp] theorem State.connectIn_log (bits : Bits) (pos : Nat) : (s.connectIn bits pos).log = s.log := rfl
@[simp] theorem State.connectIn_accArg (bits : Bits) (pos : Nat) : (s.connectIn bits pos).accArg = s.accArg := rfl
@[simp] theorem State.connectIn_accStatus (bits : Bits) (pos : Nat) :
    (s.connectIn bits pos).accStatus =
      s.accStatus := rfl
@[simp] theorem State.connectIn_host (bits : Bits) (pos : Nat) : (s.connectIn bits pos).host = s.host := rfl
@[simp] theorem State.connectIn_readLog (bits : Bits) (pos : Nat) :
    (s.connectIn bits pos).readLog =
      s.readLog := rfl
@[simp] theorem State.connectIn_inLink (bits : Bits) (pos : Nat) :
    (s.connectIn bits pos).inLink = .connected := rfl
@[simp] theorem State.connectIn_outReads (bits : Bits) (pos : Nat) :
    (s.connectIn bits pos).outReads =
      s.outReads := rfl
@[simp] theorem State.connectIn_io (bits : Bits) (pos : Nat) : (s.connectIn bits pos).io = s.io := rfl
@[simp] theorem State.connectIn_draws (bits : Bits) (pos : Nat) : (s.connectIn bits pos).draws = s.draws := rfl

/-! ### State.connectOut -/

@[simp] theorem State.connectOut_params (bits : Bits) (closed : Bool) :
    (s.connectOut bits closed).params =
      s.params := rfl
@[simp] theorem State.connectOut_cmd (bits : Bits) (closed : Bool) : (s.connectOut bits closed).cmd = s.cmd := rfl
@[simp] theorem State.connectOut_arg (bits : Bits) (closed : Bool) : (s.connectOut bits closed).arg = s.arg := rfl
@[simp] theorem State.connectOut_status (bits : Bits) (closed : Bool) :
    (s.connectOut bits closed).status =
      s.status := rfl
@[simp] theorem State.connectOut_errInfo (bits : Bits) (closed : Bool) :
    (s.connectOut bits closed).errInfo =
      s.errInfo := rfl
@[simp] theorem State.connectOut_errOp (bits : Bits) (closed : Bool) :
    (s.connectOut bits closed).errOp =
      s.errOp := rfl
@[simp] theorem State.connectOut_nodeCount (bits : Bits) (closed : Bool) :
    (s.connectOut bits closed).nodeCount =
      s.nodeCount := rfl
@[simp] theorem State.connectOut_leafCount (bits : Bits) (closed : Bool) :
    (s.connectOut bits closed).leafCount =
      s.leafCount := rfl
@[simp] theorem State.connectOut_resSym (bits : Bits) (closed : Bool) :
    (s.connectOut bits closed).resSym =
      s.resSym := rfl
@[simp] theorem State.connectOut_resLen (bits : Bits) (closed : Bool) :
    (s.connectOut bits closed).resLen =
      s.resLen := rfl
@[simp] theorem State.connectOut_resWlo (bits : Bits) (closed : Bool) :
    (s.connectOut bits closed).resWlo =
      s.resWlo := rfl
@[simp] theorem State.connectOut_resWhi (bits : Bits) (closed : Bool) :
    (s.connectOut bits closed).resWhi =
      s.resWhi := rfl
@[simp] theorem State.connectOut_resNode (bits : Bits) (closed : Bool) :
    (s.connectOut bits closed).resNode =
      s.resNode := rfl
@[simp] theorem State.connectOut_resCode (bits : Bits) (closed : Bool) :
    (s.connectOut bits closed).resCode =
      s.resCode := rfl
@[simp] theorem State.connectOut_freq (bits : Bits) (closed : Bool) :
    (s.connectOut bits closed).freq =
      s.freq := rfl
@[simp] theorem State.connectOut_nodes (bits : Bits) (closed : Bool) :
    (s.connectOut bits closed).nodes =
      s.nodes := rfl
@[simp] theorem State.connectOut_codes (bits : Bits) (closed : Bool) :
    (s.connectOut bits closed).codes =
      s.codes := rfl
@[simp] theorem State.connectOut_inCh (bits : Bits) (closed : Bool) :
    (s.connectOut bits closed).inCh =
      s.inCh := rfl
@[simp] theorem State.connectOut_outCh (bits : Bits) (closed : Bool) :
    (s.connectOut bits closed).outCh =
      { bits := bits, closed := closed } := rfl
@[simp] theorem State.connectOut_log (bits : Bits) (closed : Bool) : (s.connectOut bits closed).log = s.log := rfl
@[simp] theorem State.connectOut_accArg (bits : Bits) (closed : Bool) :
    (s.connectOut bits closed).accArg =
      s.accArg := rfl
@[simp] theorem State.connectOut_accStatus (bits : Bits) (closed : Bool) :
    (s.connectOut bits closed).accStatus =
      s.accStatus := rfl
@[simp] theorem State.connectOut_host (bits : Bits) (closed : Bool) :
    (s.connectOut bits closed).host =
      s.host := rfl
@[simp] theorem State.connectOut_readLog (bits : Bits) (closed : Bool) :
    (s.connectOut bits closed).readLog =
      s.readLog := rfl
@[simp] theorem State.connectOut_inLink (bits : Bits) (closed : Bool) :
    (s.connectOut bits closed).inLink =
      s.inLink := rfl
@[simp] theorem State.connectOut_outReads (bits : Bits) (closed : Bool) :
    (s.connectOut bits closed).outReads =
      s.outReads := rfl
@[simp] theorem State.connectOut_io (bits : Bits) (closed : Bool) : (s.connectOut bits closed).io = s.io := rfl
@[simp] theorem State.connectOut_draws (bits : Bits) (closed : Bool) :
    (s.connectOut bits closed).draws =
      s.draws := rfl

/-! ### State.releaseIn -/

@[simp] theorem State.releaseIn_params : s.releaseIn.params = s.params := rfl
@[simp] theorem State.releaseIn_cmd : s.releaseIn.cmd = s.cmd := rfl
@[simp] theorem State.releaseIn_arg : s.releaseIn.arg = s.arg := rfl
@[simp] theorem State.releaseIn_status : s.releaseIn.status = s.status := rfl
@[simp] theorem State.releaseIn_errInfo : s.releaseIn.errInfo = s.errInfo := rfl
@[simp] theorem State.releaseIn_errOp : s.releaseIn.errOp = s.errOp := rfl
@[simp] theorem State.releaseIn_nodeCount : s.releaseIn.nodeCount = s.nodeCount := rfl
@[simp] theorem State.releaseIn_leafCount : s.releaseIn.leafCount = s.leafCount := rfl
@[simp] theorem State.releaseIn_resSym : s.releaseIn.resSym = s.resSym := rfl
@[simp] theorem State.releaseIn_resLen : s.releaseIn.resLen = s.resLen := rfl
@[simp] theorem State.releaseIn_resWlo : s.releaseIn.resWlo = s.resWlo := rfl
@[simp] theorem State.releaseIn_resWhi : s.releaseIn.resWhi = s.resWhi := rfl
@[simp] theorem State.releaseIn_resNode : s.releaseIn.resNode = s.resNode := rfl
@[simp] theorem State.releaseIn_resCode : s.releaseIn.resCode = s.resCode := rfl
@[simp] theorem State.releaseIn_freq : s.releaseIn.freq = s.freq := rfl
@[simp] theorem State.releaseIn_nodes : s.releaseIn.nodes = s.nodes := rfl
@[simp] theorem State.releaseIn_codes : s.releaseIn.codes = s.codes := rfl
@[simp] theorem State.releaseIn_inCh : s.releaseIn.inCh = { bits := [], pos := 0 } := rfl
@[simp] theorem State.releaseIn_outCh : s.releaseIn.outCh = s.outCh := rfl
@[simp] theorem State.releaseIn_log : s.releaseIn.log = s.log := rfl
@[simp] theorem State.releaseIn_accArg : s.releaseIn.accArg = s.accArg := rfl
@[simp] theorem State.releaseIn_accStatus : s.releaseIn.accStatus = s.accStatus := rfl
@[simp] theorem State.releaseIn_host : s.releaseIn.host = s.host := rfl
@[simp] theorem State.releaseIn_readLog : s.releaseIn.readLog = s.readLog := rfl
@[simp] theorem State.releaseIn_inLink : s.releaseIn.inLink = .released := rfl
@[simp] theorem State.releaseIn_outReads : s.releaseIn.outReads = s.outReads := rfl
@[simp] theorem State.releaseIn_io : s.releaseIn.io = s.io := rfl
@[simp] theorem State.releaseIn_draws : s.releaseIn.draws = s.draws := rfl

/-! ### State.readOut -/

@[simp] theorem State.readOut_params : s.readOut.params = s.params := rfl
@[simp] theorem State.readOut_cmd : s.readOut.cmd = s.cmd := rfl
@[simp] theorem State.readOut_arg : s.readOut.arg = s.arg := rfl
@[simp] theorem State.readOut_status : s.readOut.status = s.status := rfl
@[simp] theorem State.readOut_errInfo : s.readOut.errInfo = s.errInfo := rfl
@[simp] theorem State.readOut_errOp : s.readOut.errOp = s.errOp := rfl
@[simp] theorem State.readOut_nodeCount : s.readOut.nodeCount = s.nodeCount := rfl
@[simp] theorem State.readOut_leafCount : s.readOut.leafCount = s.leafCount := rfl
@[simp] theorem State.readOut_resSym : s.readOut.resSym = s.resSym := rfl
@[simp] theorem State.readOut_resLen : s.readOut.resLen = s.resLen := rfl
@[simp] theorem State.readOut_resWlo : s.readOut.resWlo = s.resWlo := rfl
@[simp] theorem State.readOut_resWhi : s.readOut.resWhi = s.resWhi := rfl
@[simp] theorem State.readOut_resNode : s.readOut.resNode = s.resNode := rfl
@[simp] theorem State.readOut_resCode : s.readOut.resCode = s.resCode := rfl
@[simp] theorem State.readOut_freq : s.readOut.freq = s.freq := rfl
@[simp] theorem State.readOut_nodes : s.readOut.nodes = s.nodes := rfl
@[simp] theorem State.readOut_codes : s.readOut.codes = s.codes := rfl
@[simp] theorem State.readOut_inCh : s.readOut.inCh = s.inCh := rfl
@[simp] theorem State.readOut_outCh : s.readOut.outCh = s.outCh := rfl
@[simp] theorem State.readOut_log : s.readOut.log = s.log := rfl
@[simp] theorem State.readOut_accArg : s.readOut.accArg = s.accArg := rfl
@[simp] theorem State.readOut_accStatus : s.readOut.accStatus = s.accStatus := rfl
@[simp] theorem State.readOut_host : s.readOut.host = s.host := rfl
@[simp] theorem State.readOut_readLog : s.readOut.readLog = s.readLog := rfl
@[simp] theorem State.readOut_inLink : s.readOut.inLink = s.inLink := rfl
@[simp] theorem State.readOut_outReads :
    s.readOut.outReads =
      s.outReads ++ [{
        bits := s.outCh.bits,
        image := if s.outCh.closed then some (byteImage s.params.pad s.outCh.bits) else none }] := rfl
@[simp] theorem State.readOut_io : s.readOut.io = s.io := rfl
@[simp] theorem State.readOut_draws : s.readOut.draws = s.draws := rfl

/-! ### State.markInDue -/

@[simp] theorem State.markInDue_params (i : Instr) : (s.markInDue i).params = s.params := by cases i <;> rfl
@[simp] theorem State.markInDue_cmd (i : Instr) : (s.markInDue i).cmd = s.cmd := by cases i <;> rfl
@[simp] theorem State.markInDue_arg (i : Instr) : (s.markInDue i).arg = s.arg := by cases i <;> rfl
@[simp] theorem State.markInDue_status (i : Instr) : (s.markInDue i).status = s.status := by cases i <;> rfl
@[simp] theorem State.markInDue_errInfo (i : Instr) : (s.markInDue i).errInfo = s.errInfo := by cases i <;> rfl
@[simp] theorem State.markInDue_errOp (i : Instr) : (s.markInDue i).errOp = s.errOp := by cases i <;> rfl
@[simp] theorem State.markInDue_nodeCount (i : Instr) :
    (s.markInDue i).nodeCount =
      s.nodeCount := by cases i <;> rfl
@[simp] theorem State.markInDue_leafCount (i : Instr) :
    (s.markInDue i).leafCount =
      s.leafCount := by cases i <;> rfl
@[simp] theorem State.markInDue_resSym (i : Instr) : (s.markInDue i).resSym = s.resSym := by cases i <;> rfl
@[simp] theorem State.markInDue_resLen (i : Instr) : (s.markInDue i).resLen = s.resLen := by cases i <;> rfl
@[simp] theorem State.markInDue_resWlo (i : Instr) : (s.markInDue i).resWlo = s.resWlo := by cases i <;> rfl
@[simp] theorem State.markInDue_resWhi (i : Instr) : (s.markInDue i).resWhi = s.resWhi := by cases i <;> rfl
@[simp] theorem State.markInDue_resNode (i : Instr) : (s.markInDue i).resNode = s.resNode := by cases i <;> rfl
@[simp] theorem State.markInDue_resCode (i : Instr) : (s.markInDue i).resCode = s.resCode := by cases i <;> rfl
@[simp] theorem State.markInDue_freq (i : Instr) : (s.markInDue i).freq = s.freq := by cases i <;> rfl
@[simp] theorem State.markInDue_nodes (i : Instr) : (s.markInDue i).nodes = s.nodes := by cases i <;> rfl
@[simp] theorem State.markInDue_codes (i : Instr) : (s.markInDue i).codes = s.codes := by cases i <;> rfl
@[simp] theorem State.markInDue_inCh (i : Instr) : (s.markInDue i).inCh = s.inCh := by cases i <;> rfl
@[simp] theorem State.markInDue_outCh (i : Instr) : (s.markInDue i).outCh = s.outCh := by cases i <;> rfl
@[simp] theorem State.markInDue_log (i : Instr) : (s.markInDue i).log = s.log := by cases i <;> rfl
@[simp] theorem State.markInDue_accArg (i : Instr) : (s.markInDue i).accArg = s.accArg := by cases i <;> rfl
@[simp] theorem State.markInDue_accStatus (i : Instr) :
    (s.markInDue i).accStatus =
      s.accStatus := by cases i <;> rfl
@[simp] theorem State.markInDue_host (i : Instr) : (s.markInDue i).host = s.host := by cases i <;> rfl
@[simp] theorem State.markInDue_readLog (i : Instr) : (s.markInDue i).readLog = s.readLog := by cases i <;> rfl
@[simp] theorem State.markInDue_inLink (i : Instr) :
    (s.markInDue i).inLink =
      if i = .compress ∨ i = .decompress then .due else s.inLink := by cases i <;> simp [State.markInDue]
@[simp] theorem State.markInDue_outReads (i : Instr) : (s.markInDue i).outReads = s.outReads := by cases i <;> rfl
@[simp] theorem State.markInDue_io (i : Instr) : (s.markInDue i).io = s.io := by cases i <;> rfl
@[simp] theorem State.markInDue_draws (i : Instr) : (s.markInDue i).draws = s.draws := by cases i <;> rfl

end Sys2Proof.Machine
end

