-- ==== Sys2Proof/Laws/Body.lean ====
section
/-! SUPPORT. How the steps of a command body compute, and every way a command can end. -/

namespace Sys2Proof.Machine

variable {α β : Type}

@[simp] theorem Body.bind_apply (m : Body α) (f : α → Body β) (s : State) :
    (m >>= f) s = match m s with
      | .ok a t => f a t
      | .error e t => .error e t := by
  show EStateM.bind m f s = _
  unfold EStateM.bind
  cases m s <;> rfl

@[simp] theorem Body.pure_apply (a : α) (s : State) : (pure a : Body α) s = .ok a s := rfl

@[simp] theorem Body.get_apply (s : State) : (get : Body State) s = .ok s s := rfl

@[simp] theorem Body.set_apply (t s : State) : (set t : Body PUnit) s = .ok ⟨⟩ t := rfl

@[simp] theorem Body.modify_apply (f : State → State) (s : State) : (modify f : Body PUnit) s = .ok ⟨⟩ (f s) := rfl

@[simp] theorem raise_apply (e : Err) (info : Word) (s : State) :
    (raise e info : Body α) s = .error (.raised e info) s := rfl

@[simp] theorem stuck_apply (f : Fault) (s : State) : (stuck f : Body α) s = .error (.stuck f) s := rfl

@[simp] theorem require_true (sub : ReadySub) : require true sub = pure () := rfl

@[simp] theorem require_false (sub : ReadySub) : require false sub = raise (.notReady sub) 0#32 := rfl

theorem requireTree_apply (s : State) :
    requireTree s = if s.status.treeValid then .ok () s else .error (.raised (.notReady .noTree) 0#32) s := by
  cases h : s.status.treeValid <;> simp [requireTree, h]

theorem requireCodes_apply (s : State) :
    requireCodes s = if s.status.codesValid then .ok () s else .error (.raised (.notReady .noCodes) 0#32) s := by
  cases h : s.status.codesValid <;> simp [requireCodes, h]

theorem checkIo_apply (sub : IoSub) (r : IoReply) (s : State) :
    checkIo sub r s = match r with
      | .ok => .ok () s
      | .ioErr e => .error (.raised (.ioError sub) e) s := by
  cases r <;> rfl

/-- Every way a primitive command reaches a next state. -/
theorem runCommand_next {op : Opcode} {body : Body Unit} {s t : State} (h : runCommand op body s = .next t) :
    (∃ u, body s = .ok () u ∧ t = u.complete) ∨
    (∃ e info u, body s = .error (.raised e info) u ∧ t = u.raise e info op) ∨
    (∃ u, body s = .error .cut u ∧ t = u.hardReset) := by
  unfold runCommand finish at h
  split at h
  · exact .inl ⟨_, by assumption, (Host.Outcome.next.inj h).symm⟩
  · exact .inr (.inl ⟨_, _, _, by assumption, (Host.Outcome.next.inj h).symm⟩)
  · cases h
  · exact .inr (.inr ⟨_, by assumption, (Host.Outcome.next.inj h).symm⟩)

theorem runCommand_ok {op : Opcode} {body : Body Unit} {s u : State} (h : body s = .ok () u) :
    runCommand op body s = .next u.complete := by
  simp [runCommand, finish, h]

theorem runCommand_raised {op : Opcode} {body : Body Unit} {s u : State} {e : Err} {info : Word}
    (h : body s = .error (.raised e info) u) : runCommand op body s = .next (u.raise e info op) := by
  simp [runCommand, finish, h]

theorem runCommand_cut {op : Opcode} {body : Body Unit} {s u : State} (h : body s = .error .cut u) :
    runCommand op body s = .next u.hardReset := by
  simp [runCommand, finish, h]

theorem runSteps_nil (s : State) : runSteps [] s = .next s.complete := rfl

theorem runSteps_ok {op : Opcode} {body : Body Unit} {rest : List (Opcode × Body Unit)} {s t : State}
    (h : body s = .ok () t) : runSteps ((op, body) :: rest) s = runSteps rest t := by
  simp [runSteps, h]

theorem runSteps_raised {op : Opcode} {body : Body Unit} {rest : List (Opcode × Body Unit)} {s t : State}
    {e : Err} {info : Word} (h : body s = .error (.raised e info) t) :
    runSteps ((op, body) :: rest) s = errorPath op e info t := by
  simp [runSteps, h]

/-- Steps that succeed one after the other lead to the steps after them (46_orchestration R720, R730). -/
theorem runsTo_runSteps {before rest : List (Opcode × Body Unit)} {s u : State} (h : runsTo before s u) :
    runSteps (before ++ rest) s = runSteps rest u := by
  induction before generalizing s with
  | nil => rw [List.nil_append, show u = s from h]
  | cons b before ih =>
    obtain ⟨v, hv, h⟩ := h
    rw [List.cons_append, runSteps_ok hv, ih h]

theorem nodesLostOnError_ok {body : Body Unit} {s t : State} (h : body s = .ok () t) :
    nodesLostOnError body s = .ok () t := by
  simp [nodesLostOnError, h]

theorem nodesLostOnError_raised {body : Body Unit} {s t : State} {e : Err} {info : Word}
    (h : body s = .error (.raised e info) t) : nodesLostOnError body s = .error (.raised e info) t.freeNodes := by
  simp [nodesLostOnError, h]

end Sys2Proof.Machine
end

