-- ==== Sys2Proof/Laws/Channel.lean ====
section
/-! SUPPORT. The four channel calls: everything each can do, and what it does when no failure is drawn. -/

namespace Sys2Proof.Machine

/-- `t` differs from `s` in the channels and the environment's draws only, as channel calls allow: IN's bits are the
same and its position stays inside them, OUT only grows and is never reopened, draws are only taken. -/
structure ChannelStep (s t : State) : Prop where
  only : t = { s with inCh := t.inCh, outCh := t.outCh, io := t.io, draws := t.draws }
  in_bits : t.inCh.bits = s.inCh.bits
  in_pos : s.inCh.pos ≤ s.inCh.bits.length → t.inCh.pos ≤ t.inCh.bits.length
  out_grows : s.outCh.bits <+: t.outCh.bits
  stays_closed : s.outCh.closed = true → t.outCh.closed = true
  io_taken : t.io <:+ s.io

theorem ChannelStep.refl (s : State) : ChannelStep s s :=
  ⟨rfl, rfl, id, List.prefix_rfl, id, List.suffix_rfl⟩

theorem ChannelStep.trans {s t u : State} (h : ChannelStep s t) (k : ChannelStep t u) : ChannelStep s u where
  only := by rw [k.only, h.only]
  in_bits := k.in_bits.trans h.in_bits
  in_pos := fun p => k.in_pos (h.in_pos p)
  out_grows := h.out_grows.trans k.out_grows
  stays_closed := fun p => k.stays_closed (h.stays_closed p)
  io_taken := k.io_taken.trans h.io_taken

theorem State.ioClear.noReset {s : State} (h : s.ioClear) : s.noReset := fun d hd => by rw [h d hd]; decide

theorem ChannelStep.noReset {s t : State} (h : ChannelStep s t) (hs : s.noReset) : t.noReset :=
  fun d hd => hs d (h.io_taken.subset hd)

theorem ChannelStep.ioClear {s t : State} (h : ChannelStep s t) (hs : s.ioClear) : t.ioClear :=
  fun d hd => hs d (h.io_taken.subset hd)

/-- A state after a body's step, however the step ended. -/
def resultState {α : Type} : EStateM.Result Stop State α → State
  | .ok _ t => t
  | .error _ t => t

theorem readBits_step (s : State) (n : Nat) : ChannelStep s (s.readBits n).2 := by
  unfold State.readBits
  split
  · exact ⟨rfl, rfl, fun _ => by simpa, List.prefix_rfl, id, List.suffix_rfl⟩
  · split
    · exact .refl s
    · exact ⟨rfl, rfl, fun _ => le_rfl, List.prefix_rfl, id, List.suffix_rfl⟩

theorem loseInPos_step (s : State) : ChannelStep s s.loseInPos :=
  ⟨rfl, rfl, fun _ => Nat.le_of_lt_succ (Nat.mod_lt _ (Nat.succ_pos _)), List.prefix_rfl, id, List.suffix_rfl⟩

theorem takeDraw_step {s : State} {d : IoDraw} {io : List IoDraw} (h : s.io = d :: io) :
    ChannelStep s { s with io := io } :=
  ⟨rfl, rfl, id, List.prefix_rfl, id, by rw [h]; exact List.suffix_cons d io⟩

theorem State.takeDraw_step (s : State) : ChannelStep s s.takeDraw :=
  ⟨rfl, rfl, id, List.prefix_rfl, id, List.tail_suffix _⟩

theorem outGrow_step (s : State) (p : Bits) :
    ChannelStep s { s with outCh := { s.outCh with bits := s.outCh.bits ++ p } } :=
  ⟨rfl, rfl, id, List.prefix_append _ _, id, List.suffix_rfl⟩

theorem extendOutFreely_step (s : State) : ChannelStep s s.extendOutFreely :=
  ⟨rfl, rfl, id, List.prefix_append _ _, id, List.suffix_rfl⟩

theorem closedAnswer_step (s : State) (p : ClosedPolicy) : ChannelStep s (s.closedAnswer p).2 := by
  cases p
  · exact .refl s
  · exact ⟨rfl, rfl, id, List.prefix_rfl, id, List.suffix_rfl⟩

theorem writeClosed_step (s : State) (n v : Nat) : ChannelStep s (s.writeClosed n v).2 := by
  have h := closedAnswer_step s s.params.afterCloseWrite
  unfold State.writeClosed
  split <;> rename_i heq <;> rw [heq] at h
  · exact h.trans (outGrow_step _ _)
  · exact h
  · exact h.trans (extendOutFreely_step _)

theorem closeClosed_step (s : State) : ChannelStep s s.closeClosed.2 := by
  have h := closedAnswer_step s s.params.afterCloseClose
  unfold State.closeClosed
  split <;> rename_i heq <;> rw [heq] at h <;> exact h

/-- InRead changes nothing but the channels, and stops only for a hardware reset that was drawn. -/
theorem inRead_step (n : Nat) (s : State) : ChannelStep s (resultState (inRead n s)) := by
  unfold inRead
  split <;> rename_i h
  · exact takeDraw_step h
  · exact (takeDraw_step h).trans (loseInPos_step _)
  · exact (takeDraw_step h).trans (readBits_step _ _)
  · exact readBits_step _ _

/-- InReset changes nothing but the channels. -/
theorem inReset_step (s : State) : ChannelStep s (resultState (inReset s)) := by
  have rewind : ∀ u : State, ChannelStep u { u with inCh := { u.inCh with pos := 0 } } :=
    fun u => ⟨rfl, rfl, fun _ => Nat.zero_le _, List.prefix_rfl, id, List.suffix_rfl⟩
  unfold inReset
  split <;> rename_i h
  · exact takeDraw_step h
  · exact (takeDraw_step h).trans (loseInPos_step _)
  · exact (takeDraw_step h).trans (rewind _)
  · exact rewind _

/-- OutWrite changes nothing but the channels. -/
theorem outWrite_step (n v : Nat) (s : State) : ChannelStep s (resultState (outWrite n v s)) := by
  unfold outWrite
  split
  · exact takeDraw_step (by assumption)
  · exact s.takeDraw_step.trans (writeClosed_step _ _ _)
  · exact (takeDraw_step (by assumption)).trans (extendOutFreely_step _)
  · exact (takeDraw_step (by assumption)).trans (outGrow_step _ _)
  · exact outGrow_step _ _

/-- OutClose changes nothing but the channels. -/
theorem outClose_step (s : State) : ChannelStep s (resultState (outClose s)) := by
  have close : ∀ u : State, ChannelStep u { u with outCh := { u.outCh with closed := true } } :=
    fun u => ⟨rfl, rfl, id, List.prefix_rfl, fun _ => rfl, List.suffix_rfl⟩
  unfold outClose
  split
  · exact takeDraw_step (by assumption)
  · exact s.takeDraw_step.trans (closeClosed_step _)
  · exact takeDraw_step (by assumption)
  · exact (takeDraw_step (by assumption)).trans (close _)
  · exact close _

/-- A read or a rewind leaves OUT (20_memory R210, R211). -/
theorem inRead_outCh (n : Nat) (s : State) : (resultState (inRead n s)).outCh = s.outCh := by
  have key : ∀ u : State, (u.readBits n).2.outCh = u.outCh := by
    intro u
    unfold State.readBits
    split
    · rfl
    · split <;> rfl
  unfold inRead
  split
  · rfl
  · rfl
  · exact key _
  · exact key _

theorem inReset_outCh (s : State) : (resultState (inReset s)).outCh = s.outCh := by
  unfold inReset
  split <;> rfl

/-- A write or a close leaves IN (20_memory R212, R213). -/
theorem outWrite_inCh (n v : Nat) (s : State) : (resultState (outWrite n v s)).inCh = s.inCh := by
  have key : ∀ u : State, (u.writeClosed n v).2.inCh = u.inCh := by
    intro u
    have h : ∀ p, (u.closedAnswer p).2.inCh = u.inCh := fun p => by cases p <;> rfl
    unfold State.writeClosed
    split <;> rename_i heq <;> have := h u.params.afterCloseWrite <;> rw [heq] at this <;> exact this
  unfold outWrite
  split
  · rfl
  · exact key _
  · rfl
  · rfl
  · rfl

theorem outClose_inCh (s : State) : (resultState (outClose s)).inCh = s.inCh := by
  have key : ∀ u : State, u.closeClosed.2.inCh = u.inCh := by
    intro u
    have h : ∀ p, (u.closedAnswer p).2.inCh = u.inCh := fun p => by cases p <;> rfl
    unfold State.closeClosed
    split <;> rename_i heq <;> have := h u.params.afterCloseClose <;> rw [heq] at this <;> exact this
  unfold outClose
  split
  · rfl
  · exact key _
  · rfl
  · rfl
  · rfl

theorem not_noReset {s : State} {io : List IoDraw} (h : s.io = .reset :: io) : ¬ s.noReset :=
  fun hn => hn .reset (by simp [h]) rfl

/-- A channel call stops a body only when a hardware reset was drawn. -/
theorem inRead_error {n : Nat} {s t : State} {e : Stop} (h : inRead n s = .error e t) : e = .cut ∧ ¬ s.noReset := by
  unfold inRead at h
  split at h <;> cases h
  exact ⟨rfl, not_noReset (by assumption)⟩

theorem inReset_error {s t : State} {e : Stop} (h : inReset s = .error e t) : e = .cut ∧ ¬ s.noReset := by
  unfold inReset at h
  split at h <;> cases h
  exact ⟨rfl, not_noReset (by assumption)⟩

theorem outWrite_error {n v : Nat} {s t : State} {e : Stop} (h : outWrite n v s = .error e t) :
    e = .cut ∧ ¬ s.noReset := by
  unfold outWrite at h
  split at h <;> cases h
  exact ⟨rfl, not_noReset (by assumption)⟩

theorem outClose_error {s t : State} {e : Stop} (h : outClose s = .error e t) : e = .cut ∧ ¬ s.noReset := by
  unfold outClose at h
  split at h <;> cases h
  exact ⟨rfl, not_noReset (by assumption)⟩

theorem readBits_val {s : State} {n v : Nat} (h : (s.readBits n).1 = .val v) : v < 2 ^ n := by
  unfold State.readBits at h
  split at h
  · cases h
    refine (val_lt _).trans_le (Nat.pow_le_pow_right (by norm_num) ?_)
    simp
  · split at h <;> cases h

/-- A value read has the width asked for (20_memory R210). -/
theorem inRead_val {n v : Nat} {s t : State} (h : inRead n s = .ok (.val v) t) : v < 2 ^ n := by
  unfold inRead at h
  split at h
  · cases h
  · cases h
  · injection h with h1 h2
    exact readBits_val h1
  · injection h with h1 h2
    exact readBits_val h1

theorem readIn_val {n v : Nat} {s t : State} (h : readIn n s = .ok (some v) t) : v < 2 ^ n := by
  unfold readIn at h
  rw [Body.bind_apply] at h
  cases hr : inRead n s with
  | error e u => rw [hr] at h; cases h
  | ok r u =>
    rw [hr] at h
    cases r with
    | val w => cases h; exact inRead_val hr
    | eof => cases h
    | ioErr e => cases h

/-! ## When no failure is drawn -/

theorem ioClear_tail {s : State} (h : s.ioClear) : ∀ d ∈ s.io.tail, d = .pass :=
  fun d hd => h d (List.mem_of_mem_tail hd)

theorem ioClear_cases {s : State} (h : s.ioClear) : s.io = [] ∨ ∃ io, s.io = .pass :: io := by
  cases hio : s.io with
  | nil => exact .inl rfl
  | cons d io => exact .inr ⟨io, by rw [h d (by simp [hio])]⟩

/-- InRead when no failure is drawn. -/
theorem inRead_clear {s : State} (h : s.ioClear) (n : Nat) :
    inRead n s = .ok ({ s with io := s.io.tail }.readBits n).1 ({ s with io := s.io.tail }.readBits n).2 := by
  obtain hio | ⟨io, hio⟩ := ioClear_cases h
  · have : ({ s with io := s.io.tail } : State) = s := by rw [hio, List.tail_nil, ← hio]
    simp only [this]
    simp [inRead, hio]
  · simp [inRead, hio]

/-- A read of `n` bits that are there. -/
theorem readIn_some {s : State} (h : s.ioClear) {n : Nat} (hn : s.inCh.pos + n ≤ s.inCh.bits.length) :
    readIn n s = .ok (some (val (s.inRest.take n)))
      { s with io := s.io.tail, inCh := { s.inCh with pos := s.inCh.pos + n } } := by
  simp [readIn, inRead_clear h, State.readBits, hn, State.inRest]

/-- A read of `n` bits that are not all there. -/
theorem readIn_eof {s : State} (h : s.ioClear) {n : Nat} (hn : s.inCh.bits.length < s.inCh.pos + n) :
    readIn n s = .ok none
      { s with io := s.io.tail,
               inCh := { s.inCh with pos := match s.params.inEofPos with
                                            | .keep => s.inCh.pos
                                            | .toEnd => s.inCh.bits.length } } := by
  have hn' : ¬ s.inCh.pos + n ≤ s.inCh.bits.length := by omega
  simp only [readIn, inRead_clear h, State.readBits, Body.bind_apply, if_neg hn']
  cases s.params.inEofPos <;> rfl

/-- A write of `n` bits to an open OUT. -/
theorem outWrite_open {s : State} (h : s.ioClear) (ho : s.outCh.closed = false) (n v : Nat) :
    outWrite n v s = .ok .ok
      { s with io := s.io.tail, outCh := { s.outCh with bits := s.outCh.bits ++ msb n v } } := by
  obtain hio | ⟨io, hio⟩ := ioClear_cases h <;> simp [outWrite, hio, ho]

theorem writeOut_open {s : State} (h : s.ioClear) (ho : s.outCh.closed = false) (n v : Nat) :
    writeOut n v s = .ok ()
      { s with io := s.io.tail, outCh := { s.outCh with bits := s.outCh.bits ++ msb n v } } := by
  simp [writeOut, outWrite_open h ho, checkIo_apply]

/-- A close of an open OUT. -/
theorem outClose_open {s : State} (h : s.ioClear) (ho : s.outCh.closed = false) :
    outClose s = .ok .ok { s with io := s.io.tail, outCh := { s.outCh with closed := true } } := by
  obtain hio | ⟨io, hio⟩ := ioClear_cases h <;> simp [outClose, hio, ho]

theorem closedAnswer_io (s : State) (p : ClosedPolicy) : (s.closedAnswer p).2.io = s.io := by cases p <;> rfl

theorem writeClosed_io (s : State) (n v : Nat) : (s.writeClosed n v).2.io = s.io := by
  have h := closedAnswer_io s s.params.afterCloseWrite
  unfold State.writeClosed
  split <;> rename_i heq <;> rw [heq] at h <;> exact h

theorem closeClosed_io (s : State) : s.closeClosed.2.io = s.io := by
  have h := closedAnswer_io s s.params.afterCloseClose
  unfold State.closeClosed
  split <;> rename_i heq <;> rw [heq] at h <;> exact h

/-- A write to a closed OUT, before which no hardware reset is drawn, takes one draw and answers by OUT_AFTER_CLOSE. -/
theorem outWrite_closed {s : State} (h : ∀ io, s.io ≠ .reset :: io) (hc : s.outCh.closed = true) (n v : Nat) :
    outWrite n v s = .ok (s.takeDraw.writeClosed n v).1 (s.takeDraw.writeClosed n v).2 ∧
      (s.takeDraw.writeClosed n v).2.io = s.io.tail := by
  refine ⟨?_, writeClosed_io _ n v⟩
  unfold outWrite
  split
  · exact absurd (by assumption) (h _)
  · rfl
  all_goals simp_all

/-- The same for a close. -/
theorem outClose_closed {s : State} (h : ∀ io, s.io ≠ .reset :: io) (hc : s.outCh.closed = true) :
    outClose s = .ok s.takeDraw.closeClosed.1 s.takeDraw.closeClosed.2 ∧ s.takeDraw.closeClosed.2.io = s.io.tail := by
  refine ⟨?_, closeClosed_io _⟩
  unfold outClose
  split
  · exact absurd (by assumption) (h _)
  · rfl
  all_goals simp_all

/-- A rewind. -/
theorem inReset_clear {s : State} (h : s.ioClear) :
    inReset s = .ok .ok { s with io := s.io.tail, inCh := { s.inCh with pos := 0 } } := by
  obtain hio | ⟨io, hio⟩ := ioClear_cases h <;> simp [inReset, hio]

/-- A sequence of writes to an open OUT appends their bits in order (20_memory R220). -/
theorem writeAll_open (ws : List (Nat × Nat)) {s : State} (h : s.ioClear) (ho : s.outCh.closed = false) :
    writeAll ws s = .ok ()
      { s with io := s.io.drop ws.length,
               outCh := { s.outCh with bits := s.outCh.bits ++ ws.flatMap fun w => msb w.1 w.2 } } := by
  induction ws generalizing s with
  | nil => simp [writeAll]
  | cons w ws ih =>
    obtain ⟨n, v⟩ := w
    have hc : ({ s with io := s.io.tail,
                        outCh := { s.outCh with bits := s.outCh.bits ++ msb n v } } : State).ioClear :=
      ioClear_tail h
    simp only [writeAll, Body.bind_apply, writeOut_open h ho]
    rw [ih hc ho]
    simp [List.append_assoc]

end Sys2Proof.Machine
end

