-- ==== Sys2Proof/Laws/Tables.lean ====
section
/-! SUPPORT. Reads after writes in FREQ, NODE and CODE. -/

namespace Sys2Proof.Machine

theorem resetFreq_get (b : Nat) : resetFreq[b]?.getD 0#32 = if b = 256 then 1#32 else 0#32 := by
  by_cases h : b = 256
  · subst h; rfl
  · have e : resetFreq[b]? = (Vector.replicate 257 0#32)[b]? := by
      unfold resetFreq
      rw [Vector.getElem?_set_ne _ (fun e => h e.symm)]
    rw [e, if_neg h, Vector.getElem?_replicate]
    split <;> rfl

/-- A count written is read back; the other counts stay (10_state R120). -/
theorem freqAt_setFreq (s : State) (i j : Nat) (c : Word) (hi : i < 257) :
    (s.setFreq i c).freqAt j = if j = i then c else s.freqAt j := by
  unfold State.freqAt State.setFreq
  dsimp only
  rw [Vector.getElem?_setIfInBounds]
  by_cases h : i = j
  · subst h; simp [hi]
  · rw [if_neg h, if_neg fun e => h e.symm]

/-- A node written is read back; the other slots stay (10_state R121). -/
theorem getElem?_setNode (s : State) (i j : Nat) (nd : Node) (hi : i < 513) :
    (s.setNode i nd).nodes[j]? = if j = i then some nd else s.nodes[j]? := by
  unfold State.setNode
  dsimp only
  rw [Vector.getElem?_setIfInBounds]
  by_cases h : i = j
  · subst h; simp [hi]
  · rw [if_neg h, if_neg fun e => h e.symm]

/-- The code of a symbol in a table with one entry replaced (10_state R122). -/
theorem codes_set (codes : Vector CodeEntry 257) (i j : Nat) (e : CodeEntry) (hi : i < 257) :
    ((codes.setIfInBounds i e)[j]?).getD CodeEntry.none = if j = i then e else codes[j]?.getD CodeEntry.none := by
  rw [Vector.getElem?_setIfInBounds]
  by_cases h : i = j
  · subst h; simp [hi]
  · rw [if_neg h, if_neg fun e => h e.symm]

end Sys2Proof.Machine
end

