-- ==== Sys2Proof/Laws/Tree.lean ====
section
/-! SUPPORT. The tree that NODE holds: what the traversals of GEN_CODES, SERIALIZE_HEADER and the decode walk do on it,
and the paths of its leaves. -/

namespace Sys2Proof.Machine

/-! ## Trees in slots -/

theorem treeAt_leaf {nodes : Vector Node 513} {i : Nat} {sym : BitVec 9} {w : BitVec 41}
    (h : nodes[i]? = some (.leaf sym w)) (k : Nat) : treeAt nodes (k + 1) i = some (.leaf sym) := by
  simp [treeAt, h]

theorem treeAt_internal {nodes : Vector Node 513} {i k : Nat} {w : BitVec 41} {l r : BitVec 10} {tl tr : HTree}
    (h : nodes[i]? = some (.internal w l r)) (hl : treeAt nodes k l.toNat = some tl)
    (hr : treeAt nodes k r.toNat = some tr) : treeAt nodes (k + 1) i = some (.node tl tr) := by
  simp [treeAt, h, hl, hr]

/-- Every way a slot holds a tree. -/
theorem treeAt_cases {nodes : Vector Node 513} {k i : Nat} {T : HTree} (h : treeAt nodes (k + 1) i = some T) :
    (∃ sym w, nodes[i]? = some (.leaf sym w) ∧ T = .leaf sym) ∨
    (∃ w l r tl tr, nodes[i]? = some (.internal w l r) ∧ treeAt nodes k l.toNat = some tl ∧
      treeAt nodes k r.toNat = some tr ∧ T = .node tl tr) := by
  simp only [treeAt] at h
  split at h
  · cases h
  · cases h; exact .inl ⟨_, _, by assumption, rfl⟩
  · split at h
    · cases h; exact .inr ⟨_, _, _, _, _, by assumption, by assumption, by assumption, rfl⟩
    · cases h

/-- A bound that is large enough stays so. -/
theorem treeAt_mono {nodes : Vector Node 513} {k i : Nat} {T : HTree} (h : treeAt nodes k i = some T) {m : Nat}
    (hm : k ≤ m) : treeAt nodes m i = some T := by
  induction k generalizing i T m with
  | zero => cases h
  | succ k ih =>
    obtain ⟨m, rfl⟩ := Nat.exists_eq_add_of_lt (Nat.lt_of_succ_le hm)
    obtain ⟨sym, w, hn, rfl⟩ | ⟨w, l, r, tl, tr, hn, hl, hr, rfl⟩ := treeAt_cases h
    · exact treeAt_leaf hn _
    · exact treeAt_internal hn (ih hl (by omega)) (ih hr (by omega))

/-! ## Traversals -/

/-- GEN_CODES' traversal (43_code_table R550): the leaves from left to right, each written over what was there. -/
theorem visit_tree {nodes : Vector Node 513} {k i : Nat} {T : HTree} (h : treeAt nodes k i = some T)
    (hsym : ∀ q ∈ T.paths, q.1.toNat ≤ 256) (p : Bits) (codes : Vector CodeEntry 257) :
    visit nodes k i p codes =
      some (T.paths.foldl (fun c q => c.setIfInBounds q.1.toNat (CodeEntry.ofPath (p ++ q.2))) codes) := by
  induction k generalizing i T p codes with
  | zero => cases h
  | succ k ih =>
    obtain ⟨sym, w, hn, rfl⟩ | ⟨w, l, r, tl, tr, hn, hl, hr, rfl⟩ := treeAt_cases h
    · have hs : sym.toNat < 257 := Nat.lt_succ_of_le (hsym (sym, []) (by simp [HTree.paths]))
      simp [visit, hn, Config.nsym, hs, HTree.paths]
    · have hl' := ih hl (fun q hq => hsym (q.1, false :: q.2) (by
        simp only [HTree.paths, List.mem_append, List.mem_map]; exact .inl ⟨q, hq, rfl⟩))
      have hr' := ih hr (fun q hq => hsym (q.1, true :: q.2) (by
        simp only [HTree.paths, List.mem_append, List.mem_map]; exact .inr ⟨q, hq, rfl⟩))
      simp only [visit, hn, hl', hr', HTree.paths, List.foldl_append, List.foldl_map, List.append_assoc,
        List.cons_append, List.nil_append]

/-- SERIALIZE_HEADER's traversal (44_header_codec R610) writes the preorder header. -/
theorem serWrites_tree {nodes : Vector Node 513} {k i : Nat} {T : HTree} (h : treeAt nodes k i = some T) :
    ∃ ws, serWrites nodes k i = some ws ∧ (ws.flatMap fun w => msb w.1 w.2) = T.header := by
  induction k generalizing i T with
  | zero => cases h
  | succ k ih =>
    obtain ⟨sym, w, hn, rfl⟩ | ⟨w, l, r, tl, tr, hn, hl, hr, rfl⟩ := treeAt_cases h
    · refine ⟨[(1, 1), (9, sym.toNat)], by simp [serWrites, hn], ?_⟩
      simp [HTree.header, msb]
    · obtain ⟨wl, hwl, el⟩ := ih hl
      obtain ⟨wr, hwr, er⟩ := ih hr
      refine ⟨(1, 0) :: (wl ++ wr), by simp [serWrites, hn, hwl, hwr], ?_⟩
      simp only [List.flatMap_cons, List.flatMap_append, el, er, HTree.header]
      simp [msb]

/-- What the decode walk leaves: everything but IN's position and the draws of the reads. -/
structure ReadTo (s u : State) : Prop where
  only : u = { s with io := u.io, inCh := { s.inCh with pos := u.inCh.pos } }
  clear : u.ioClear
  pos_le : u.inCh.pos ≤ u.inCh.bits.length

theorem inRest_drop {s u : State} (hb : u.inCh.bits = s.inCh.bits) (n : Nat) (hp : u.inCh.pos = s.inCh.pos + n) :
    u.inRest = s.inRest.drop n := by
  simp [State.inRest, hb, hp, List.drop_drop]

theorem inRest_length (s : State) : s.inRest.length = s.inLeft := by simp [State.inRest, State.inLeft]

/-- Reads that are there, in terms of what is left of IN. -/
theorem readIn_rest {s : State} (h : s.ioClear) {n : Nat} (hn : n ≤ s.inRest.length)
    (hp : s.inCh.pos ≤ s.inCh.bits.length) :
    ∃ u, readIn n s = .ok (some (val (s.inRest.take n))) u ∧ ReadTo s u ∧ u.inRest = s.inRest.drop n := by
  rw [inRest_length, State.inLeft] at hn
  refine ⟨_, readIn_some h (by omega), ⟨rfl, ioClear_tail h, ?_⟩, ?_⟩
  · show s.inCh.pos + n ≤ s.inCh.bits.length
    omega
  · simp [State.inRest, List.drop_drop]

/-- A one-bit read when a bit is left. -/
theorem readBit {s : State} (h : s.ioClear) (hp : s.inCh.pos ≤ s.inCh.bits.length) {b : Bool} {p : Bits}
    (hr : s.inRest = b :: p) :
    ∃ u, readIn 1 s = .ok (some b.toNat) u ∧ ReadTo s u ∧ u.inRest = p := by
  obtain ⟨u, hu, hto, hrest⟩ := readIn_rest h (n := 1) (by rw [hr]; simp) hp
  rw [hr] at hu hrest
  exact ⟨u, by simpa [val] using hu, hto, by simpa using hrest⟩

/-- A one-bit read when none is left. -/
theorem readBit_eof {s : State} (h : s.ioClear) (hr : s.inRest = []) (hp : s.inCh.pos ≤ s.inCh.bits.length) :
    ∃ u, readIn 1 s = .ok none u ∧ ReadTo s u ∧ u.inRest = [] := by
  have hl : s.inLeft = 0 := by rw [← inRest_length, hr]; rfl
  rw [State.inLeft] at hl
  have hpos : s.inCh.pos = s.inCh.bits.length := by omega
  refine ⟨_, readIn_eof h (by omega), ⟨rfl, ioClear_tail h, ?_⟩, ?_⟩
  · dsimp only; split <;> omega
  · dsimp only [State.inRest]
    cases s.params.inEofPos <;> simp [hpos]

theorem ReadTo.refl {s : State} (h : s.ioClear) (hp : s.inCh.pos ≤ s.inCh.bits.length) : ReadTo s s := ⟨rfl, h, hp⟩

theorem ReadTo.trans {s u v : State} (h : ReadTo s u) (k : ReadTo u v) : ReadTo s v :=
  ⟨by rw [k.only, h.only], k.clear, k.pos_le⟩

theorem ReadTo.eq {s u : State} (h : ReadTo s u) : ∃ io pos, u = { s with io := io, inCh := { s.inCh with pos := pos } } :=
  ⟨_, _, h.only⟩

theorem ReadTo.nodes {s u : State} (h : ReadTo s u) : u.nodes = s.nodes := by rw [h.only]

theorem ReadTo.bits {s u : State} (h : ReadTo s u) : u.inCh.bits = s.inCh.bits := by rw [h.only]

/-- The decode walk on a tree (45_payload_codec R690). -/
theorem walkFrom_tree {k f i : Nat} {T : HTree} {s : State} (h : treeAt s.nodes f i = some T) (hc : s.ioClear)
    (hp : s.inCh.pos ≤ s.inCh.bits.length) (hk : s.inRest.length < k) :
    (∀ sym rest, T.walk s.inRest = some (sym, rest) →
      ∃ u, walkFrom k i s = .ok sym u ∧ ReadTo s u ∧ u.inRest = rest) ∧
    (T.walk s.inRest = none →
      ∃ u, walkFrom k i s = .error (.raised .truncatedStream 0#32) u ∧ ReadTo s u ∧ u.inRest = []) := by
  induction f generalizing k i T s with
  | zero => cases h
  | succ f ih =>
    obtain ⟨sym, w, hn, rfl⟩ | ⟨w, l, r, tl, tr, hn, hl, hr, rfl⟩ := treeAt_cases h
    · refine ⟨fun sym' rest hw => ?_, fun hw => by simp [HTree.walk] at hw⟩
      simp only [HTree.walk, Option.some.injEq, Prod.mk.injEq] at hw
      obtain ⟨rfl, rfl⟩ := hw
      refine ⟨s, ?_, .refl hc hp, rfl⟩
      unfold walkFrom
      simp [hn]
    · obtain ⟨k, rfl⟩ : ∃ m, k = m + 1 := ⟨k - 1, by omega⟩
      have hstep : walkFrom (k + 1) i s = (readIn 1 >>= fun b => match b with
          | none => raise .truncatedStream 0#32
          | some 0 => walkFrom k l.toNat
          | some _ => walkFrom k r.toNat) s := by
        rw [walkFrom, Body.bind_apply, Body.get_apply]
        simp only [hn] <;> rfl
      rw [hstep, Body.bind_apply]
      cases hrest : s.inRest with
      | nil =>
        obtain ⟨u, hu, hto, he⟩ := readBit_eof hc hrest hp
        refine ⟨fun sym rest hw => by simp [HTree.walk] at hw, fun _ => ⟨u, ?_, hto, he⟩⟩
        simp [hu]
      | cons b p =>
        obtain ⟨u, hu, hto, he⟩ := readBit hc hp hrest
        have hk' : u.inRest.length < k := by rw [he]; rw [hrest] at hk; simpa using hk
        rw [hu]
        cases b with
        | false =>
          obtain ⟨h1, h2⟩ := ih (k := k) (i := l.toNat) (T := tl) (s := u) (hto.nodes ▸ hl) hto.clear hto.pos_le hk'
          rw [he] at h1 h2
          refine ⟨fun sym rest hw => ?_, fun hw => ?_⟩
          · obtain ⟨v, hv, hv2, hv3⟩ := h1 sym rest (by simpa [HTree.walk] using hw)
            exact ⟨v, hv, hto.trans hv2, hv3⟩
          · obtain ⟨v, hv, hv2, hv3⟩ := h2 (by simpa [HTree.walk] using hw)
            exact ⟨v, hv, hto.trans hv2, hv3⟩
        | true =>
          obtain ⟨h1, h2⟩ := ih (k := k) (i := r.toNat) (T := tr) (s := u) (hto.nodes ▸ hr) hto.clear hto.pos_le hk'
          rw [he] at h1 h2
          refine ⟨fun sym rest hw => ?_, fun hw => ?_⟩
          · obtain ⟨v, hv, hv2, hv3⟩ := h1 sym rest (by simpa [HTree.walk] using hw)
            exact ⟨v, hv, hto.trans hv2, hv3⟩
          · obtain ⟨v, hv, hv2, hv3⟩ := h2 (by simpa [HTree.walk] using hw)
            exact ⟨v, hv, hto.trans hv2, hv3⟩

/-! ## Paths -/

theorem HTree.paths_node (l r : HTree) : (HTree.node l r).paths =
    (l.paths.map fun q => (q.1, false :: q.2)) ++ (r.paths.map fun q => (q.1, true :: q.2)) := rfl

theorem HTree.length_paths (T : HTree) : T.paths.length = T.leaves := by
  induction T with
  | leaf sym => rfl
  | node l r ihl ihr => simp [HTree.paths, HTree.leaves, ihl, ihr]

theorem HTree.leaves_eq (T : HTree) : T.leaves = T.internals + 1 := by
  induction T with
  | leaf sym => rfl
  | node l r ihl ihr => simp only [HTree.leaves, HTree.internals]; omega

/-- A path is shorter than the number of leaves (43_code_table R551). -/
theorem HTree.path_length {T : HTree} {q : BitVec 9 × Bits} (h : q ∈ T.paths) : q.2.length < T.leaves := by
  induction T generalizing q with
  | leaf sym => simp only [HTree.paths, List.mem_singleton] at h; subst h; simp [HTree.leaves]
  | node l r ihl ihr =>
    have hl := l.leaves_eq
    have hr := r.leaves_eq
    simp only [HTree.paths, List.mem_append, List.mem_map] at h
    obtain ⟨q, hq, rfl⟩ | ⟨q, hq, rfl⟩ := h
    · have := ihl hq
      simp only [List.length_cons, HTree.leaves]; omega
    · have := ihr hq
      simp only [List.length_cons, HTree.leaves]; omega

/-- Walking down a leaf's path reaches that leaf (45_payload_codec R690). -/
theorem HTree.walk_path {T : HTree} {q : BitVec 9 × Bits} (h : q ∈ T.paths) (rest : Bits) :
    T.walk (q.2 ++ rest) = some (q.1, rest) := by
  induction T generalizing q with
  | leaf sym => simp only [HTree.paths, List.mem_singleton] at h; subst h; simp [HTree.walk]
  | node l r ihl ihr =>
    simp only [HTree.paths, List.mem_append, List.mem_map] at h
    obtain ⟨q, hq, rfl⟩ | ⟨q, hq, rfl⟩ := h
    · simpa [HTree.walk] using ihl hq
    · simpa [HTree.walk] using ihr hq

/-- No leaf's path starts another leaf's path. -/
theorem HTree.path_inj {T : HTree} {q q' : BitVec 9 × Bits} (h : q ∈ T.paths) (h' : q' ∈ T.paths)
    (hp : q.2 <+: q'.2) : q = q' := by
  obtain ⟨z, hz⟩ := hp
  have h1 := HTree.walk_path h z
  have h2 := HTree.walk_path h' []
  rw [hz] at h1
  rw [List.append_nil] at h2
  rw [h1] at h2
  simp only [Option.some.injEq, Prod.mk.injEq] at h2
  obtain ⟨e1, e2⟩ := h2
  subst e2
  rw [List.append_nil] at hz
  exact Prod.ext e1 hz

/-- The code of a symbol is the path of a leaf that holds it (43_code_table R550). -/
theorem HTree.codeOf_mem {T : HTree} {sym : Nat} {p : Bits} (h : T.codeOf sym = some p) :
    ∃ q ∈ T.paths, q.1.toNat = sym ∧ q.2 = p := by
  unfold HTree.codeOf at h
  rw [Option.map_eq_some_iff] at h
  obtain ⟨q, hq, rfl⟩ := h
  refine ⟨q, by simpa using List.mem_of_find?_eq_some hq, by simpa using List.find?_some hq, rfl⟩

/-- A symbol that a leaf holds has a code. -/
theorem HTree.codeOf_some {T : HTree} {q : BitVec 9 × Bits} (h : q ∈ T.paths) : ∃ p, T.codeOf q.1.toNat = some p := by
  unfold HTree.codeOf
  cases hf : T.paths.reverse.find? fun q' => q'.1.toNat == q.1.toNat with
  | some q' => exact ⟨q'.2, rfl⟩
  | none =>
    rw [List.find?_eq_none] at hf
    exact absurd (by simp) (hf q (by simpa using h))

/-- With distinct symbols the code of a leaf's symbol is the leaf's own path. -/
theorem HTree.codeOf_nodup {T : HTree} (hd : (T.paths.map (·.1)).Nodup) {q : BitVec 9 × Bits} (h : q ∈ T.paths) :
    T.codeOf q.1.toNat = some q.2 := by
  obtain ⟨p, hp⟩ := HTree.codeOf_some h
  obtain ⟨q', hq', e1, rfl⟩ := HTree.codeOf_mem hp
  have : q' = q := List.inj_on_of_nodup_map hd hq' h (BitVec.eq_of_toNat_eq e1)
  rw [hp, this]

/-- The table that a left-to-right visit leaves: the last leaf of a symbol gives its code (43_code_table R550). -/
theorem codes_foldl (qs : List (BitVec 9 × Bits)) (hs : ∀ q ∈ qs, q.1.toNat ≤ 256) (codes : Vector CodeEntry 257)
    (sym : Nat) :
    ((qs.foldl (fun c q => c.setIfInBounds q.1.toNat (CodeEntry.ofPath q.2)) codes)[sym]?).getD CodeEntry.none =
      match (qs.reverse.find? fun q => q.1.toNat == sym).map (·.2) with
      | some p => CodeEntry.ofPath p
      | none => codes[sym]?.getD CodeEntry.none := by
  induction qs using List.reverseRecOn with
  | nil => rfl
  | append_singleton qs q ih =>
    have hq : q.1.toNat < 257 := Nat.lt_succ_of_le (hs q (by simp))
    rw [List.foldl_append, List.foldl_cons, List.foldl_nil, codes_set _ _ _ _ hq,
      ih fun q' h => hs q' (by simp [h])]
    rw [List.reverse_append, List.reverse_singleton, List.singleton_append, List.find?_cons]
    by_cases h : sym = q.1.toNat
    · subst h; simp
    · have : (q.1.toNat == sym) = false := by simp [Ne.symm h]
      simp [h, this]

theorem HTree.length_header (T : HTree) : T.header.length = T.internals + 10 * T.leaves := by
  induction T with
  | leaf sym => simp [HTree.header, HTree.internals, HTree.leaves]
  | node l r ihl ihr =>
    simp only [HTree.header, HTree.internals, HTree.leaves, List.length_cons, List.length_append, ihl, ihr]
    ring

/-- The code entry of a path short enough gives the path back (10_state R122). -/
theorem CodeEntry.path_ofPath {p : Bits} (h : p.length ≤ 256) : (CodeEntry.ofPath p).path = p := by
  have hv : val p < 2 ^ 256 := (val_lt p).trans_le (Nat.pow_le_pow_right (by norm_num) h)
  have h1 : p.length % 2 ^ 9 = p.length := Nat.mod_eq_of_lt (by omega)
  have h2 : val p % 2 ^ 256 = val p := Nat.mod_eq_of_lt hv
  unfold CodeEntry.path CodeEntry.ofPath
  rw [BitVec.toNat_ofNat, BitVec.toNat_ofNat, h1, h2]
  exact msb_val p

end Sys2Proof.Machine
end

