-- ==== Sys2Proof/Laws/CompleteTree.lean ====
section
/-! SUPPORT. A NODE memory in which children have lower indices and every slot but the last has one parent holds one
tree over all its slots (10_state R125, invariant 2). -/

namespace Sys2Proof.Machine

/-- The first `n` slots form one tree: children below their parents, each slot but the last the child of one node. -/
structure Arena (nodes : Vector Node 513) (n : Nat) : Prop where
  pos : 1 ≤ n
  le : n ≤ 513
  below : ∀ i, i < n → ∀ w l r, nodes[i]? = some (.internal w l r) → l.toNat < i ∧ r.toNat < i
  one_parent : (childIndices nodes n).Perm (List.range (n - 1))

theorem CompleteTree.arena {s : State} (h : CompleteTree s) : Arena s.nodes s.nodeCount.toNat where
  pos := by have := h.nodeCount_eq; have := h.leafCount_pos; omega
  le := by have := h.nodeCount_eq; have := h.leafCount_le; omega
  below := h.children_below
  one_parent := h.one_parent

section

variable {nodes : Vector Node 513} {n : Nat}

/-- Every slot of the arena holds a tree. -/
theorem Arena.tree (h : Arena nodes n) (i : Nat) (hi : i < n) : ∃ T, treeAt nodes (i + 1) i = some T := by
  induction i using Nat.strong_induction_on with
  | _ i ih =>
    have hlen : i < 513 := lt_of_lt_of_le hi h.le
    cases hn : nodes[i]? with
    | none => simp [hlen] at hn
    | some nd =>
      cases nd with
      | leaf sym w => exact ⟨_, treeAt_leaf hn i⟩
      | internal w l r =>
        obtain ⟨hl, hr⟩ := h.below i hi w l r hn
        obtain ⟨tl, htl⟩ := ih _ hl (by omega)
        obtain ⟨tr, htr⟩ := ih _ hr (by omega)
        exact ⟨_, treeAt_internal hn (treeAt_mono htl (by omega)) (treeAt_mono htr (by omega))⟩

/-- The tree in a slot. -/
def slotTree (nodes : Vector Node 513) (i : Nat) : HTree := (treeAt nodes (i + 1) i).getD (.leaf 0#9)

theorem Arena.treeAt_slot (h : Arena nodes n) {i : Nat} (hi : i < n) {k : Nat} (hk : i < k) :
    treeAt nodes k i = some (slotTree nodes i) := by
  obtain ⟨T, hT⟩ := h.tree i hi
  rw [treeAt_mono hT hk]
  simp [slotTree, hT]

variable {A : Type} [AddCancelCommMonoid A]

/-- A quantity that adds up over a tree, counted slot by slot: what one slot contributes. -/
def slotValue (g : BitVec 9 → A) (c : A) (nodes : Vector Node 513) (i : Nat) : A :=
  match nodes[i]? with
  | some (.leaf sym _) => g sym
  | some (.internal _ _ _) => c
  | none => 0

/-- A quantity that adds up over the nodes of a tree is, at the root, the sum over all the slots. -/
theorem Arena.sum (h : Arena nodes n) (f : HTree → A) (g : BitVec 9 → A) (c : A) (hleaf : ∀ s, f (.leaf s) = g s)
    (hnode : ∀ l r, f (.node l r) = f l + f r + c) :
    f (slotTree nodes (n - 1)) = ((List.range n).map (slotValue g c nodes)).sum := by
  have key : ∀ m, m ≤ n → ((List.range m).map fun i => f (slotTree nodes i)).sum =
      ((childIndices nodes m).map fun i => f (slotTree nodes i)).sum +
        ((List.range m).map (slotValue g c nodes)).sum := by
    intro m hm
    induction m with
    | zero => simp [childIndices]
    | succ m ih =>
      have e1 : childIndices nodes (m + 1) = childIndices nodes m ++ (nodes[m]?.map Node.children).getD [] := by
        simp [childIndices, List.range_succ]
      rw [e1, List.range_succ, List.map_append, List.map_append, List.map_append, List.sum_append, List.sum_append,
        List.sum_append, ih (by omega)]
      have hlen : m < 513 := lt_of_lt_of_le hm h.le
      have one : f (slotTree nodes m) =
          (((nodes[m]?.map Node.children).getD []).map fun i => f (slotTree nodes i)).sum +
            slotValue g c nodes m := by
        have ht := h.treeAt_slot (i := m) (by omega) (Nat.lt_succ_self m)
        obtain ⟨sym, w, hn, e⟩ | ⟨w, l, r, tl, tr, hn, hl, hr, e⟩ := treeAt_cases ht
        · rw [e, hleaf]; simp [hn, slotValue, Node.children]
        · obtain ⟨bl, br⟩ := h.below m (by omega) w l r hn
          rw [h.treeAt_slot (by omega) bl] at hl
          rw [h.treeAt_slot (by omega) br] at hr
          cases hl
          cases hr
          rw [e, hnode]
          simp [hn, slotValue, Node.children]
      simp only [List.map_cons, List.map_nil, List.sum_cons, List.sum_nil, add_zero]
      rw [one]
      abel
  have hall := key n le_rfl
  obtain ⟨m, rfl⟩ : ∃ m, n = m + 1 := ⟨n - 1, by have := h.pos; omega⟩
  rw [(h.one_parent.map _).sum_eq] at hall
  conv at hall => lhs; rw [List.range_succ, List.map_append, List.sum_append]
  simpa using hall

end

/-- The leaves among the first slots, and the number of them. -/
theorem Arena.count {nodes : Vector Node 513} {n : Nat} (h : Arena nodes n) :
    (slotTree nodes (n - 1)).leaves + (slotTree nodes (n - 1)).internals = n := by
  have e := h.sum (fun T => T.leaves + T.internals) (fun _ => 1) 1 (fun _ => rfl) (fun l r => by
    simp only [HTree.leaves, HTree.internals]; omega)
  have all : ∀ i ∈ List.range n, slotValue (fun _ => 1) 1 nodes i = 1 := by
    intro i hi
    have hlen : i < 513 := lt_of_lt_of_le (List.mem_range.mp hi) h.le
    unfold slotValue
    split
    · rfl
    · rfl
    · rename_i hn; simp [hlen] at hn
  rw [List.map_congr_left all] at e
  simpa using e

/-- Every symbol of a tree in the slots stands in one of the leaves. -/
theorem treeAt_symbols {nodes : Vector Node 513} {n : Nat} (h : Arena nodes n) {k i : Nat} {T : HTree} (hi : i < n)
    (hT : treeAt nodes k i = some T) {q : BitVec 9 × Bits} (hq : q ∈ T.paths) :
    ∃ j w, j < n ∧ nodes[j]? = some (.leaf q.1 w) := by
  induction k generalizing i T q with
  | zero => cases hT
  | succ k ih =>
    obtain ⟨sym, w, hn, rfl⟩ | ⟨w, l, r, tl, tr, hn, hl, hr, rfl⟩ := treeAt_cases hT
    · simp only [HTree.paths, List.mem_singleton] at hq
      subst hq
      exact ⟨i, w, hi, hn⟩
    · obtain ⟨bl, br⟩ := h.below i hi w l r hn
      simp only [HTree.paths, List.mem_append, List.mem_map] at hq
      obtain ⟨q', hq', rfl⟩ | ⟨q', hq', rfl⟩ := hq
      · exact ih (q := q') (by omega) hl hq'
      · exact ih (q := q') (by omega) hr hq'

end Sys2Proof.Machine
end

