-- ==== Sys2Proof/Laws/Parse.lean ====
section
/-! SUPPORT. What `parse` of DESERIALIZE_HEADER reads, stores and rejects (44_header_codec R630). -/

namespace Sys2Proof.Machine

/-- The number of nodes. -/
def HTree.size (T : HTree) : Nat := T.leaves + T.internals

theorem HTree.size_leaf (sym : BitVec 9) : (HTree.leaf sym).size = 1 := rfl

theorem HTree.size_node (l r : HTree) : (HTree.node l r).size = l.size + r.size + 1 := by
  simp only [HTree.size, HTree.leaves, HTree.internals]; omega

theorem HTree.size_pos (T : HTree) : 1 ≤ T.size := by
  have := T.leaves_eq
  unfold HTree.size; omega

/-- The nodes of a tree in completion order, from slot `lo` on (44_header_codec R630). -/
def HTree.slots : HTree → Nat → List Node
  | .leaf sym, _ => [.leaf sym 0#41]
  | .node l r, lo =>
    l.slots lo ++ r.slots (lo + l.size) ++
      [.internal 0#41 (BitVec.ofNat 10 (lo + l.size - 1)) (BitVec.ofNat 10 (lo + l.size + r.size - 1))]

theorem HTree.length_slots (T : HTree) (lo : Nat) : (T.slots lo).length = T.size := by
  induction T generalizing lo with
  | leaf sym => rfl
  | node l r ihl ihr => simp only [HTree.slots, List.length_append, ihl, ihr, List.length_singleton, HTree.size_node]

/-- NODE after a run of nodes has been stored from slot `lo` on. -/
def storedAt (nodes : Vector Node 513) (lo : Nat) (nds : List Node) (j : Nat) : Option Node :=
  if j < lo then nodes[j]? else if j < lo + nds.length then nds[j - lo]? else nodes[j]?

/-- What `parse` leaves after a subtree: IN's position, the nodes stored, and nothing else. -/
structure ParsedTo (s u : State) (lo : Nat) (nds : List Node) : Prop where
  only : u = { s with io := u.io, inCh := { s.inCh with pos := u.inCh.pos }, nodes := u.nodes }
  clear : u.ioClear
  pos_le : u.inCh.pos ≤ u.inCh.bits.length
  stored : ∀ j, j < 513 → u.nodes[j]? = storedAt s.nodes lo nds j

theorem ParsedTo.eq {s u : State} {lo : Nat} {nds : List Node} (h : ParsedTo s u lo nds) :
    ∃ io pos nodes, u = { s with io := io, inCh := { s.inCh with pos := pos }, nodes := nodes } :=
  ⟨_, _, _, h.only⟩

theorem parse_succ (k : Nat) (c : ParseCount) : parse (k + 1) c = (readIn 1 >>= fun b => match b with
    | none => raise (.malformedHeader .eof) 0#32
    | some 0 =>
      if Config.maxInternal < c.internals + 1 then raise (.malformedHeader .capacity) 0#32
      else parse k { c with internals := c.internals + 1 } >>= fun p =>
        parse k p.2 >>= fun q =>
          (modify fun s => s.setNode q.2.n (.internal 0#41 (BitVec.ofNat 10 p.1) (BitVec.ofNat 10 q.1))) >>= fun _ =>
            pure (q.2.n, { q.2 with n := q.2.n + 1 })
    | some _ => readIn 9 >>= fun v => match v with
      | none => raise (.malformedHeader .eof) 0#32
      | some v =>
        if Config.endOfStream < v then raise (.malformedHeader .badSymbol) (BitVec.ofNat 32 v)
        else (modify fun s => s.setNode c.n (.leaf (BitVec.ofNat 9 v) 0#41)) >>= fun _ =>
          pure (c.n, { c with n := c.n + 1, leaves := c.leaves + 1 })) := rfl

theorem storedAt_append {nodes mid : Vector Node 513} {lo : Nat} {p q : List Node}
    (hm : ∀ j, j < 513 → mid[j]? = storedAt nodes lo p j) {j : Nat} (hj : j < 513) :
    storedAt mid (lo + p.length) q j = storedAt nodes lo (p ++ q) j := by
  unfold storedAt
  rw [hm j hj]
  unfold storedAt
  rw [List.length_append]
  split_ifs <;> try omega
  · rfl
  · rw [List.getElem?_append_left (by omega)]
  · rw [List.getElem?_append_right (by omega)]
    congr 1; omega
  · rfl

/-- One node stored in an arena. -/
theorem storedAt_one {nodes : Vector Node 513} {nd : Node} {lo : Nat} (hlo : lo < 513) (j : Nat) :
    (nodes.setIfInBounds lo nd)[j]? = storedAt nodes lo [nd] j := by
  rw [Vector.getElem?_setIfInBounds]
  unfold storedAt
  simp only [List.length_singleton]
  by_cases h : lo = j
  · subst h
    simp [hlo]
  · rw [if_neg h]
    split_ifs <;> first | rfl | omega

/-- One node stored after the others. -/
theorem storedAt_set {s : State} {nd : Node} {lo : Nat} (hlo : lo < 513) {j : Nat} :
    (s.setNode lo nd).nodes[j]? = storedAt s.nodes lo [nd] j := by
  rw [getElem?_setNode _ _ _ _ hlo]
  unfold storedAt
  simp only [List.length_singleton]
  split_ifs <;> try omega
  · have : j - lo = 0 := by omega
    simp [this]
  · rfl
  · rfl

/-- `parse` on the header of a tree with legal symbols that fits (44_header_codec R630). -/
theorem parse_tree (T : HTree) (hs : ∀ q ∈ T.paths, q.1.toNat ≤ 256) (k : Nat) (c : ParseCount) {s : State}
    (hc : s.ioClear) (hp : s.inCh.pos ≤ s.inCh.bits.length) {rest : Bits} (hr : s.inRest = T.header ++ rest)
    (hk : T.internals < k) (hi : c.internals + T.internals ≤ 256) (hn : c.n + T.size ≤ 513) :
    ∃ u, parse k c s = .ok
        (c.n + T.size - 1, ⟨c.n + T.size, c.internals + T.internals, c.leaves + T.leaves⟩) u ∧
      ParsedTo s u c.n (T.slots c.n) ∧ u.inRest = rest := by
  induction T generalizing k c s rest with
  | leaf sym =>
    obtain ⟨k, rfl⟩ : ∃ m, k = m + 1 := ⟨k - 1, by omega⟩
    obtain ⟨u, hu, hto, hr'⟩ := readBit hc hp (b := true) (p := msb 9 sym.toNat ++ rest) (by
      rw [hr]; rfl)
    obtain ⟨v, hv, hto', hr''⟩ := readIn_rest hto.clear (n := 9) (by rw [hr']; simp) hto.pos_le
    have hval : val (u.inRest.take 9) = sym.toNat := by
      rw [hr', List.take_left' (length_msb 9 _), val_msb, Nat.mod_eq_of_lt sym.isLt]
    have hle : ¬ Config.endOfStream < sym.toNat := by
      have := hs (sym, []) (by simp [HTree.paths])
      exact Nat.not_lt.mpr this
    rw [hval] at hv
    rw [HTree.size_leaf] at hn ⊢
    have hto2 := hto.trans hto'
    refine ⟨v.setNode c.n (.leaf sym 0#41), ?_, ⟨?_, hto2.clear, hto2.pos_le, fun j _ => ?_⟩, ?_⟩
    · rw [parse_succ, Body.bind_apply, hu]
      simp only [Bool.toNat_true]
      rw [Body.bind_apply, hv]
      dsimp only
      rw [if_neg hle]
      simp [HTree.internals, HTree.leaves]
    · obtain ⟨io, pos, e⟩ := hto2.eq
      rw [e]
      rfl
    · rw [storedAt_set (by omega), hto2.nodes]
      rfl
    · rw [hr', List.drop_left' (length_msb 9 _)] at hr''
      exact hr''
  | node l r ihl ihr =>
    obtain ⟨k, rfl⟩ : ∃ m, k = m + 1 := ⟨k - 1, by omega⟩
    rw [HTree.size_node] at hn ⊢
    simp only [HTree.internals] at hk hi
    have hls := l.size_pos
    have hrs := r.size_pos
    obtain ⟨u, hu, hto, hr'⟩ := readBit hc hp (b := false) (p := l.header ++ (r.header ++ rest)) (by
      rw [hr]; simp [HTree.header, List.append_assoc])
    have hcap : ¬ Config.maxInternal < c.internals + 1 := by simp only [Config.maxInternal]; omega
    obtain ⟨v, hv, hv2, hv3⟩ := ihl (fun q hq => hs (q.1, false :: q.2) (by
      rw [HTree.paths_node]; exact List.mem_append_left _ (List.mem_map.mpr ⟨q, hq, rfl⟩)))
      k { c with internals := c.internals + 1 } hto.clear hto.pos_le hr' (by omega) (by dsimp only; omega)
      (by dsimp only; omega)
    obtain ⟨w, hw, hw2, hw3⟩ := ihr (fun q hq => hs (q.1, true :: q.2) (by
      rw [HTree.paths_node]; exact List.mem_append_right _ (List.mem_map.mpr ⟨q, hq, rfl⟩)))
      k { n := c.n + l.size, internals := c.internals + 1 + l.internals, leaves := c.leaves + l.leaves }
      hv2.clear hv2.pos_le hv3 (by omega) (by dsimp only; omega) (by dsimp only; omega)
    dsimp only at hv hv2 hw hw2
    have hall : ∀ j, j < 513 → w.nodes[j]? = storedAt s.nodes c.n (l.slots c.n ++ r.slots (c.n + l.size)) j := by
      intro j hj
      rw [hw2.stored j hj]
      have hlen : c.n + l.size = c.n + (l.slots c.n).length := by rw [HTree.length_slots]
      rw [hlen, ← hto.nodes]
      exact storedAt_append hv2.stored hj
    have hlen2 : c.n + l.size + r.size = c.n + (l.slots c.n ++ r.slots (c.n + l.size)).length := by
      rw [List.length_append, HTree.length_slots, HTree.length_slots, Nat.add_assoc]
    refine ⟨w.setNode (c.n + l.size + r.size) (.internal 0#41 (BitVec.ofNat 10 (c.n + l.size - 1))
      (BitVec.ofNat 10 (c.n + l.size + r.size - 1))), ?_, ⟨?_, hw2.clear, hw2.pos_le, fun j hj => ?_⟩, hw3⟩
    · rw [parse_succ, Body.bind_apply, hu]
      simp only [Bool.toNat_false]
      rw [if_neg hcap, Body.bind_apply, hv]
      dsimp only
      rw [Body.bind_apply, hw]
      simp only [Body.bind_apply, Body.modify_apply, Body.pure_apply, HTree.internals, HTree.leaves]
      congr 2
      · omega
      · congr 1 <;> omega
    · obtain ⟨io, pos, e⟩ := hto.eq
      obtain ⟨io', pos', nodes', e'⟩ := hv2.eq
      obtain ⟨io'', pos'', nodes'', e''⟩ := hw2.eq
      rw [e'', e', e]
      rfl
    · rw [storedAt_set (by omega)]
      rw [hlen2, storedAt_append hall hj, ← hlen2]
      rfl

/-! ## What is rejected -/

/-- What `parse` leaves when it stops: IN's position and slots of NODE may have changed, nothing else. -/
structure ParseStop (s u : State) : Prop where
  only : u = { s with io := u.io, inCh := { s.inCh with pos := u.inCh.pos }, nodes := u.nodes }

theorem ParseStop.trans_read {s u v : State} (h : ReadTo s u) (k : ParseStop u v) : ParseStop s v := by
  constructor
  conv_lhs => rw [k.only, h.only]

theorem ParseStop.trans_parsed {s u v : State} {lo : Nat} {nds : List Node} (h : ParsedTo s u lo nds)
    (k : ParseStop u v) : ParseStop s v := by
  constructor
  conv_lhs => rw [k.only, h.only]

theorem ReadTo.stop {s u : State} (h : ReadTo s u) : ParseStop s u := by
  obtain ⟨io, pos, rfl⟩ := h.eq
  exact ⟨rfl⟩

/-- A 9-bit read when fewer are left. -/
theorem readSym_eof {s : State} (h : s.ioClear) (hp : s.inCh.pos ≤ s.inCh.bits.length) (hl : s.inRest.length < 9) :
    ∃ u, readIn 9 s = .ok none u ∧ ReadTo s u := by
  rw [inRest_length, State.inLeft] at hl
  refine ⟨_, readIn_eof h (by omega), ⟨rfl, ioClear_tail h, ?_⟩⟩
  dsimp only; split <;> omega

/-- An input that ends inside a header is EOF (44_header_codec R630). -/
theorem parse_eof (T : HTree) (hs : ∀ q ∈ T.paths, q.1.toNat ≤ 256) (k : Nat) (c : ParseCount) {s : State}
    (hc : s.ioClear) (hp : s.inCh.pos ≤ s.inCh.bits.length) {more : Bits} (hr : T.header = s.inRest ++ more)
    (hm : more ≠ []) (hk : T.internals < k) (hi : c.internals + T.internals ≤ 256) (hn : c.n + T.size ≤ 513) :
    ∃ u, parse k c s = .error (.raised (.malformedHeader .eof) 0#32) u ∧ ParseStop s u := by
  induction T generalizing k c s more with
  | leaf sym =>
    obtain ⟨k, rfl⟩ : ∃ m, k = m + 1 := ⟨k - 1, by omega⟩
    cases hrest : s.inRest with
    | nil =>
      obtain ⟨u, hu, hto, -⟩ := readBit_eof hc hrest hp
      refine ⟨u, ?_, hto.stop⟩
      rw [parse_succ, Body.bind_apply, hu]
      rfl
    | cons b p =>
      rw [hrest] at hr
      simp only [HTree.header, List.cons_append, List.cons.injEq] at hr
      obtain ⟨rfl, hr⟩ := hr
      obtain ⟨u, hu, hto, hr'⟩ := readBit hc hp hrest
      have hlen : u.inRest.length < 9 := by
        have := congrArg List.length hr
        rw [length_msb, List.length_append] at this
        have : 0 < more.length := List.length_pos_iff.mpr hm
        rw [hr']; omega
      obtain ⟨v, hv, hto'⟩ := readSym_eof hto.clear hto.pos_le hlen
      refine ⟨v, ?_, (hto.trans hto').stop⟩
      rw [parse_succ, Body.bind_apply, hu]
      simp only [Bool.toNat_true]
      rw [Body.bind_apply, hv]
      rfl
  | node l r ihl ihr =>
    obtain ⟨k, rfl⟩ : ∃ m, k = m + 1 := ⟨k - 1, by omega⟩
    rw [HTree.size_node] at hn
    simp only [HTree.internals] at hk hi
    have hls := l.size_pos
    have hrs := r.size_pos
    have hcap : ¬ Config.maxInternal < c.internals + 1 := by simp only [Config.maxInternal]; omega
    cases hrest : s.inRest with
    | nil =>
      obtain ⟨u, hu, hto, -⟩ := readBit_eof hc hrest hp
      refine ⟨u, ?_, hto.stop⟩
      rw [parse_succ, Body.bind_apply, hu]
      rfl
    | cons b p =>
      rw [hrest] at hr
      simp only [HTree.header, List.cons_append, List.cons.injEq] at hr
      obtain ⟨rfl, hr⟩ := hr
      obtain ⟨u, hu, hto, hr'⟩ := readBit hc hp hrest
      have hsl : ∀ q ∈ l.paths, q.1.toNat ≤ 256 := fun q hq => hs (q.1, false :: q.2) (by
        rw [HTree.paths_node]; exact List.mem_append_left _ (List.mem_map.mpr ⟨q, hq, rfl⟩))
      have hsr : ∀ q ∈ r.paths, q.1.toNat ≤ 256 := fun q hq => hs (q.1, true :: q.2) (by
        rw [HTree.paths_node]; exact List.mem_append_right _ (List.mem_map.mpr ⟨q, hq, rfl⟩))
      have unfoldParse : parse (k + 1) c s = (parse k { c with internals := c.internals + 1 } >>= fun p =>
          parse k p.2 >>= fun q =>
          (modify fun s => s.setNode q.2.n (.internal 0#41 (BitVec.ofNat 10 p.1) (BitVec.ofNat 10 q.1))) >>= fun _ =>
            pure (q.2.n, { q.2 with n := q.2.n + 1 })) u := by
        rw [parse_succ, Body.bind_apply, hu]
        simp only [Bool.toNat_false]
        rw [if_neg hcap]
      rw [unfoldParse, Body.bind_apply]
      rcases List.append_eq_append_iff.mp hr with ⟨z, hz, hz2⟩ | ⟨z, hz, hz2⟩
      · -- the left header is complete
        obtain ⟨v, hv, hv2, hv3⟩ := parse_tree l hsl k { c with internals := c.internals + 1 } hto.clear hto.pos_le
          (rest := z) (by rw [hr', hz]) (by omega) (by dsimp only; omega) (by dsimp only; omega)
        obtain ⟨w, hw, hw2⟩ := ihr hsr k
          { n := c.n + l.size, internals := c.internals + 1 + l.internals, leaves := c.leaves + l.leaves }
          hv2.clear hv2.pos_le (more := more) (by rw [hv3, hz2]) hm (by omega) (by dsimp only; omega)
          (by dsimp only; omega)
        refine ⟨w, ?_, (hw2.trans_parsed hv2).trans_read hto⟩
        rw [hv]
        dsimp only
        rw [Body.bind_apply, hw]
      · by_cases hz0 : z = []
        · subst hz0
          rw [List.append_nil] at hz
          rw [List.nil_append] at hz2
          obtain ⟨v, hv, hv2, hv3⟩ := parse_tree l hsl k { c with internals := c.internals + 1 } hto.clear hto.pos_le
            (rest := []) (by rw [hr', hz, List.append_nil]) (by omega) (by dsimp only; omega) (by dsimp only; omega)
          obtain ⟨w, hw, hw2⟩ := ihr hsr k
            { n := c.n + l.size, internals := c.internals + 1 + l.internals, leaves := c.leaves + l.leaves }
            hv2.clear hv2.pos_le (more := more) (by rw [hv3, hz2]; rfl) hm (by omega) (by dsimp only; omega)
            (by dsimp only; omega)
          refine ⟨w, ?_, (hw2.trans_parsed hv2).trans_read hto⟩
          rw [hv]
          dsimp only
          rw [Body.bind_apply, hw]
        · obtain ⟨w, hw, hw2⟩ := ihl hsl k { c with internals := c.internals + 1 } hto.clear hto.pos_le (more := z)
            (by rw [hr', hz]) hz0 (by omega) (by dsimp only; omega) (by dsimp only; omega)
          exact ⟨w, by rw [hw], hw2.trans_read hto⟩

/-! ## What is rejected, at every place inside a header -/

theorem parse_leaf {k : Nat} {c : ParseCount} {s u : State} (h : readIn 1 s = .ok (some 1) u) :
    parse (k + 1) c s = (readIn 9 >>= fun v => match v with
      | none => raise (.malformedHeader .eof) 0#32
      | some v =>
        if Config.endOfStream < v then raise (.malformedHeader .badSymbol) (BitVec.ofNat 32 v)
        else (modify fun s => s.setNode c.n (.leaf (BitVec.ofNat 9 v) 0#41)) >>= fun _ =>
          pure (c.n, { c with n := c.n + 1, leaves := c.leaves + 1 })) u := by
  rw [parse_succ, Body.bind_apply, h]
  rfl

/-- The first bit of a node. -/
theorem readIn_bit {s : State} (hc : s.ioClear) (hl : s.inCh.pos + 1 ≤ s.inCh.bits.length) {b : Bool} {p : Bits}
    (hr : s.inRest = b :: p) : readIn 1 s = .ok (some b.toNat)
      { s with io := s.io.tail, inCh := { s.inCh with pos := s.inCh.pos + 1 } } := by
  rw [readIn_some hc hl, hr]
  cases b <;> rfl

/-- An input that ends before the next node is EOF. -/
theorem parse_end {s : State} (hc : s.ioClear) (hl : s.inCh.bits.length < s.inCh.pos + 1) (k : Nat) (c : ParseCount) :
    ∃ u, parse (k + 1) c s = .error (.raised (.malformedHeader .eof) 0#32) u ∧ ParseStop s u ∧
      u.inCh.pos = s.posAfterEof 0 := by
  refine ⟨{ s with io := s.io.tail, inCh := { s.inCh with pos := s.posAfterEof 0 } }, ?_, ⟨rfl⟩, rfl⟩
  rw [parse_succ, Body.bind_apply, readIn_eof hc hl]
  rfl

/-- An input that ends inside a leaf's symbol field is EOF. -/
theorem parse_symbol_end {s : State} (hc : s.ioClear) (hp : s.inCh.pos ≤ s.inCh.bits.length) {q : Bits}
    (hr : s.inRest = true :: q) (hq : q.length < 9) (k : Nat) (c : ParseCount) :
    ∃ u, parse (k + 1) c s = .error (.raised (.malformedHeader .eof) 0#32) u ∧ ParseStop s u ∧
      u.inCh.pos = s.posAfterEof 1 := by
  have hlen := inRest_length s
  rw [hr, List.length_cons, State.inLeft] at hlen
  refine ⟨{ s with io := s.io.tail.tail, inCh := { s.inCh with pos := s.posAfterEof 1 } }, ?_, ⟨rfl⟩, rfl⟩
  rw [parse_leaf (readIn_bit hc (by omega) hr), Body.bind_apply,
    readIn_eof (s := { s with io := s.io.tail, inCh := { s.inCh with pos := s.inCh.pos + 1 } }) (ioClear_tail hc)
      (show s.inCh.bits.length < s.inCh.pos + 1 + 9 by omega)]
  rfl

/-- A symbol above 256 is BAD_SYMBOL (44_header_codec R630). -/
theorem parse_badSymbol {v : Nat} (h1 : 256 < v) (h2 : v < 512) {s : State} (hc : s.ioClear)
    (hp : s.inCh.pos ≤ s.inCh.bits.length) {rest : Bits} (hr : s.inRest = true :: (msb 9 v ++ rest)) (k : Nat)
    (c : ParseCount) :
    ∃ u, parse (k + 1) c s = .error (.raised (.malformedHeader .badSymbol) (BitVec.ofNat 32 v)) u ∧
      ParseStop s u ∧ u.inCh.pos = s.inCh.pos + 10 := by
  have hlen := inRest_length s
  rw [hr, List.length_cons, List.length_append, length_msb, State.inLeft] at hlen
  have hrest : (s.inCh.bits.drop (s.inCh.pos + 1)).take 9 = msb 9 v := by
    rw [← List.drop_drop, show s.inCh.bits.drop s.inCh.pos = _ from hr, List.drop_one, List.tail_cons,
      List.take_left' (length_msb 9 _)]
  refine ⟨{ s with io := s.io.tail.tail, inCh := { s.inCh with pos := s.inCh.pos + 10 } }, ?_, ⟨rfl⟩, rfl⟩
  rw [parse_leaf (readIn_bit hc (by omega) hr), Body.bind_apply, readIn_some (n := 9)
    (s := { s with io := s.io.tail, inCh := { s.inCh with pos := s.inCh.pos + 1 } }) (ioClear_tail hc)
    (show s.inCh.pos + 1 + 9 ≤ s.inCh.bits.length by omega)]
  dsimp only [State.inRest]
  rw [hrest, val_msb, Nat.mod_eq_of_lt (h2.trans_eq (by norm_num)), if_pos (show Config.endOfStream < v from h1)]
  rfl

/-- The 257th internal bit is CAPACITY (44_header_codec R630). -/
theorem parse_capacity {s : State} (hc : s.ioClear) (hp : s.inCh.pos ≤ s.inCh.bits.length) {rest : Bits}
    (hr : s.inRest = false :: rest) (k : Nat) {c : ParseCount} (hi : c.internals = 256) :
    ∃ u, parse (k + 1) c s = .error (.raised (.malformedHeader .capacity) 0#32) u ∧ ParseStop s u ∧
      u.inCh.pos = s.inCh.pos + 1 := by
  have hlen := inRest_length s
  rw [hr, List.length_cons, State.inLeft] at hlen
  refine ⟨{ s with io := s.io.tail, inCh := { s.inCh with pos := s.inCh.pos + 1 } }, ?_, ⟨rfl⟩, rfl⟩
  rw [parse_succ, Body.bind_apply, readIn_bit hc (by omega) hr]
  simp only [Bool.toNat_false]
  rw [if_pos (by rw [hi]; decide)]
  rfl

/-- From the start of a header to a place inside it: what `parse` raises there ends it (44_header_codec R630). The
premise `here` is about that place, `m` internal nodes and the bits of `place` further on. -/
theorem parse_place (place : List (Option HTree)) (hs : ∀ T, some T ∈ place → ∀ q ∈ T.paths, q.1.toNat ≤ 256)
    (k : Nat) (c : ParseCount) {s : State} (hc : s.ioClear) (hp : s.inCh.pos ≤ s.inCh.bits.length) {rest : Bits}
    (hr : s.inRest = headerSoFar place ++ rest) (hk : internalsSoFar place < k)
    (hi : c.internals + internalsSoFar place ≤ 256) (hn : c.n + 2 * internalsSoFar place ≤ 513) {e : Err}
    {info : Word} {pos : Nat}
    (here : ∀ (j : Nat) (m : ParseCount) (u : State), m.internals = c.internals + internalsSoFar place → u.ioClear →
      ParseStop s u → u.inRest = rest → u.inCh.pos = s.inCh.pos + (headerSoFar place).length →
      u.inCh.pos ≤ u.inCh.bits.length →
      ∃ v, parse (j + 1) m u = .error (.raised e info) v ∧ ParseStop u v ∧ v.inCh.pos = pos) :
    ∃ v, parse k c s = .error (.raised e info) v ∧ ParseStop s v ∧ v.inCh.pos = pos := by
  induction place generalizing k c s with
  | nil =>
    obtain ⟨k, rfl⟩ : ∃ m, k = m + 1 := ⟨k - 1, by omega⟩
    exact here k c s rfl hc ⟨rfl⟩ hr rfl hp
  | cons head place ih =>
    obtain ⟨k, rfl⟩ : ∃ m, k = m + 1 := ⟨k - 1, by omega⟩
    have capOk : c.internals + 1 ≤ 256 := by
      cases head <;> simp only [internalsSoFar] at hi <;> omega
    have hcap : ¬ Config.maxInternal < c.internals + 1 := by simp only [Config.maxInternal]; omega
    have unfoldParse : ∀ u, readIn 1 s = .ok (some 0) u → parse (k + 1) c s =
        (parse k { c with internals := c.internals + 1 } >>= fun p => parse k p.2 >>= fun q =>
          (modify fun s => s.setNode q.2.n (.internal 0#41 (BitVec.ofNat 10 p.1) (BitVec.ofNat 10 q.1))) >>= fun _ =>
            pure (q.2.n, { q.2 with n := q.2.n + 1 })) u := by
      intro u hu
      rw [parse_succ, Body.bind_apply, hu]
      dsimp only
      rw [if_neg hcap]
      rfl
    have same_pos : ∀ {u : State} {p : Bits}, ParseStop s u → s.inRest = p ++ u.inRest →
        u.inCh.pos ≤ u.inCh.bits.length → u.inCh.pos = s.inCh.pos + p.length := by
      intro u p h1 h2 h3
      have e1 := inRest_length s
      have e2 := inRest_length u
      have e3 : u.inCh.bits = s.inCh.bits := by rw [h1.only]
      have e4 := congrArg List.length h2
      rw [List.length_append] at e4
      rw [e3] at h3
      rw [State.inLeft, e3] at e2
      rw [State.inLeft] at e1
      omega
    cases head with
    | none =>
      simp only [internalsSoFar] at hk hi hn here
      obtain ⟨u, hu, hto, hr'⟩ := readBit hc hp (b := false) (p := headerSoFar place ++ rest) hr
      have hpos := same_pos (p := [false]) hto.stop (by rw [hr', hr]; rfl) hto.pos_le
      obtain ⟨v, hv, hv2, hv3⟩ := ih (fun T hT => hs T (List.mem_cons_of_mem _ hT)) k
        { c with internals := c.internals + 1 } hto.clear hto.pos_le hr' (by omega) (by dsimp only; omega)
        (by dsimp only; omega) (fun j m w h1 h2 h3 h4 h5 h6 => here j m w (by dsimp only at h1; omega) h2
          (h3.trans_read hto) h4 (by
            rw [h5, hpos]; simp only [headerSoFar, List.length_cons, List.length_nil]; omega) h6)
      refine ⟨v, ?_, hv2.trans_read hto, hv3⟩
      rw [unfoldParse u hu, Body.bind_apply, hv]
    | some T =>
      simp only [internalsSoFar] at hk hi hn here
      have hsz : T.size = 2 * T.internals + 1 := by have := T.leaves_eq; unfold HTree.size; omega
      obtain ⟨u, hu, hto, hr'⟩ := readBit hc hp (b := false) (p := T.header ++ (headerSoFar place ++ rest)) (by
        rw [hr]; simp [headerSoFar])
      obtain ⟨w, hw, hw2, hw3⟩ := parse_tree T (hs T (by simp)) k { c with internals := c.internals + 1 } hto.clear
        hto.pos_le hr' (by omega) (by dsimp only; omega) (by dsimp only; omega)
      have hsw : ParseStop s w := (ParseStop.mk rfl : ParseStop w w).trans_parsed hw2 |>.trans_read hto
      have hpos := same_pos (p := false :: T.header) hsw (by rw [hw3, hr]; simp [headerSoFar]) hw2.pos_le
      obtain ⟨v, hv, hv2, hv3⟩ := ih (fun T hT => hs T (List.mem_cons_of_mem _ hT)) k
        { n := c.n + T.size, internals := c.internals + 1 + T.internals, leaves := c.leaves + T.leaves } hw2.clear
        hw2.pos_le hw3 (by omega) (by dsimp only; omega) (by dsimp only; omega)
        (fun j m x h1 h2 h3 h4 h5 h6 => here j m x (by dsimp only at h1; omega) h2
          ((h3.trans_parsed hw2).trans_read hto) h4 (by
            rw [h5, hpos]
            simp only [headerSoFar, List.length_cons, List.length_append]; omega) h6)
      refine ⟨v, ?_, (hv2.trans_parsed hw2).trans_read hto, hv3⟩
      rw [unfoldParse u hu, Body.bind_apply, hw]
      dsimp only
      rw [Body.bind_apply, hv]

/-! ## The stored nodes form the tree -/

/-- The nodes of a tree stand in the slots from `lo` on. -/
def SlotsAt (nodes : Vector Node 513) (lo : Nat) (T : HTree) : Prop :=
  ∀ j, j < T.size → nodes[lo + j]? = (T.slots lo)[j]?

theorem SlotsAt.left {nodes : Vector Node 513} {lo : Nat} {l r : HTree} (h : SlotsAt nodes lo (.node l r)) :
    SlotsAt nodes lo l := by
  intro j hj
  have := h j (by rw [HTree.size_node]; omega)
  rw [this, HTree.slots, List.append_assoc, List.getElem?_append_left (by rw [HTree.length_slots]; exact hj)]

theorem SlotsAt.right {nodes : Vector Node 513} {lo : Nat} {l r : HTree} (h : SlotsAt nodes lo (.node l r)) :
    SlotsAt nodes (lo + l.size) r := by
  intro j hj
  have := h (l.size + j) (by rw [HTree.size_node]; omega)
  rw [Nat.add_assoc, this, HTree.slots, List.append_assoc,
    List.getElem?_append_right (by rw [HTree.length_slots]; omega), HTree.length_slots,
    List.getElem?_append_left (by rw [HTree.length_slots]; omega)]
  congr 1
  omega

theorem SlotsAt.last {nodes : Vector Node 513} {lo : Nat} {l r : HTree} (h : SlotsAt nodes lo (.node l r)) :
    nodes[lo + (l.size + r.size)]? = some (.internal 0#41 (BitVec.ofNat 10 (lo + l.size - 1))
      (BitVec.ofNat 10 (lo + l.size + r.size - 1))) := by
  rw [h (l.size + r.size) (by rw [HTree.size_node]; omega), HTree.slots,
    List.getElem?_append_right (by rw [List.length_append, HTree.length_slots, HTree.length_slots])]
  simp [HTree.length_slots]

theorem slotIndex {i : Nat} (h : i < 513) : (BitVec.ofNat 10 i).toNat = i := by
  rw [BitVec.toNat_ofNat, Nat.mod_eq_of_lt (by omega)]

/-- The tree stands at its last slot. -/
theorem SlotsAt.tree {nodes : Vector Node 513} {T : HTree} {lo : Nat} (h : SlotsAt nodes lo T)
    (hn : lo + T.size ≤ 513) : treeAt nodes (lo + T.size) (lo + T.size - 1) = some T := by
  induction T generalizing lo with
  | leaf sym =>
    have := h 0 (by rw [HTree.size_leaf]; omega)
    exact treeAt_leaf (w := 0#41) (by simpa [HTree.slots, HTree.size_leaf] using this) lo
  | node l r ihl ihr =>
    rw [HTree.size_node] at hn ⊢
    have hl := l.size_pos
    have hr := r.size_pos
    have e : lo + (l.size + r.size + 1) - 1 = lo + (l.size + r.size) := by omega
    rw [e, ← Nat.add_assoc]
    have el : (BitVec.ofNat 10 (lo + l.size - 1)).toNat = lo + l.size - 1 := slotIndex (by omega)
    have er : (BitVec.ofNat 10 (lo + l.size + r.size - 1)).toNat = lo + l.size + r.size - 1 := slotIndex (by omega)
    refine treeAt_internal h.last ?_ ?_
    · rw [el]
      exact treeAt_mono (ihl h.left (by omega)) (by omega)
    · rw [er]
      exact treeAt_mono (ihr h.right (by omega)) (by omega)

/-- Children come before their parents. -/
theorem SlotsAt.below {nodes : Vector Node 513} {T : HTree} {lo : Nat} (h : SlotsAt nodes lo T)
    (hn : lo + T.size ≤ 513) {i : Nat} (h1 : lo ≤ i) (h2 : i < lo + T.size) {w : BitVec 41} {l r : BitVec 10}
    (hi : nodes[i]? = some (.internal w l r)) : l.toNat < i ∧ r.toNat < i := by
  induction T generalizing lo with
  | leaf sym =>
    rw [HTree.size_leaf] at h2
    obtain rfl : i = lo := by omega
    have := h 0 (by rw [HTree.size_leaf]; omega)
    rw [Nat.add_zero, hi] at this
    simp [HTree.slots] at this
  | node tl tr ihl ihr =>
    rw [HTree.size_node] at hn h2
    have hl := tl.size_pos
    have hr := tr.size_pos
    by_cases c1 : i < lo + tl.size
    · exact ihl h.left (by omega) h1 c1
    · by_cases c2 : i < lo + tl.size + tr.size
      · exact ihr h.right (by omega) (by omega) c2
      · obtain rfl : i = lo + (tl.size + tr.size) := by omega
        rw [h.last] at hi
        simp only [Option.some.injEq, Node.internal.injEq] at hi
        obtain ⟨-, rfl, rfl⟩ := hi
        rw [slotIndex (by omega), slotIndex (by omega)]
        omega

/-- Every slot but the last is the child of exactly one node. -/
theorem HTree.slots_children (T : HTree) (lo : Nat) (hn : lo + T.size ≤ 513) :
    ((T.slots lo).flatMap Node.children).Perm (List.range' lo (T.size - 1)) := by
  induction T generalizing lo with
  | leaf sym => exact .refl _
  | node l r ihl ihr =>
    rw [HTree.size_node] at hn
    have hl := l.size_pos
    have hr := r.size_pos
    rw [HTree.slots, List.flatMap_append, List.flatMap_append, HTree.size_node]
    have e : [Node.internal 0#41 (BitVec.ofNat 10 (lo + l.size - 1))
        (BitVec.ofNat 10 (lo + l.size + r.size - 1))].flatMap Node.children =
        [lo + l.size - 1, lo + l.size + r.size - 1] := by
      simp only [List.flatMap_cons, List.flatMap_nil, Node.children, List.append_nil]
      rw [slotIndex (by omega), slotIndex (by omega)]
    rw [e]
    have p1 := ihl lo (by omega)
    have p2 := ihr (lo + l.size) (by omega)
    obtain ⟨a, ha⟩ : ∃ a, l.size = a + 1 := ⟨l.size - 1, by omega⟩
    obtain ⟨b, hb⟩ : ∃ b, r.size = b + 1 := ⟨r.size - 1, by omega⟩
    rw [ha, hb] at p2
    rw [ha] at p1
    rw [ha, hb]
    have r1 : List.range' lo (a + 1 + (b + 1) + 1 - 1) =
        List.range' lo a ++ [lo + a] ++ (List.range' (lo + (a + 1)) b ++ [lo + (a + 1) + b]) := by
      have e1 : List.range' lo a ++ [lo + a] = List.range' lo (a + 1) := by
        rw [List.range'_concat, Nat.one_mul]
      have e2 : List.range' (lo + (a + 1)) b ++ [lo + (a + 1) + b] = List.range' (lo + (a + 1)) (b + 1) := by
        rw [List.range'_concat, Nat.one_mul]
      rw [e1, e2, List.range'_append_1]
      congr 1
    rw [r1]
    simp only [Nat.add_sub_cancel] at p1 p2
    have e3 : lo + (a + 1) - 1 = lo + a := by omega
    have e4 : lo + (a + 1) + (b + 1) - 1 = lo + (a + 1) + b := by omega
    rw [e3, e4]
    refine ((p1.append p2).append_right _).trans ?_
    rw [List.append_assoc, List.append_assoc]
    refine List.Perm.append_left _ ?_
    rw [List.singleton_append]
    refine List.Perm.trans ?_ List.perm_middle
    simp

theorem HTree.slots_leaf {T : HTree} {lo : Nat} {sym : BitVec 9} {w : BitVec 41} (h : Node.leaf sym w ∈ T.slots lo) :
    ∃ q ∈ T.paths, q.1 = sym := by
  induction T generalizing lo with
  | leaf s =>
    simp only [HTree.slots, List.mem_singleton, Node.leaf.injEq] at h
    exact ⟨(s, []), by simp [HTree.paths], h.1.symm⟩
  | node l r ihl ihr =>
    simp only [HTree.slots, List.mem_append, List.mem_singleton, reduceCtorEq, or_false] at h
    obtain h | h := h
    · obtain ⟨q, hq, e⟩ := ihl h
      exact ⟨(q.1, false :: q.2), by
        rw [HTree.paths_node]; exact List.mem_append_left _ (List.mem_map.mpr ⟨q, hq, rfl⟩), e⟩
    · obtain ⟨q, hq, e⟩ := ihr h
      exact ⟨(q.1, true :: q.2), by
        rw [HTree.paths_node]; exact List.mem_append_right _ (List.mem_map.mpr ⟨q, hq, rfl⟩), e⟩

theorem HTree.slots_weight {T : HTree} {lo : Nat} {nd : Node} (h : nd ∈ T.slots lo) : nd.weight = 0#41 := by
  induction T generalizing lo with
  | leaf s =>
    simp only [HTree.slots, List.mem_singleton] at h
    rw [h]; rfl
  | node l r ihl ihr =>
    simp only [HTree.slots, List.mem_append, List.mem_singleton] at h
    obtain (h | h) | h := h
    · exact ihl h
    · exact ihr h
    · rw [h]; rfl

end Sys2Proof.Machine
end

