-- ==== Sys2Proof/Laws/Build.lean ====
section
/-! SUPPORT. What the construction of BUILD_TREE leaves in NODE (42_tree_builder R500 to R505). -/

namespace Sys2Proof.Machine

/-! ## Leaves -/

/-- The symbols with a count, in symbol order (42_tree_builder R502). -/
def countedSyms (freq : Nat → Word) (syms : List Nat) : List Nat := syms.filter fun b => freq b ≠ 0#32

/-- The leaf of a symbol. -/
def leafOf (freq : Nat → Word) (sym : Nat) : Node := .leaf (BitVec.ofNat 9 sym) ((freq sym).setWidth 41)

theorem placeLeaves_stored (freq : Nat → Word) (syms : List Nat) (l : Nat) (nodes : Vector Node 513)
    (hl : l + (countedSyms freq syms).length ≤ 513) :
    (placeLeaves freq syms l nodes).1 = l + (countedSyms freq syms).length ∧
      ∀ j, j < 513 → (placeLeaves freq syms l nodes).2[j]? =
        storedAt nodes l ((countedSyms freq syms).map (leafOf freq)) j := by
  induction syms generalizing l nodes with
  | nil =>
    refine ⟨rfl, fun j _ => ?_⟩
    simp only [countedSyms, List.filter_nil, List.map_nil, storedAt, List.length_nil, Nat.add_zero, placeLeaves]
    split_ifs <;> rfl
  | cons sym syms ih =>
    by_cases hz : freq sym = 0#32
    · have e : countedSyms freq (sym :: syms) = countedSyms freq syms := by simp [countedSyms, hz]
      rw [e] at hl ⊢
      rw [placeLeaves, if_pos hz]
      exact ih l nodes hl
    · have e : countedSyms freq (sym :: syms) = sym :: countedSyms freq syms := by simp [countedSyms, hz]
      rw [e, List.length_cons] at hl
      rw [e, List.length_cons, List.map_cons, placeLeaves, if_neg hz]
      obtain ⟨h1, h2⟩ := ih (l + 1) (nodes.setIfInBounds l (leafOf freq sym)) (by omega)
      refine ⟨by rw [leafOf] at h1; rw [h1]; omega, fun j hj => ?_⟩
      rw [leafOf] at h2
      rw [h2 j hj]
      have hmid : ∀ j, j < 513 → (nodes.setIfInBounds l (leafOf freq sym))[j]? =
          storedAt nodes l [leafOf freq sym] j := by
        intro j _
        exact storedAt_one (by omega) j
      have := storedAt_append (q := (countedSyms freq syms).map (leafOf freq)) hmid hj
      rw [List.length_singleton] at this
      exact this

/-! ## Merging -/

theorem lightest_ne {nodes : Vector Node 513} {pq : List Nat} (h : pq ≠ []) : lightest nodes pq ≠ [] := by
  obtain ⟨i, hi, hmin⟩ := Finset.exists_min_image pq.toFinset (nodeWeight nodes)
    ⟨pq.head h, List.mem_toFinset.mpr (List.head_mem h)⟩
  exact List.ne_nil_of_mem (a := i) (List.mem_filter.mpr ⟨List.mem_toFinset.mp hi, by
    simpa using fun j hj => hmin j (List.mem_toFinset.mpr hj)⟩)

/-- extractMin takes a member of the queue (42_tree_builder R501). -/
theorem extractMin_mem (tie : TieBreak) (d : Nat) (nodes : Vector Node 513) {pq : List Nat} (h : pq ≠ []) :
    extractMin tie d nodes pq ∈ pq := by
  have hne := lightest_ne (nodes := nodes) h
  have sub : ∀ i ∈ lightest nodes pq, i ∈ pq := fun i hi => (List.mem_filter.mp hi).1
  cases tie with
  | seq =>
    unfold extractMin
    cases hm : (lightest nodes pq).min? with
    | none => exact absurd (List.min?_eq_none_iff.mp hm) hne
    | some m => exact sub _ (List.min?_mem hm)
  | any =>
    unfold extractMin
    have hlen : 0 < (lightest nodes pq).length := List.length_pos_iff.mpr hne
    have hlt := Nat.mod_lt (Config.freeTie d) hlen
    dsimp only
    rw [List.getElem?_eq_getElem hlt]
    exact sub _ (List.getElem_mem hlt)

/-- The arena while BUILD_TREE merges: `n` slots are in use, `pq` holds the roots of the trees built so far. -/
structure Merging (nodes : Vector Node 513) (leaves n : Nat) (pq : List Nat) (total : Nat) : Prop where
  count : n + pq.length = 2 * leaves
  ge : leaves ≤ n
  small : leaves ≤ 257
  nonempty : pq ≠ []
  perm : (childIndices nodes n ++ pq).Perm (List.range n)
  weight : (pq.map (nodeWeight nodes)).sum = total
  fits : total < 2 ^ 41
  leaf : ∀ k, k < leaves → ∃ sym w, nodes[k]? = some (.leaf sym w)
  internal : ∀ k, leaves ≤ k → k < n → ∃ a b, a < k ∧ b < k ∧ nodes[k]? = some (mergedNode nodes a b)

theorem childIndices_congr {nodes mid : Vector Node 513} {n : Nat} (h : ∀ j, j < n → mid[j]? = nodes[j]?) :
    childIndices mid n = childIndices nodes n := by
  unfold childIndices
  refine List.flatMap_congr fun i hi => ?_
  rw [h i (List.mem_range.mp hi)]

theorem childIndices_succ (nodes : Vector Node 513) (n : Nat) :
    childIndices nodes (n + 1) = childIndices nodes n ++ (nodes[n]?.map Node.children).getD [] := by
  simp [childIndices, List.range_succ]

theorem mergedNode_congr {nodes mid : Vector Node 513} {a b : Nat} (ha : mid[a]? = nodes[a]?)
    (hb : mid[b]? = nodes[b]?) : mergedNode mid a b = mergedNode nodes a b := by
  unfold mergedNode nodeWeight
  rw [ha, hb]

/-- One merge keeps the arena's form. -/
theorem Merging.merge {nodes : Vector Node 513} {leaves n total : Nat} {pq rest : List Nat} {a b : Nat}
    (h : Merging nodes leaves n pq total) (hp : pq.Perm (a :: b :: rest)) :
    Merging (nodes.setIfInBounds n (mergedNode nodes a b)) leaves (n + 1) (rest ++ [n]) total := by
  have hlen := hp.length_eq
  simp only [List.length_cons] at hlen
  have hcount := h.count
  have hsmall := h.small
  have hn : n < 513 := by omega
  have mem : ∀ i ∈ pq, i < n := fun i hi =>
    List.mem_range.mp (h.perm.subset (List.mem_append_right _ hi))
  have ha : a < n := mem a (hp.symm.subset (by simp))
  have hb : b < n := mem b (hp.symm.subset (by simp))
  have hrest : ∀ i ∈ rest, i < n := fun i hi => mem i (hp.symm.subset (by simp [hi]))
  generalize hm : nodes.setIfInBounds n (mergedNode nodes a b) = mid
  have old : ∀ j, j ≠ n → mid[j]? = nodes[j]? := fun j hj => by
    rw [← hm, Vector.getElem?_setIfInBounds, if_neg fun e => hj e.symm]
  have new : mid[n]? = some (mergedNode nodes a b) := by
    rw [← hm, Vector.getElem?_setIfInBounds]; simp [hn]
  have hw : ∀ j, j ≠ n → nodeWeight mid j = nodeWeight nodes j := fun j hj => by
    unfold nodeWeight; rw [old j hj]
  have hsum : nodeWeight nodes a + (nodeWeight nodes b + (rest.map (nodeWeight nodes)).sum) = total := by
    rw [← h.weight, (hp.map _).sum_eq]; simp
  have hfits := h.fits
  have hfit2 : nodeWeight nodes a + nodeWeight nodes b < 2 ^ 41 := by omega
  have hnew : nodeWeight mid n = nodeWeight nodes a + nodeWeight nodes b := by
    unfold nodeWeight
    rw [new]
    simp only [Option.map_some, Option.getD_some, mergedNode, Node.weight, BitVec.toNat_ofNat]
    exact Nat.mod_eq_of_lt hfit2
  have hchild : childIndices mid (n + 1) = childIndices nodes n ++ [a, b] := by
    rw [childIndices_succ, childIndices_congr fun j hj => old j (by omega), new]
    simp only [Option.map_some, Option.getD_some, mergedNode, Node.children]
    rw [slotIndex (by omega), slotIndex (by omega)]
  refine ⟨?_, Nat.le_succ_of_le h.ge, hsmall, by simp, ?_, ?_, hfits, fun k hk => ?_, fun k h1 h2 => ?_⟩
  · rw [List.length_append, List.length_singleton]; omega
  · rw [hchild, List.range_succ, List.append_assoc, ← List.append_assoc [a, b], ← List.append_assoc]
    refine List.Perm.append_right _ (List.Perm.trans (List.Perm.append_left _ ?_) h.perm)
    exact hp.symm
  · rw [List.map_append, List.sum_append, List.map_congr_left fun i hi => hw i (by have := hrest i hi; omega)]
    simp only [List.map_cons, List.map_nil, List.sum_cons, List.sum_nil, hnew]
    omega
  · obtain ⟨sym, w, hk'⟩ := h.leaf k hk
    have : k ≠ n := by have := h.ge; omega
    exact ⟨sym, w, by rw [old k this]; exact hk'⟩
  · by_cases e : k = n
    · subst e
      exact ⟨a, b, ha, hb, by rw [new, mergedNode_congr (old a (by omega)) (old b (by omega))]⟩
    · obtain ⟨a', b', ha', hb', hk⟩ := h.internal k h1 (by omega)
      exact ⟨a', b', ha', hb', by rw [old k e, hk, mergedNode_congr (old a' (by omega)) (old b' (by omega))]⟩

/-- The merge loop ends with one tree in the first `2 L - 1` slots (42_tree_builder R500). -/
theorem mergeLoop_done (tie : TieBreak) (k : Nat) {nodes : Vector Node 513} {leaves n total : Nat} {pq : List Nat}
    (d : Nat) (h : Merging nodes leaves n pq total) (hk : pq.length ≤ k + 1) :
    ∃ d' nodes', mergeLoop tie k pq n d nodes = (2 * leaves - 1, d', nodes') ∧
      ∃ r, Merging nodes' leaves (2 * leaves - 1) [r] total ∧ ∀ j, j < n → nodes'[j]? = nodes[j]? := by
  induction k generalizing nodes n pq d with
  | zero =>
    have hc := h.count
    match pq, h, hk with
    | [], h, _ => exact absurd rfl h.nonempty
    | [r], h, _ =>
      have e : n = 2 * leaves - 1 := by simp at hc; omega
      subst e
      exact ⟨d, nodes, rfl, r, h, fun _ _ => rfl⟩
    | x :: y :: pq, _, hk => simp at hk
  | succ k ih =>
    have hc := h.count
    match pq, h, hk with
    | [], h, _ => exact absurd rfl h.nonempty
    | [r], h, _ =>
      have e : n = 2 * leaves - 1 := by simp at hc; omega
      subst e
      exact ⟨d, nodes, rfl, r, h, fun _ _ => rfl⟩
    | x :: y :: pq, h, hk =>
      have hn : n < 513 := by have := h.small; simp at hc; omega
      have ha := extractMin_mem tie d nodes (pq := x :: y :: pq) (by simp)
      have hp1 := List.perm_cons_erase ha
      have hne : (x :: y :: pq).erase (extractMin tie d nodes (x :: y :: pq)) ≠ [] := by
        intro e
        have := hp1.length_eq
        rw [e] at this
        simp at this
      have hb := extractMin_mem tie (nextDraw tie d) nodes hne
      have hp2 := List.perm_cons_erase hb
      have hp := hp1.trans (List.Perm.cons _ hp2)
      obtain ⟨d', nodes', h1, r, h2, h3⟩ := ih (nextDraw tie (nextDraw tie d)) (h.merge hp) (by
        have := hp.length_eq
        simp only [List.length_cons] at this hk
        rw [List.length_append, List.length_singleton]
        omega)
      refine ⟨d', nodes', h1, r, h2, fun j hj => ?_⟩
      rw [h3 j (by omega), Vector.getElem?_setIfInBounds, if_neg (by omega)]

/-- extractMin reads only the weights of the queue's members. -/
theorem extractMin_congr (tie : TieBreak) (d : Nat) {nodes mid : Vector Node 513} {pq : List Nat}
    (h : ∀ j ∈ pq, mid[j]? = nodes[j]?) : extractMin tie d mid pq = extractMin tie d nodes pq := by
  have hw : ∀ j ∈ pq, nodeWeight mid j = nodeWeight nodes j := fun j hj => by unfold nodeWeight; rw [h j hj]
  have hl : lightest mid pq = lightest nodes pq := by
    refine List.filter_congr fun i hi => ?_
    rw [Bool.eq_iff_iff, List.all_eq_true, List.all_eq_true]
    refine forall₂_congr fun j hj => ?_
    rw [hw i hi, hw j hj]
  cases tie <;> simp only [extractMin, hl]

/-- The turns of the merge loop in the finished arena (42_tree_builder R500): the queue starts as `pq`, and each turn
but the last puts a node in the next slot, made of the minimum of the queue and the minimum of what is left. -/
def MergeTurns (tie : TieBreak) (nodes : Vector Node 513) (n : Nat) (pq : List Nat) (queue : Nat → List Nat) : Prop :=
  queue 0 = pq ∧ ∀ k, k + 1 < pq.length → ∃ d e a b : Nat,
    2 ≤ (queue k).length ∧ a = extractMin tie d nodes (queue k) ∧ b = extractMin tie e nodes ((queue k).erase a) ∧
    nodes[n + k]? = some (mergedNode nodes a b) ∧ queue (k + 1) = ((queue k).erase a).erase b ++ [n + k]

theorem mergeLoop_turns (tie : TieBreak) (k : Nat) {nodes : Vector Node 513} {leaves n total : Nat} {pq : List Nat}
    (d : Nat) (h : Merging nodes leaves n pq total) (hk : pq.length ≤ k + 1) :
    ∃ queue, MergeTurns tie (mergeLoop tie k pq n d nodes).2.2 n pq queue := by
  induction k generalizing nodes n pq d with
  | zero => exact ⟨fun _ => pq, rfl, fun k hk' => by omega⟩
  | succ k ih =>
    match pq, h, hk with
    | [], _, _ => exact ⟨fun _ => [], rfl, fun k hk' => by simp at hk'⟩
    | [r], _, _ => exact ⟨fun _ => [r], rfl, fun k hk' => by simp at hk'⟩
    | x :: y :: pq, h, hk =>
      have ha := extractMin_mem tie d nodes (pq := x :: y :: pq) (by simp)
      have hp1 := List.perm_cons_erase ha
      have hne : (x :: y :: pq).erase (extractMin tie d nodes (x :: y :: pq)) ≠ [] := by
        intro e
        have := hp1.length_eq
        rw [e] at this
        simp at this
      have hb := extractMin_mem tie (nextDraw tie d) nodes hne
      have hp2 := List.perm_cons_erase hb
      have hp := hp1.trans (List.Perm.cons _ hp2)
      have hlen := hp.length_eq
      simp only [List.length_cons] at hlen
      have hmid := h.merge hp
      have hle : (((x :: y :: pq).erase (extractMin tie d nodes (x :: y :: pq))).erase
          (extractMin tie (nextDraw tie d) nodes
            ((x :: y :: pq).erase (extractMin tie d nodes (x :: y :: pq)))) ++ [n]).length = pq.length + 1 := by
        rw [List.length_append, List.length_singleton]; omega
      have hmem : ∀ i ∈ x :: y :: pq, i < n := fun i hi =>
        List.mem_range.mp (h.perm.subset (List.mem_append_right _ hi))
      obtain ⟨d', nodes', h1, r, -, h3⟩ := mergeLoop_done tie k (nextDraw tie (nextDraw tie d)) hmid
        (by rw [hle]; simp only [List.length_cons] at hk; omega)
      obtain ⟨queue, h0, hq⟩ := ih (nextDraw tie (nextDraw tie d)) hmid
        (by rw [hle]; simp only [List.length_cons] at hk; omega)
      have hfin : (mergeLoop tie (k + 1) (x :: y :: pq) n d nodes).2.2 = nodes' := congrArg (·.2.2) h1
      rw [hfin]
      rw [h1] at hq
      dsimp only at hq
      have hn : n < 513 := by have := h.count; have := h.small; simp at *; omega
      have old : ∀ j, j < n → nodes'[j]? = nodes[j]? := fun j hj => by
        rw [h3 j (by omega), Vector.getElem?_setIfInBounds, if_neg (by omega)]
      have old1 : ∀ j ∈ (x :: y :: pq).erase (extractMin tie d nodes (x :: y :: pq)), nodes'[j]? = nodes[j]? :=
        fun j hj => old j (hmem j (List.mem_of_mem_erase hj))
      refine ⟨fun | 0 => x :: y :: pq | i + 1 => queue i, rfl, fun i hi => ?_⟩
      match i with
      | 0 =>
        refine ⟨d, nextDraw tie d, _, _, by simp, (extractMin_congr tie d fun j hj => old j (hmem j hj)).symm,
          (extractMin_congr tie _ old1).symm, ?_, h0⟩
        rw [Nat.add_zero, h3 n (by omega), Vector.getElem?_setIfInBounds, if_pos rfl, if_pos hn,
          mergedNode_congr (old _ (hmem _ ha)) (old1 _ hb)]
      | i + 1 =>
        obtain ⟨d2, e2, a2, b2, g1, g2, g3, g4, g5⟩ := hq i (by
          rw [hle]; simp only [List.length_cons] at hi; omega)
        rw [Nat.add_right_comm] at g4 g5
        exact ⟨d2, e2, a2, b2, g1, g2, g3, g4, g5⟩

/-- At the end the arena is one tree, its root in the last slot. -/
theorem Merging.arena {nodes : Vector Node 513} {leaves total r : Nat}
    (h : Merging nodes leaves (2 * leaves - 1) [r] total) : Arena nodes (2 * leaves - 1) ∧ r = 2 * leaves - 1 - 1 := by
  have hc := h.count
  have hsmall := h.small
  simp only [List.length_singleton] at hc
  have below : ∀ i, i < 2 * leaves - 1 → ∀ w l r, nodes[i]? = some (.internal w l r) → l.toNat < i ∧ r.toNat < i := by
    intro i hi w l r hn
    by_cases hl : i < leaves
    · obtain ⟨sym, w', hk⟩ := h.leaf i hl
      rw [hk] at hn; cases hn
    · obtain ⟨a, b, ha, hb, hk⟩ := h.internal i (by omega) hi
      rw [hk] at hn
      simp only [mergedNode, Option.some.injEq, Node.internal.injEq] at hn
      obtain ⟨-, rfl, rfl⟩ := hn
      rw [slotIndex (by omega), slotIndex (by omega)]
      exact ⟨ha, hb⟩
  have hlast : ∀ c ∈ childIndices nodes (2 * leaves - 1), c < 2 * leaves - 1 - 1 := by
    intro c hc'
    simp only [childIndices, List.mem_flatMap, List.mem_range] at hc'
    obtain ⟨i, hi, hc'⟩ := hc'
    cases hn : nodes[i]? with
    | none => rw [hn] at hc'; simp at hc'
    | some nd =>
      rw [hn] at hc'
      cases nd with
      | leaf sym w => simp [Node.children] at hc'
      | internal w l r =>
        obtain ⟨h1, h2⟩ := below i hi w l r hn
        simp only [Option.map_some, Option.getD_some, Node.children, List.mem_cons, List.not_mem_nil, or_false] at hc'
        rcases hc' with rfl | rfl <;> omega
  have hr : r = 2 * leaves - 1 - 1 := by
    have : 2 * leaves - 1 - 1 ∈ childIndices nodes (2 * leaves - 1) ++ [r] :=
      h.perm.symm.subset (List.mem_range.mpr (by omega))
    rw [List.mem_append, List.mem_singleton] at this
    rcases this with h1 | h1
    · exact absurd (hlast _ h1) (lt_irrefl _)
    · exact h1.symm
  refine ⟨⟨by omega, by omega, below, ?_⟩, hr⟩
  have hp := h.perm
  obtain ⟨m, hm⟩ : ∃ m, 2 * leaves - 1 = m + 1 := ⟨2 * leaves - 1 - 1, by omega⟩
  rw [hr, hm] at hp
  rw [hm]
  rw [List.range_succ, Nat.add_sub_cancel] at hp
  exact (List.perm_append_right_iff _).mp hp

/-! ## The construction -/

/-- The symbols with a count. -/
abbrev State.counted (s : State) : List Nat := countedSyms s.freqAt (List.range 257)

theorem counted_length (s : State) : s.counted.length ≤ 257 :=
  (List.length_filter_le _ _).trans (by simp)

/-- BUILD_TREE's construction on a table with at least one count (42_tree_builder R500, R505). -/
theorem buildFrom_some {s : State} (h : s.counted ≠ []) :
    ∃ d nodes, buildFrom s = (s.counted.length, 2 * s.counted.length - 1, d, nodes) ∧
      Arena nodes (2 * s.counted.length - 1) ∧
      (∀ k, k < s.counted.length → nodes[k]? = (s.counted.map (leafOf s.freqAt))[k]?) ∧
      (∀ k, s.counted.length ≤ k → k < 2 * s.counted.length - 1 →
        ∃ a b, a < k ∧ b < k ∧ nodes[k]? = some (mergedNode nodes a b)) ∧
      (∃ queue, MergeTurns s.params.tieBreak nodes s.counted.length (List.range s.counted.length) queue) ∧
      nodeWeight nodes (2 * s.counted.length - 1 - 1) = (s.counted.map fun b => (s.freqAt b).toNat).sum := by
  have hlen := counted_length s
  obtain ⟨h1, h2⟩ := placeLeaves_stored s.freqAt (List.range 257) 0 s.nodes (by simpa using hlen.trans (by norm_num))
  rw [Nat.zero_add] at h1
  have hleaf : ∀ k, k < s.counted.length →
      (placeLeaves s.freqAt (List.range 257) 0 s.nodes).2[k]? = (s.counted.map (leafOf s.freqAt))[k]? := by
    intro k hk
    rw [h2 k (by omega)]
    unfold storedAt
    rw [if_neg (by omega), if_pos (by rw [List.length_map, Nat.zero_add]; exact hk)]
    rfl
  have hweight : ∀ k (hk : k < s.counted.length), nodeWeight (placeLeaves s.freqAt (List.range 257) 0 s.nodes).2 k =
      (s.freqAt s.counted[k]).toNat := by
    intro k hk
    unfold nodeWeight
    rw [hleaf k hk, List.getElem?_map, List.getElem?_eq_getElem hk]
    simp only [Option.map_some, Option.getD_some, leafOf, Node.weight, BitVec.toNat_setWidth]
    exact Nat.mod_eq_of_lt ((s.freqAt _).isLt.trans (by norm_num))
  have hsum : ((List.range s.counted.length).map
      (nodeWeight (placeLeaves s.freqAt (List.range 257) 0 s.nodes).2)).sum =
      (s.counted.map fun b => (s.freqAt b).toNat).sum := by
    congr 1
    apply List.ext_getElem
    · simp
    · intro k hk1 hk2
      simp only [List.length_map, List.length_range] at hk1
      simp only [List.getElem_map, List.getElem_range]
      exact hweight k hk1
  have hbound : (s.counted.map fun b => (s.freqAt b).toNat).sum < 2 ^ 41 := by
    have : (s.counted.map fun b => (s.freqAt b).toNat).sum ≤ s.counted.length * (2 ^ 32 - 1) := by
      have := List.sum_le_card_nsmul (s.counted.map fun b => (s.freqAt b).toNat) (2 ^ 32 - 1) (by
        intro x hx
        simp only [List.mem_map] at hx
        obtain ⟨b, -, rfl⟩ := hx
        have := (s.freqAt b).isLt
        omega)
      simpa using this
    omega
  have hstart : Merging (placeLeaves s.freqAt (List.range 257) 0 s.nodes).2 s.counted.length s.counted.length
      (List.range s.counted.length) (s.counted.map fun b => (s.freqAt b).toNat).sum := by
    refine ⟨by simp; omega, le_rfl, hlen, ?_, ?_, hsum, hbound, fun k hk => ?_, fun k h1 h2 => by omega⟩
    · intro e
      have : s.counted.length = 0 := by simpa using congrArg List.length e
      exact h (List.length_eq_zero_iff.mp this)
    · have : childIndices (placeLeaves s.freqAt (List.range 257) 0 s.nodes).2 s.counted.length = [] := by
        unfold childIndices
        rw [List.flatMap_eq_nil_iff]
        intro i hi
        rw [List.mem_range] at hi
        rw [hleaf i hi, List.getElem?_map, List.getElem?_eq_getElem hi]
        rfl
      rw [this]
      exact .refl _
    · rw [hleaf k hk, List.getElem?_map, List.getElem?_eq_getElem hk]
      exact ⟨_, _, rfl⟩
  obtain ⟨d', nodes', e, r, hm, hsame⟩ := mergeLoop_done s.params.tieBreak s.counted.length s.draws hstart (by simp)
  obtain ⟨ha, hr⟩ := hm.arena
  have hturns := mergeLoop_turns s.params.tieBreak s.counted.length s.draws hstart (by simp)
  rw [e] at hturns
  refine ⟨d', nodes', ?_, ha, fun k hk => ?_, hm.internal, hturns, ?_⟩
  · unfold buildFrom
    dsimp only
    rw [h1, e]
  · rw [hsame k hk, hleaf k hk]
  · rw [← hr]
    have := hm.weight
    simpa using this

theorem buildFrom_none {s : State} (h : s.counted = []) : (buildFrom s).1 = 0 := by
  obtain ⟨h1, -⟩ := placeLeaves_stored s.freqAt (List.range 257) 0 s.nodes (by
    rw [Nat.zero_add]
    exact (counted_length s).trans (by norm_num))
  unfold buildFrom
  dsimp only
  rw [h1, Nat.zero_add]
  exact List.length_eq_zero_iff.mpr h

end Sys2Proof.Machine
end

