-- ==== Sys2Proof/Laws/Loops.lean ====
section
/-! SUPPORT. The loops of COUNT_FREQ, ENCODE_PAYLOAD and DECODE_PAYLOAD when no channel call fails. -/

namespace Sys2Proof.Machine

/-! ## Whole bytes -/

theorem wholeBytes_short {p : Bits} (h : p.length < 8) : wholeBytes p = [] := by
  simp [wholeBytes, Nat.div_eq_of_lt h]

theorem wholeBytes_cons {p : Bits} (h : 8 ≤ p.length) :
    wholeBytes p = val (p.take 8) :: wholeBytes (p.drop 8) := by
  have e : p.length / 8 = (p.drop 8).length / 8 + 1 := by rw [List.length_drop]; omega
  unfold wholeBytes
  rw [e, List.range_succ_eq_map, List.map_cons, List.map_map]
  simp only [Nat.mul_zero, List.drop_zero, List.cons.injEq, true_and]
  refine List.map_congr_left fun j _ => ?_
  simp [List.drop_drop, Nat.mul_succ, Nat.add_comm]

theorem wholeBytes_lt {p : Bits} {b : Nat} (h : b ∈ wholeBytes p) : b < 256 := by
  simp only [wholeBytes, List.mem_map] at h
  obtain ⟨j, _, rfl⟩ := h
  exact (val_lt _).trans_le (by
    have : ((p.drop (8 * j)).take 8).length ≤ 8 := by simp
    exact Nat.pow_le_pow_right (by norm_num) this)

/-- The bytes of a byte sequence laid out most significant bit first are that sequence. -/
theorem wholeBytes_bytes (S : List (BitVec 8)) : wholeBytes (S.flatMap fun b => msb 8 b.toNat) = S.map (·.toNat) := by
  induction S with
  | nil => exact wholeBytes_short (by simp)
  | cons b S ih =>
    rw [List.flatMap_cons, wholeBytes_cons (by simp)]
    have h1 : (msb 8 b.toNat ++ S.flatMap fun b => msb 8 b.toNat).take 8 = msb 8 b.toNat := by simp
    have h2 : (msb 8 b.toNat ++ S.flatMap fun b => msb 8 b.toNat).drop 8 = S.flatMap fun b => msb 8 b.toNat := by
      simp
    rw [h1, h2, ih, val_msb, Nat.mod_eq_of_lt b.isLt, List.map_cons]

/-! ## Reading bytes -/

/-- A byte read when one is left. -/
theorem readByte {s : State} (h : s.ioClear) (hl : 8 ≤ s.inRest.length) :
    readIn 8 s = .ok (some (val (s.inRest.take 8)))
      { s with io := s.io.tail, inCh := { s.inCh with pos := s.inCh.pos + 8 } } := by
  rw [inRest_length, State.inLeft] at hl
  exact readIn_some h (by omega)

/-- A byte read when none is left: where the loops leave IN (20_memory R210). -/
theorem readByte_eof {s : State} (h : s.ioClear) (hl : s.inRest.length < 8) :
    readIn 8 s = .ok none { s with io := s.io.tail, inCh := { s.inCh with pos := s.posAfterBytes } } := by
  have hl' := hl
  rw [inRest_length, State.inLeft] at hl'
  have e : s.inRest.length / 8 = 0 := Nat.div_eq_of_lt hl
  rw [readIn_eof h (by omega)]
  unfold State.posAfterBytes
  cases s.params.inEofPos <;> simp [e]

theorem inRest_advance (s : State) (n : Nat) (io : List IoDraw) :
    ({ s with io := io, inCh := { s.inCh with pos := s.inCh.pos + n } } : State).inRest = s.inRest.drop n := by
  simp [State.inRest, List.drop_drop]

theorem posAfterBytes_advance (s : State) (io : List IoDraw) (hl : 8 ≤ s.inRest.length) :
    ({ s with io := io, inCh := { s.inCh with pos := s.inCh.pos + 8 } } : State).posAfterBytes =
      s.posAfterBytes := by
  unfold State.posAfterBytes
  rw [inRest_advance, List.length_drop]
  cases s.params.inEofPos
  · dsimp only; omega
  · rfl

/-! ## COUNT_FREQ -/

theorem countLoop_count (k : Nat) {s : State} (h : s.ioClear) (hk : s.inRest.length / 8 < k)
    (hc : ∀ b, (s.freqAt b).toNat + (wholeBytes s.inRest).count b < 2 ^ 32) :
    ∃ u, countLoop k s = .ok () u ∧ u.ioClear ∧
      u = { s with io := u.io, inCh := { s.inCh with pos := s.posAfterBytes }, freq := u.freq } ∧
      ∀ b, (u.freqAt b).toNat = (s.freqAt b).toNat + (wholeBytes s.inRest).count b := by
  induction k generalizing s with
  | zero => omega
  | succ k ih =>
    unfold countLoop
    rw [Body.bind_apply]
    by_cases hl : s.inRest.length < 8
    · rw [readByte_eof h hl]
      exact ⟨_, rfl, ioClear_tail h, rfl, fun b => by rw [wholeBytes_short hl]; rfl⟩
    · have hl : 8 ≤ s.inRest.length := by omega
      rw [readByte h hl]
      have hv : val (s.inRest.take 8) < 256 := wholeBytes_lt (p := s.inRest) (by
        rw [wholeBytes_cons hl]; exact List.mem_cons_self ..)
      have hcons := wholeBytes_cons hl
      generalize hb : val (s.inRest.take 8) = b at hv hcons
      have hmax := hc b
      rw [hcons, List.count_cons_self] at hmax
      have hne : s.freqAt b ≠ Config.maxCount := by
        intro e; rw [e] at hmax; simp [Config.maxCount] at hmax; omega
      have hinc : (s.freqAt b + 1#32).toNat = (s.freqAt b).toNat + 1 := by
        rw [BitVec.toNat_add]; simp; omega
      generalize ht : ({ s with io := s.io.tail, inCh := { s.inCh with pos := s.inCh.pos + 8 } } : State) = t
      have htf : t.freq = s.freq := by rw [← ht]
      have htf' : ∀ b, t.freqAt b = s.freqAt b := fun b => by simp [State.freqAt, htf]
      have hset : ∀ j, ((t.setFreq b (t.freqAt b + 1#32)).freqAt j).toNat =
          (s.freqAt j).toNat + if j = b then 1 else 0 := by
        intro j
        rw [freqAt_setFreq _ _ _ _ (by omega), htf', htf']
        split
        · rename_i e; rw [e, hinc]
        · rfl
      have hrest : (t.setFreq b (t.freqAt b + 1#32)).inRest = s.inRest.drop 8 := by
        rw [← ht]; exact inRest_advance s 8 s.io.tail
      have hcount : ∀ j, (if j = b then 1 else 0) + (wholeBytes (s.inRest.drop 8)).count j =
          (wholeBytes s.inRest).count j := by
        intro j
        rw [hcons, List.count_cons]
        by_cases e : j = b
        · subst e; simp; omega
        · simp [e, Ne.symm e]
      obtain ⟨u, hu, huc, heq, hfreq⟩ := ih (s := t.setFreq b (t.freqAt b + 1#32))
        (by rw [← ht]; exact ioClear_tail h)
        (by rw [hrest, List.length_drop]; omega)
        (fun j => by rw [hset, hrest, Nat.add_assoc, hcount]; exact hc j)
      refine ⟨u, ?_, huc, ?_, fun j => ?_⟩
      · simp only [Body.bind_apply, Body.get_apply, htf', if_neg hne, Body.modify_apply]
        rw [htf'] at hu
        exact hu
      · have hpos : (t.setFreq b (t.freqAt b + 1#32)).posAfterBytes = s.posAfterBytes := by
          rw [← posAfterBytes_advance s s.io.tail hl, ← ht]; rfl
        rw [hpos] at heq
        rw [heq, ← ht]; rfl
      · rw [hfreq, hset, hrest, Nat.add_assoc, hcount]

/-- The loop stops at the byte whose count is full, with the bytes before it counted (41_frequency R450). -/
theorem countLoop_overflow (k : Nat) {bs : List Nat} {b : Nat} {rest : List Nat} {s : State} (h : s.ioClear)
    (hk : s.inRest.length / 8 < k) (hw : wholeBytes s.inRest = bs ++ b :: rest)
    (hc : ∀ c, (s.freqAt c).toNat + bs.count c < 2 ^ 32) (hb : (s.freqAt b).toNat + bs.count b = 2 ^ 32 - 1) :
    ∃ u, countLoop k s = .error (.raised .countOverflow (BitVec.ofNat 32 b)) u ∧
      u = { s with io := u.io, inCh := { s.inCh with pos := s.inCh.pos + 8 * (bs.length + 1) }, freq := u.freq } ∧
      ∀ c, (u.freqAt c).toNat = (s.freqAt c).toNat + bs.count c := by
  induction k generalizing bs s with
  | zero => omega
  | succ k ih =>
    have hl : 8 ≤ s.inRest.length := by
      by_contra hs
      rw [wholeBytes_short (by omega)] at hw
      simp at hw
    have hcons := wholeBytes_cons hl
    unfold countLoop
    rw [Body.bind_apply, readByte h hl]
    generalize ht : ({ s with io := s.io.tail, inCh := { s.inCh with pos := s.inCh.pos + 8 } } : State) = t
    have htf : ∀ c, t.freqAt c = s.freqAt c := fun c => by rw [← ht]; rfl
    rw [hcons] at hw
    cases bs with
    | nil =>
      simp only [List.nil_append, List.cons.injEq] at hw
      rw [hw.1]
      have hfull : s.freqAt b = Config.maxCount :=
        BitVec.eq_of_toNat_eq (by simpa [Config.maxCount] using hb)
      refine ⟨t, ?_, by rw [← ht]; rfl, fun c => by rw [htf]; simp⟩
      simp only [Body.bind_apply, Body.get_apply, htf, if_pos hfull]
      rfl
    | cons a bs =>
      simp only [List.cons_append, List.cons.injEq] at hw
      rw [hw.1]
      have ha : a < 256 := by rw [← hw.1]; exact wholeBytes_lt (p := s.inRest) (by rw [hcons]; exact List.mem_cons_self ..)
      have hmax := hc a
      rw [List.count_cons_self] at hmax
      have hne : s.freqAt a ≠ Config.maxCount := by
        intro e; rw [e] at hmax; simp [Config.maxCount] at hmax; omega
      have hinc : (s.freqAt a + 1#32).toNat = (s.freqAt a).toNat + 1 := by
        rw [BitVec.toNat_add]; simp; omega
      have hset : ∀ j, ((t.setFreq a (t.freqAt a + 1#32)).freqAt j).toNat =
          (s.freqAt j).toNat + if j = a then 1 else 0 := by
        intro j
        rw [freqAt_setFreq _ _ _ _ (by omega), htf, htf]
        split
        · rename_i e; rw [e, hinc]
        · rfl
      have hrest : (t.setFreq a (t.freqAt a + 1#32)).inRest = s.inRest.drop 8 := by
        rw [← ht]; exact inRest_advance s 8 s.io.tail
      have hcount : ∀ j, (if j = a then 1 else 0) + bs.count j = (a :: bs).count j := by
        intro j
        rw [List.count_cons]
        by_cases e : j = a
        · subst e; simp; omega
        · simp [e, Ne.symm e]
      obtain ⟨u, hu, heq, hfreq⟩ := ih (bs := bs) (s := t.setFreq a (t.freqAt a + 1#32))
        (by rw [← ht]; exact ioClear_tail h) (by rw [hrest, List.length_drop]; omega) (by rw [hrest]; exact hw.2)
        (fun j => by rw [hset, Nat.add_assoc, hcount]; exact hc j) (by rw [hset, Nat.add_assoc, hcount]; exact hb)
      refine ⟨u, ?_, ?_, fun j => by rw [hfreq, hset, Nat.add_assoc, hcount]⟩
      · simp only [Body.bind_apply, Body.get_apply, htf, if_neg hne, Body.modify_apply]
        rw [htf] at hu
        exact hu
      · have hpos : (t.setFreq a (t.freqAt a + 1#32)).inCh.pos + 8 * (bs.length + 1) =
            s.inCh.pos + 8 * ((a :: bs).length + 1) := by
          rw [← ht]; simp only [State.setFreq, List.length_cons]; omega
        rw [hpos] at heq
        rw [heq, ← ht]; rfl

/-! ## ENCODE_PAYLOAD -/

theorem codeWrites_bits (bits : BitVec 256) (k : Nat) :
    ((codeWrites bits k).flatMap fun w => msb w.1 w.2) = msb k bits.toNat := by
  induction k with
  | zero => rfl
  | succ k ih =>
    rw [codeWrites, List.flatMap_cons, ih, msb]
    have : bits.getLsbD k = bits.toNat.testBit k := rfl
    rw [this]
    cases h : bits.toNat.testBit k <;> simp [msb, h]

/-- `encode(sym)` with a code, to an open OUT (45_payload_codec R660). -/
theorem encodeCode_open {s : State} (h : s.ioClear) (ho : s.outCh.closed = false) {sym : Nat}
    (hv : (s.codeAt sym).valid = true) :
    ∃ u, encodeCode sym s = .ok () u ∧ u.ioClear ∧
      u = { s with io := u.io, outCh := { s.outCh with bits := s.outCh.bits ++ (s.codeAt sym).path } } := by
  refine ⟨{ s with io := s.io.drop (codeWrites (s.codeAt sym).bits (s.codeAt sym).len.toNat).length,
                   outCh := { s.outCh with bits := s.outCh.bits ++ (s.codeAt sym).path } }, ?_, ?_, rfl⟩
  · simp only [encodeCode, Body.bind_apply, Body.get_apply, hv, if_true]
    rw [writeAll_open _ h ho, codeWrites_bits]
    rfl
  · exact fun d hd => h d (List.mem_of_mem_drop hd)

/-- One turn of the encode loop on a byte that has a code. -/
theorem encodeLoop_byte (k : Nat) {s : State} (h : s.ioClear) (ho : s.outCh.closed = false)
    (hl : 8 ≤ s.inRest.length) (hv : (s.codeAt (val (s.inRest.take 8))).valid = true) :
    ∃ u, encodeLoop (k + 1) s = encodeLoop k u ∧ u.ioClear ∧
      u = { s with io := u.io, inCh := { s.inCh with pos := s.inCh.pos + 8 },
                   outCh := { s.outCh with bits := s.outCh.bits ++ (s.codeAt (val (s.inRest.take 8))).path } } ∧
      u.inRest = s.inRest.drop 8 := by
  obtain ⟨u, hu, huc, heq⟩ := encodeCode_open
    (s := { s with io := s.io.tail, inCh := { s.inCh with pos := s.inCh.pos + 8 } }) (ioClear_tail h) ho
    (sym := val (s.inRest.take 8)) hv
  refine ⟨u, ?_, huc, heq, ?_⟩
  · conv_lhs => unfold encodeLoop
    rw [Body.bind_apply, readByte h hl]
    simp only [Body.bind_apply, hu]
  · rw [heq]
    exact inRest_advance s 8 s.io.tail

theorem encodeLoop_open (k : Nat) {s : State} (h : s.ioClear) (ho : s.outCh.closed = false)
    (hk : s.inRest.length / 8 < k) (hv : ∀ b ∈ wholeBytes s.inRest, (s.codeAt b).valid = true) :
    ∃ u, encodeLoop k s = .ok () u ∧ u.ioClear ∧
      u = { s with io := u.io, inCh := { s.inCh with pos := s.posAfterBytes },
                   outCh := { s.outCh with
                     bits := s.outCh.bits ++ (wholeBytes s.inRest).flatMap fun b => (s.codeAt b).path } } := by
  induction k generalizing s with
  | zero => omega
  | succ k ih =>
    by_cases hl : s.inRest.length < 8
    · unfold encodeLoop
      rw [Body.bind_apply, readByte_eof h hl]
      refine ⟨_, rfl, ioClear_tail h, ?_⟩
      rw [wholeBytes_short hl]
      simp
    · have hl : 8 ≤ s.inRest.length := by omega
      have hcons := wholeBytes_cons hl
      rw [hcons] at hv ⊢
      obtain ⟨u, hu, huc, heq, hrest⟩ := encodeLoop_byte k h ho hl (hv _ (List.mem_cons_self ..))
      have hcode : ∀ b, u.codeAt b = s.codeAt b := fun b => by rw [heq]; rfl
      obtain ⟨v, hv', hvc, heq'⟩ := ih huc (by rw [heq]; exact ho) (by rw [hrest, List.length_drop]; omega)
        (fun b' hb' => by rw [hcode]; rw [hrest] at hb'; exact hv b' (List.mem_cons_of_mem _ hb'))
      refine ⟨v, hu.trans hv', hvc, ?_⟩
      have hpos : u.posAfterBytes = s.posAfterBytes := by
        rw [← posAfterBytes_advance s s.io.tail hl, heq]; rfl
      rw [hpos, hrest, show (fun b => (u.codeAt b).path) = fun b => (s.codeAt b).path by funext b; rw [hcode],
        heq] at heq'
      rw [heq']
      simp [List.append_assoc]

/-- At a byte with no code the encode loop stops with MISSING_CODE, the codes before it written (45_payload_codec
R670). -/
theorem encodeLoop_missing (bs : List Nat) (k : Nat) {s : State} (h : s.ioClear) (ho : s.outCh.closed = false)
    (hk : s.inRest.length / 8 < k) {b : Nat} {rest : List Nat} (hw : wholeBytes s.inRest = bs ++ b :: rest)
    (hv : ∀ c ∈ bs, (s.codeAt c).valid = true) (hb : (s.codeAt b).valid = false) :
    ∃ u, encodeLoop k s = .error (.raised .missingCode (BitVec.ofNat 32 b)) u ∧
      u = { s with io := u.io, inCh := { s.inCh with pos := s.inCh.pos + 8 * (bs.length + 1) },
                   outCh := { s.outCh with bits := s.outCh.bits ++ bs.flatMap fun c => (s.codeAt c).path } } := by
  have hl : 8 ≤ s.inRest.length := by
    by_contra hl
    rw [wholeBytes_short (by omega)] at hw
    simp at hw
  have hcons := wholeBytes_cons hl
  obtain ⟨k, rfl⟩ : ∃ m, k = m + 1 := ⟨k - 1, by omega⟩
  induction bs generalizing k s with
  | nil =>
    rw [List.nil_append, hcons] at hw
    obtain ⟨hval, -⟩ := List.cons.inj hw
    refine ⟨{ s with io := s.io.tail, inCh := { s.inCh with pos := s.inCh.pos + 8 } }, ?_, ?_⟩
    · unfold encodeLoop
      rw [Body.bind_apply, readByte h hl, hval]
      simp only [encodeCode, Body.bind_apply, Body.get_apply]
      rw [if_neg]
      · rfl
      · show ¬ (s.codeAt b).valid = true
        rw [hb]; decide
    · simp
  | cons a bs ih =>
    rw [List.cons_append, hcons] at hw
    obtain ⟨hval, hw⟩ := List.cons.inj hw
    obtain ⟨u, hu, huc, heq, hrest⟩ := encodeLoop_byte k h ho hl (by rw [hval]; exact hv a (List.mem_cons_self ..))
    rw [hval] at heq
    have hcode : ∀ b, u.codeAt b = s.codeAt b := fun b => by rw [heq]; rfl
    have hl' : 8 ≤ u.inRest.length := by
      by_contra hl'
      rw [← hrest, wholeBytes_short (by omega)] at hw
      simp at hw
    obtain ⟨m, rfl⟩ : ∃ m, k = m + 1 := ⟨k - 1, by rw [hrest, List.length_drop] at hl'; omega⟩
    obtain ⟨v, hv', heq'⟩ := ih huc (by rw [heq]; exact ho) (by rw [hrest]; exact hw)
      (fun c hc => by rw [hcode]; exact hv c (List.mem_cons_of_mem _ hc)) (by rw [hcode]; exact hb) hl'
      (wholeBytes_cons hl') m (by rw [hrest, List.length_drop]; omega)
    refine ⟨v, hu.trans hv', ?_⟩
    rw [show (fun c => (u.codeAt c).path) = fun c => (s.codeAt c).path by funext c; rw [hcode], heq] at heq'
    rw [heq']
    simp only [List.flatMap_cons, List.append_assoc, List.length_cons]
    congr 2
    omega

/-! ## DECODE_PAYLOAD -/

/-- `walk()` from the root (45_payload_codec R690). -/
theorem walk_tree {s : State} {T : HTree} (ht : s.tree = some T) (hc : s.ioClear)
    (hp : s.inCh.pos ≤ s.inCh.bits.length) :
    (∀ sym rest, T.walk s.inRest = some (sym, rest) → ∃ u, walk s = .ok sym u ∧ ReadTo s u ∧ u.inRest = rest) ∧
    (T.walk s.inRest = none →
      ∃ u, walk s = .error (.raised .truncatedStream 0#32) u ∧ ReadTo s u ∧ u.inRest = []) := by
  have := walkFrom_tree (k := s.inLeft + 1) ht hc hp (by rw [inRest_length]; omega)
  simpa [walk] using this

theorem HTree.walk_length {T : HTree} {p rest : Bits} {sym : BitVec 9} (h : T.walk p = some (sym, rest)) :
    rest.length ≤ p.length ∧ ((∀ s, T ≠ .leaf s) → rest.length < p.length) := by
  induction T generalizing p with
  | leaf s =>
    simp only [HTree.walk, Option.some.injEq, Prod.mk.injEq] at h
    exact ⟨by rw [h.2], fun hn => absurd rfl (hn s)⟩
  | node l r ihl ihr =>
    cases p with
    | nil => cases h
    | cons b p =>
      cases b with
      | false => have := (ihl (by simpa [HTree.walk] using h)).1; simp; omega
      | true => have := (ihr (by simpa [HTree.walk] using h)).1; simp; omega

/-- What the decode loop leaves, `p` written to OUT. -/
structure DecodedTo (s u : State) (p : Bits) : Prop where
  only : u = { s with io := u.io, inCh := { s.inCh with pos := u.inCh.pos },
                      outCh := { s.outCh with bits := s.outCh.bits ++ p } }
  clear : u.ioClear
  pos_le : u.inCh.pos ≤ u.inCh.bits.length

theorem decodeLoop_succ (k : Nat) : decodeLoop (k + 1) = (walk >>= fun sym =>
    if sym.toNat = Config.endOfStream then modify fun s => s.setEosSeen true
    else writeOut 8 sym.toNat >>= fun _ => decodeLoop k) := rfl

/-- One turn of the decode loop on a byte. -/
theorem decodeLoop_byte {k : Nat} {s : State} {T : HTree} (ht : s.tree = some T) (hc : s.ioClear)
    (ho : s.outCh.closed = false) (hp : s.inCh.pos ≤ s.inCh.bits.length) {b : BitVec 9} {mid : Bits} (hb : b ≠ 256#9)
    (hw : T.walk s.inRest = some (b, mid)) :
    ∃ u, decodeLoop (k + 1) s = decodeLoop k u ∧ DecodedTo s u (msb 8 b.toNat) ∧ u.inRest = mid := by
  obtain ⟨u, hu, hto, hr⟩ := (walk_tree ht hc hp).1 b mid hw
  have hne : b.toNat ≠ Config.endOfStream := fun e => hb (BitVec.eq_of_toNat_eq e)
  have huo : u.outCh = s.outCh := by rw [hto.only]
  have hwr := writeOut_open hto.clear (by rw [huo]; exact ho) 8 b.toNat
  refine ⟨{ u with io := u.io.tail, outCh := { u.outCh with bits := u.outCh.bits ++ msb 8 b.toNat } }, ?_,
    ⟨?_, ioClear_tail hto.clear, hto.pos_le⟩, hr⟩
  · rw [decodeLoop_succ, Body.bind_apply, hu]
    dsimp only
    rw [if_neg hne, Body.bind_apply, hwr]
  · conv_lhs => rw [hto.only]

theorem decodeLoop_done (k : Nat) {s : State} {T : HTree} (ht : s.tree = some T) (hT : ∀ s, T = .leaf s → s = 256#9)
    (hc : s.ioClear) (ho : s.outCh.closed = false) (hp : s.inCh.pos ≤ s.inCh.bits.length)
    (hk : s.inRest.length < k) {bs : List (BitVec 9)} {rest : Bits} (hd : T.decodes s.inRest bs rest) :
    ∃ u, decodeLoop k s = .ok () (u.setEosSeen true) ∧
      DecodedTo s u (bs.flatMap fun b => msb 8 b.toNat) ∧ u.inRest = rest := by
  induction bs generalizing k s with
  | nil =>
    obtain ⟨k, rfl⟩ : ∃ m, k = m + 1 := ⟨k - 1, by omega⟩
    obtain ⟨u, hu, hto, hr⟩ := (walk_tree ht hc hp).1 _ _ hd
    refine ⟨u, ?_, ⟨?_, hto.clear, hto.pos_le⟩, hr⟩
    · rw [decodeLoop_succ, Body.bind_apply, hu]
      rfl
    · conv_lhs => rw [hto.only]
      simp
  | cons b bs ih =>
    obtain ⟨k, rfl⟩ : ∃ m, k = m + 1 := ⟨k - 1, by omega⟩
    obtain ⟨hb, mid, hw, hd⟩ := hd
    obtain ⟨u, hu, hto, hr⟩ := decodeLoop_byte (k := k) ht hc ho hp hb hw
    have hlt := (HTree.walk_length hw).2 fun s' e => by
      subst e
      simp only [HTree.walk, Option.some.injEq, Prod.mk.injEq] at hw
      exact hb (hw.1.symm.trans (hT _ rfl))
    obtain ⟨v, hv, hto', hr'⟩ := ih k (s := u) (by rw [hto.only]; exact ht) hto.clear
      (by rw [hto.only]; exact ho) hto.pos_le (by rw [hr]; omega) (by rw [hr]; exact hd)
    refine ⟨v, hu.trans hv, ⟨?_, hto'.clear, hto'.pos_le⟩, hr'⟩
    conv_lhs => rw [hto'.only, hto.only]
    simp [List.append_assoc]

theorem decodeLoop_truncated (k : Nat) {s : State} {T : HTree} (ht : s.tree = some T)
    (hT : ∀ s, T = .leaf s → s = 256#9) (hc : s.ioClear) (ho : s.outCh.closed = false)
    (hp : s.inCh.pos ≤ s.inCh.bits.length) (hk : s.inRest.length < k) {bs : List (BitVec 9)}
    (hd : T.breaksOff s.inRest bs) :
    ∃ u, decodeLoop k s = .error (.raised .truncatedStream 0#32) u ∧
      DecodedTo s u (bs.flatMap fun b => msb 8 b.toNat) ∧ u.inRest = [] := by
  induction bs generalizing k s with
  | nil =>
    obtain ⟨k, rfl⟩ : ∃ m, k = m + 1 := ⟨k - 1, by omega⟩
    obtain ⟨u, hu, hto, hr⟩ := (walk_tree ht hc hp).2 hd
    refine ⟨u, ?_, ⟨?_, hto.clear, hto.pos_le⟩, hr⟩
    · rw [decodeLoop_succ, Body.bind_apply, hu]
    · conv_lhs => rw [hto.only]
      simp
  | cons b bs ih =>
    obtain ⟨k, rfl⟩ : ∃ m, k = m + 1 := ⟨k - 1, by omega⟩
    obtain ⟨hb, mid, hw, hd⟩ := hd
    obtain ⟨u, hu, hto, hr⟩ := decodeLoop_byte (k := k) ht hc ho hp hb hw
    have hlt := (HTree.walk_length hw).2 fun s' e => by
      subst e
      simp only [HTree.walk, Option.some.injEq, Prod.mk.injEq] at hw
      exact hb (hw.1.symm.trans (hT _ rfl))
    obtain ⟨v, hv, hto', hr'⟩ := ih k (s := u) (by rw [hto.only]; exact ht) hto.clear
      (by rw [hto.only]; exact ho) hto.pos_le (by rw [hr]; omega) (by rw [hr]; exact hd)
    refine ⟨v, hu.trans hv, ⟨?_, hto'.clear, hto'.pos_le⟩, hr'⟩
    conv_lhs => rw [hto'.only, hto.only]
    simp [List.append_assoc]

end Sys2Proof.Machine
end

