-- ==== Sys2Proof/Laws/Bodies.lean ====
section
/-! SUPPORT. What each body leaves when it succeeds and no channel call fails: the shared part once, then what is the
body's own. -/

namespace Sys2Proof.Machine

/-- What no body of a macro command changes when it succeeds (10_state R111 to R115, R130 to R136, R151): the
parameters, CMD, ARG, the host's side, the log, the report, the result registers, IN's bits. EOS_SEEN, the validity
flags, the tables, IN's position, OUT and the draws are not in it. -/
structure Quiet (s u : State) : Prop where
  params : u.params = s.params
  cmd : u.cmd = s.cmd
  arg : u.arg = s.arg
  host : u.host = s.host
  readLog : u.readLog = s.readLog
  inLink : u.inLink = s.inLink
  outReads : u.outReads = s.outReads
  log : u.log = s.log
  errInfo : u.errInfo = s.errInfo
  errOp : u.errOp = s.errOp
  err : u.status.err = s.status.err
  closeFailed : u.status.closeFailed = s.status.closeFailed
  infoEof : u.status.infoEof = s.status.infoEof
  cmdOverrun : u.status.cmdOverrun = s.status.cmdOverrun
  lastOp : u.status.lastOp = s.status.lastOp
  results : KeepsResults s u
  in_bits : u.inCh.bits = s.inCh.bits

theorem Quiet.trans {s u v : State} (h : Quiet s u) (k : Quiet u v) : Quiet s v where
  params := k.params.trans h.params
  cmd := k.cmd.trans h.cmd
  arg := k.arg.trans h.arg
  host := k.host.trans h.host
  readLog := k.readLog.trans h.readLog
  inLink := k.inLink.trans h.inLink
  outReads := k.outReads.trans h.outReads
  log := k.log.trans h.log
  errInfo := k.errInfo.trans h.errInfo
  errOp := k.errOp.trans h.errOp
  err := k.err.trans h.err
  closeFailed := k.closeFailed.trans h.closeFailed
  infoEof := k.infoEof.trans h.infoEof
  cmdOverrun := k.cmdOverrun.trans h.cmdOverrun
  lastOp := k.lastOp.trans h.lastOp
  results := by
    obtain ⟨a1, a2, a3, a4, a5, a6⟩ := h.results
    obtain ⟨b1, b2, b3, b4, b5, b6⟩ := k.results
    exact ⟨b1.trans a1, b2.trans a2, b3.trans a3, b4.trans a4, b5.trans a5, b6.trans a6⟩
  in_bits := k.in_bits.trans h.in_bits

/-- Quiet bodies and then success (40_control R406). -/
theorem Quiet.succeeded {s u : State} (h : Quiet s u) : Succeeded s u.complete := by
  refine ⟨rfl, rfl, ⟨h.err, h.closeFailed, h.infoEof, h.errInfo, h.errOp⟩, ?_⟩
  show u.log ++ [{ cmd := u.cmd, err := none, info := 0#32, op := 0#8 }] = _
  rw [h.log, h.cmd]

theorem Quiet.keepsHost {s u : State} (h : Quiet s u) : KeepsHost s u.complete :=
  ⟨h.params, h.cmd, h.arg, h.host, h.readLog, h.inLink, h.outReads⟩

theorem ParsedTo.nodes_only {s u : State} {lo : Nat} {nds : List Node} (h : ParsedTo s u lo nds) :
    Quiet s u ∧ u.outCh = s.outCh ∧ u.freq = s.freq ∧ u.codes = s.codes ∧ u.status = s.status := by
  obtain ⟨io, pos, nodes, rfl⟩ := h.eq
  exact ⟨⟨rfl, rfl, rfl, rfl, rfl, rfl, rfl, rfl, rfl, rfl, rfl, rfl, rfl, rfl, rfl, ⟨rfl, rfl, rfl, rfl, rfl, rfl⟩, rfl⟩, rfl, rfl,
    rfl, rfl⟩

/-! ## COUNT_FREQ -/

/-- COUNT_FREQ's body (41_frequency R450). -/
structure Counted (s u : State) : Prop where
  quiet : Quiet s u
  clear : u.ioClear
  eosSeen : u.status.eosSeen = s.status.eosSeen
  treeValid : u.status.treeValid = false
  codesValid : u.status.codesValid = false
  outCh : u.outCh = s.outCh
  pos : u.inCh.pos = s.posAfterBytes
  tree : KeepsTree s u
  codes : u.codes = s.codes
  count : ∀ b, b < 256 → (u.freqAt b).toNat = (wholeBytes s.inRest).count b
  eos : u.freqAt 256 = 1#32

theorem countFreqBody_counts {s : State} (h : s.ioClear) (hc : ∀ b, (wholeBytes s.inRest).count b < 2 ^ 32) :
    ∃ u, countFreqBody s = .ok () u ∧ Counted s u := by
  have hf : ∀ b, ({ s.invalidateTree with freq := resetFreq } : State).freqAt b = if b = 256 then 1#32 else 0#32 :=
    resetFreq_get
  have hn : (wholeBytes s.inRest).count 256 = 0 :=
    List.count_eq_zero.mpr fun hb => absurd (wholeBytes_lt hb) (by omega)
  obtain ⟨u, hu, huc, heq, hcount⟩ := countLoop_count (s.inLeft / 8 + 1)
    (s := { s.invalidateTree with freq := resetFreq }) h (by
      show s.inRest.length / 8 < _
      rw [inRest_length]; omega) (fun b => by
    rw [hf]
    show _ + (wholeBytes s.inRest).count b < _
    by_cases e : b = 256
    · subst e; rw [hn]; decide
    · rw [if_neg e]; have := hc b; simp only [BitVec.toNat_ofNat, Nat.zero_mod, Nat.zero_add]; exact this)
  have hq : u.freqAt 256 = 1#32 := by
    have := hcount 256
    rw [hf, if_pos rfl] at this
    have h2 : (wholeBytes ({ s.invalidateTree with freq := resetFreq } : State).inRest).count 256 = 0 := hn
    rw [h2] at this
    exact BitVec.eq_of_toNat_eq this
  have hb : ∀ b, b < 256 → (u.freqAt b).toNat = (wholeBytes s.inRest).count b := fun b hlt => by
    rw [hcount, hf, if_neg (by omega)]
    simp only [BitVec.toNat_ofNat, Nat.zero_mod, Nat.zero_add]
    rfl
  refine ⟨u, hu, ?_⟩
  have heq' : ∃ io pos freq, u =
      { s.invalidateTree with io := io, inCh := { s.inCh with pos := pos }, freq := freq } ∧ pos = s.posAfterBytes :=
    ⟨_, _, _, heq, rfl⟩
  obtain ⟨io, pos, freq, rfl, hpos⟩ := heq'
  exact ⟨⟨rfl, rfl, rfl, rfl, rfl, rfl, rfl, rfl, rfl, rfl, rfl, rfl, rfl, rfl, rfl, ⟨rfl, rfl, rfl, rfl, rfl, rfl⟩, rfl⟩, huc, rfl, rfl,
    rfl, rfl, hpos, ⟨rfl, rfl, rfl⟩, rfl, hb, hq⟩

/-! ## BUILD_TREE -/

/-- The bodies that make no channel call: IN, OUT and the draws of the environment stay. -/
structure SameChannels (s u : State) : Prop where
  inCh : u.inCh = s.inCh
  outCh : u.outCh = s.outCh
  io : u.io = s.io

theorem SameChannels.clear {s u : State} (h : SameChannels s u) (hs : s.ioClear) : u.ioClear := by
  unfold State.ioClear; rw [h.io]; exact hs

/-- BUILD_TREE's body (42_tree_builder R500, R505). -/
structure BuiltTree (s u : State) (T : HTree) : Prop where
  quiet : Quiet s u
  channels : SameChannels s u
  eosSeen : u.status.eosSeen = s.status.eosSeen
  treeValid : u.status.treeValid = true
  codesValid : u.status.codesValid = false
  freq : u.freq = s.freq
  codes : u.codes = s.codes
  arena : Arena u.nodes (2 * s.counted.length - 1)
  leafCount : u.leafCount.toNat = s.counted.length
  nodeCount : u.nodeCount.toNat = 2 * s.counted.length - 1
  leaf : ∀ k, k < s.counted.length → u.nodes[k]? = (s.counted.map (leafOf s.freqAt))[k]?
  internal : ∀ k, s.counted.length ≤ k → k < 2 * s.counted.length - 1 →
    ∃ a b, a < k ∧ b < k ∧ u.nodes[k]? = some (mergedNode u.nodes a b)
  turns : ∃ queue, MergeTurns s.params.tieBreak u.nodes s.counted.length (List.range s.counted.length) queue
  weight : nodeWeight u.nodes u.root = (s.counted.map fun b => (s.freqAt b).toNat).sum
  tree : u.tree = some T
  symbols : (T.paths.map fun q => q.1.toNat).Perm s.counted

theorem toNat_ofNat_lt {w i : Nat} (h : i < 2 ^ w) : (BitVec.ofNat w i).toNat = i := by
  rw [BitVec.toNat_ofNat, Nat.mod_eq_of_lt h]

theorem counted_lt {s : State} {b : Nat} (h : b ∈ s.counted) : b < 257 := List.mem_range.mp (List.mem_filter.mp h).1

theorem mem_counted {s : State} {b : Nat} (h : b < 257) : b ∈ s.counted ↔ s.freqAt b ≠ 0#32 := by
  unfold State.counted countedSyms
  rw [List.mem_filter]
  simp [h]

theorem counted_nodup (s : State) : s.counted.Nodup := List.nodup_range.filter _

/-- The symbols at the leaves of a built tree are the symbols with a count (42_tree_builder R505). -/
theorem built_symbols {s : State} {nodes : Vector Node 513} (hA : Arena nodes (2 * s.counted.length - 1))
    (hl : ∀ k, k < s.counted.length → nodes[k]? = (s.counted.map (leafOf s.freqAt))[k]?)
    (hi : ∀ k, s.counted.length ≤ k → k < 2 * s.counted.length - 1 →
      ∃ a b, a < k ∧ b < k ∧ nodes[k]? = some (mergedNode nodes a b)) :
    ((slotTree nodes (2 * s.counted.length - 1 - 1)).paths.map fun q => q.1.toNat).Perm s.counted := by
  have hlen := counted_length s
  rw [← Multiset.coe_eq_coe]
  have e := hA.sum (fun T => ((T.paths.map fun q => q.1.toNat : List Nat) : Multiset Nat)) (fun sym => {sym.toNat}) 0
    (fun s => rfl) (fun l r => by
      simp only [HTree.paths, List.map_append, List.map_map, add_zero, Multiset.coe_add]; rfl)
  rw [e]
  have split : List.range (2 * s.counted.length - 1) =
      List.range s.counted.length ++ List.range' s.counted.length (s.counted.length - 1) := by
    rw [List.range_eq_range', List.range_eq_range']
    have h := @List.range'_append_1 0 s.counted.length (s.counted.length - 1)
    rw [Nat.zero_add] at h
    rw [h]
    congr 1
    have := hA.pos
    omega
  rw [split, List.map_append, List.sum_append]
  have inner : ((List.range' s.counted.length (s.counted.length - 1)).map
      (slotValue (fun sym : BitVec 9 => ({sym.toNat} : Multiset Nat)) 0 nodes)).sum = 0 := by
    rw [List.sum_eq_zero]
    intro x hx
    rw [List.mem_map] at hx
    obtain ⟨k, hk, rfl⟩ := hx
    rw [List.mem_range'_1] at hk
    obtain ⟨a, b, -, -, h⟩ := hi k hk.1 (by omega)
    unfold slotValue
    rw [h]
    rfl
  have outer : (List.range s.counted.length).map
      (slotValue (fun sym : BitVec 9 => ({sym.toNat} : Multiset Nat)) 0 nodes) =
      s.counted.map fun b => ({b} : Multiset Nat) := by
    apply List.ext_getElem
    · simp
    · intro k hk1 hk2
      have hk : k < s.counted.length := by simpa using hk1
      rw [List.getElem_map, List.getElem_map, List.getElem_range]
      unfold slotValue
      rw [hl k hk, List.getElem?_map, List.getElem?_eq_getElem hk]
      simp only [Option.map_some, leafOf]
      rw [toNat_ofNat_lt (by have := counted_lt (List.getElem_mem hk); omega)]
  rw [inner, add_zero, outer]
  clear * -
  induction s.counted with
  | nil => rfl
  | cons a l ih => rw [List.map_cons, List.sum_cons, ih]; rfl

theorem buildTreeBody_builds {s : State} (h : s.counted ≠ []) :
    ∃ u T, buildTreeBody s = .ok () u ∧ BuiltTree s u T := by
  obtain ⟨d, nodes, h1, hA, hl, hi, ht, hw⟩ := buildFrom_some (s := s.treeGone) h
  have hcnt : s.treeGone.counted = s.counted := rfl
  have hfr : s.treeGone.freqAt = s.freqAt := rfl
  rw [hcnt] at h1 hA hl hi ht hw
  rw [hfr] at hl hw
  have hlen := counted_length s
  have hpos : 0 < s.counted.length := List.length_pos_iff.mpr h
  have e10 : (BitVec.ofNat 10 (2 * s.counted.length - 1)).toNat = 2 * s.counted.length - 1 :=
    toNat_ofNat_lt (by omega)
  refine ⟨{ s.treeGone with draws := d, nodes := nodes }.treeDone (2 * s.counted.length - 1) s.counted.length,
    slotTree nodes (2 * s.counted.length - 1 - 1), ?_, ?_⟩
  · unfold buildTreeBody
    apply nodesLostOnError_ok
    simp only [Body.bind_apply, Body.modify_apply, Body.get_apply, h1]
    rw [if_neg]
    · rfl
    · exact fun e => h (List.length_eq_zero_iff.mp e)
  · refine ⟨⟨rfl, rfl, rfl, rfl, rfl, rfl, rfl, rfl, rfl, rfl, rfl, rfl, rfl, rfl, rfl, ⟨rfl, rfl, rfl, rfl, rfl, rfl⟩, rfl⟩,
      ⟨rfl, rfl, rfl⟩, rfl, rfl, rfl, rfl, rfl, hA, toNat_ofNat_lt (by omega), e10, hl, hi, ht, ?_, ?_,
      built_symbols hA hl hi⟩
    · show nodeWeight nodes ((BitVec.ofNat 10 (2 * s.counted.length - 1)).toNat - 1) = _
      rw [e10, hw]
    · show treeAt nodes (BitVec.ofNat 10 (2 * s.counted.length - 1)).toNat
        ((BitVec.ofNat 10 (2 * s.counted.length - 1)).toNat - 1) = _
      rw [e10]
      exact hA.treeAt_slot (by omega) (by omega)

theorem buildTreeBody_empty {s : State} (h : s.counted = []) :
    buildTreeBody s = .error (.raised .emptyInput 0#32) s.treeGone.freeNodes := by
  unfold buildTreeBody
  apply nodesLostOnError_raised
  simp only [Body.bind_apply, Body.modify_apply, Body.get_apply]
  rw [if_pos (buildFrom_none (s := s.treeGone) h)]
  rfl

/-- A built tree is complete (10_state R125, invariant 2) when END_OF_STREAM has a count (invariant 1). -/
theorem BuiltTree.complete {s u : State} {T : HTree} (h : BuiltTree s u T) (he : s.freqAt 256 ≠ 0#32) :
    CompleteTree u := by
  have hlen := counted_length s
  have h256 : 256 ∈ s.counted := (mem_counted (by omega)).mpr he
  have hpos : 0 < s.counted.length := List.length_pos_of_mem h256
  have leafSym : ∀ k sym w, k < s.counted.length → u.nodes[k]? = some (.leaf sym w) → sym.toNat ∈ s.counted := by
    intro k sym w hk hn
    rw [h.leaf k hk, List.getElem?_map, List.getElem?_eq_getElem hk] at hn
    simp only [Option.map_some, leafOf, Option.some.injEq, Node.leaf.injEq] at hn
    have hm := List.getElem_mem hk
    rw [← hn.1, toNat_ofNat_lt (by have := counted_lt hm; omega)]
    exact hm
  have hlc := h.leafCount
  have hnc := h.nodeCount
  have notLeaf : ∀ k sym w, s.counted.length ≤ k → k < 2 * s.counted.length - 1 →
      u.nodes[k]? ≠ some (.leaf sym w) := by
    intro k sym w h1 h2 hn
    obtain ⟨a, b, -, -, hk⟩ := h.internal k h1 h2
    rw [hk] at hn
    cases hn
  refine ⟨by omega, by omega, by omega, ?_, ?_, ?_, ?_⟩
  · rw [hnc]; exact h.arena.below
  · rw [hnc]; exact h.arena.one_parent
  · intro i hi sym w hn
    by_cases hk : i < s.counted.length
    · have := counted_lt (leafSym i sym w hk hn); omega
    · exact absurd hn (notLeaf i sym w (by omega) (by omega))
  · intro sym w hn
    unfold State.root at hn
    rw [hnc] at hn
    by_cases hk : 2 * s.counted.length - 1 - 1 < s.counted.length
    · have hl : s.counted.length = 1 := by omega
      obtain ⟨b, hb⟩ := List.length_eq_one_iff.mp hl
      have := leafSym _ sym w hk hn
      rw [hb, List.mem_singleton] at this
      rw [hb, List.mem_singleton] at h256
      exact BitVec.eq_of_toNat_eq (by rw [this, ← h256]; rfl)
    · exact absurd hn (notLeaf _ sym w (by omega) (by omega))

/-! ## GEN_CODES -/

/-- GEN_CODES' body (43_code_table R550). -/
structure CodesOf (s u : State) (T : HTree) : Prop where
  quiet : Quiet s u
  channels : SameChannels s u
  eosSeen : u.status.eosSeen = s.status.eosSeen
  treeValid : u.status.treeValid = s.status.treeValid
  codesValid : u.status.codesValid = true
  freq : u.freq = s.freq
  tree : KeepsTree s u
  code : ∀ sym, sym < 257 → u.codeAt sym =
    match T.codeOf sym with
    | some p => CodeEntry.ofPath p
    | none => CodeEntry.none

theorem genCodesBody_codes {s : State} {T : HTree} (ht : s.tree = some T) (hs : ∀ q ∈ T.paths, q.1.toNat ≤ 256) :
    ∃ u, genCodesBody s = .ok () u ∧ CodesOf s u T := by
  have hv := visit_tree (k := (s.setCodesValid false).nodeCount.toNat) (i := (s.setCodesValid false).root)
    (nodes := (s.setCodesValid false).nodes) (T := T) ht hs [] (Vector.replicate 257 CodeEntry.none)
  generalize hcodes : T.paths.foldl (fun (c : Vector CodeEntry 257) (q : BitVec 9 × Bits) =>
    c.setIfInBounds q.1.toNat (CodeEntry.ofPath ([] ++ q.2))) (Vector.replicate 257 CodeEntry.none) = codes at hv
  refine ⟨{ s.setCodesValid false with codes := codes }.setCodesValid true, ?_, ?_⟩
  · simp only [genCodesBody, Body.bind_apply, Body.modify_apply, Body.get_apply]
    rw [hv]
    rfl
  · refine ⟨⟨rfl, rfl, rfl, rfl, rfl, rfl, rfl, rfl, rfl, rfl, rfl, rfl, rfl, rfl, rfl, ⟨rfl, rfl, rfl, rfl, rfl, rfl⟩, rfl⟩,
      ⟨rfl, rfl, rfl⟩, rfl, rfl, rfl, rfl, ⟨rfl, rfl, rfl⟩, fun sym hsym => ?_⟩
    show codes[sym]?.getD CodeEntry.none = _
    have h := codes_foldl T.paths hs (Vector.replicate 257 CodeEntry.none) sym
    rw [← hcodes]
    refine h.trans ?_
    show (match T.codeOf sym with | some p => CodeEntry.ofPath p | none => _) = _
    cases T.codeOf sym with
    | none => rw [Vector.getElem?_replicate, if_pos hsym]; rfl
    | some p => rfl

/-! ## Bodies that write -/

/-- A body that appended `p` to an open OUT and changed nothing else. -/
structure Wrote (s u : State) (p : Bits) : Prop where
  only : u = { s with io := u.io, outCh := { s.outCh with bits := s.outCh.bits ++ p } }
  clear : u.ioClear

theorem Wrote.quiet {s u : State} {p : Bits} (h : Wrote s u p) : Quiet s u := by
  have h' : ∃ io, u = { s with io := io, outCh := { s.outCh with bits := s.outCh.bits ++ p } } := ⟨_, h.only⟩
  obtain ⟨io, rfl⟩ := h'
  exact ⟨rfl, rfl, rfl, rfl, rfl, rfl, rfl, rfl, rfl, rfl, rfl, rfl, rfl, rfl, rfl, ⟨rfl, rfl, rfl, rfl, rfl, rfl⟩, rfl⟩

theorem Wrote.rest {s u : State} {p : Bits} (h : Wrote s u p) :
    u.inCh = s.inCh ∧ u.status = s.status ∧ u.freq = s.freq ∧ KeepsTree s u ∧ u.codes = s.codes ∧
      u.outCh = { s.outCh with bits := s.outCh.bits ++ p } := by
  have h' : ∃ io, u = { s with io := io, outCh := { s.outCh with bits := s.outCh.bits ++ p } } := ⟨_, h.only⟩
  obtain ⟨io, rfl⟩ := h'
  exact ⟨rfl, rfl, rfl, ⟨rfl, rfl, rfl⟩, rfl, rfl⟩

theorem writeMagicBody_open {s : State} (h : s.ioClear) (ho : s.outCh.closed = false) :
    ∃ u, writeMagicBody s = .ok () u ∧ Wrote s u (msb 32 s.params.magic.toNat) :=
  ⟨{ s with io := s.io.tail, outCh := { s.outCh with bits := s.outCh.bits ++ msb 32 s.params.magic.toNat } },
    by simp only [writeMagicBody, Body.bind_apply, Body.get_apply]; exact writeOut_open h ho _ _,
    ⟨rfl, ioClear_tail h⟩⟩

theorem serializeBody_open {s : State} {T : HTree} (ht : s.tree = some T) (h : s.ioClear)
    (ho : s.outCh.closed = false) : ∃ u, serializeBody s = .ok () u ∧ Wrote s u T.header := by
  obtain ⟨ws, hw, he⟩ := serWrites_tree ht
  refine ⟨{ s with io := s.io.drop ws.length, outCh := { s.outCh with bits := s.outCh.bits ++ T.header } }, ?_,
    ⟨rfl, fun d hd => h d (List.mem_of_mem_drop hd)⟩⟩
  simp only [serializeBody, Body.bind_apply, Body.get_apply, hw]
  rw [writeAll_open ws h ho, he]

/-! ## Channel control -/

theorem rewindBody_clear {s : State} (h : s.ioClear) :
    rewindBody s = .ok () { s with io := s.io.tail, inCh := { s.inCh with pos := 0 } } := by
  simp only [rewindBody, Body.bind_apply, inReset_clear h]
  rfl

theorem closeOutputBody_open {s : State} (h : s.ioClear) (ho : s.outCh.closed = false) :
    closeOutputBody s = .ok () { s with io := s.io.tail, outCh := { s.outCh with closed := true } } := by
  simp only [closeOutputBody, Body.bind_apply, outClose_open h ho]
  rfl

/-! ## ENCODE_PAYLOAD -/

/-- ENCODE_PAYLOAD's body (45_payload_codec R670). -/
theorem encodePayloadBody_open {s : State} (h : s.ioClear) (ho : s.outCh.closed = false)
    (hv : ∀ b ∈ wholeBytes s.inRest, (s.codeAt b).valid = true) (he : (s.codeAt 256).valid = true) :
    ∃ u, encodePayloadBody s = .ok () u ∧ u.ioClear ∧
      u = { s with io := u.io, inCh := { s.inCh with pos := s.posAfterBytes },
                   outCh := { s.outCh with
                     bits := s.outCh.bits ++ ((wholeBytes s.inRest).flatMap fun b => (s.codeAt b).path) ++
                       (s.codeAt 256).path } } := by
  obtain ⟨u, hu, huc, heq⟩ := encodeLoop_open (s.inLeft / 8 + 1) h ho (by rw [inRest_length]; omega) hv
  obtain ⟨v, hv', hvc, heq'⟩ := encodeCode_open (s := u) huc (by rw [heq]; exact ho) (sym := 256)
    (by rw [heq]; exact he)
  refine ⟨v, ?_, hvc, ?_⟩
  · simp only [encodePayloadBody, Body.bind_apply, Body.get_apply, hu]
    exact hv'
  · conv_lhs => rw [heq', heq]
    rfl

/-! ## CHECK_MAGIC, DESERIALIZE_HEADER, DECODE_PAYLOAD -/

theorem checkMagicBody_ok {s : State} (h : s.ioClear) {rest : Bits}
    (hr : s.inRest = msb 32 s.params.magic.toNat ++ rest) :
    ∃ u, checkMagicBody s = .ok () u ∧ ReadTo s u ∧ u.inRest = rest := by
  have hlen : 32 ≤ s.inRest.length := by rw [hr]; simp
  have hp : s.inCh.pos ≤ s.inCh.bits.length := by
    rw [inRest_length, State.inLeft] at hlen; omega
  obtain ⟨u, hu, hto, hr'⟩ := readIn_rest h hlen hp
  have hv : BitVec.ofNat 32 (val (s.inRest.take 32)) = s.params.magic := by
    rw [hr, List.take_left' (length_msb 32 _), val_msb]
    apply BitVec.eq_of_toNat_eq
    rw [BitVec.toNat_ofNat, Nat.mod_mod, Nat.mod_eq_of_lt s.params.magic.isLt]
  refine ⟨u, ?_, hto, ?_⟩
  · simp only [checkMagicBody, Body.bind_apply, hu, Body.get_apply]
    have : u.params = s.params := by rw [hto.only]
    rw [this, if_pos hv]
    rfl
  · rw [hr, List.drop_left' (length_msb 32 _)] at hr'
    exact hr'

theorem ReadTo.quiet {s u : State} (h : ReadTo s u) :
    Quiet s u ∧ u.outCh = s.outCh ∧ u.freq = s.freq ∧ u.codes = s.codes ∧ u.status = s.status := by
  obtain ⟨io, pos, rfl⟩ := h.eq
  exact ⟨⟨rfl, rfl, rfl, rfl, rfl, rfl, rfl, rfl, rfl, rfl, rfl, rfl, rfl, rfl, rfl, ⟨rfl, rfl, rfl, rfl, rfl, rfl⟩, rfl⟩, rfl, rfl,
    rfl, rfl⟩

theorem HTree.acceptable.size_le {T : HTree} (h : T.acceptable) : T.size ≤ 513 := by
  have h1 := T.leaves_eq
  have h2 := h.2.1
  unfold HTree.size
  omega

/-- NODE holds an acceptable tree from slot 0 on, and the counts say so: a complete tree (10_state R125). -/
theorem completeTree_of_slots {t : State} {T : HTree} (ha : T.acceptable) (hs : SlotsAt t.nodes 0 T)
    (h1 : t.leafCount.toNat = T.leaves) (h2 : t.nodeCount.toNat = T.size) : CompleteTree t ∧ t.tree = some T := by
  have hsz := ha.size_le
  have hl := T.leaves_eq
  have hi := ha.2.1
  have hpos := T.size_pos
  have hsize : T.size = T.leaves + T.internals := rfl
  have get : ∀ i, i < T.size → t.nodes[i]? = (T.slots 0)[i]? := fun i hi => by
    have := hs i hi
    rwa [Nat.zero_add] at this
  have htree : treeAt t.nodes T.size (T.size - 1) = some T := by
    have := hs.tree (by omega)
    rwa [Nat.zero_add] at this
  refine ⟨⟨by omega, by omega, by omega, ?_, ?_, ?_, ?_⟩, ?_⟩
  · intro i hi w l r h
    exact hs.below (by omega) (by omega) (by omega) h
  · rw [h2]
    have e : childIndices t.nodes T.size = (T.slots 0).flatMap Node.children := by
      have hr : T.slots 0 = (List.range T.size).map fun i => ((T.slots 0)[i]?).getD (.leaf 0#9 0#41) := by
        apply List.ext_getElem
        · rw [List.length_map, List.length_range, HTree.length_slots]
        · intro i hi1 hi2
          rw [List.getElem_map, List.getElem_range, List.getElem?_eq_getElem hi1]
          rfl
      unfold childIndices
      rw [hr, List.flatMap_map]
      refine List.flatMap_congr fun i hi => ?_
      rw [List.mem_range] at hi
      have hx : i < (T.slots 0).length := by rw [HTree.length_slots]; exact hi
      rw [get i hi, List.getElem?_eq_getElem hx]
      rfl
    rw [e, List.range_eq_range']
    exact T.slots_children 0 (by omega)
  · intro i hi sym w h
    rw [get i (by omega)] at h
    obtain ⟨q, hq, rfl⟩ := HTree.slots_leaf (List.mem_of_getElem? h)
    exact ha.1 q hq
  · intro sym w h
    unfold State.root at h
    rw [h2] at h
    obtain ⟨k, hk⟩ : ∃ k, T.size = k + 1 := ⟨T.size - 1, by omega⟩
    rw [hk] at h htree
    rw [treeAt_leaf h k] at htree
    exact ha.2.2 _ (Option.some.inj htree).symm
  · unfold State.tree State.root
    rw [h2]
    exact htree

theorem badRootLeaf_acceptable {nodes : Vector Node 513} {T : HTree} (ha : T.acceptable) (hs : SlotsAt nodes 0 T) :
    badRootLeaf nodes[T.size - 1]? = none := by
  have hsz := ha.size_le
  have hpos := T.size_pos
  have htree := hs.tree (by omega)
  rw [Nat.zero_add] at htree
  obtain ⟨k, hk⟩ : ∃ k, T.size = k + 1 := ⟨T.size - 1, by omega⟩
  rw [hk] at htree ⊢
  obtain ⟨sym, w, hn, e⟩ | ⟨w, l, r, tl, tr, hn, -, -, -⟩ := treeAt_cases htree
  · rw [hn]
    have := ha.2.2 _ e
    subst this
    rfl
  · rw [hn]
    rfl

theorem ParsedTo.slotsAt {s u : State} {T : HTree} (hsz : T.size ≤ 513) (h : ParsedTo s u 0 (T.slots 0)) :
    SlotsAt u.nodes 0 T := by
  intro j hj
  rw [Nat.zero_add, h.stored j (by omega)]
  unfold storedAt
  rw [if_neg (by omega), if_pos (by rw [HTree.length_slots]; omega)]
  rfl

/-- DESERIALIZE_HEADER's body on the header of an acceptable tree (44_header_codec R630). -/
structure Parsed (s u : State) (T : HTree) (rest : Bits) : Prop where
  quiet : Quiet s u
  clear : u.ioClear
  pos_le : u.inCh.pos ≤ u.inCh.bits.length
  rest_eq : u.inRest = rest
  eosSeen : u.status.eosSeen = s.status.eosSeen
  treeValid : u.status.treeValid = true
  codesValid : u.status.codesValid = false
  outCh : u.outCh = s.outCh
  freq : u.freq = s.freq
  codes : u.codes = s.codes
  complete : CompleteTree u
  tree : u.tree = some T
  leafCount : u.leafCount.toNat = T.leaves
  nodeCount : u.nodeCount.toNat = T.size
  slots : SlotsAt u.nodes 0 T

theorem deserializeBody_ok {s : State} {T : HTree} {rest : Bits} (h : s.ioClear)
    (hp : s.inCh.pos ≤ s.inCh.bits.length) (hr : s.inRest = T.header ++ rest) (ha : T.acceptable) :
    ∃ u, deserializeBody s = .ok () u ∧ Parsed s u T rest := by
  have hi := ha.2.1
  have hsz := ha.size_le
  have hl := T.leaves_eq
  obtain ⟨u, hu, h2, h3⟩ := parse_tree T ha.1 257 ⟨0, 0, 0⟩ (s := s.treeGone) h hp hr (by omega)
    (by dsimp only; omega) (by dsimp only; omega)
  have hs := h2.slotsAt hsz
  refine ⟨u.treeDone T.size T.leaves, ?_, ?_⟩
  · unfold deserializeBody
    apply nodesLostOnError_ok
    simp only [Body.bind_apply, Body.modify_apply, hu, Body.get_apply]
    simp only [Nat.zero_add]
    rw [badRootLeaf_acceptable ha hs]
    rfl
  · obtain ⟨hc, ht⟩ := completeTree_of_slots (t := u.treeDone T.size T.leaves) ha hs
      (toNat_ofNat_lt (by omega)) (toNat_ofNat_lt (by omega))
    obtain ⟨q1, q2, q3, q4, q5⟩ := h2.nodes_only
    refine ⟨⟨q1.params, q1.cmd, q1.arg, q1.host, q1.readLog, q1.inLink, q1.outReads, q1.log, q1.errInfo, q1.errOp, ?_, ?_, ?_, ?_, ?_,
      q1.results, q1.in_bits⟩, h2.clear, h2.pos_le, h3, ?_, rfl, ?_, q2, q3, q4, hc, ht,
      toNat_ofNat_lt (by omega), toNat_ofNat_lt (by omega), hs⟩
    all_goals
      simp only [State.treeDone, q5]
      rfl

/-- DECODE_PAYLOAD's body on a payload that ends with END_OF_STREAM (45_payload_codec R700). -/
theorem decodePayloadBody_done {s : State} {T : HTree} (ht : s.tree = some T) (hT : ∀ sym, T = .leaf sym → sym = 256#9)
    (h : s.ioClear) (ho : s.outCh.closed = false) (hp : s.inCh.pos ≤ s.inCh.bits.length) {bs : List (BitVec 9)}
    {rest : Bits} (hd : T.decodes s.inRest bs rest) :
    ∃ u, decodePayloadBody s = .ok () (u.setEosSeen true) ∧
      DecodedTo (s.setEosSeen false) u (bs.flatMap fun b => msb 8 b.toNat) ∧ u.inRest = rest := by
  obtain ⟨u, hu, hto, hr⟩ := decodeLoop_done (s.inLeft + 1) (s := s.setEosSeen false) (T := T) ht hT h ho hp
    (by show s.inRest.length < _; rw [inRest_length]; exact Nat.lt_succ_self _) hd
  exact ⟨u, by simp only [decodePayloadBody, Body.bind_apply, Body.get_apply, Body.modify_apply]; exact hu, hto, hr⟩

end Sys2Proof.Machine
end

