-- ==== Sys2Proof/Laws/Encoding.lean ====
section
/-! SUPPORT. The three fields of a command word, taken out of the word and put together again. -/

namespace Sys2Proof

/-- The bits of a word put together from its three fields. -/
theorem getLsbD_pack (o : Opcode) (r : BitVec 14) (v : Opnd) (i : Nat) :
    BitVec.getLsbD (w := 32) (o ++ (r ++ v)) i =
      if i < 10 then v.getLsbD i else if i < 24 then r.getLsbD (i - 10) else o.getLsbD (i - 24) := by
  have h1 : BitVec.getLsbD (w := 8 + (14 + 10)) (o ++ (r ++ v)) i =
      if i < 14 + 10 then (r ++ v).getLsbD i else o.getLsbD (i - (14 + 10)) := BitVec.getLsbD_append
  have h2 : (r ++ v).getLsbD i = if i < 10 then v.getLsbD i else r.getLsbD (i - 10) := BitVec.getLsbD_append
  refine h1.trans ?_
  rw [h2]
  split_ifs <;> first | rfl | omega

theorem opcField_pack (o : Opcode) (r : BitVec 14) (v : Opnd) : opcField (o ++ (r ++ v)) = o := by
  apply BitVec.eq_of_getLsbD_eq
  intro i hi
  rw [opcField, BitVec.getLsbD_extractLsb', getLsbD_pack]
  have h1 : ¬ 24 + i < 10 := by omega
  have h2 : ¬ 24 + i < 24 := by omega
  simp [hi, h1]

theorem rsvField_pack (o : Opcode) (r : BitVec 14) (v : Opnd) : rsvField (o ++ (r ++ v)) = r := by
  apply BitVec.eq_of_getLsbD_eq
  intro i hi
  rw [rsvField, BitVec.getLsbD_extractLsb', getLsbD_pack]
  have h1 : ¬ 10 + i < 10 := by omega
  have h2 : 10 + i < 24 := by omega
  simp [hi, h2]

theorem opndField_pack (o : Opcode) (r : BitVec 14) (v : Opnd) : opndField (o ++ (r ++ v)) = v := by
  apply BitVec.eq_of_getLsbD_eq
  intro i hi
  rw [opndField, BitVec.getLsbD_extractLsb', getLsbD_pack]
  simp [hi]

/-- A command word is its three fields (30_encoding R300). -/
theorem pack_fields (w : Word) : opcField w ++ (rsvField w ++ opndField w) = w := by
  apply BitVec.eq_of_getLsbD_eq
  intro i hi
  rw [getLsbD_pack, opcField, rsvField, opndField]
  simp only [BitVec.getLsbD_extractLsb']
  split_ifs with h10 h24
  · simp [h10]
  · have e : 10 + (i - 10) = i := by omega
    have l : i - 10 < 14 := by omega
    simp [e, l]
  · have e : 24 + (i - 24) = i := by omega
    have l : i - 24 < 8 := by omega
    simp [e, l]

theorem opcField_encode (i : Instr) : opcField (encode i) = i.opcode := opcField_pack _ _ _

theorem rsvField_encode (i : Instr) : rsvField (encode i) = 0#14 := rsvField_pack _ _ _

theorem opndField_encode (i : Instr) : opndField (encode i) = i.opnd := opndField_pack _ _ _

/-- Every way the decoder accepts a word (30_encoding R302). -/
theorem decode_ok {w : Word} {i : Instr} (h : decode w = .ok i) :
    ∃ fmt build, opcodeRow (opcField w) = some (fmt, build) ∧ rsvField w = 0#14 ∧
      formatAdmits fmt (opndField w) = true ∧ i = build (opndField w) := by
  unfold decode at h
  split at h
  · cases h
  · rename_i fmt build hrow
    split at h
    · cases h
    · split at h
      · cases h
      · cases h
        exact ⟨fmt, build, hrow, by simpa using ‹¬ (rsvField w != 0#14) = true›, by simpa using ‹¬ (!_) = true›, rfl⟩

end Sys2Proof
end

