-- ==== Sys2Proof/Laws/Frame.lean ====
section
/-! SUPPORT. Command bodies and predicates on states: a predicate that channel calls and the body's own table and flag
writes preserve holds at the body's end, however it ends. Frames, invariants and the absence of a reset all follow. -/

namespace Sys2Proof.Machine

variable {α β : Type}

/-- From a state with `P`, `m` ends or stops in a state with `P`, and stops only as `E` allows. -/
def Body.Holds (P : State → Prop) (E : Stop → Prop) (m : Body α) : Prop :=
  ∀ s, P s → (∀ a t, m s = .ok a t → P t) ∧ (∀ e t, m s = .error e t → P t ∧ E e)

/-- A predicate that reads of IN preserve (if `r`) and writes of OUT preserve (if `w`), and an account of stops that
admits what every body may do. -/
structure Closed (P : State → Prop) (E : Stop → Prop) (r w : Bool) : Prop where
  reads : r = true → ∀ {s t}, ChannelStep s t → t.outCh = s.outCh → P s → P t
  writes : w = true → ∀ {s t}, ChannelStep s t → t.inCh = s.inCh → P s → P t
  raised : ∀ e info, E (.raised e info)
  stuck : ∀ f, E (.stuck f)
  cut : ∀ {s}, P s → ¬ s.noReset → E .cut

theorem holds_modify {P : State → Prop} {E : Stop → Prop} {f : State → State} (hf : ∀ s, P s → P (f s)) :
    (modify f : Body Unit).Holds P E := fun s hs =>
  ⟨fun _ _ h => (by cases h; exact hf s hs), fun _ _ h => (by cases h)⟩

theorem holds_pure {P : State → Prop} {E : Stop → Prop} (a : α) : (pure a : Body α).Holds P E := fun _ hs =>
  ⟨fun _ _ h => (by cases h; exact hs), fun _ _ h => (by cases h)⟩

theorem holds_get {P : State → Prop} {E : Stop → Prop} : (get : Body State).Holds P E := fun _ hs =>
  ⟨fun _ _ h => (by cases h; exact hs), fun _ _ h => (by cases h)⟩

theorem holds_bind {P : State → Prop} {E : Stop → Prop} {m : Body α} {f : α → Body β} (hm : m.Holds P E)
    (hf : ∀ a, (f a).Holds P E) : (m >>= f).Holds P E := by
  intro s hs
  obtain ⟨hok, herr⟩ := hm s hs
  rw [Body.bind_apply]
  cases h : m s with
  | ok a t => exact hf a t (hok a t h)
  | error e t =>
    refine ⟨fun _ _ h' => (by cases h'), fun _ _ h' => ?_⟩
    cases h'
    exact herr e t h

theorem holds_nodesLostOnError {P : State → Prop} {E : Stop → Prop} {m : Body Unit} (hm : m.Holds P E) (hfree : ∀ s : State, P s → P s.freeNodes) :
    (nodesLostOnError m).Holds P E := by
  intro s hs
  have h := hm s hs
  unfold nodesLostOnError
  split <;> rename_i hms
  · exact ⟨fun _ _ h' => (by cases h'),
      fun _ _ h' => (by cases h'; exact ⟨hfree _ (h.2 _ _ hms).1, (h.2 _ _ hms).2⟩)⟩
  · exact h

/-! ## Bodies that make no channel call -/

section NoCall

variable {P : State → Prop} {E : Stop → Prop} {r w : Bool} (hC : Closed P E r w)
include hC

theorem holds_raise (e : Err) (info : Word) : (raise e info : Body α).Holds P E := fun _ hs =>
  ⟨fun _ _ h => (by cases h), fun _ _ h => by cases h; exact ⟨hs, hC.raised e info⟩⟩

theorem holds_stuck (f : Fault) : (stuck f : Body α).Holds P E := fun _ hs =>
  ⟨fun _ _ h => (by cases h), fun _ _ h => by cases h; exact ⟨hs, hC.stuck f⟩⟩

theorem holds_checkIo (sub : IoSub) (r : IoReply) : (checkIo sub r).Holds P E := by
  cases r
  · exact holds_pure _
  · exact holds_raise hC _ _

theorem holds_require (c : Bool) (sub : ReadySub) : (require c sub).Holds P E := by
  cases c
  · exact holds_raise hC _ _
  · exact holds_pure _

theorem holds_requireTree : requireTree.Holds P E := holds_bind holds_get fun _ => holds_require hC _ _

theorem holds_requireCodes : requireCodes.Holds P E := holds_bind holds_get fun _ => holds_require hC _ _

theorem holds_requireIndex (idx : Opnd) : (requireIndex idx).Holds P E :=
  holds_bind holds_get fun _ => holds_require hC _ _

theorem holds_genCodes (hcodes : ∀ (s : State) c, P s → P { s with codes := c })
    (hvalid : ∀ (s : State) b, P s → P (s.setCodesValid b)) : genCodesBody.Holds P E := by
  refine holds_bind (holds_modify fun s => hvalid s _) fun _ => fun s hs => ?_
  simp only [Body.bind_apply, Body.get_apply]
  cases visit s.nodes s.nodeCount.toNat s.root [] (Vector.replicate 257 CodeEntry.none) with
  | none => exact holds_stuck hC _ s hs
  | some codes => exact ⟨fun _ _ h => (by cases h; exact hvalid _ _ (hcodes s codes hs)), fun _ _ h => (by cases h)⟩

theorem holds_buildTree (hnodes : ∀ (s : State) nodes d, P s → P { s with nodes := nodes, draws := d })
    (hgone : ∀ s : State, P s → P s.treeGone) (hdone : ∀ (s : State) n l, P s → P (s.treeDone n l)) :
    buildTreeBody.Holds P E := by
  refine holds_nodesLostOnError ?_ fun s => hnodes s _ _
  refine holds_bind (holds_modify hgone) fun _ => fun s hs => ?_
  simp only [Body.bind_apply, Body.get_apply]
  split
  · exact holds_raise hC _ _ s hs
  · exact ⟨fun _ _ h => (by cases h; exact hdone _ _ _ (hnodes s _ _ hs)), fun _ _ h => (by cases h)⟩

end NoCall

/-! ## Bodies that only read -/

section Reads

variable {P : State → Prop} {E : Stop → Prop} {w : Bool} (hC : Closed P E true w)
include hC

theorem holds_readCall {m : Body α} (hstep : ∀ s, ChannelStep s (resultState (m s)))
    (hout : ∀ s, (resultState (m s)).outCh = s.outCh) (herr : ∀ {s t e}, m s = .error e t → e = .cut ∧ ¬ s.noReset) :
    m.Holds P E := fun s hs => by
  have h := hC.reads rfl (hstep s) (hout s) hs
  constructor
  · intro a t ht
    rw [ht] at h
    exact h
  · intro e t ht
    rw [ht] at h
    obtain ⟨rfl, hr⟩ := herr ht
    exact ⟨h, hC.cut hs hr⟩

theorem holds_readIn (n : Nat) : (readIn n).Holds P E := by
  refine holds_bind (holds_readCall hC (inRead_step n) (inRead_outCh n) inRead_error) fun r => ?_
  cases r
  · exact holds_pure _
  · exact holds_pure _
  · exact holds_raise hC _ _

theorem holds_rewind : rewindBody.Holds P E :=
  holds_bind (holds_readCall hC inReset_step inReset_outCh inReset_error) fun _ => holds_checkIo hC _ _

theorem holds_walkFrom (k c : Nat) : (walkFrom k c).Holds P E := by
  induction k generalizing c with
  | zero =>
    unfold walkFrom
    refine holds_bind holds_get fun s => ?_
    split
    · exact holds_stuck hC _
    · exact holds_pure _
    · exact holds_stuck hC _
  | succ k ih =>
    unfold walkFrom
    refine holds_bind holds_get fun s => ?_
    split
    · exact holds_stuck hC _
    · exact holds_pure _
    · refine holds_bind (holds_readIn hC 1) fun r => ?_
      split
      · exact holds_raise hC _ _
      · exact ih _
      · exact ih _

theorem holds_walk : walk.Holds P E := holds_bind holds_get fun _ => holds_walkFrom hC _ _

theorem holds_decodeSymbol (heos : ∀ s b, P s → P (s.setEosSeen b))
    (hsym : ∀ (s : State) sym, P s → P { s with resSym := sym }) : decodeSymbolBody.Holds P E :=
  holds_bind (holds_modify fun s => heos s _) fun _ =>
    holds_bind (holds_walk hC) fun _ => holds_modify fun s hs => heos _ _ (hsym s _ hs)

theorem holds_countLoop (hfreq : ∀ (s : State) b, b < 256 → s.freqAt b ≠ 0xFFFFFFFF#32 →
    P s → P (s.setFreq b (s.freqAt b + 1#32))) (k : Nat) : (countLoop k).Holds P E := by
  induction k with
  | zero => exact holds_stuck hC _
  | succ k ih =>
    intro s hs
    have h := holds_readIn hC 8 s hs
    unfold countLoop
    simp only [Body.bind_apply]
    cases hr : readIn 8 s with
    | error e t => exact ⟨fun _ _ h' => (by cases h'), fun _ _ h' => (by cases h'; exact h.2 e t hr)⟩
    | ok r t =>
      have ht := h.1 r t hr
      cases r with
      | none => exact holds_pure _ t ht
      | some b =>
        simp only [Body.bind_apply, Body.get_apply]
        split
        · exact holds_raise hC _ _ t ht
        · rename_i hne
          simp only [Body.bind_apply, Body.modify_apply]
          exact ih _ (hfreq t b (readIn_val hr) hne ht)

theorem holds_countFreq (hstart : ∀ s : State, P s → P { s.invalidateTree with freq := resetFreq })
    (hfreq : ∀ (s : State) b, b < 256 → s.freqAt b ≠ 0xFFFFFFFF#32 → P s → P (s.setFreq b (s.freqAt b + 1#32))) :
    countFreqBody.Holds P E :=
  holds_bind (holds_modify hstart) fun _ => holds_bind holds_get fun _ => holds_countLoop hC hfreq _

theorem holds_parse (hnode : ∀ (s : State) i nd, P s → P (s.setNode i nd)) (k : Nat) (c : ParseCount) :
    (parse k c).Holds P E := by
  induction k generalizing c with
  | zero => exact holds_stuck hC _
  | succ k ih =>
    refine holds_bind (holds_readIn hC 1) fun r => ?_
    split
    · exact holds_raise hC _ _
    · split
      · exact holds_raise hC _ _
      · exact holds_bind (ih _) fun _ => holds_bind (ih _) fun _ =>
          holds_bind (holds_modify fun s => hnode s _ _) fun _ => holds_pure _
    · refine holds_bind (holds_readIn hC 9) fun v => ?_
      split
      · exact holds_raise hC _ _
      · split
        · exact holds_raise hC _ _
        · exact holds_bind (holds_modify fun s => hnode s _ _) fun _ => holds_pure _

theorem holds_deserialize (hnode : ∀ (s : State) i nd, P s → P (s.setNode i nd)) (hfree : ∀ s : State, P s → P s.freeNodes)
    (hgone : ∀ s : State, P s → P s.treeGone) (hdone : ∀ (s : State) n l, P s → P (s.treeDone n l)) :
    deserializeBody.Holds P E := by
  refine holds_nodesLostOnError ?_ hfree
  refine holds_bind (holds_modify hgone) fun _ => holds_bind (holds_parse hC hnode _ _) fun q =>
    holds_bind holds_get fun s => ?_
  split
  · exact holds_raise hC _ _
  · exact holds_modify fun s => hdone s _ _

theorem holds_checkMagic (heof : ∀ s : State, P s → P { s with status := { s.status with infoEof := true } }) :
    checkMagicBody.Holds P E := by
  refine holds_bind (holds_readIn hC 32) fun r => ?_
  split
  · exact holds_bind (holds_modify heof) fun _ => holds_raise hC _ _
  · refine holds_bind holds_get fun s => ?_
    split
    · exact holds_pure _
    · exact holds_raise hC _ _

end Reads

/-! ## Bodies that only write -/

section Writes

variable {P : State → Prop} {E : Stop → Prop} {r : Bool} (hC : Closed P E r true)
include hC

theorem holds_writeCall {m : Body α} (hstep : ∀ s, ChannelStep s (resultState (m s)))
    (hin : ∀ s, (resultState (m s)).inCh = s.inCh) (herr : ∀ {s t e}, m s = .error e t → e = .cut ∧ ¬ s.noReset) :
    m.Holds P E := fun s hs => by
  have h := hC.writes rfl (hstep s) (hin s) hs
  constructor
  · intro a t ht
    rw [ht] at h
    exact h
  · intro e t ht
    rw [ht] at h
    obtain ⟨rfl, hr⟩ := herr ht
    exact ⟨h, hC.cut hs hr⟩

theorem holds_writeOut (n v : Nat) : (writeOut n v).Holds P E :=
  holds_bind (holds_writeCall hC (outWrite_step n v) (outWrite_inCh n v) outWrite_error) fun _ => holds_checkIo hC _ _

theorem holds_writeAll (ws : List (Nat × Nat)) : (writeAll ws).Holds P E := by
  induction ws with
  | nil => exact holds_pure _
  | cons w ws ih => exact holds_bind (holds_writeOut hC _ _) fun _ => ih

theorem holds_closeOutput : closeOutputBody.Holds P E :=
  holds_bind (holds_writeCall hC outClose_step outClose_inCh outClose_error) fun _ => holds_checkIo hC _ _

theorem holds_writeMagic : writeMagicBody.Holds P E := holds_bind holds_get fun _ => holds_writeOut hC _ _

theorem holds_serialize : serializeBody.Holds P E := by
  refine holds_bind holds_get fun s => ?_
  split
  · exact holds_stuck hC _
  · exact holds_writeAll hC _

theorem holds_encodeCode (sym : Nat) : (encodeCode sym).Holds P E := by
  refine holds_bind holds_get fun s => ?_
  dsimp only
  split
  · exact holds_writeAll hC _
  · exact holds_raise hC _ _

end Writes

/-! ## Bodies that read and write -/

section Both

variable {P : State → Prop} {E : Stop → Prop} (hC : Closed P E true true)
include hC

theorem holds_encodeLoop (k : Nat) : (encodeLoop k).Holds P E := by
  induction k with
  | zero => exact holds_stuck hC _
  | succ k ih =>
    refine holds_bind (holds_readIn hC 8) fun r => ?_
    cases r with
    | none => exact holds_pure _
    | some b => exact holds_bind (holds_encodeCode hC b) fun _ => ih

theorem holds_encodePayload : encodePayloadBody.Holds P E :=
  holds_bind holds_get fun _ => holds_bind (holds_encodeLoop hC _) fun _ => holds_encodeCode hC _

theorem holds_decodeLoop (heos : ∀ s b, P s → P (s.setEosSeen b)) (k : Nat) : (decodeLoop k).Holds P E := by
  induction k with
  | zero => exact holds_stuck hC _
  | succ k ih =>
    refine holds_bind (holds_walk hC) fun sym => ?_
    split
    · exact holds_modify fun s => heos s _
    · exact holds_bind (holds_writeOut hC _ _) fun _ => ih

theorem holds_decodePayload (heos : ∀ s b, P s → P (s.setEosSeen b)) : decodePayloadBody.Holds P E :=
  holds_bind (holds_modify fun s => heos s _) fun _ =>
    holds_bind holds_get fun _ => holds_decodeLoop hC heos _

end Both

/-! ## From a body to its command -/

/-- What holds after a primitive command, from what holds at its body's end. -/
theorem runCommand_holds {P Q : State → Prop} {E : Stop → Prop} {op : Opcode} {body : Body Unit} {s t : State}
    (hb : body.Holds P E) (hs : P s) (hdone : ∀ u, P u → Q u.complete) (hfail : ∀ u e info, P u → Q (u.raise e info op))
    (hcut : ∀ u, P u → E .cut → Q u.hardReset) (h : runCommand op body s = .next t) : Q t := by
  obtain ⟨u, hu, rfl⟩ | ⟨e, info, u, hu, rfl⟩ | ⟨u, hu, rfl⟩ := runCommand_next h
  · exact hdone u ((hb s hs).1 _ u hu)
  · exact hfail u e info ((hb s hs).2 _ u hu).1
  · exact hcut u ((hb s hs).2 _ u hu).1 ((hb s hs).2 _ u hu).2

/-- Every way the error path of a macro command reaches a next state (46_orchestration R740). -/
theorem errorPath_next {op : Opcode} {e : Err} {info : Word} {s t : State} (h : errorPath op e info s = .next t) :
    (op = closeOutputOp ∧ t = s.raise e info op) ∨
    (op ≠ closeOutputOp ∧ ∃ u, ChannelStep s u ∧ u.inCh = s.inCh ∧
      ((outClose s = .ok .ok u ∧ t = u.raise e info op) ∨
       (∃ c, outClose s = .ok (.ioErr c) u ∧
         t = { u with status := { u.status with closeFailed := true } }.raise e info op) ∨
       (outClose s = .error .cut u ∧ ¬ s.noReset ∧ t = u.hardReset))) := by
  unfold errorPath at h
  split at h
  · cases h; exact .inl ⟨by assumption, rfl⟩
  · rename_i hop
    have hstep := outClose_step s
    have hin := outClose_inCh s
    split at h <;> rename_i hc <;> rw [hc] at hstep hin <;> cases h
    · exact .inr ⟨hop, _, hstep, hin, .inl ⟨hc, rfl⟩⟩
    · exact .inr ⟨hop, _, hstep, hin, .inr (.inl ⟨_, hc, rfl⟩)⟩
    · exact .inr ⟨hop, _, hstep, hin, .inr (.inr ⟨hc, (outClose_error hc).2, rfl⟩)⟩
    · exact absurd (outClose_error hc).1 (by simp)

/-- What holds after a macro command, from what holds at the end of each of its bodies. -/
theorem runSteps_holds {P Q : State → Prop} {E : Stop → Prop} {r : Bool} (hC : Closed P E r true)
    {steps : List (Opcode × Body Unit)} {s t : State} (hb : ∀ b ∈ steps, b.2.Holds P E) (hs : P s)
    (hdone : ∀ u, P u → Q u.complete) (hfail : ∀ u e info op, P u → Q (u.raise e info op))
    (hclose : ∀ u e info op, P u →
      Q ({ u with status := { u.status with closeFailed := true } }.raise e info op))
    (hcut : ∀ u, P u → E .cut → Q u.hardReset) (h : runSteps steps s = .next t) : Q t := by
  induction steps generalizing s with
  | nil => cases h; exact hdone s hs
  | cons b rest ih =>
    obtain ⟨op, body⟩ := b
    have hbody := hb _ (List.mem_cons_self ..) s hs
    unfold runSteps at h
    split at h <;> rename_i hr
    · exact ih (fun b hb' => hb b (List.mem_cons_of_mem _ hb')) (hbody.1 _ _ hr) h
    · have hP := (hbody.2 _ _ hr).1
      obtain ⟨-, rfl⟩ | ⟨-, u, hu, hin, ⟨-, rfl⟩ | ⟨c, -, rfl⟩ | ⟨-, hn, rfl⟩⟩ := errorPath_next h
      · exact hfail _ _ _ _ hP
      · exact hfail _ _ _ _ (hC.writes rfl hu hin hP)
      · exact hclose _ _ _ _ (hC.writes rfl hu hin hP)
      · exact hcut _ (hC.writes rfl hu hin hP) (hC.cut hP hn)
    · cases h
    · cases h
      exact hcut _ (hbody.2 _ _ hr).1 (hbody.2 _ _ hr).2

/-- A part of the state that the channels and the draws are not in, and the absence of a hardware reset, are kept. -/
theorem closed_part {γ : Type} (f : State → γ) (hf : ∀ s inCh outCh io draws,
    f { s with inCh := inCh, outCh := outCh, io := io, draws := draws } = f s) (v : γ) :
    Closed (fun u => f u = v ∧ u.noReset) (· ≠ .cut) true true where
  reads := fun _ {s t} h _ hs => ⟨by rw [h.only, hf]; exact hs.1, h.noReset hs.2⟩
  writes := fun _ {s t} h _ hs => ⟨by rw [h.only, hf]; exact hs.1, h.noReset hs.2⟩
  raised := fun _ _ => by simp
  stuck := fun _ => by simp
  cut := fun hs hn => absurd hs.2 hn

end Sys2Proof.Machine
end

