-- ==== Sys2Proof/Laws/Exec.lean ====
section
/-! SUPPORT. What each command can write: a part of the state that is blind to the writes of a command is the same
after it, when no hardware reset abandons it. -/

namespace Sys2Proof.Machine

/-- The part `f` of the state does not depend on what `i` can write. Each field names the commands that make the write
(10_state R112 to R136). -/
structure Blind {γ : Type} (f : State → γ) (i : Instr) : Prop where
  channels : ∀ s inCh outCh io draws, f { s with inCh := inCh, outCh := outCh, io := io, draws := draws } = f s
  complete : ∀ s : State, f s.complete = f s
  raise : ∀ s e info op, f (State.raise s e info op) = f s
  notReset : i ≠ .softReset
  closeFailed : i = .compress ∨ i = .decompress →
    ∀ s : State, f { s with status := { s.status with closeFailed := true } } = f s
  infoEof : i = .checkMagic ∨ i = .decompress →
    ∀ s : State, f { s with status := { s.status with infoEof := true } } = f s
  eosSeen : i = .decodeSymbol ∨ i = .decodePayload ∨ i = .decompress → ∀ (s : State) b, f (s.setEosSeen b) = f s
  freq : i = .countFreq ∨ i = .compress ∨ (∃ v, i = .writeFreq v) →
    ∀ (s : State) v, f { s.invalidateTree with freq := v } = f s ∧ f { s with freq := v } = f s
  tree : i = .buildTree ∨ i = .deserializeHeader ∨ i = .compress ∨ i = .decompress →
    ∀ s : State, f s.treeGone = f s ∧ (∀ n l, f (s.treeDone n l) = f s) ∧
      ∀ nodes draws, f { s with nodes := nodes, draws := draws } = f s
  codesValid : i = .genCodes ∨ i = .compress ∨ i = .decompress → ∀ (s : State) b, f (s.setCodesValid b) = f s
  codes : i = .genCodes ∨ i = .compress → ∀ (s : State) v, f { s with codes := v } = f s
  resSym : i = .decodeSymbol ∨ (∃ v, i = .readFreq v) ∨ (∃ v, i = .readNode v) ∨ (∃ v, i = .lookupCode v) →
    ∀ (s : State) v, f { s with resSym := v } = f s
  weight : (∃ v, i = .readFreq v) ∨ (∃ v, i = .readNode v) →
    ∀ (s : State) lo hi, f { s with resWlo := lo, resWhi := hi } = f s
  resNode : (∃ v, i = .readNode v) → ∀ (s : State) nd, f { s with resNode := nd } = f s
  resCode : (∃ v, i = .lookupCode v) → ∀ (s : State) len code, f { s with resLen := len, resCode := code } = f s

section

variable {γ : Type} {f : State → γ} {i : Instr}

/-- What a body must keep for `f` to be the same after its command. -/
abbrev KeepsPart (f : State → γ) (v : γ) (m : Body Unit) : Prop :=
  m.Holds (fun u => f u = v ∧ u.noReset) (· ≠ .cut)

theorem Blind.prim (B : Blind f i) {op : Opcode} {body : Body Unit} {s t : State} (hn : s.noReset)
    (hb : ∀ v, KeepsPart f v body) (h : runCommand op body s = .next t) : f t = f s :=
  runCommand_holds (Q := fun u => f u = f s) (hb (f s)) ⟨rfl, hn⟩ (fun u hu => (B.complete u).trans hu.1)
    (fun u e info hu => (B.raise u e info _).trans hu.1) (fun _ _ hcut => absurd rfl hcut) h

theorem Blind.steps (B : Blind f i) (hi : i = .compress ∨ i = .decompress) {steps : List (Opcode × Body Unit)}
    {s t : State} (hn : s.noReset) (hb : ∀ v, ∀ b ∈ steps, KeepsPart f v b.2)
    (h : runSteps steps s = .next t) : f t = f s :=
  runSteps_holds (Q := fun u => f u = f s) (closed_part f B.channels (f s)) (hb (f s)) ⟨rfl, hn⟩
    (fun u hu => (B.complete u).trans hu.1) (fun u e info op hu => (B.raise u e info op).trans hu.1)
    (fun u e info op hu => (B.raise _ e info op).trans ((B.closeFailed hi u).trans hu.1))
    (fun _ _ hcut => absurd rfl hcut) h

theorem Blind.countFreq (B : Blind f i) (hi : i = .countFreq ∨ i = .compress) (v : γ) : KeepsPart f v countFreqBody := by
  have h := B.freq (hi.elim .inl fun h => .inr (.inl h))
  exact holds_countFreq (closed_part f B.channels v) (fun s hs => ⟨(h s _).1.trans hs.1, hs.2⟩)
    fun s b _ _ hs => ⟨(h s _).2.trans hs.1, hs.2⟩

theorem Blind.buildTree (B : Blind f i) (hi : i = .buildTree ∨ i = .compress) (v : γ) : KeepsPart f v buildTreeBody := by
  have h := B.tree (hi.elim .inl fun h => .inr (.inr (.inl h)))
  exact holds_buildTree (closed_part f B.channels v) (fun s _ _ hs => ⟨((h s).2.2 _ _).trans hs.1, hs.2⟩)
    (fun s hs => ⟨(h s).1.trans hs.1, hs.2⟩) fun s _ _ hs => ⟨((h s).2.1 _ _).trans hs.1, hs.2⟩

theorem Blind.deserialize (B : Blind f i) (hi : i = .deserializeHeader ∨ i = .decompress) (v : γ) :
    KeepsPart f v deserializeBody := by
  have h := B.tree (hi.elim (fun h => .inr (.inl h)) fun h => .inr (.inr (.inr h)))
  exact holds_deserialize (closed_part f B.channels v) (fun s _ _ hs => ⟨((h s).2.2 _ s.draws).trans hs.1, hs.2⟩)
    (fun s hs => ⟨((h s).2.2 _ _).trans hs.1, hs.2⟩) (fun s hs => ⟨(h s).1.trans hs.1, hs.2⟩)
    fun s _ _ hs => ⟨((h s).2.1 _ _).trans hs.1, hs.2⟩

theorem Blind.genCodes (B : Blind f i) (hi : i = .genCodes ∨ i = .compress) (v : γ) : KeepsPart f v genCodesBody :=
  holds_genCodes (closed_part f B.channels v) (fun s _ hs => ⟨(B.codes hi s _).trans hs.1, hs.2⟩)
    fun s _ hs => ⟨(B.codesValid (hi.imp id .inl) s _).trans hs.1, hs.2⟩

theorem Blind.checkMagic (B : Blind f i) (hi : i = .checkMagic ∨ i = .decompress) (v : γ) :
    KeepsPart f v checkMagicBody :=
  holds_checkMagic (closed_part f B.channels v) fun s hs => ⟨(B.infoEof hi s).trans hs.1, hs.2⟩

theorem Blind.decodePayload (B : Blind f i) (hi : i = .decodePayload ∨ i = .decompress) (v : γ) :
    KeepsPart f v decodePayloadBody :=
  holds_decodePayload (closed_part f B.channels v) fun s b hs => ⟨(B.eosSeen (.inr hi) s b).trans hs.1, hs.2⟩

theorem Blind.writeFreq {sym : Opnd} (B : Blind f (.writeFreq sym)) (v : γ) : KeepsPart f v (writeFreqBody sym) :=
  holds_modify fun s hs => ⟨(B.freq (.inr (.inr ⟨_, rfl⟩)) s _).1.trans hs.1, hs.2⟩

theorem Blind.readFreq {sym : Opnd} (B : Blind f (.readFreq sym)) (v : γ) : KeepsPart f v (readFreqBody sym) :=
  holds_modify fun s hs => ⟨(B.weight (.inl ⟨_, rfl⟩) { s with resSym := symbolField sym } _ _).trans
    ((B.resSym (.inr (.inl ⟨_, rfl⟩)) s _).trans hs.1), hs.2⟩

theorem Blind.lookupCode {sym : Opnd} (B : Blind f (.lookupCode sym)) (v : γ) : KeepsPart f v (lookupCodeBody sym) :=
  holds_modify fun s hs => ⟨(B.resCode ⟨_, rfl⟩ { s with resSym := symbolField sym } _ _).trans
    ((B.resSym (.inr (.inr (.inr ⟨_, rfl⟩))) s _).trans hs.1), hs.2⟩

theorem Blind.readNode {idx : Opnd} (B : Blind f (.readNode idx)) (v : γ) : KeepsPart f v (readNodeBody idx) := by
  intro u hu
  simp only [readNodeBody, Body.bind_apply, Body.get_apply]
  cases u.nodes[operandIndex idx]? with
  | none => exact holds_stuck (closed_part f B.channels v) _ u hu
  | some nd =>
    refine ⟨fun _ _ h => ?_, fun _ _ h => (by cases h)⟩
    cases h
    exact ⟨(B.weight (.inr ⟨_, rfl⟩)
      { u with resNode := { kind := nd.isLeaf, right := nd.right, left := nd.left }, resSym := nd.sym } _ _).trans
      ((B.resNode ⟨_, rfl⟩ { u with resSym := nd.sym } _).trans
        ((B.resSym (.inr (.inr (.inl ⟨_, rfl⟩))) u _).trans hu.1)), hu.2⟩

/-- A command that runs with no hardware reset leaves every part of the state that is blind to its writes. -/
theorem exec_blind (B : Blind f i) {s t : State} (hn : s.noReset) (h : exec i s = .next t) : f t = f s := by
  have C := closed_part f B.channels
  cases i with
  | nop => exact B.prim (op := 0x00#8) (body := pure ()) hn (fun _ => holds_pure _) h
  | softReset => exact absurd rfl B.notReset
  | countFreq => exact B.prim hn (B.countFreq (.inl rfl)) h
  | writeFreq sym => exact B.prim (op := 0x11#8) hn B.writeFreq h
  | readFreq sym => exact B.prim (op := 0x12#8) hn B.readFreq h
  | buildTree => exact B.prim hn (B.buildTree (.inl rfl)) h
  | readNode idx =>
    exact B.prim hn (fun v => holds_bind (holds_requireTree (C v)) fun _ =>
      holds_bind (holds_requireIndex (C v) idx) fun _ => B.readNode v) h
  | genCodes => exact B.prim hn (fun v => holds_bind (holds_requireTree (C v)) fun _ => B.genCodes (.inl rfl) v) h
  | lookupCode sym =>
    exact B.prim hn (fun v => holds_bind (holds_requireCodes (C v)) fun _ => B.lookupCode v) h
  | writeMagic => exact B.prim hn (fun v => holds_writeMagic (C v)) h
  | serializeHeader =>
    exact B.prim hn (fun v => holds_bind (holds_requireTree (C v)) fun _ => holds_serialize (C v)) h
  | checkMagic => exact B.prim hn (B.checkMagic (.inl rfl)) h
  | deserializeHeader => exact B.prim hn (B.deserialize (.inl rfl)) h
  | rewindInput => exact B.prim hn (fun v => holds_rewind (C v)) h
  | encodeSymbol sym =>
    exact B.prim hn (fun v => holds_bind (holds_requireCodes (C v)) fun _ => holds_encodeCode (C v) _) h
  | encodePayload =>
    exact B.prim hn (fun v => holds_bind (holds_requireCodes (C v)) fun _ => holds_encodePayload (C v)) h
  | closeOutput => exact B.prim hn (fun v => holds_closeOutput (C v)) h
  | decodeSymbol =>
    exact B.prim hn (fun v => holds_bind (holds_requireTree (C v)) fun _ =>
      holds_decodeSymbol (C v) (fun s b hs => ⟨(B.eosSeen (.inl rfl) s b).trans hs.1, hs.2⟩)
        fun s _ hs => ⟨(B.resSym (.inl rfl) s _).trans hs.1, hs.2⟩) h
  | decodePayload =>
    exact B.prim hn (fun v => holds_bind (holds_requireTree (C v)) fun _ => B.decodePayload (.inl rfl) v) h
  | compress =>
    refine B.steps (.inl rfl) hn (fun v b hb => ?_) h
    simp only [compressSteps, List.mem_cons, List.not_mem_nil, or_false] at hb
    rcases hb with rfl | rfl | rfl | rfl | rfl | rfl | rfl | rfl
    · exact B.countFreq (.inr rfl) v
    · exact B.buildTree (.inr rfl) v
    · exact B.genCodes (.inr rfl) v
    · exact holds_writeMagic (C v)
    · exact holds_serialize (C v)
    · exact holds_rewind (C v)
    · exact holds_encodePayload (C v)
    · exact holds_closeOutput (C v)
  | decompress =>
    refine B.steps (.inr rfl) hn (fun v b hb => ?_) h
    simp only [decompressSteps, List.mem_cons, List.not_mem_nil, or_false] at hb
    rcases hb with rfl | rfl | rfl | rfl
    · exact holds_bind (holds_modify fun s hs => ⟨(B.codesValid (.inr (.inr rfl)) s _).trans hs.1, hs.2⟩)
        fun _ => B.checkMagic (.inr rfl) v
    · exact B.deserialize (.inr rfl) v
    · exact B.decodePayload (.inr rfl) v
    · exact holds_closeOutput (C v)

end

/-! ## A predicate that every write preserves -/

/-- A predicate that every write a command body makes to the state preserves. -/
structure Updates (P : State → Prop) : Prop where
  soft : ∀ s, P s → P { State.reset with
      params := s.params,
      cmd := s.cmd,
      status := { Status.zero with busy := s.status.busy, lastOp := 0x01#8 },
      nodes := Config.freeNodes s.draws,
      codes := Config.freeCodes s.draws,
      inCh := s.inCh,
      outCh := s.outCh,
      log := s.log,
      accArg := s.accArg,
      accStatus := s.accStatus,
      host := s.host,
      readLog := s.readLog,
      inLink := s.inLink,
      outReads := s.outReads,
      io := s.io,
      draws := s.draws + 1 }
  eof : ∀ s, P s → P { s with status := { s.status with infoEof := true } }
  eos : ∀ (s : State) b, P s → P (s.setEosSeen b)
  freq : ∀ (s : State) v, P s → P { s with freq := v }
  inval : ∀ (s : State) , P s → P s.invalidateTree
  gone : ∀ (s : State) , P s → P s.treeGone
  done : ∀ (s : State) n l, P s → P (s.treeDone n l)
  nodes : ∀ (s : State) v d, P s → P { s with nodes := v, draws := d }
  cv : ∀ (s : State) b, P s → P (s.setCodesValid b)
  codes : ∀ (s : State) b, P s → P { s with codes := b }
  res : ∀ (s : State) a b c d e f, P s → P { s with resSym := a, resLen := b, resWlo := c, resWhi := d, resNode := e, resCode := f }

/-- What holds after every command, from what all the writes of command bodies and the channel calls preserve. -/
theorem exec_holds {P Q : State → Prop} {E : Stop → Prop} (hC : Closed P E true true) (U : Updates P) {i : Instr}
    {s t : State} (hs : P s) (h : exec i s = .next t) (hdone : ∀ u, P u → Q u.complete) (hfail : ∀ u e info op, P u → Q (State.raise u e info op))
    (hclose : ∀ u e info op, P u →
      Q (State.raise { u with status := { u.status with closeFailed := true } } e info op))
    (hcut : ∀ u, P u → E .cut → Q u.hardReset) : Q t := by
  have res1 : ∀ (s : State) a, P s → P { s with resSym := a } := fun s a h => U.res s _ _ _ _ _ _ h
  have hcf : countFreqBody.Holds P E := holds_countFreq hC (fun s hs => U.freq _ _ (U.inval _ hs)) (fun s b _ _ hs => U.freq _ _ hs)
  have hbt : buildTreeBody.Holds P E := holds_buildTree hC U.nodes U.gone U.done
  have hds : deserializeBody.Holds P E := holds_deserialize hC (fun s i nd hs => U.nodes _ _ _ hs) (fun s hs => U.nodes _ _ _ hs) U.gone U.done
  have hgc : genCodesBody.Holds P E := holds_genCodes hC U.codes U.cv
  have hcm : checkMagicBody.Holds P E := holds_checkMagic hC U.eof
  have hdp : decodePayloadBody.Holds P E := holds_decodePayload hC U.eos
  have hdy : decodeSymbolBody.Holds P E := holds_decodeSymbol hC U.eos res1
  have R : ∀ {op body}, Body.Holds P E body → runCommand op body s = .next t → Q t := fun hb h => runCommand_holds hb hs hdone (fun u e i => hfail u e i _) hcut h
  cases i with
  | nop => exact R (op := 0x00#8) (body := pure ()) (holds_pure _) h
  | softReset => exact R (op := 0x01#8) (body := softResetBody) (holds_modify U.soft) h
  | countFreq => exact R hcf h
  | writeFreq sym => exact R (op := 0x11#8) (body := writeFreqBody sym) (holds_modify fun s hs => U.freq _ _ (U.inval _ hs)) h
  | readFreq sym => exact R (op := 0x12#8) (body := readFreqBody sym) (holds_modify fun s hs => U.res _ _ _ _ _ _ _ hs) h
  | buildTree => exact R hbt h
  | readNode idx =>
    refine R (holds_bind (holds_requireTree hC) fun _ => holds_bind (holds_requireIndex hC idx) fun _ => fun u hu => ?_) h
    simp only [readNodeBody, Body.bind_apply, Body.get_apply]
    cases u.nodes[operandIndex idx]? with
    | none => exact holds_stuck hC _ u hu
    | some nd => exact ⟨fun _ _ h => (by cases h; exact U.res _ _ _ _ _ _ _ hu), fun _ _ h => (by cases h)⟩
  | genCodes => exact R (holds_bind (holds_requireTree hC) fun _ => hgc) h
  | lookupCode sym =>
    refine R (op := 0x21#8) (body := do requireCodes; lookupCodeBody sym) (holds_bind (holds_requireCodes hC) fun _ => ?_) h
    exact (holds_modify fun s hs => U.res s _ _ s.resWlo s.resWhi s.resNode _ hs)
  | writeMagic => exact R (holds_writeMagic hC) h
  | serializeHeader => exact R (holds_bind (holds_requireTree hC) fun _ => holds_serialize hC) h
  | checkMagic => exact R hcm h
  | deserializeHeader => exact R hds h
  | rewindInput => exact R (holds_rewind hC) h
  | encodeSymbol sym => exact R (holds_bind (holds_requireCodes hC) fun _ => holds_encodeCode hC _) h
  | encodePayload => exact R (holds_bind (holds_requireCodes hC) fun _ => holds_encodePayload hC) h
  | closeOutput => exact R (holds_closeOutput hC) h
  | decodeSymbol => exact R (holds_bind (holds_requireTree hC) fun _ => hdy) h
  | decodePayload => exact R (holds_bind (holds_requireTree hC) fun _ => hdp) h
  | compress =>
    refine runSteps_holds hC (fun b hb => ?_) hs hdone hfail hclose hcut h
    simp only [compressSteps, List.mem_cons, List.not_mem_nil, or_false] at hb
    rcases hb with rfl | rfl | rfl | rfl | rfl | rfl | rfl | rfl
    exacts [hcf, hbt, hgc, holds_writeMagic hC, holds_serialize hC, holds_rewind hC, holds_encodePayload hC, holds_closeOutput hC]
  | decompress =>
    refine runSteps_holds hC (fun b hb => ?_) hs hdone hfail hclose hcut h
    simp only [decompressSteps, List.mem_cons, List.not_mem_nil, or_false] at hb
    rcases hb with rfl | rfl | rfl | rfl
    exacts [holds_bind (holds_modify fun s hs => U.cv s _ hs) fun _ => hcm, hds, hdp, holds_closeOutput hC]

end Sys2Proof.Machine
end

