-- ==== Sys2Proof/Laws/Failure.lean ====
section
/-! SUPPORT. A channel failure that the environment has drawn: every body either ends before it, or reports it with the
sub-code of the call that met it and the channel's own code (20_memory R214, 60_exceptions R801). -/

namespace Sys2Proof.Machine

variable {α β : Type}

/-- The coming channel calls pass as often as `before` is long, and the next one fails with `code`; OUT is open. -/
structure Failing (code : Word) (rest before : List IoDraw) (s : State) : Prop where
  passes : ∀ d ∈ before, d = .pass
  io : s.io = before ++ .fail code :: rest
  isOpen : s.outCh.closed = false

/-- What no command body changes, whatever the channels do: the log, CMD, IN's bits. -/
structure Unlogged (s t : State) : Prop where
  log : t.log = s.log
  cmd : t.cmd = s.cmd
  in_bits : t.inCh.bits = s.inCh.bits

theorem Unlogged.refl (s : State) : Unlogged s s := ⟨rfl, rfl, rfl⟩

theorem Unlogged.trans {s t u : State} (h : Unlogged s t) (k : Unlogged t u) : Unlogged s u :=
  ⟨k.log.trans h.log, k.cmd.trans h.cmd, k.in_bits.trans h.in_bits⟩

theorem ChannelStep.unlogged {s t : State} (h : ChannelStep s t) : Unlogged s t :=
  ⟨by rw [h.only], by rw [h.only], h.in_bits⟩

/-- The failure has not been met: it is still to come. -/
def Waits (code : Word) (rest before : List IoDraw) (t : State) : Prop :=
  ∃ left, left <:+ before ∧ Failing code rest left t

theorem Failing.waits {code : Word} {rest before : List IoDraw} {s : State} (h : Failing code rest before s) :
    Waits code rest before s := ⟨before, List.suffix_rfl, h⟩

theorem Failing.congr {code : Word} {rest before : List IoDraw} {s t : State} (h : Failing code rest before s)
    (hio : t.io = s.io) (hout : t.outCh = s.outCh) : Failing code rest before t :=
  ⟨h.passes, hio.trans h.io, by rw [hout]; exact h.isOpen⟩

theorem Failing.waits_congr {code : Word} {rest before : List IoDraw} {s t : State} (h : Failing code rest before s)
    (hio : t.io = s.io) (hout : t.outCh = s.outCh) : Waits code rest before t := (h.congr hio hout).waits

/-- The first draw of a failing sequence: a pass, or the failure itself. -/
theorem Failing.cases {code : Word} {rest before : List IoDraw} {s : State} (h : Failing code rest before s) :
    (∃ b, before = .pass :: b ∧ s.io = .pass :: (b ++ .fail code :: rest)) ∨
      (before = [] ∧ s.io = .fail code :: rest) := by
  have hio := h.io
  cases before with
  | nil => exact .inr ⟨rfl, hio⟩
  | cons d b =>
    obtain rfl := h.passes d (List.mem_cons_self ..)
    exact .inl ⟨b, rfl, hio⟩

theorem Failing.tail {code : Word} {rest b : List IoDraw} {s t : State} (h : Failing code rest (.pass :: b) s)
    (hio : t.io = b ++ .fail code :: rest) (hout : t.outCh.closed = false) : Waits code rest (.pass :: b) t :=
  ⟨b, List.suffix_cons _ _, fun d hd => h.passes d (List.mem_cons_of_mem _ hd), hio, hout⟩

/-- What a body that met no hardware reset reports of a failure that was drawn. -/
def Reported (subs : List IoSub) (code : Word) (rest before : List IoDraw) (s : State) :
    EStateM.Result Stop State α → Prop
  | .ok _ t => Unlogged s t ∧ Waits code rest before t
  | .error (.raised e info) t =>
    Unlogged s t ∧ ((Waits code rest before t ∧ ∀ sub, e ≠ .ioError sub) ∨
      (t.io = rest ∧ t.outCh.closed = false ∧ info = code ∧ ∃ sub ∈ subs, e = .ioError sub))
  | .error (.stuck _) _ => True
  | .error .cut _ => False

/-- A body reports every failure that is drawn, with one of these sub-codes. -/
def Body.Reports (m : Body α) (subs : List IoSub) : Prop :=
  ∀ code rest before s, Failing code rest before s → Reported subs code rest before s (m s)

theorem Waits.suffix {code : Word} {rest before left : List IoDraw} {t : State} (h : Waits code rest left t)
    (hl : left <:+ before) : Waits code rest before t := by
  obtain ⟨l, h1, h2⟩ := h
  exact ⟨l, h1.trans hl, h2⟩

theorem Reported.after {subs : List IoSub} {code : Word} {rest before left : List IoDraw} {s t : State}
    {r : EStateM.Result Stop State α} (hu : Unlogged s t) (hl : left <:+ before)
    (h : Reported subs code rest left t r) : Reported subs code rest before s r := by
  cases r with
  | ok a u => exact ⟨hu.trans h.1, h.2.suffix hl⟩
  | error e u =>
    cases e with
    | raised e info => exact ⟨hu.trans h.1, h.2.imp (fun k => ⟨k.1.suffix hl, k.2⟩) id⟩
    | stuck f => exact trivial
    | cut => exact h

section

variable {subs : List IoSub}

theorem reports_pure (a : α) : (pure a : Body α).Reports subs := fun _ _ _ s h => ⟨.refl s, h.waits⟩

theorem reports_get : (get : Body State).Reports subs := fun _ _ _ s h => ⟨.refl s, h.waits⟩

theorem reports_modify {f : State → State}
    (hf : ∀ s, Unlogged s (f s) ∧ (f s).io = s.io ∧ (f s).outCh = s.outCh) :
    (modify f : Body Unit).Reports subs := fun _ _ _ s h =>
  ⟨(hf s).1, (h.congr (hf s).2.1 (hf s).2.2).waits⟩

theorem reports_raise {e : Err} {info : Word} (he : ∀ sub, e ≠ .ioError sub) :
    (raise e info : Body α).Reports subs := fun _ _ _ s h => ⟨.refl s, .inl ⟨h.waits, he⟩⟩

theorem reports_stuck (f : Fault) : (stuck f : Body α).Reports subs := fun _ _ _ _ _ => trivial

theorem reports_bind {m : Body α} {f : α → Body β} (hm : m.Reports subs) (hf : ∀ a, (f a).Reports subs) :
    (m >>= f).Reports subs := by
  intro code rest before s h
  have hs := hm code rest before s h
  rw [Body.bind_apply]
  cases hr : m s with
  | ok a t =>
    rw [hr] at hs
    obtain ⟨hu, left, hl, hw⟩ := hs
    exact (hf a code rest left t hw).after hu hl
  | error e t =>
    rw [hr] at hs
    cases e with
    | raised e info => exact hs
    | stuck f => exact trivial
    | cut => exact hs

theorem reports_nodesLostOnError {m : Body Unit} (hm : m.Reports subs) : (nodesLostOnError m).Reports subs := by
  intro code rest before s h
  have hs := hm code rest before s h
  unfold nodesLostOnError
  split
  · rename_i e info t hr
    rw [hr] at hs
    refine ⟨hs.1.trans ⟨rfl, rfl, rfl⟩, hs.2.imp (fun k => ⟨?_, k.2⟩) id⟩
    obtain ⟨left, hl, hw⟩ := k.1
    exact ⟨left, hl, hw.congr rfl rfl⟩
  · exact hs

theorem reports_require (c : Bool) (sub : ReadySub) : (require c sub).Reports subs := by
  cases c
  · exact reports_raise (by simp)
  · exact reports_pure _

theorem reports_requireTree : requireTree.Reports subs := reports_bind reports_get fun _ => reports_require _ _

theorem reports_requireCodes : requireCodes.Reports subs := reports_bind reports_get fun _ => reports_require _ _

/-! ## The channel calls -/

theorem reports_readIn (h : .inRead ∈ subs) (n : Nat) : (readIn n).Reports subs := by
  intro code rest before s hs
  unfold readIn
  rw [Body.bind_apply]
  obtain ⟨b, rfl, hio⟩ | ⟨rfl, hio⟩ := hs.cases
  · have hstep := readBits_step { s with io := b ++ .fail code :: rest } n
    have hopen := hs.isOpen
    have key : ∀ r t, ({ s with io := b ++ .fail code :: rest } : State).readBits n = (r, t) →
        Unlogged s t ∧ Waits code rest (.pass :: b) t := by
      intro r t ht
      rw [ht] at hstep
      have hout : t.outCh = s.outCh ∧ t.io = b ++ .fail code :: rest := by
        have e : (({ s with io := b ++ .fail code :: rest } : State).readBits n).2 = t := by rw [ht]
        rw [← e]
        unfold State.readBits
        split
        · exact ⟨rfl, rfl⟩
        · split <;> exact ⟨rfl, rfl⟩
      have hstep' : ChannelStep { s with io := b ++ .fail code :: rest } t := hstep
      exact ⟨(show Unlogged s { s with io := b ++ .fail code :: rest } from ⟨rfl, rfl, rfl⟩).trans hstep'.unlogged,
        hs.tail hout.2 (by rw [hout.1]; exact hopen)⟩
    simp only [inRead, hio]
    cases hr : ({ s with io := b ++ .fail code :: rest } : State).readBits n with
    | mk r t =>
      obtain ⟨h1, h2⟩ := key r t hr
      cases r with
      | val v => exact ⟨h1, h2⟩
      | eof => exact ⟨h1, h2⟩
      | ioErr c =>
        exfalso
        have : (({ s with io := b ++ .fail code :: rest } : State).readBits n).1 = .ioErr c := by rw [hr]
        unfold State.readBits at this
        split at this
        · cases this
        · split at this <;> cases this
  · simp only [inRead, hio]
    exact ⟨⟨rfl, rfl, rfl⟩, .inr ⟨rfl, hs.isOpen, rfl, _, h, rfl⟩⟩

theorem reports_rewind (h : .inReset ∈ subs) : rewindBody.Reports subs := by
  intro code rest before s hs
  unfold rewindBody
  rw [Body.bind_apply]
  obtain ⟨b, rfl, hio⟩ | ⟨rfl, hio⟩ := hs.cases
  · simp only [inReset, hio]
    exact ⟨⟨rfl, rfl, rfl⟩, hs.tail rfl hs.isOpen⟩
  · simp only [inReset, hio]
    exact ⟨⟨rfl, rfl, rfl⟩, .inr ⟨rfl, hs.isOpen, rfl, _, h, rfl⟩⟩

theorem reports_writeOut (h : .outWrite ∈ subs) (n v : Nat) : (writeOut n v).Reports subs := by
  intro code rest before s hs
  unfold writeOut
  rw [Body.bind_apply]
  have hopen := hs.isOpen
  obtain ⟨b, rfl, hio⟩ | ⟨rfl, hio⟩ := hs.cases
  · simp only [outWrite, hio, hopen]
    exact ⟨⟨rfl, rfl, rfl⟩, hs.tail rfl rfl⟩
  · simp only [outWrite, hio, hopen]
    exact ⟨⟨rfl, rfl, rfl⟩, .inr ⟨rfl, hopen, rfl, _, h, rfl⟩⟩

theorem reports_writeAll (h : .outWrite ∈ subs) (ws : List (Nat × Nat)) : (writeAll ws).Reports subs := by
  induction ws with
  | nil => exact reports_pure _
  | cons w ws ih => exact reports_bind (reports_writeOut h _ _) fun _ => ih

/-- CLOSE_OUTPUT's body, which leaves OUT closed when it succeeds. -/
theorem closeOutput_reports {code : Word} {rest before : List IoDraw} {s : State} (hs : Failing code rest before s) :
    (∃ t left, closeOutputBody s = .ok () t ∧ Unlogged s t ∧ left <:+ before ∧ t.io = left ++ .fail code :: rest) ∨
    (closeOutputBody s = .error (.raised (.ioError .outClose) code) { s with io := rest }) := by
  have hopen := hs.isOpen
  unfold closeOutputBody
  rw [Body.bind_apply]
  obtain ⟨b, rfl, hio⟩ | ⟨rfl, hio⟩ := hs.cases
  · refine .inl ⟨{ s with io := b ++ .fail code :: rest, outCh := { s.outCh with closed := true } }, b, ?_,
      ⟨rfl, rfl, rfl⟩, List.suffix_cons _ _, rfl⟩
    simp only [outClose, hio, hopen]
    rfl
  · refine .inr ?_
    simp only [outClose, hio, hopen]
    rfl

/-! ## The bodies -/

theorem reports_countFreq (h : .inRead ∈ subs) : countFreqBody.Reports subs := by
  have loop : ∀ k, (countLoop k).Reports subs := by
    intro k
    induction k with
    | zero => exact reports_stuck _
    | succ k ih =>
      refine reports_bind (reports_readIn h 8) fun r => ?_
      cases r with
      | none => exact reports_pure _
      | some b =>
        refine reports_bind reports_get fun s => ?_
        split
        · exact reports_raise (by simp)
        · exact reports_bind (reports_modify fun s => ⟨⟨rfl, rfl, rfl⟩, rfl, rfl⟩) fun _ => ih
  exact reports_bind (reports_modify fun s => ⟨⟨rfl, rfl, rfl⟩, rfl, rfl⟩) fun _ =>
    reports_bind reports_get fun _ => loop _

theorem reports_buildTree : buildTreeBody.Reports subs := by
  refine reports_nodesLostOnError (reports_bind (reports_modify fun s => ⟨⟨rfl, rfl, rfl⟩, rfl, rfl⟩) fun _ => ?_)
  intro code rest before s hs
  simp only [Body.bind_apply, Body.get_apply]
  split
  · exact ⟨.refl s, .inl ⟨hs.waits, by simp⟩⟩
  · exact ⟨⟨rfl, rfl, rfl⟩, hs.waits_congr rfl rfl⟩

theorem reports_genCodes : genCodesBody.Reports subs := by
  refine reports_bind (reports_modify fun s => ⟨⟨rfl, rfl, rfl⟩, rfl, rfl⟩) fun _ => ?_
  intro code rest before s hs
  simp only [Body.bind_apply, Body.get_apply]
  cases visit s.nodes s.nodeCount.toNat s.root [] (Vector.replicate 257 CodeEntry.none) with
  | none => exact trivial
  | some codes => exact ⟨⟨rfl, rfl, rfl⟩, hs.waits_congr rfl rfl⟩

theorem reports_writeMagic (h : .outWrite ∈ subs) : writeMagicBody.Reports subs :=
  reports_bind reports_get fun _ => reports_writeOut h _ _

theorem reports_serialize (h : .outWrite ∈ subs) : serializeBody.Reports subs := by
  refine reports_bind reports_get fun s => ?_
  split
  · exact reports_stuck _
  · exact reports_writeAll h _

theorem reports_checkMagic (h : .inRead ∈ subs) : checkMagicBody.Reports subs := by
  refine reports_bind (reports_readIn h 32) fun r => ?_
  split
  · exact reports_bind (reports_modify fun s => ⟨⟨rfl, rfl, rfl⟩, rfl, rfl⟩) fun _ => reports_raise (by simp)
  · refine reports_bind reports_get fun s => ?_
    split
    · exact reports_pure _
    · exact reports_raise (by simp)

theorem reports_parse (h : .inRead ∈ subs) (k : Nat) (c : ParseCount) : (parse k c).Reports subs := by
  induction k generalizing c with
  | zero => exact reports_stuck _
  | succ k ih =>
    refine reports_bind (reports_readIn h 1) fun r => ?_
    split
    · exact reports_raise (by simp)
    · split
      · exact reports_raise (by simp)
      · exact reports_bind (ih _) fun _ => reports_bind (ih _) fun _ =>
          reports_bind (reports_modify fun s => ⟨⟨rfl, rfl, rfl⟩, rfl, rfl⟩) fun _ => reports_pure _
    · refine reports_bind (reports_readIn h 9) fun v => ?_
      split
      · exact reports_raise (by simp)
      · split
        · exact reports_raise (by simp)
        · exact reports_bind (reports_modify fun s => ⟨⟨rfl, rfl, rfl⟩, rfl, rfl⟩) fun _ => reports_pure _

theorem reports_deserialize (h : .inRead ∈ subs) : deserializeBody.Reports subs := by
  refine reports_nodesLostOnError (reports_bind (reports_modify fun s => ⟨⟨rfl, rfl, rfl⟩, rfl, rfl⟩) fun _ =>
    reports_bind (reports_parse h _ _) fun q => reports_bind reports_get fun s => ?_)
  split
  · exact reports_raise (by simp)
  · exact reports_modify fun s => ⟨⟨rfl, rfl, rfl⟩, rfl, rfl⟩

theorem reports_encodeCode (h : .outWrite ∈ subs) (sym : Nat) : (encodeCode sym).Reports subs := by
  refine reports_bind reports_get fun s => ?_
  dsimp only
  split
  · exact reports_writeAll h _
  · exact reports_raise (by simp)

theorem reports_encodePayload (h : .inRead ∈ subs) (h' : .outWrite ∈ subs) : encodePayloadBody.Reports subs := by
  have loop : ∀ k, (encodeLoop k).Reports subs := by
    intro k
    induction k with
    | zero => exact reports_stuck _
    | succ k ih =>
      refine reports_bind (reports_readIn h 8) fun r => ?_
      cases r with
      | none => exact reports_pure _
      | some b => exact reports_bind (reports_encodeCode h' b) fun _ => ih
  exact reports_bind reports_get fun _ => reports_bind (loop _) fun _ => reports_encodeCode h' _

theorem reports_walk (h : .inRead ∈ subs) : walk.Reports subs := by
  have walkFrom : ∀ k c, (walkFrom k c).Reports subs := by
    intro k
    induction k with
    | zero =>
      intro c
      unfold walkFrom
      refine reports_bind reports_get fun s => ?_
      split
      · exact reports_stuck _
      · exact reports_pure _
      · exact reports_stuck _
    | succ k ih =>
      intro c
      unfold walkFrom
      refine reports_bind reports_get fun s => ?_
      split
      · exact reports_stuck _
      · exact reports_pure _
      · refine reports_bind (reports_readIn h 1) fun r => ?_
        split
        · exact reports_raise (by simp)
        · exact ih _
        · exact ih _
  exact reports_bind reports_get fun _ => walkFrom _ _

theorem reports_decodeSymbol (h : .inRead ∈ subs) : decodeSymbolBody.Reports subs :=
  reports_bind (reports_modify fun _ => ⟨⟨rfl, rfl, rfl⟩, rfl, rfl⟩) fun _ => reports_bind (reports_walk h) fun _ =>
    reports_modify fun _ => ⟨⟨rfl, rfl, rfl⟩, rfl, rfl⟩

theorem reports_decodePayload (h : .inRead ∈ subs) (h' : .outWrite ∈ subs) : decodePayloadBody.Reports subs := by
  have loop : ∀ k, (decodeLoop k).Reports subs := by
    intro k
    induction k with
    | zero => exact reports_stuck _
    | succ k ih =>
      refine reports_bind (reports_walk h) fun sym => ?_
      split
      · exact reports_modify fun s => ⟨⟨rfl, rfl, rfl⟩, rfl, rfl⟩
      · exact reports_bind (reports_writeOut h' _ _) fun _ => ih
  exact reports_bind (reports_modify fun s => ⟨⟨rfl, rfl, rfl⟩, rfl, rfl⟩) fun _ => reports_bind reports_get fun _ =>
    loop _

end

/-! ## From a body to its command -/

/-- The command ended without meeting the failure, and reports none. -/
def Unmet (code : Word) (rest before : List IoDraw) (s t : State) : Prop :=
  (∃ left, left <:+ before ∧ t.io = left ++ .fail code :: rest) ∧
    ∀ sub info op, ¬ FailedWith (.ioError sub) info op s t

theorem Unlogged.failed {s u : State} (h : Unlogged s u) (e : Err) (info : Word) (op : Opcode) :
    FailedWith e info op s (u.raise e info op) :=
  ⟨rfl, rfl, rfl, rfl, rfl, by rw [← h.log, ← h.cmd]; rfl⟩

theorem unmet_complete {code : Word} {rest before left : List IoDraw} {s u : State} (hl : left <:+ before)
    (hio : u.io = left ++ .fail code :: rest) : Unmet code rest before s u.complete := by
  refine ⟨⟨left, hl, hio⟩, fun sub info op h => ?_⟩
  have hlog : u.log ++ [{ cmd := u.cmd, err := none, info := 0#32, op := 0#8 }] = _ := h.2.2.2.2.2
  have := (List.append_inj' hlog rfl).2
  simp at this

theorem unmet_raise {code : Word} {rest before left : List IoDraw} {s u : State} {e : Err} (hl : left <:+ before)
    (hio : u.io = left ++ .fail code :: rest) (he : ∀ sub, e ≠ .ioError sub) (info : Word) (op : Opcode) :
    Unmet code rest before s (u.raise e info op) := by
  refine ⟨⟨left, hl, hio⟩, fun sub info' op' h => ?_⟩
  have : some e = some (.ioError sub) := h.2.2.1
  exact he sub (Option.some.inj this)

/-- Every way a primitive command whose body reports failures ends when one is drawn. -/
theorem runCommand_reports {subs : List IoSub} {op : Opcode} {body : Body Unit} {code : Word}
    {rest before : List IoDraw} {s t : State} (hb : body.Reports subs) (hs : Failing code rest before s)
    (h : runCommand op body s = .next t) : t.inCh.bits = s.inCh.bits ∧ (Unmet code rest before s t ∨
      (t.io = rest ∧ t.outCh.closed = false ∧ ∃ sub ∈ subs, FailedWith (.ioError sub) code op s t)) := by
  have hr := hb code rest before s hs
  obtain ⟨u, hu, rfl⟩ | ⟨e, info, u, hu, rfl⟩ | ⟨u, hu, rfl⟩ := runCommand_next h <;> rw [hu] at hr
  · obtain ⟨left, hl, hw⟩ := hr.2
    exact ⟨hr.1.in_bits, .inl (unmet_complete hl hw.io)⟩
  · refine ⟨hr.1.in_bits, ?_⟩
    obtain ⟨⟨left, hl, hw⟩, he⟩ | ⟨h1, h2, rfl, sub, h3, rfl⟩ := hr.2
    · exact .inl (unmet_raise hl hw.io he _ _)
    · exact .inr ⟨h1, h2, sub, h3, hr.1.failed _ _ _⟩
  · exact absurd hr id

/-- The same for CLOSE_OUTPUT. -/
theorem runClose_reports {code : Word} {rest before : List IoDraw} {s t : State} (hs : Failing code rest before s)
    (h : runCommand closeOutputOp closeOutputBody s = .next t) :
    t.inCh.bits = s.inCh.bits ∧ (Unmet code rest before s t ∨
      (t.io = rest ∧ t.outCh.closed = false ∧ FailedWith (.ioError .outClose) code closeOutputOp s t)) := by
  obtain ⟨u, left, hu, hk, hl, hio⟩ | hu := closeOutput_reports hs
  · rw [runCommand_ok hu] at h
    cases h
    exact ⟨hk.in_bits, .inl (unmet_complete hl hio)⟩
  · rw [runCommand_raised hu] at h
    cases h
    exact ⟨rfl, .inr ⟨rfl, hs.isOpen, ⟨rfl, rfl, rfl, rfl, rfl, rfl⟩⟩⟩

/-- The error path when the failure is still to come: its close passes, or meets it. -/
theorem errorPath_waits {op : Opcode} {e : Err} {info code : Word} {rest before : List IoDraw} {s t : State}
    (hs : Failing code rest before s) (hop : op ≠ closeOutputOp) (he : ∀ sub, e ≠ .ioError sub)
    (h : errorPath op e info s = .next t) : t.inCh.bits = s.inCh.bits ∧ ∃ u, t = u.raise e info op ∧ Unlogged s u ∧
      (Unmet code rest before s t ∨ (t.io = rest ∧ t.status.closeFailed = true)) := by
  have hopen := hs.isOpen
  unfold errorPath at h
  rw [if_neg hop] at h
  obtain ⟨b, rfl, hio⟩ | ⟨rfl, hio⟩ := hs.cases
  · simp only [outClose, hio, hopen] at h
    cases h
    exact ⟨rfl, _, rfl, ⟨rfl, rfl, rfl⟩, .inl (unmet_raise (List.suffix_cons _ _) rfl he _ _)⟩
  · simp only [outClose, hio, hopen] at h
    cases h
    exact ⟨rfl, _, rfl, ⟨rfl, rfl, rfl⟩, .inr ⟨rfl, rfl⟩⟩

/-- The error path after the failure: its close takes the next draw. -/
theorem errorPath_met {op : Opcode} {e : Err} {info : Word} {s t : State} (hn : s.noReset)
    (ho : s.outCh.closed = false) (hop : op ≠ closeOutputOp) (h : errorPath op e info s = .next t) :
    t.inCh.bits = s.inCh.bits ∧ ∃ u, t = u.raise e info op ∧ Unlogged s u ∧ t.io = s.io.tail := by
  unfold errorPath at h
  rw [if_neg hop] at h
  cases hio : s.io with
  | nil =>
    simp only [outClose, hio, ho] at h
    cases h
    exact ⟨rfl, _, rfl, ⟨rfl, rfl, rfl⟩, rfl⟩
  | cons d io =>
    cases d with
    | pass =>
      simp only [outClose, hio, ho] at h
      cases h
      exact ⟨rfl, _, rfl, ⟨rfl, rfl, rfl⟩, rfl⟩
    | fail c =>
      simp only [outClose, hio, ho] at h
      cases h
      exact ⟨rfl, _, rfl, ⟨rfl, rfl, rfl⟩, rfl⟩
    | reset => exact absurd rfl (hn .reset (by simp [hio]))

/-- Every way a macro command ends when a failure is drawn: before it; with it, reported with the step's opcode; or
with another error, the failure met by the error path's close. -/
theorem runSteps_reports {steps : List (Opcode × Body Unit)} {subs : List (Opcode × IoSub)} {code : Word}
    {rest before : List IoDraw} {s t : State} (hrest : ∀ d ∈ rest, d ≠ .reset)
    (hb : ∀ b ∈ steps, b.1 ≠ closeOutputOp ∧ ∃ l, b.2.Reports l ∧ ∀ sub ∈ l, (b.1, sub) ∈ subs)
    (hclose : (closeOutputOp, .outClose) ∈ subs) (hs : Failing code rest before s)
    (h : runSteps (steps ++ [(closeOutputOp, closeOutputBody)]) s = .next t) :
    t.inCh.bits = s.inCh.bits ∧ (Unmet code rest before s t ∨
      (∃ p ∈ subs, FailedWith (.ioError p.2) code p.1 s t ∧
        t.io = if p.1 = closeOutputOp then rest else rest.tail) ∨
      (t.io = rest ∧ t.status.closeFailed = true ∧
        ∃ e info op, FailedWith e info op s t ∧ ∀ sub, e ≠ .ioError sub)) := by
  induction steps generalizing before s with
  | nil =>
    obtain ⟨u, left, hu, hk, hl, hio⟩ | hu := closeOutput_reports hs
    · rw [List.nil_append, runSteps_ok hu, runSteps_nil] at h
      cases h
      exact ⟨hk.in_bits, .inl (unmet_complete hl hio)⟩
    · rw [List.nil_append, runSteps_raised hu, errorPath, if_pos rfl] at h
      cases h
      exact ⟨rfl, .inr (.inl ⟨_, hclose, ⟨rfl, rfl, rfl, rfl, rfl, rfl⟩, by rw [if_pos rfl]; rfl⟩)⟩
  | cons b steps ih =>
    obtain ⟨op, body⟩ := b
    obtain ⟨hop, l, hl, hsub⟩ := hb _ (List.mem_cons_self ..)
    have hr : Reported l code rest before s (body s) := hl code rest before s hs
    rw [List.cons_append] at h
    unfold runSteps at h
    split at h <;> rename_i hm <;> rw [hm] at hr
    · obtain ⟨hk, left, hle, hw⟩ := hr
      obtain ⟨h1, h2⟩ := ih (fun b hb' => hb b (List.mem_cons_of_mem _ hb')) hw h
      have failed : ∀ {e info op}, FailedWith e info op _ t → FailedWith e info op s t := fun {e info op} hf => by
        refine ⟨hf.1, hf.2.1, hf.2.2.1, hf.2.2.2.1, hf.2.2.2.2.1, ?_⟩
        rw [hf.2.2.2.2.2, hk.log, hk.cmd]
      refine ⟨h1.trans hk.in_bits, h2.imp (fun hn => ?_) (Or.imp ?_ ?_)⟩
      · obtain ⟨⟨l', hl', hio⟩, hne⟩ := hn
        refine ⟨⟨l', hl'.trans hle, hio⟩, fun sub info op hf => hne sub info op ?_⟩
        refine ⟨hf.1, hf.2.1, hf.2.2.1, hf.2.2.2.1, hf.2.2.2.2.1, ?_⟩
        rw [hf.2.2.2.2.2, hk.log, hk.cmd]
      · rintro ⟨p, hp, hf, hio⟩
        exact ⟨p, hp, failed hf, hio⟩
      · rintro ⟨hio, hcf, e, info, op, hf, he⟩
        exact ⟨hio, hcf, e, info, op, failed hf, he⟩
    · rename_i e info u
      obtain ⟨hk, ⟨⟨left, hle, hw⟩, he⟩ | ⟨h1, h2, rfl, sub, h3, rfl⟩⟩ := hr
      · obtain ⟨hin, v, rfl, hv, hun | ⟨hio, hcf⟩⟩ := errorPath_waits hw hop he h
        · obtain ⟨⟨l', hl', hio⟩, -⟩ := hun
          exact ⟨hin.trans hk.in_bits, .inl (unmet_raise (u := v) (hl'.trans hle) hio he _ _)⟩
        · exact ⟨hin.trans hk.in_bits, .inr (.inr ⟨hio, hcf, e, info, op, (hk.trans hv).failed _ _ _, he⟩)⟩
      · obtain ⟨hin, v, rfl, hv, hio⟩ := errorPath_met (fun d hd => hrest d (by rw [h1] at hd; exact hd)) h2 hop h
        refine ⟨hin.trans hk.in_bits, .inr (.inl ⟨(op, sub), hsub sub h3, (hk.trans hv).failed _ _ _, ?_⟩)⟩
        rw [if_neg hop, hio, h1]
    · cases h
    · exact absurd hr id

end Sys2Proof.Machine
end

