-- ==== Sys2Proof/Laws/Invariant.lean ====
section
/-! SUPPORT. Command bodies from states that have the invariant, whatever the channels do: they keep it, and none is
stuck (10_state R125, 40_control R408). -/

namespace Sys2Proof.Machine

variable {α β : Type}

/-- The clauses of the invariant that are about the tables, the flags and IN (10_state R125, R140). -/
structure Sound (s : State) : Prop where
  eos_counted : s.freqAt 256 ≠ 0#32
  tree_complete : s.status.treeValid = true → CompleteTree s
  codes_need_tree : s.status.codesValid = true → s.status.treeValid = true
  codes_current : s.status.codesValid = true → CodesCurrent s
  in_pos_le : s.inCh.pos ≤ s.inCh.bits.length

/-- Sound, with a tree in NODE. -/
def SoundTree (s : State) : Prop := Sound s ∧ s.status.treeValid = true

/-- Sound, with no tree and no codes. -/
def SoundBare (s : State) : Prop := Sound s ∧ s.status.treeValid = false ∧ s.status.codesValid = false

theorem CompleteTree.congr {s t : State} (h : CompleteTree s) (hn : t.nodes = s.nodes)
    (hc : t.nodeCount = s.nodeCount) (hl : t.leafCount = s.leafCount) : CompleteTree t := by
  have hr : t.root = s.root := by unfold State.root; rw [hc]
  exact ⟨hl ▸ h.leafCount_pos, hl ▸ h.leafCount_le, hc ▸ hl ▸ h.nodeCount_eq, hc ▸ hn ▸ h.children_below,
    hc ▸ hn ▸ h.one_parent, hc ▸ hn ▸ h.symbols_ok, hr ▸ hn ▸ h.root_ok⟩

theorem CodesCurrent.congr {s t : State} (h : CodesCurrent s) (hn : t.nodes = s.nodes)
    (hc : t.nodeCount = s.nodeCount) (hk : t.codes = s.codes) : CodesCurrent t := by
  have ht : t.tree = s.tree := by unfold State.tree State.root; rw [hn, hc]
  intro T hT sym hsym
  have := h T (ht ▸ hT) sym hsym
  unfold State.codeAt at this ⊢
  rw [hk]
  exact this

/-- A change of none of what `Sound` speaks of keeps it. -/
theorem Sound.congr {s t : State} (h : Sound s) (hf : t.freq = s.freq) (hn : t.nodes = s.nodes)
    (hc : t.nodeCount = s.nodeCount) (hl : t.leafCount = s.leafCount) (hk : t.codes = s.codes)
    (htv : t.status.treeValid = s.status.treeValid) (hcv : t.status.codesValid = s.status.codesValid)
    (hp : t.inCh.pos ≤ t.inCh.bits.length) : Sound t where
  eos_counted := by have := h.eos_counted; unfold State.freqAt at this ⊢; rw [hf]; exact this
  tree_complete := fun hv => (h.tree_complete (htv ▸ hv)).congr hn hc hl
  codes_need_tree := fun hv => htv ▸ h.codes_need_tree (hcv ▸ hv)
  codes_current := fun hv => (h.codes_current (hcv ▸ hv)).congr hn hc hk
  in_pos_le := hp

/-- A state with no tree and no codes is sound when END_OF_STREAM has a count and IN's position is in range. -/
theorem soundBare {s : State} (he : s.freqAt 256 ≠ 0#32) (ht : s.status.treeValid = false)
    (hc : s.status.codesValid = false) (hp : s.inCh.pos ≤ s.inCh.bits.length) : SoundBare s :=
  ⟨⟨he, fun h => absurd (ht.symm.trans h) (by decide), fun h => absurd (hc.symm.trans h) (by decide),
    fun h => absurd (hc.symm.trans h) (by decide), hp⟩, ht, hc⟩

theorem ChannelStep.sound {s t : State} (h : ChannelStep s t) (hs : Sound s) : Sound t := by
  have hp := h.in_pos hs.in_pos_le
  have e : ∃ inCh outCh io draws, t = { s with inCh := inCh, outCh := outCh, io := io, draws := draws } :=
    ⟨_, _, _, _, h.only⟩
  obtain ⟨inCh, outCh, io, draws, rfl⟩ := e
  exact hs.congr rfl rfl rfl rfl rfl rfl rfl hp

theorem ChannelStep.status {s t : State} (h : ChannelStep s t) : t.status = s.status := by rw [h.only]

theorem closed_sound : Closed Sound (fun _ => True) true true where
  reads := fun _ {_ _} h _ hs => h.sound hs
  writes := fun _ {_ _} h _ hs => h.sound hs
  raised := fun _ _ => trivial
  stuck := fun _ => trivial
  cut := fun _ _ => trivial

theorem closed_soundTree : Closed SoundTree (fun _ => True) true true where
  reads := fun _ {_ _} h _ hs => ⟨h.sound hs.1, by rw [h.status]; exact hs.2⟩
  writes := fun _ {_ _} h _ hs => ⟨h.sound hs.1, by rw [h.status]; exact hs.2⟩
  raised := fun _ _ => trivial
  stuck := fun _ => trivial
  cut := fun _ _ => trivial

theorem closed_soundBare : Closed SoundBare (fun _ => True) true true where
  reads := fun _ {_ _} h _ hs => ⟨h.sound hs.1, by rw [h.status]; exact hs.2⟩
  writes := fun _ {_ _} h _ hs => ⟨h.sound hs.1, by rw [h.status]; exact hs.2⟩
  raised := fun _ _ => trivial
  stuck := fun _ => trivial
  cut := fun _ _ => trivial

/-! ## Bodies that are never stuck -/

/-- From this state the body ends, in success, in an error or at a hardware reset. -/
def Body.Ends (m : Body α) (s : State) : Prop := ∀ f t, m s ≠ .error (.stuck f) t

theorem ends_bind {m : Body α} {f : α → Body β} {s : State} (hm : m.Ends s) (hf : ∀ a t, m s = .ok a t → (f a).Ends t) :
    (m >>= f).Ends s := by
  intro x u h
  rw [Body.bind_apply] at h
  cases hms : m s with
  | ok a t => rw [hms] at h; exact hf a t hms x u h
  | error e t => rw [hms] at h; cases h; exact hm x _ hms

theorem ends_pure (a : α) (s : State) : (pure a : Body α).Ends s := fun _ _ h => by cases h

theorem ends_get (s : State) : (get : Body State).Ends s := fun _ _ h => by cases h

theorem ends_modify (g : State → State) (s : State) : (modify g : Body Unit).Ends s := fun _ _ h => by cases h

theorem ends_raise (e : Err) (info : Word) (s : State) : (raise e info : Body α).Ends s := fun _ _ h => by cases h

theorem ends_checkIo (sub : IoSub) (r : IoReply) (s : State) : (checkIo sub r).Ends s := by
  cases r
  · exact ends_pure _ _
  · exact ends_raise _ _ _

theorem ends_of_cut {m : Body α} {s : State} (h : ∀ {e t}, m s = .error e t → e = .cut ∧ ¬ s.noReset) : m.Ends s :=
  fun _ _ hm => by cases (h hm).1

theorem ends_readIn (n : Nat) (s : State) : (readIn n).Ends s := by
  refine ends_bind (ends_of_cut inRead_error) fun r t _ => ?_
  cases r
  · exact ends_pure _ _
  · exact ends_pure _ _
  · exact ends_raise _ _ _

theorem ends_writeOut (n v : Nat) (s : State) : (writeOut n v).Ends s :=
  ends_bind (ends_of_cut outWrite_error) fun _ _ _ => ends_checkIo _ _ _

theorem ends_writeAll (ws : List (Nat × Nat)) (s : State) : (writeAll ws).Ends s := by
  induction ws generalizing s with
  | nil => exact ends_pure _ _
  | cons w ws ih => exact ends_bind (ends_writeOut _ _ _) fun _ t _ => ih t

theorem ends_rewind (s : State) : rewindBody.Ends s :=
  ends_bind (ends_of_cut inReset_error) fun _ _ _ => ends_checkIo _ _ _

theorem ends_closeOutput (s : State) : closeOutputBody.Ends s :=
  ends_bind (ends_of_cut outClose_error) fun _ _ _ => ends_checkIo _ _ _

theorem ends_writeMagic (s : State) : writeMagicBody.Ends s :=
  ends_bind (ends_get s) fun _ _ _ => ends_writeOut _ _ _

theorem ends_checkMagic (s : State) : checkMagicBody.Ends s := by
  refine ends_bind (ends_readIn _ _) fun r t _ => ?_
  cases r with
  | none => exact ends_bind (ends_modify _ _) fun _ _ _ => ends_raise _ _ _
  | some v =>
    refine ends_bind (ends_get t) fun u w _ => ?_
    split
    · exact ends_pure _ _
    · exact ends_raise _ _ _

theorem ends_encodeCode (sym : Nat) (s : State) : (encodeCode sym).Ends s := by
  refine ends_bind (ends_get s) fun u t _ => ?_
  dsimp only
  split
  · exact ends_writeAll _ _
  · exact ends_raise _ _ _

/-! ## What a successful read says, whatever the channel may do -/

/-- A read that answered a value took the next bits of IN and changed nothing else. -/
theorem readIn_took {n v : Nat} {s t : State} (h : readIn n s = .ok (some v) t) :
    n ≤ s.inRest.length ∧ v = val (s.inRest.take n) ∧ t.inRest = s.inRest.drop n ∧
      ∃ io pos, t = { s with io := io, inCh := { s.inCh with pos := pos } } := by
  have key : ∀ (u : State), u.inCh = s.inCh → (u.readBits n).1 = .val v →
      n ≤ s.inRest.length ∧ v = val (s.inRest.take n) ∧ (u.readBits n).2.inRest = s.inRest.drop n ∧
      (u.readBits n).2 = { u with inCh := { s.inCh with pos := s.inCh.pos + n } } := by
    intro u hu hv
    unfold State.readBits at hv ⊢
    rw [hu] at hv ⊢
    split at hv
    · rename_i hle
      rw [if_pos hle]
      injection hv with hv
      refine ⟨?_, hv.symm, ?_, rfl⟩
      · rw [inRest_length, State.inLeft]; omega
      · simp [State.inRest, List.drop_drop]
    · split at hv <;> cases hv
  unfold readIn at h
  rw [Body.bind_apply] at h
  cases hr : inRead n s with
  | error e u => rw [hr] at h; cases h
  | ok r u =>
    rw [hr] at h
    cases r with
    | eof => cases h
    | ioErr e => cases h
    | val w =>
      cases h
      unfold inRead at hr
      split at hr
      · cases hr
      · cases hr
      · rename_i io hio
        injection hr with h1 h2
        obtain ⟨a, b, c, d⟩ := key { s with io := io } rfl h1
        rw [h2] at c d
        exact ⟨a, b, c, _, _, d⟩
      · injection hr with h1 h2
        obtain ⟨a, b, c, d⟩ := key s rfl h1
        rw [h2] at c d
        exact ⟨a, b, c, _, _, d⟩

/-! ## COUNT_FREQ and ENCODE_PAYLOAD -/

theorem ends_countLoop (k : Nat) {s : State} (hk : s.inRest.length / 8 < k) : (countLoop k).Ends s := by
  induction k generalizing s with
  | zero => omega
  | succ k ih =>
    unfold countLoop
    refine ends_bind (ends_readIn _ _) fun r t hr => ?_
    cases r with
    | none => exact ends_pure _ _
    | some b =>
      obtain ⟨h1, -, h2, -⟩ := readIn_took hr
      dsimp only
      refine ends_bind (ends_get t) fun u v hu => ?_
      cases hu
      split
      · exact ends_raise _ _ _
      · refine ends_bind (ends_modify _ _) fun _ w hw => ?_
        cases hw
        refine ih ?_
        show t.inRest.length / 8 < k
        rw [h2, List.length_drop]
        omega

theorem ends_countFreq (s : State) : countFreqBody.Ends s := by
  refine ends_bind (ends_modify _ _) fun _ t ht => ?_
  refine ends_bind (ends_get t) fun u v hu => ?_
  cases hu
  refine ends_countLoop _ ?_
  rw [inRest_length]
  exact Nat.lt_succ_self _

theorem ends_encodeLoop (k : Nat) {s : State} (hk : s.inRest.length / 8 < k) : (encodeLoop k).Ends s := by
  induction k generalizing s with
  | zero => omega
  | succ k ih =>
    unfold encodeLoop
    refine ends_bind (ends_readIn _ _) fun r t hr => ?_
    cases r with
    | none => exact ends_pure _ _
    | some b =>
      obtain ⟨h1, -, h2, -⟩ := readIn_took hr
      refine ends_bind (ends_encodeCode _ _) fun _ u hu => ih ?_
      have C : Closed (fun v => v.inCh = t.inCh) (fun _ => True) false true :=
        ⟨by simp, fun _ _ _ _ h h' => h.trans h', by simp, by simp, by simp⟩
      have hin : u.inCh = t.inCh := (holds_encodeCode C b t rfl).1 _ _ hu
      have : u.inRest = t.inRest := by unfold State.inRest; rw [hin]
      rw [this, h2, List.length_drop]
      omega

theorem ends_encodePayload (s : State) : encodePayloadBody.Ends s := by
  refine ends_bind (ends_get s) fun u t hu => ?_
  cases hu
  refine ends_bind (ends_encodeLoop _ ?_) fun _ _ _ => ends_encodeCode _ _
  rw [inRest_length]
  exact Nat.lt_succ_self _

/-! ## Bodies that traverse the tree -/

/-- A sound state with a valid tree holds an acceptable tree (10_state R125). -/
theorem CompleteTree.holds_tree {s : State} (h : CompleteTree s) : ∃ T, s.tree = some T ∧ T.acceptable := by
  have hc := h.arena.count
  have hl := HTree.leaves_eq (slotTree s.nodes (s.nodeCount.toNat - 1))
  have h1 := h.nodeCount_eq
  have h2 := h.leafCount_pos
  have h3 := h.leafCount_le
  have htree : s.tree = some (slotTree s.nodes (s.nodeCount.toNat - 1)) :=
    h.arena.treeAt_slot (i := s.nodeCount.toNat - 1) (by omega) (by omega)
  refine ⟨_, htree, fun q hq => ?_, by omega, fun sym he => ?_⟩
  · obtain ⟨j, w, hj, hn⟩ := treeAt_symbols h.arena (i := s.nodeCount.toNat - 1) (by omega) htree hq
    exact h.symbols_ok j hj _ w hn
  · unfold State.tree State.root at htree
    rw [he] at htree
    obtain ⟨k, hk⟩ : ∃ k, s.nodeCount.toNat = k + 1 := ⟨s.nodeCount.toNat - 1, by omega⟩
    rw [hk] at htree
    obtain ⟨sym', w, hn, e⟩ | ⟨w, l, r, tl, tr, hn, hl, hr, e⟩ := treeAt_cases htree
    · cases e; exact h.root_ok _ w (by unfold State.root; rw [hk]; exact hn)
    · cases e

theorem ends_genCodes {s : State} (h : SoundTree s) : genCodesBody.Ends s := by
  obtain ⟨T, ht, ha⟩ := (h.1.tree_complete h.2).holds_tree
  obtain ⟨u, hu, -⟩ := genCodesBody_codes ht ha.1
  intro f t hx
  rw [hu] at hx
  cases hx

theorem ends_serialize {s : State} (h : SoundTree s) : serializeBody.Ends s := by
  obtain ⟨T, ht, -⟩ := (h.1.tree_complete h.2).holds_tree
  obtain ⟨ws, hw, -⟩ := serWrites_tree ht
  refine ends_bind (ends_get s) fun u t hu => ?_
  cases hu
  rw [hw]
  exact ends_writeAll _ _

/-- The decode walk on a tree, whatever the channel does: it ends, and when it reaches a leaf it has taken at least
one bit unless the tree is a leaf, and changed nothing but IN's position and the draws of the environment. -/
theorem walkFrom_ends {f k i : Nat} {T : HTree} {s : State} (h : treeAt s.nodes f i = some T) (hk : s.inRest.length < k) :
    (walkFrom k i).Ends s ∧ ∀ sym t, walkFrom k i s = .ok sym t →
      (∃ io pos, t = { s with io := io, inCh := { s.inCh with pos := pos } }) ∧
      t.inRest.length ≤ s.inRest.length ∧ (T = .leaf sym ∨ t.inRest.length < s.inRest.length) := by
  induction f generalizing k i T s with
  | zero => cases h
  | succ f ih =>
    obtain ⟨sym, w, hn, rfl⟩ | ⟨w, l, r, tl, tr, hn, hl, hr, rfl⟩ := treeAt_cases h
    · have hw : walkFrom k i s = .ok sym s := by unfold walkFrom; simp [hn]
      constructor
      · intro x t hx; rw [hw] at hx; cases hx
      · intro sym' t hx; rw [hw] at hx; cases hx
        exact ⟨⟨_, _, rfl⟩, le_rfl, .inl rfl⟩
    · obtain ⟨k, rfl⟩ : ∃ m, k = m + 1 := ⟨k - 1, by omega⟩
      have hstep : walkFrom (k + 1) i s = (readIn 1 >>= fun b => match b with
          | none => raise .truncatedStream 0#32
          | some 0 => walkFrom k l.toNat
          | some _ => walkFrom k r.toNat) s := by
        rw [walkFrom, Body.bind_apply, Body.get_apply]
        simp only [hn] <;> rfl
      have ends : (walkFrom (k + 1) i).Ends s ↔ (readIn 1 >>= fun b => match b with
          | none => raise .truncatedStream 0#32
          | some 0 => walkFrom k l.toNat
          | some _ => walkFrom k r.toNat : Body (BitVec 9)).Ends s := by
        unfold Body.Ends; rw [hstep]
      have sub : ∀ (c : BitVec 10) (tc : HTree), treeAt s.nodes f c.toNat = some tc → ∀ v u, readIn 1 s = .ok (some v) u →
          (walkFrom k c.toNat).Ends u ∧ ∀ sym t, walkFrom k c.toNat u = .ok sym t →
            (∃ io pos, t = { s with io := io, inCh := { s.inCh with pos := pos } }) ∧
            t.inRest.length < s.inRest.length := by
        intro c tc hc v u hu
        obtain ⟨h1, -, h2, io, pos, rfl⟩ := readIn_took hu
        have hlen : ({ s with io := io, inCh := { s.inCh with pos := pos } } : State).inRest.length + 1 =
            s.inRest.length := by rw [h2, List.length_drop]; omega
        obtain ⟨e1, e2⟩ := ih (k := k) (i := c.toNat) (T := tc)
          (s := { s with io := io, inCh := { s.inCh with pos := pos } }) hc (by omega)
        refine ⟨e1, fun sym t ht => ?_⟩
        obtain ⟨⟨io', pos', rfl⟩, e4, -⟩ := e2 sym t ht
        exact ⟨⟨_, _, rfl⟩, by omega⟩
      constructor
      · rw [ends]
        refine ends_bind (ends_readIn _ _) fun b u hu => ?_
        split
        · exact ends_raise _ _ _
        · exact (sub l tl hl _ u hu).1
        · exact (sub r tr hr _ u hu).1
      · intro sym t hx
        rw [hstep, Body.bind_apply] at hx
        cases hu : readIn 1 s with
        | error e u => rw [hu] at hx; cases hx
        | ok b u =>
          rw [hu] at hx
          dsimp only at hx
          have fin : (∃ io pos, t = { s with io := io, inCh := { s.inCh with pos := pos } }) ∧
              t.inRest.length < s.inRest.length := by
            split at hx
            · cases hx
            · exact (sub l tl hl _ u hu).2 sym t hx
            · exact (sub r tr hr _ u hu).2 sym t hx
          exact ⟨fin.1, fin.2.le, .inr fin.2⟩

theorem walk_ends {T : HTree} {s : State} (h : s.tree = some T) :
    walk.Ends s ∧ ∀ sym t, walk s = .ok sym t →
      (∃ io pos, t = { s with io := io, inCh := { s.inCh with pos := pos } }) ∧
      (T = .leaf sym ∨ t.inRest.length < s.inRest.length) := by
  have hk : s.inRest.length < s.inLeft + 1 := by rw [inRest_length]; exact Nat.lt_succ_self _
  obtain ⟨e1, e2⟩ := walkFrom_ends (k := s.inLeft + 1) h hk
  have hw : walk s = walkFrom (s.inLeft + 1) s.root s := rfl
  constructor
  · intro f t hx; rw [hw] at hx; exact e1 f t hx
  · intro sym t hx
    rw [hw] at hx
    obtain ⟨a, -, b⟩ := e2 sym t hx
    exact ⟨a, b⟩

theorem ends_decodeSymbol {s : State} (h : SoundTree s) : decodeSymbolBody.Ends s := by
  obtain ⟨T, ht, -⟩ := (h.1.tree_complete h.2).holds_tree
  refine ends_bind (ends_modify _ _) fun _ t hx => ?_
  cases hx
  exact ends_bind (walk_ends (s := s.setEosSeen false) ht).1 fun _ _ _ => ends_modify _ _

theorem ends_decodeLoop (k : Nat) {T : HTree} {s : State} (ht : s.tree = some T)
    (hT : ∀ sym, T = .leaf sym → sym = 256#9) (hk : s.inRest.length < k) : (decodeLoop k).Ends s := by
  induction k generalizing s with
  | zero => omega
  | succ k ih =>
    unfold decodeLoop
    obtain ⟨e1, e2⟩ := walk_ends ht
    refine ends_bind e1 fun sym t hx => ?_
    obtain ⟨⟨io, pos, rfl⟩, e3⟩ := e2 sym t hx
    dsimp only
    split
    · exact ends_modify _ _
    · rename_i hne
      refine ends_bind (ends_writeOut _ _ _) fun _ v hv => ?_
      have hlt : ({ s with io := io, inCh := { s.inCh with pos := pos } } : State).inRest.length < s.inRest.length := by
        refine e3.resolve_left fun e => hne ?_
        rw [hT sym e]; rfl
      have C : Closed (fun v => v.inCh = { s.inCh with pos := pos } ∧ v.tree = some T) (fun _ => True) false true :=
        ⟨by simp, fun _ a b h h' p => ⟨h'.trans p.1, by rw [h.only]; exact p.2⟩, by simp, by simp, by simp⟩
      obtain ⟨hin, htv⟩ := (holds_writeOut C 8 sym.toNat
        ({ s with io := io, inCh := { s.inCh with pos := pos } } : State) ⟨rfl, ht⟩).1 _ _ hv
      refine ih htv ?_
      have : v.inRest = ({ s with io := io, inCh := { s.inCh with pos := pos } } : State).inRest := by
        unfold State.inRest; rw [hin]
      rw [this]
      omega

theorem ends_decodePayload {s : State} (h : SoundTree s) : decodePayloadBody.Ends s := by
  obtain ⟨T, ht, ha⟩ := (h.1.tree_complete h.2).holds_tree
  refine ends_bind (ends_modify _ _) fun _ t hx => ?_
  cases hx
  refine ends_bind (ends_get _) fun u v hu => ?_
  cases hu
  refine ends_decodeLoop _ (s := s.setEosSeen false) ht ha.2.2 ?_
  rw [inRest_length]
  exact Nat.lt_succ_self _

/-! ## DESERIALIZE_HEADER -/

/-- What `parse` has done when it answers, whatever the channel may do: it stored a tree with legal symbols in the next
slots, in completion order, and changed nothing else but IN's position and the draws of the environment. -/
theorem parse_ok (k : Nat) (c : ParseCount) {s u : State} {r : Nat} {c' : ParseCount}
    (h : parse k c s = .ok (r, c') u) :
    ∃ T : HTree, (∀ q ∈ T.paths, q.1.toNat ≤ 256) ∧ r = c.n + T.size - 1 ∧
      c' = ⟨c.n + T.size, c.internals + T.internals, c.leaves + T.leaves⟩ ∧
      (T.internals = 0 ∨ c.internals + T.internals ≤ 256) ∧
      (∃ io pos nodes, u = { s with io := io, inCh := { s.inCh with pos := pos }, nodes := nodes }) ∧
      (c.n + T.size ≤ 513 → ∀ j, j < 513 → u.nodes[j]? = storedAt s.nodes c.n (T.slots c.n) j) := by
  induction k generalizing c s u r c' with
  | zero => cases h
  | succ k ih =>
    rw [parse_succ, Body.bind_apply] at h
    cases hb : readIn 1 s with
    | error e t => rw [hb] at h; cases h
    | ok b t =>
      rw [hb] at h
      dsimp only at h
      split at h
      · cases h
      · obtain ⟨-, -, -, io, pos, rfl⟩ := readIn_took hb
        split at h
        · cases h
        · rename_i hcap
          simp only [Config.maxInternal] at hcap
          rw [Body.bind_apply] at h
          cases hl : parse k { c with internals := c.internals + 1 }
              { s with io := io, inCh := { s.inCh with pos := pos } } with
          | error e t => rw [hl] at h; cases h
          | ok p tl =>
            rw [hl] at h
            obtain ⟨rl, cl⟩ := p
            obtain ⟨L, L1, L2, L3, L4, ⟨io1, pos1, nodes1, rfl⟩, L6⟩ := ih _ hl
            dsimp only at h
            rw [Body.bind_apply] at h
            cases hr : parse k cl { s with io := io1, inCh := { s.inCh with pos := pos1 }, nodes := nodes1 } with
            | error e t => rw [show parse k cl _ = _ from hr] at h; cases h
            | ok p tr =>
              rw [show parse k cl _ = _ from hr] at h
              obtain ⟨rr, cr⟩ := p
              obtain ⟨R, R1, R2, R3, R4, ⟨io2, pos2, nodes2, rfl⟩, R6⟩ := ih _ hr
              cases h
              subst L3 R3 L2 R2
              dsimp only at L4 L6 R4 R6 ⊢
              refine ⟨.node L R, ?_, ?_, ?_, ?_, ⟨io2, pos2, _, rfl⟩, fun hn j hj => ?_⟩
              · intro q hq
                rw [HTree.paths_node] at hq
                simp only [List.mem_append, List.mem_map] at hq
                obtain ⟨q, hq, rfl⟩ | ⟨q, hq, rfl⟩ := hq
                · exact L1 q hq
                · exact R1 q hq
              · rw [HTree.size_node]; omega
              · rw [HTree.size_node]
                simp only [HTree.internals, HTree.leaves, ParseCount.mk.injEq]
                omega
              · simp only [HTree.internals]; omega
              · rw [HTree.size_node] at hn
                have hls := L.size_pos
                have hrs := R.size_pos
                have e1 : ∀ j, j < 513 → nodes1[j]? = storedAt s.nodes c.n (L.slots c.n) j := L6 (by omega)
                have e2 : ∀ j, j < 513 → nodes2[j]? = storedAt nodes1 (c.n + L.size) (R.slots (c.n + L.size)) j :=
                  R6 (by omega)
                have e3 : ∀ j, j < 513 → nodes2[j]? =
                    storedAt s.nodes c.n (L.slots c.n ++ R.slots (c.n + L.size)) j := fun j hj => by
                  rw [e2 j hj]
                  have := storedAt_append (q := R.slots (c.n + L.size)) e1 hj
                  rw [HTree.length_slots] at this
                  exact this
                show (nodes2.setIfInBounds (c.n + L.size + R.size) _)[j]? = _
                rw [storedAt_one (by omega)]
                have := storedAt_append (q := [Node.internal 0#41 (BitVec.ofNat 10 (c.n + L.size - 1))
                  (BitVec.ofNat 10 (c.n + L.size + R.size - 1))]) e3 hj
                rw [List.length_append, HTree.length_slots, HTree.length_slots, ← Nat.add_assoc] at this
                exact this
      · obtain ⟨-, -, -, io, pos, rfl⟩ := readIn_took hb
        rw [Body.bind_apply] at h
        cases hv : readIn 9 { s with io := io, inCh := { s.inCh with pos := pos } } with
        | error e t => rw [hv] at h; cases h
        | ok v t =>
          rw [hv] at h
          dsimp only at h
          split at h
          · cases h
          · split at h
            · cases h
            · rename_i v hle
              obtain ⟨-, -, -, io1, pos1, rfl⟩ := readIn_took hv
              cases h
              have hv9 : (BitVec.ofNat 9 v).toNat = v := toNat_ofNat_lt (readIn_val hv)
              refine ⟨.leaf (BitVec.ofNat 9 v), ?_, ?_, ?_, .inl rfl, ⟨io1, pos1, _, rfl⟩, fun hn j hj => ?_⟩
              · intro q hq
                rw [HTree.paths, List.mem_singleton] at hq
                rw [hq]
                simp only [Config.endOfStream] at hle
                rw [hv9]; omega
              · rw [HTree.size_leaf]; omega
              · rfl
              · rw [HTree.size_leaf] at hn
                exact storedAt_one (by omega) j

theorem ends_parse (k : Nat) (c : ParseCount) (hk : 256 < c.internals + k) (hk' : 0 < k) (s : State) :
    (parse k c).Ends s := by
  induction k generalizing c s with
  | zero => omega
  | succ k ih =>
    rw [parse_succ]
    refine ends_bind (ends_readIn _ _) fun b t hb => ?_
    split
    · exact ends_raise _ _ _
    · split
      · exact ends_raise _ _ _
      · rename_i hcap
        simp only [Config.maxInternal] at hcap
        refine ends_bind (ih _ (by dsimp only; omega) (by omega) _) fun p u hu => ?_
        obtain ⟨L, -, -, L3, -⟩ := parse_ok k _ (r := p.1) (c' := p.2) hu
        refine ends_bind (ih _ (by rw [L3]; dsimp only; omega) (by omega) _) fun q v _ => ?_
        exact ends_bind (ends_modify _ _) fun _ _ _ => ends_pure _ _
    · refine ends_bind (ends_readIn _ _) fun v u _ => ?_
      split
      · exact ends_raise _ _ _
      · split
        · exact ends_raise _ _ _
        · exact ends_bind (ends_modify _ _) fun _ _ _ => ends_pure _ _

theorem ends_nodesLostOnError {m : Body Unit} {s : State} (h : m.Ends s) : (nodesLostOnError m).Ends s := by
  intro f t hx
  unfold nodesLostOnError at hx
  split at hx
  · cases hx
  · exact h f t hx

theorem ends_deserialize (s : State) : deserializeBody.Ends s := by
  refine ends_nodesLostOnError (ends_bind (ends_modify _ _) fun _ t _ => ?_)
  refine ends_bind (ends_parse _ _ (by decide) (by decide) _) fun p u _ => ?_
  refine ends_bind (ends_get _) fun v w _ => ?_
  split
  · exact ends_raise _ _ _
  · exact ends_modify _ _

theorem ends_buildTree {s : State} (h : s.freqAt 256 ≠ 0#32) : buildTreeBody.Ends s := by
  have hne : s.counted ≠ [] := List.ne_nil_of_mem ((mem_counted (by omega)).mpr h)
  obtain ⟨u, T, hu, -⟩ := buildTreeBody_builds hne
  intro f t hx
  rw [hu] at hx
  cases hx

/-- A tree that DESERIALIZE_HEADER stored with success is complete, whatever the channel did (10_state R125). -/
theorem deserializeBody_complete {s u : State} (h : deserializeBody s = .ok () u) :
    CompleteTree u ∧ u.status.treeValid = true ∧ u.status.codesValid = false ∧ u.freq = s.freq := by
  unfold deserializeBody nodesLostOnError at h
  split at h
  · cases h
  · simp only [Body.bind_apply, Body.modify_apply] at h
    cases hp : parse 257 ⟨0, 0, 0⟩ s.treeGone with
    | error e t => rw [hp] at h; cases h
    | ok p t =>
      rw [hp] at h
      obtain ⟨r, c⟩ := p
      obtain ⟨T, T1, T2, T3, T4, ⟨io, pos, nodes, rfl⟩, T6⟩ := parse_ok _ _ hp
      subst T2 T3
      dsimp only at T4 T6
      have hl := T.leaves_eq
      have hi : T.internals ≤ 256 := by omega
      have hsz : T.size ≤ 513 := by unfold HTree.size; omega
      have hslots : SlotsAt nodes 0 T := by
        intro j hj
        rw [Nat.zero_add]
        have := T6 (by omega) j (by omega)
        rw [this]
        unfold storedAt
        rw [if_neg (by omega), if_pos (by rw [HTree.length_slots]; omega)]
        rfl
      simp only [Body.get_apply, Nat.zero_add] at h
      have hroot : ∀ sym, T = .leaf sym → sym = 256#9 := by
        rintro sym rfl
        have h0 := hslots 0 (by rw [HTree.size_leaf]; omega)
        simp only [HTree.slots, Nat.zero_add, List.getElem?_cons_zero] at h0
        rw [HTree.size_leaf] at h
        simp only [Nat.sub_self, h0, badRootLeaf] at h
        by_contra hne
        have hne' : ¬ sym.toNat = Config.endOfStream := fun e => hne (BitVec.eq_of_toNat_eq e)
        simp only [if_neg hne'] at h
        cases h
      have ha : T.acceptable := ⟨T1, hi, hroot⟩
      rw [show badRootLeaf _ = none from badRootLeaf_acceptable ha hslots] at h
      cases h
      have hc : CompleteTree (State.treeDone
          { s.treeGone with io := io, inCh := { s.treeGone.inCh with pos := pos }, nodes := nodes } T.size T.leaves) :=
        (completeTree_of_slots ha hslots (toNat_ofNat_lt (by omega)) (toNat_ofNat_lt (by omega))).1
      exact ⟨hc, rfl, rfl, rfl⟩

/-! ## Bodies keep the invariant -/

/-- From every state with `P` the body ends, in success with `Q`, and in an error or at a hardware reset sound. -/
def Body.Runs (P Q : State → Prop) (m : Body α) : Prop :=
  ∀ s, P s → m.Ends s ∧ (∀ a t, m s = .ok a t → Q t) ∧ ∀ e t, m s = .error e t → Sound t

theorem runs_of_holds {P : State → Prop} {E : Stop → Prop} {m : Body α} (h : m.Holds P E) (hP : ∀ s, P s → Sound s)
    (he : ∀ s, P s → m.Ends s) : m.Runs P P := fun s hs =>
  ⟨he s hs, (h s hs).1, fun e t ht => hP t ((h s hs).2 e t ht).1⟩

theorem runs_bind {P Q R : State → Prop} {m : Body α} {f : α → Body β} (hm : m.Runs P Q)
    (hf : ∀ a, (f a).Runs Q R) : (m >>= f).Runs P R := by
  intro s hs
  obtain ⟨h1, h2, h3⟩ := hm s hs
  refine ⟨ends_bind h1 fun a t ht => (hf a t (h2 a t ht)).1, fun b u hu => ?_, fun e u hu => ?_⟩
  · rw [Body.bind_apply] at hu
    cases hms : m s with
    | ok a t => rw [hms] at hu; exact (hf a t (h2 a t hms)).2.1 b u hu
    | error e t => rw [hms] at hu; cases hu
  · rw [Body.bind_apply] at hu
    cases hms : m s with
    | ok a t => rw [hms] at hu; exact (hf a t (h2 a t hms)).2.2 e u hu
    | error e' t => rw [hms] at hu; cases hu; exact h3 _ _ hms

/-- How a body runs from one state, when it is known to succeed there. -/
theorem runsFrom_ok {Q : State → Prop} {m : Body α} {a : α} {s u : State} (h : m s = .ok a u) (hq : Q u) :
    m.Ends s ∧ (∀ a t, m s = .ok a t → Q t) ∧ ∀ e t, m s = .error e t → Sound t := by
  unfold Body.Ends
  rw [h]
  exact ⟨by simp, fun _ _ k => (by cases k; exact hq), by simp⟩

/-- How a body runs from one state, when it is known to raise an error there. -/
theorem runsFrom_raised {Q : State → Prop} {m : Body α} {e : Err} {info : Word} {s u : State}
    (h : m s = .error (.raised e info) u) (hs : Sound u) :
    m.Ends s ∧ (∀ a t, m s = .ok a t → Q t) ∧ ∀ e t, m s = .error e t → Sound t := by
  unfold Body.Ends
  rw [h]
  exact ⟨by simp, by simp, fun _ _ k => (by cases k; exact hs)⟩

theorem resetFreq_eos (s : State) : ({ s with freq := resetFreq } : State).freqAt 256 ≠ 0#32 := by
  rw [show ({ s with freq := resetFreq } : State).freqAt 256 = _ from resetFreq_get 256]
  decide

theorem freqAt_other {s : State} {i : Nat} (c : Word) (h : i < 257) (hi : i ≠ 256) : (s.setFreq i c).freqAt 256 = s.freqAt 256 := by
  rw [freqAt_setFreq _ _ _ _ h, if_neg (Ne.symm hi)]

theorem runs_countFreq : countFreqBody.Runs Sound Sound := by
  have start : ∀ s, Sound s → SoundBare { s.invalidateTree with freq := resetFreq } := fun s hs =>
    soundBare (resetFreq_eos s.invalidateTree) rfl rfl hs.in_pos_le
  have count : ∀ k, (countLoop k).Holds SoundBare (fun _ => True) := holds_countLoop closed_soundBare
    fun s b hb _ hs => soundBare (by rw [freqAt_other _ (by omega) (by omega)]; exact hs.1.eos_counted) hs.2.1 hs.2.2
      hs.1.in_pos_le
  intro s hs
  have h := holds_bind (f := fun s : State => countLoop (s.inLeft / 8 + 1)) holds_get (fun u => count _)
    { s.invalidateTree with freq := resetFreq } (start s hs)
  exact ⟨ends_countFreq s, fun a t ht => (h.1 a t ht).1, fun e t ht => (h.2 e t ht).1.1⟩

/-- WRITE_FREQ keeps END_OF_STREAM counted, since its legality check has refused a zero (30_encoding R302). -/
theorem runs_writeFreq (sym : Opnd) : (writeFreqBody sym).Runs
    (fun s => Sound s ∧ sym.toNat ≤ 256 ∧ ¬ (sym = 256#10 ∧ s.accArg = 0#32)) Sound := by
  rintro s ⟨hs, hle, hne⟩
  refine ⟨ends_modify _ _, fun _ t ht => ?_, fun _ _ ht => by cases ht⟩
  cases ht
  refine (soundBare (s := s.invalidateTree.setFreq (operandIndex sym) s.accArg) ?_ rfl rfl hs.in_pos_le).1
  by_cases h : sym.toNat = 256
  · have e : operandIndex sym = 256 := h
    rw [e, freqAt_setFreq _ _ _ _ (by decide), if_pos rfl]
    exact fun ha => hne ⟨BitVec.eq_of_toNat_eq h, ha⟩
  · have hlt : operandIndex sym < 257 := by show sym.toNat < 257; omega
    have hn : operandIndex sym ≠ 256 := h
    rw [freqAt_other _ hlt hn]
    exact hs.eos_counted

theorem runs_readFreq (sym : Opnd) : (readFreqBody sym).Runs Sound Sound :=
  runs_of_holds (E := fun _ => True) (holds_modify fun _ hs => hs.congr rfl rfl rfl rfl rfl rfl rfl hs.in_pos_le)
    (fun _ => id) fun _ _ => ends_modify _ _

theorem runs_buildTree : buildTreeBody.Runs Sound SoundTree := by
  intro s hs
  have hne : s.counted ≠ [] := List.ne_nil_of_mem ((mem_counted (by omega)).mpr hs.eos_counted)
  obtain ⟨u, T, hu, hb⟩ := buildTreeBody_builds hne
  refine ⟨ends_buildTree hs.eos_counted, fun a t ht => ?_, fun e t ht => ?_⟩
  · rw [hu] at ht
    cases ht
    refine ⟨⟨?_, fun _ => hb.complete hs.eos_counted, fun h => ?_, fun h => ?_, ?_⟩, hb.treeValid⟩
    · unfold State.freqAt; rw [hb.freq]; exact hs.eos_counted
    · rw [hb.codesValid] at h; cases h
    · rw [hb.codesValid] at h; cases h
    · rw [hb.channels.inCh]; exact hs.in_pos_le
  · rw [hu] at ht
    cases ht

theorem runs_requireTree : requireTree.Runs Sound SoundTree := by
  intro s hs
  have h := requireTree_apply s
  cases hv : s.status.treeValid <;> rw [hv] at h
  · exact runsFrom_raised h hs
  · exact runsFrom_ok h ⟨hs, hv⟩

theorem runs_requireCodes : requireCodes.Runs Sound Sound := by
  intro s hs
  have h := requireCodes_apply s
  cases hv : s.status.codesValid <;> rw [hv] at h
  · exact runsFrom_raised h hs
  · exact runsFrom_ok h hs

/-- READ_NODE after its tree prerequisite: a valid index is in the arena. -/
theorem runs_readNode (idx : Opnd) : (do requireIndex idx; readNodeBody idx : Body Unit).Runs SoundTree Sound := by
  rintro s ⟨hs, hv⟩
  have ht := hs.tree_complete hv
  have h1 := ht.nodeCount_eq
  have h2 := ht.leafCount_le
  by_cases hi : operandIndex idx < s.nodeCount.toNat
  · have hn : s.nodes[operandIndex idx]? = some (s.nodes[operandIndex idx]'(by omega)) :=
      Vector.getElem?_eq_getElem (by omega)
    have e : (do requireIndex idx; readNodeBody idx : Body Unit) s = readNodeBody idx s := by
      simp only [requireIndex, Body.bind_apply, Body.get_apply, decide_eq_true hi, require_true, Body.pure_apply]
    have e' : ∃ u, readNodeBody idx s = .ok () u ∧ Sound u := by
      unfold readNodeBody
      rw [Body.bind_apply, Body.get_apply]
      simp only [hn]
      exact ⟨_, rfl, hs.congr rfl rfl rfl rfl rfl rfl rfl hs.in_pos_le⟩
    obtain ⟨u, hu, hsu⟩ := e'
    exact runsFrom_ok (e.trans hu) hsu
  · have e : (do requireIndex idx; readNodeBody idx : Body Unit) s = .error (.raised (.notReady .badIndex) 0#32) s := by
      simp only [requireIndex, Body.bind_apply, Body.get_apply, decide_eq_false hi, require_false, raise_apply]
    exact runsFrom_raised e hs

theorem runs_genCodes : genCodesBody.Runs SoundTree SoundTree := by
  rintro s ⟨hs, hv⟩
  obtain ⟨T, ht, ha⟩ := (hs.tree_complete hv).holds_tree
  obtain ⟨u, hu, hc⟩ := genCodesBody_codes ht ha.1
  obtain ⟨hn, hcount, hl⟩ := hc.tree
  refine runsFrom_ok hu ⟨⟨?_, fun _ => (hs.tree_complete hv).congr hn hcount hl, fun _ => hc.treeValid.trans hv,
    fun _ T' hT' => ?_, ?_⟩, hc.treeValid.trans hv⟩
  · have := hs.eos_counted; unfold State.freqAt at this ⊢; rw [hc.freq]; exact this
  · have e : u.tree = s.tree := by unfold State.tree State.root; rw [hn, hcount]
    rw [e, ht] at hT'
    cases hT'
    exact hc.code
  · rw [hc.channels.inCh]; exact hs.in_pos_le

theorem runs_lookupCode (sym : Opnd) : (lookupCodeBody sym).Runs Sound Sound :=
  runs_of_holds (E := fun _ => True) (holds_modify fun _ hs => hs.congr rfl rfl rfl rfl rfl rfl rfl hs.in_pos_le)
    (fun _ => id) fun _ _ => ends_modify _ _

theorem runs_writeMagic : writeMagicBody.Runs Sound Sound ∧ writeMagicBody.Runs SoundTree SoundTree :=
  ⟨runs_of_holds (holds_writeMagic closed_sound) (fun _ => id) fun _ _ => ends_writeMagic _,
    runs_of_holds (holds_writeMagic closed_soundTree) (fun _ h => h.1) fun _ _ => ends_writeMagic _⟩

theorem runs_serialize : serializeBody.Runs SoundTree SoundTree :=
  runs_of_holds (holds_serialize closed_soundTree) (fun _ h => h.1) fun _ h => ends_serialize h

theorem runs_checkMagic : checkMagicBody.Runs Sound Sound :=
  runs_of_holds (holds_checkMagic closed_sound fun _ hs => hs.congr rfl rfl rfl rfl rfl rfl rfl hs.in_pos_le)
    (fun _ => id) fun _ _ => ends_checkMagic _

/-- The first body of DECOMPRESS (46_orchestration R730). -/
theorem runs_decompressMagic : decompressMagicBody.Runs Sound Sound :=
  runs_bind (Q := Sound) (fun s hs => ⟨ends_modify _ _, fun _ t ht => by
    cases ht
    exact ⟨hs.eos_counted, fun hv => (hs.tree_complete hv).congr rfl rfl rfl, (nomatch ·), (nomatch ·), hs.in_pos_le⟩,
    fun _ _ ht => by cases ht⟩) fun _ => runs_checkMagic

theorem runs_deserialize : deserializeBody.Runs Sound SoundTree := by
  have gone : ∀ s, Sound s → SoundBare s.treeGone := fun s hs => soundBare hs.eos_counted rfl rfl hs.in_pos_le
  have bare : ∀ (s : State) v d, SoundBare s → SoundBare { s with nodes := v, draws := d } :=
    fun s v d hs => soundBare hs.1.eos_counted hs.2.1 hs.2.2 hs.1.in_pos_le
  intro s hs
  refine ⟨ends_deserialize s, fun a t ht => ?_, fun e t ht => ?_⟩
  · obtain ⟨h1, h2, h3, h4⟩ := deserializeBody_complete ht
    have hp := (holds_deserialize (P := fun u => u.inCh.pos ≤ u.inCh.bits.length) (E := fun _ => True) (w := true)
      ⟨fun _ _ _ h _ hs => h.in_pos hs, fun _ _ _ h _ hs => h.in_pos hs, fun _ _ => trivial, fun _ => trivial,
        fun _ _ => trivial⟩ (fun _ _ _ h => h) (fun _ h => h) (fun _ h => h) (fun _ _ _ h => h) s hs.in_pos_le).1 a t ht
    refine ⟨⟨?_, fun _ => h1, fun h => ?_, fun h => ?_, hp⟩, h2⟩
    · unfold State.freqAt; rw [h4]; exact hs.eos_counted
    · rw [h3] at h; cases h
    · rw [h3] at h; cases h
  · have key : ∀ s, SoundBare s → ∀ e t, (parse 257 ⟨0, 0, 0⟩ >>= fun x => get >>= fun u =>
        match badRootLeaf u.nodes[x.1]? with
        | some sym => raise (.malformedHeader .rootLeaf) (sym.setWidth 32)
        | none => modify fun s => s.treeDone x.2.n x.2.leaves : Body Unit) s = .error e t → SoundBare t := by
      intro s hs e t h
      have hp := holds_parse closed_soundBare (fun s i nd hs => bare s _ _ hs) 257 ⟨0, 0, 0⟩ s hs
      rw [Body.bind_apply] at h
      cases hq : parse 257 ⟨0, 0, 0⟩ s with
      | error e' t' => rw [hq] at h; cases h; exact (hp.2 _ _ hq).1
      | ok x t' =>
        rw [hq] at h
        have := hp.1 _ _ hq
        simp only [Body.bind_apply, Body.get_apply] at h
        cases hbr : badRootLeaf t'.nodes[x.1]? with
        | some sym => rw [hbr] at h; cases h; exact this
        | none => rw [hbr] at h; cases h
    have hk := key s.treeGone (gone s hs)
    unfold deserializeBody nodesLostOnError at ht
    split at ht
    · rename_i hm
      cases ht
      have := hk _ _ hm
      exact (bare _ _ _ this).1
    · exact (hk e t ht).1

theorem runs_rewind : rewindBody.Runs Sound Sound ∧ rewindBody.Runs SoundTree SoundTree :=
  ⟨runs_of_holds (holds_rewind closed_sound) (fun _ => id) fun _ _ => ends_rewind _,
    runs_of_holds (holds_rewind closed_soundTree) (fun _ h => h.1) fun _ _ => ends_rewind _⟩

theorem runs_encodeCode (sym : Nat) : (encodeCode sym).Runs Sound Sound :=
  runs_of_holds (holds_encodeCode closed_sound sym) (fun _ => id) fun _ _ => ends_encodeCode _ _

theorem runs_encodePayload :
    encodePayloadBody.Runs Sound Sound ∧ encodePayloadBody.Runs SoundTree SoundTree :=
  ⟨runs_of_holds (holds_encodePayload closed_sound) (fun _ => id) fun _ _ => ends_encodePayload _,
    runs_of_holds (holds_encodePayload closed_soundTree) (fun _ h => h.1) fun _ _ => ends_encodePayload _⟩

theorem runs_closeOutput : closeOutputBody.Runs Sound Sound ∧ closeOutputBody.Runs SoundTree SoundTree :=
  ⟨runs_of_holds (holds_closeOutput closed_sound) (fun _ => id) fun _ _ => ends_closeOutput _,
    runs_of_holds (holds_closeOutput closed_soundTree) (fun _ h => h.1) fun _ _ => ends_closeOutput _⟩

theorem soundTree_setEosSeen (s : State) (b : Bool) (hs : SoundTree s) : SoundTree (s.setEosSeen b) :=
  ⟨hs.1.congr rfl rfl rfl rfl rfl rfl rfl hs.1.in_pos_le, hs.2⟩

theorem runs_decodeSymbol : decodeSymbolBody.Runs SoundTree SoundTree :=
  runs_of_holds (holds_decodeSymbol closed_soundTree soundTree_setEosSeen
    fun _ _ hs => ⟨hs.1.congr rfl rfl rfl rfl rfl rfl rfl hs.1.in_pos_le, hs.2⟩) (fun _ h => h.1)
    fun _ h => ends_decodeSymbol h

theorem runs_decodePayload : decodePayloadBody.Runs SoundTree SoundTree :=
  runs_of_holds (holds_decodePayload closed_soundTree soundTree_setEosSeen) (fun _ h => h.1)
    fun _ h => ends_decodePayload h

/-! ## Ends of a command keep the invariant -/

theorem sound_complete {s : State} (h : Sound s) : Sound s.complete :=
  h.congr rfl rfl rfl rfl rfl rfl rfl h.in_pos_le

theorem sound_raise {s : State} (h : Sound s) (e : Err) (info : Word) (op : Opcode) : Sound (s.raise e info op) :=
  h.congr rfl rfl rfl rfl rfl rfl rfl h.in_pos_le

theorem sound_hardReset {s : State} (h : s.inCh.pos ≤ s.inCh.bits.length) : Sound s.hardReset :=
  (soundBare (s := s.hardReset) (resetFreq_eos s.hardReset) rfl rfl h).1

/-- SOFT_RESET leaves END_OF_STREAM counted and no tree (40_control R411). -/
theorem runs_softReset : softResetBody.Runs Sound Sound := fun s hs =>
  ⟨ends_modify _ _, fun _ t ht => by
    cases ht
    exact ⟨resetFreq_eos s, (nomatch ·), (nomatch ·), (nomatch ·), hs.in_pos_le⟩, fun _ _ ht => by cases ht⟩

/-- A primitive command whose body runs reaches a sound next state. -/
theorem runCommand_sound {P Q : State → Prop} {op : Opcode} {body : Body Unit} (h : body.Runs P Q)
    (hQ : ∀ s, Q s → Sound s) {s : State} (hs : P s) : ∃ t, runCommand op body s = .next t ∧ Sound t := by
  obtain ⟨h1, h2, h3⟩ := h s hs
  cases hb : body s with
  | ok a t => exact ⟨_, runCommand_ok hb, sound_complete (hQ t (h2 a t hb))⟩
  | error e t =>
    have ht := h3 e t hb
    cases e with
    | raised e info => exact ⟨_, runCommand_raised hb, sound_raise ht _ _ _⟩
    | stuck f => exact absurd hb (h1 f t)
    | cut => exact ⟨_, runCommand_cut hb, sound_hardReset ht.in_pos_le⟩

/-- The error path of a macro command reaches a sound next state (46_orchestration R740). -/
theorem errorPath_sound {s : State} (h : Sound s) (op : Opcode) (e : Err) (info : Word) :
    ∃ t, errorPath op e info s = .next t ∧ Sound t := by
  have hs := outClose_step s
  unfold errorPath
  split
  · exact ⟨_, rfl, sound_raise h _ _ _⟩
  · cases hc : outClose s with
    | ok r t =>
      rw [hc] at hs
      have ht : Sound t := hs.sound h
      cases r with
      | ok => exact ⟨_, rfl, sound_raise ht _ _ _⟩
      | ioErr c => exact ⟨_, rfl, sound_raise (s := { t with status := { t.status with closeFailed := true } })
          (ht.congr rfl rfl rfl rfl rfl rfl rfl ht.in_pos_le) _ _ _⟩
    | error x t =>
      rw [hc] at hs
      obtain ⟨rfl, -⟩ := outClose_error hc
      exact ⟨_, rfl, sound_hardReset (hs.in_pos h.in_pos_le)⟩

theorem runSteps_nil_sound {s : State} (h : Sound s) : ∃ t, runSteps [] s = .next t ∧ Sound t :=
  ⟨_, rfl, sound_complete h⟩

/-- One body of a macro command, and then the rest of it. -/
theorem runSteps_cons_sound {P Q : State → Prop} {op : Opcode} {body : Body Unit} {rest : List (Opcode × Body Unit)}
    (h : body.Runs P Q) (hrest : ∀ s, Q s → ∃ t, runSteps rest s = .next t ∧ Sound t) {s : State} (hs : P s) :
    ∃ t, runSteps ((op, body) :: rest) s = .next t ∧ Sound t := by
  obtain ⟨h1, h2, h3⟩ := h s hs
  cases hb : body s with
  | ok a t => rw [runSteps_ok hb]; exact hrest t (h2 a t hb)
  | error e t =>
    have ht := h3 e t hb
    cases e with
    | raised e info => rw [runSteps_raised hb]; exact errorPath_sound ht _ _ _
    | stuck f => exact absurd hb (h1 f t)
    | cut => exact ⟨t.hardReset, by simp [runSteps, hb], sound_hardReset ht.in_pos_le⟩

end Sys2Proof.Machine
end

