-- ==== Sys2Proof/Laws/PerInstr.lean ====
section
/-! SUPPORT. One statement per command: the fields of its command word (30_encoding R300, R301, R320). -/

namespace Sys2Proof.Laws.EncodeFields

/-- The command word of `i` carries its opcode, a zero RSV field, and its operand. -/
def Statement (i : Instr) : Prop :=
  opcField (encode i) = i.opcode ∧ rsvField (encode i) = 0#14 ∧ opndField (encode i) = i.opnd

theorem all (i : Instr) : Statement i := ⟨opcField_encode i, rsvField_encode i, opndField_encode i⟩

theorem nop : Statement .nop := all _

theorem softReset : Statement .softReset := all _

theorem countFreq : Statement .countFreq := all _

theorem writeFreq (sym : Opnd) : Statement (.writeFreq sym) := all _

theorem readFreq (sym : Opnd) : Statement (.readFreq sym) := all _

theorem buildTree : Statement .buildTree := all _

theorem readNode (idx : Opnd) : Statement (.readNode idx) := all _

theorem genCodes : Statement .genCodes := all _

theorem lookupCode (sym : Opnd) : Statement (.lookupCode sym) := all _

theorem writeMagic : Statement .writeMagic := all _

theorem serializeHeader : Statement .serializeHeader := all _

theorem checkMagic : Statement .checkMagic := all _

theorem deserializeHeader : Statement .deserializeHeader := all _

theorem rewindInput : Statement .rewindInput := all _

theorem encodeSymbol (sym : Opnd) : Statement (.encodeSymbol sym) := all _

theorem encodePayload : Statement .encodePayload := all _

theorem closeOutput : Statement .closeOutput := all _

theorem decodeSymbol : Statement .decodeSymbol := all _

theorem decodePayload : Statement .decodePayload := all _

theorem compress : Statement .compress := all _

theorem decompress : Statement .decompress := all _

end Sys2Proof.Laws.EncodeFields
end

