-- ==== Sys2Proof/Laws/Step.lean ====
section
/-! SUPPORT. Everything one step can do. -/

namespace Sys2Proof.Machine

/-- The ways a step reaches a next state. -/
inductive StepTo (s : State) : State → Prop
  /-- BLOCK ran the accepted command to its end. -/
  | ran {t : State} (i : Instr) : s.status.busy = true → decode s.cmd = .ok i → exec i s = .next t →
      s.host = [] ∨ (∃ rest, s.host = .wait :: rest) → StepTo s t
  /-- BLOCK ran it, and a CMD write landed before the completion. -/
  | ranLate {u : State} (i : Instr) (v : Word) (rest : List HostOp) : s.status.busy = true → decode s.cmd = .ok i →
      exec i s = .next u → s.host = .writeCmdLate v :: rest →
      StepTo s { u with host := rest,
                        status := { u.status with cmdOverrun := u.status.cmdOverrun || u.status.done } }
  /-- The machine is idle. -/
  | idle : s.status.busy = false → StepTo s s
  /-- A CMD write was dropped. -/
  | dropped (op : HostOp) (rest : List HostOp) : s.status.busy = true → s.host = op :: rest → op ≠ .reset →
      StepTo s { s with host := rest, status := { s.status with cmdOverrun := true } }
  /-- A CMD write was taken. -/
  | taken (op : HostOp) (rest : List HostOp) (w : Word) : s.status.busy = false → s.host = op :: rest → op ≠ .reset →
      { s with host := rest }.brokenDuty w = none →
      StepTo s ({ s with host := rest }.takeCommand w)
  /-- ARG was written. -/
  | argWritten (op : HostOp) (rest : List HostOp) (v : Word) : s.host = op :: rest → op ≠ .reset →
      StepTo s { s with host := rest, arg := v }
  /-- The host's operation had no effect on the machine. -/
  | passed (op : HostOp) (rest : List HostOp) : s.host = op :: rest → op ≠ .reset → StepTo s { s with host := rest }
  /-- A register was read. -/
  | registerRead (op : HostOp) (rest : List HostOp) (reads : List ReadEntry) (draws : Nat) : s.host = op :: rest →
      op ≠ .reset → StepTo s { s with host := rest, readLog := reads, draws := draws }
  /-- The host set IN. -/
  | inSet (op : HostOp) (rest : List HostOp) (bits : Bits) (pos : Nat) : s.status.busy = false → s.host = op :: rest →
      op ≠ .reset → pos ≤ bits.length →
      StepTo s { s with host := rest, inCh := { bits := bits, pos := pos }, inLink := .connected }
  /-- The host released IN. -/
  | inReleased (op : HostOp) (rest : List HostOp) : s.status.busy = false → s.host = op :: rest → op ≠ .reset →
      StepTo s { s with host := rest }.releaseIn
  /-- The host read OUT. -/
  | outRead (op : HostOp) (rest : List HostOp) : s.status.busy = false → s.host = op :: rest → op ≠ .reset →
      StepTo s { s with host := rest }.readOut
  /-- The host set OUT. -/
  | outSet (op : HostOp) (rest : List HostOp) (bits : Bits) (closed : Bool) : s.status.busy = false →
      s.host = op :: rest → op ≠ .reset →
      StepTo s { s with host := rest, outCh := { bits := bits, closed := closed } }
  /-- Hardware reset. -/
  | wasReset (rest : List HostOp) : s.host = .reset :: rest → StepTo s { s with host := rest }.hardReset

/-- Which commands read IN does not depend on the host's program. -/
@[simp] theorem State.readsIn_host (s : State) (host : List HostOp) (i : Instr) :
    { s with host := host }.readsIn i = s.readsIn i := by cases i <;> rfl

@[simp] theorem State.brokenDuty_host (s : State) (host : List HostOp) (w : Word) :
    { s with host := host }.brokenDuty w = s.brokenDuty w := by
  simp only [State.brokenDuty, State.readsIn_host]

theorem runBlock_next {s t : State} (h : runBlock s = .next t) : ∃ i, decode s.cmd = .ok i ∧ exec i s = .next t := by
  unfold runBlock at h
  split at h
  · exact ⟨_, by assumption, h⟩
  · cases h

/-- A CMD write that is taken finds no host duty broken. -/
theorem issueCommand_next {w : Word} {s t : State} (h : issueCommand w s = .next t) :
    s.brokenDuty w = none ∧ t = s.takeCommand w := by
  unfold issueCommand at h
  split at h
  · cases h
  · cases h; exact ⟨by assumption, rfl⟩

/-- Everything one step can do. -/
theorem step_cases {s t : State} (h : step s = .next t) : StepTo s t := by
  unfold step at h
  split at h
  · rename_i hh
    split at h
    · obtain ⟨i, hd, he⟩ := runBlock_next h
      exact .ran i (by assumption) hd he (.inl hh)
    · cases h
      exact .idle (by simp_all)
  · rename_i op rest hh
    cases op with
    | write off bytes v =>
      simp only [hostTurn, hostWrite] at h
      split_ifs at h
      · unfold writeCmd at h
        split at h
        · cases h
          exact .dropped _ rest (by assumption) hh (by simp)
        · obtain ⟨hd, rfl⟩ := issueCommand_next h
          exact .taken _ rest v (by simp_all) hh (by simp) hd
      all_goals cases h
      · exact .argWritten _ rest v hh (by simp)
      · exact .passed _ rest hh (by simp)
    | read off bytes =>
      simp only [hostTurn, hostRead] at h
      split_ifs at h <;> cases h
      · exact .registerRead _ rest _ _ hh (by simp)
      · exact .registerRead _ rest _ s.draws hh (by simp)
    | wait =>
      simp only [hostTurn] at h
      split_ifs at h
      · obtain ⟨i, hd, he⟩ := runBlock_next h
        exact .ran i (by assumption) hd he (.inr ⟨rest, hh⟩)
      · cases h
        exact .passed _ rest hh (by simp)
      · cases h
        exact .idle (by simp_all)
    | writeCmdLate v =>
      simp only [hostTurn] at h
      split_ifs at h
      · unfold runBlockLate at h
        split at h <;> cases h
        obtain ⟨i, hd, he⟩ := runBlock_next (by assumption)
        exact .ranLate i v rest (by assumption) hd he hh
      · obtain ⟨hd, rfl⟩ := issueCommand_next h
        exact .taken _ rest v (by simp_all) hh (by simp) hd
    | setIn bits pos =>
      simp only [hostTurn, hostChannel] at h
      split_ifs at h
      cases h
      exact .inSet _ rest bits (min pos bits.length) (by simp_all) hh (by simp) (min_le_right _ _)
    | setOut bits closed =>
      simp only [hostTurn, hostChannel] at h
      split_ifs at h
      cases h
      exact .outSet _ rest bits closed (by simp_all) hh (by simp)
    | lookAtChannels =>
      simp only [hostTurn, hostChannel] at h
      split_ifs at h
      cases h
      exact .passed _ rest hh (by simp)
    | readOut =>
      simp only [hostTurn, hostChannel] at h
      split_ifs at h
      cases h
      exact .outRead _ rest (by simp_all) hh (by simp)
    | releaseIn =>
      simp only [hostTurn, hostChannel] at h
      split_ifs at h
      cases h
      exact .inReleased _ rest (by simp_all) hh (by simp)
    | reset =>
      cases h
      exact .wasReset rest hh

/-- Both ends of a word written to CMD while BUSY = 0 (40_control R400, R404). -/
theorem takeCommand_cases (s : State) (w : Word) :
    (∃ i, legalCommand s.arg w = .ok i ∧ s.takeCommand w = (s.clearReport w).accept.markInDue i) ∨
    (∃ sub, legalCommand s.arg w = .error sub ∧
      s.takeCommand w = (s.clearReport w).raise (.illegalCommand sub) w (opcField w)) := by
  unfold State.takeCommand
  split
  · exact .inr ⟨_, by assumption, rfl⟩
  · exact .inl ⟨_, by assumption, rfl⟩

/-- A legal word decodes to its command. -/
theorem legalCommand_decode {arg w : Word} {i : Instr} (h : legalCommand arg w = .ok i) : decode w = .ok i := by
  unfold legalCommand at h
  split at h
  · cases h
  · split_ifs at h
    cases h
    assumption

end Sys2Proof.Machine
end

