-- ==== Sys2Proof/Tests/Slice0.lean ====
section
/-! SUPPORT. Tests. Expected results are the spec's: the encodings of 30_encoding R320 written out by hand, the vectors
of 95_test_vectors. The witnesses show that the hypotheses of each statement can be met together. -/

namespace Sys2Proof.Tests

open Sys2Proof Sys2Proof.Machine

/-! ## Small states -/

/-- Bytes as a bit string, most significant bit first (20_memory R200). -/
def stream (bs : List Nat) : Bits := bs.flatMap (msb 8)

/-- The reset machine with a connected IN at position 0. -/
def withIn (p : Bits) : State := { State.reset with inCh := { bits := p, pos := 0 } }

/-- The tree of 95_test_vectors W1. -/
def treeW1 : HTree := .node (.node (.leaf 0x62#9) (.leaf 256#9)) (.leaf 0x61#9)

/-- The arena of W1's BUILD_TREE. -/
def nodesW1 : Vector Node 513 :=
  ((((State.reset.nodes.setIfInBounds 0 (.leaf 0x61#9 3#41)).setIfInBounds 1 (.leaf 0x62#9 1#41)).setIfInBounds 2
    (.leaf 256#9 1#41)).setIfInBounds 3 (.internal 2#41 1#10 2#10)).setIfInBounds 4 (.internal 5#41 3#10 0#10)

/-- The machine after W1's BUILD_TREE, over an IN and with the input's counts left out. -/
def afterTree (p : Bits) : State :=
  { withIn p with
      nodes := nodesW1, nodeCount := 5#10, leafCount := 3#9, status := { Status.zero with treeValid := true } }

/-- The code table of W1. -/
def codesW1 : Vector CodeEntry 257 :=
  ((State.reset.codes.setIfInBounds 0x61 ⟨true, 1#9, 1#256⟩).setIfInBounds 0x62 ⟨true, 2#9, 0#256⟩).setIfInBounds 256
    ⟨true, 2#9, 1#256⟩

/-- The machine after W1's GEN_CODES, over an IN. -/
def afterCodes (p : Bits) : State :=
  { afterTree p with codes := codesW1, status := { Status.zero with treeValid := true, codesValid := true } }

/-- The machine with a command accepted and nothing else from the host. -/
def running (w : Word) (s : State) : State := { (s.clearReport w).accept with host := [] }

/-- A next state was answered, and it meets a test. -/
def nextMeets (r : StepResult) (p : State → Bool) : Bool :=
  match r with
  | .next t => p t
  | .fault _ => false
  | .refused _ => false

theorem exists_next {r : StepResult} {p : State → Bool} (h : nextMeets r p = true) : ∃ t, r = .next t ∧ p t = true := by
  cases r with
  | next t => exact ⟨t, rfl, h⟩
  | fault f => cases h
  | refused f => cases h

/-! ## Well-formedness refuses -/

theorem test_wf_symbol_257 : (Instr.writeFreq 257#10).wellFormed = false ∧ (Instr.readFreq 257#10).wellFormed = false ∧
    (Instr.lookupCode 257#10).wellFormed = false ∧ (Instr.encodeSymbol 1023#10).wellFormed = false := by decide

theorem test_wf_index_513 : (Instr.readNode 513#10).wellFormed = false ∧ (Instr.readNode 512#10).wellFormed = true := by
  decide

theorem test_encode_of_ill_formed_is_refused : decode (encode (.writeFreq 257#10)) = .error .badOperand ∧
    decode (encode (.readNode 513#10)) = .error .badOperand := by decide

/-! ## Words written out from 30_encoding R300, R320 -/

theorem test_decode_control : decode 0b00000000_00000000_00000000_00000000#32 = .ok .nop ∧
    decode 0b00000001_00000000_00000000_00000000#32 = .ok .softReset := by decide

theorem test_decode_frequency : decode 0b00010000_00000000_00000000_00000000#32 = .ok .countFreq ∧
    decode 0b00010001_00000000000000_01_0000_0000#32 = .ok (.writeFreq 256#10) ∧
    decode 0b00010010_00000000000000_00_0110_0010#32 = .ok (.readFreq 0x62#10) := by decide

theorem test_decode_tree : decode 0b00011000_00000000_00000000_00000000#32 = .ok .buildTree ∧
    decode 0b00011001_00000000000000_10_0000_0000#32 = .ok (.readNode 512#10) := by decide

theorem test_decode_codes : decode 0b00100000_00000000_00000000_00000000#32 = .ok .genCodes ∧
    decode 0b00100001_00000000000000_00_0110_0001#32 = .ok (.lookupCode 0x61#10) := by decide

theorem test_decode_header : decode 0b00101000_00000000_00000000_00000000#32 = .ok .writeMagic ∧
    decode 0b00101001_00000000_00000000_00000000#32 = .ok .serializeHeader ∧
    decode 0b00101010_00000000_00000000_00000000#32 = .ok .checkMagic ∧
    decode 0b00101011_00000000_00000000_00000000#32 = .ok .deserializeHeader := by decide

theorem test_decode_payload : decode 0b00110000_00000000_00000000_00000000#32 = .ok .rewindInput ∧
    decode 0b00110001_00000000000000_00_0111_1010#32 = .ok (.encodeSymbol 0x7A#10) ∧
    decode 0b00110010_00000000_00000000_00000000#32 = .ok .encodePayload ∧
    decode 0b00110011_00000000_00000000_00000000#32 = .ok .closeOutput ∧
    decode 0b00110100_00000000_00000000_00000000#32 = .ok .decodeSymbol ∧
    decode 0b00110101_00000000_00000000_00000000#32 = .ok .decodePayload := by decide

theorem test_decode_macro : decode 0b01000000_00000000_00000000_00000000#32 = .ok .compress ∧
    decode 0b01000001_00000000_00000000_00000000#32 = .ok .decompress := by decide

/-- 30_encoding R302: BAD_OPCODE before RSV_NONZERO before BAD_OPERAND. -/
theorem test_decode_order : decode 0x02000401#32 = .error .badOpcode ∧ decode 0x10000401#32 = .error .rsvNonzero ∧
    decode 0x10000001#32 = .error .badOperand ∧ decode 0x11000101#32 = .error .badOperand := by decide

/-! ## The protocol -/

/-- 95_test_vectors V1. -/
theorem test_illegal_word : nextMeets (step { State.reset with host := [.write 0x00#8 4 0x02000000#32] })
    (fun t => t.status.word == 0x02000166#32 && t.errInfo == 0x02000000#32 && t.errOp == 0x02#8) = true := by
  decide +kernel

/-- 70_reset_and_hazards R901: a hardware reset between two writes of SERIALIZE_HEADER to a closed OUT that appends
(20_memory R215); the first write, the root's internal-node bit, stays made. -/
theorem test_reset_between_writes_to_closed : nextMeets (exec .serializeHeader { afterTree [] with
      params := { State.reset.params with afterCloseWrite := .fixed (.ok true) },
      outCh := { bits := [true], closed := true },
      io := [.pass, .reset, .pass] })
    (fun t => t.outCh == { bits := [true, false], closed := true } && t.io == [.pass] && t.log == [] &&
      t.status == Status.zero) = true := by decide +kernel

/-- 70_reset_and_hazards R920: the byte image of a closed OUT, here that of 95_test_vectors V100 (W1). -/
theorem test_read_out : nextMeets (step { State.reset with
      host := [.readOut],
      outCh := { bits := stream [0xFA, 0xCE, 0x82, 0x01, 0x26, 0x2C, 0x02, 0x61] ++ msb 7 0b1110001, closed := true } })
    (fun t => t.outReads.map (·.image) ==
      [some [0xFA#8, 0xCE#8, 0x82#8, 0x01#8, 0x26#8, 0x2C#8, 0x02#8, 0x61#8, 0xE2#8]]) = true := by decide +kernel

/-- 70_reset_and_hazards R920: IN is due to be released after a COMPRESS has been issued, and a second one on the same
IN is refused, until IN is released and connected again. -/
theorem test_in_due : nextMeets (step { State.reset with host := [.write 0x00#8 4 0x40000000#32] })
      (fun t => t.inLink == .due) = true ∧
    step { State.reset with host := [.write 0x00#8 4 0x40000000#32], inLink := .due } = .refused .inNotReleased ∧
    nextMeets (step { State.reset with host := [.setIn [] 0], inLink := .due })
      (fun t => t.inLink == .connected) = true := ⟨by decide +kernel, rfl, by decide +kernel⟩

/-- 95_test_vectors V9. -/
theorem test_writeFreq_eos_zero : nextMeets (step { State.reset with host := [.write 0x00#8 4 0x11000100#32] })
    (fun t => t.status.word == 0x11000366#32 && t.freqAt 256 == 1#32) = true := by decide +kernel

/-- 95_test_vectors V13 (a). -/
theorem test_overrun : nextMeets
    (step { running 0x40000000#32 State.reset with host := [.write 0x00#8 4 0x00000000#32] })
    (fun t => t.cmd == 0x40000000#32 && t.status.cmdOverrun && t.status.busy) = true := by decide +kernel

/-- A placed word runs as the very next step after reset, an illegal one too (30_encoding R322, R302). -/
theorem test_fetch_word : nextMeets (step (State.reset.withFetchWord 32 0x01000000))
      (fun t => t.status.word == 0x01000002#32) = true ∧
    nextMeets (step (State.reset.withFetchWord 32 0x10000400)) (fun t => t.status.word == 0x10000266#32) = true := by
  decide +kernel

/-! ## Commands -/

/-- 95_test_vectors V11. -/
theorem test_nop : nextMeets (step (running 0x00000000#32 State.reset)) (fun t => t.status.word == 0x00000002#32) =
    true := by decide +kernel

/-- 95_test_vectors V12. -/
theorem test_softReset : nextMeets (step (running 0x01000000#32 { afterCodes (stream [0x61]) with arg := 9#32 }))
    (fun t => t.status.word == 0x01000002#32 && t.arg == 0#32 && t.nodeCount == 0#10 && t.freqAt 256 == 1#32 &&
      t.inCh.bits == stream [0x61]) = true := by decide +kernel

/-- 95_test_vectors V20. -/
theorem test_countFreq : nextMeets (step (running 0x10000000#32 (withIn (stream [0x61, 0x61, 0x61, 0x62]))))
    (fun t => t.freqAt 0x61 == 3#32 && t.freqAt 0x62 == 1#32 && t.freqAt 256 == 1#32 && t.inCh.pos == 32 &&
      t.status.word == 0x10000002#32) = true := by decide +kernel

/-- 95_test_vectors V22: a trailing partial byte is not counted, and stays unread under KEEP. -/
theorem test_countFreq_partial : nextMeets (step (running 0x10000000#32 (withIn (stream [0x61] ++ msb 4 6))))
    (fun t => t.freqAt 0x61 == 1#32 && t.freqAt 0x16 == 0#32 && t.inCh.pos == 8) = true := by decide +kernel

/-- 95_test_vectors V10. -/
theorem test_writeFreq : nextMeets (step (running 0x11000100#32 { State.reset with arg := 5#32 }))
    (fun t => t.freqAt 256 == 5#32 && t.status.word == 0x11000002#32) = true := by decide +kernel

/-- 95_test_vectors V25. -/
theorem test_readFreq : nextMeets (step (running 0x12000100#32 State.reset))
    (fun t => t.resSym == 256#9 && t.resWlo == 1#32 && t.resWhi == 0#9) = true := by decide +kernel

/-- 95_test_vectors W1: the merged nodes, first extracted left. -/
theorem test_buildTree : nextMeets (step (running 0x18000000#32
      { State.reset with freq := (resetFreq.setIfInBounds 0x61 3#32).setIfInBounds 0x62 1#32 }))
    (fun t => t.nodes[3]? == some (.internal 2#41 1#10 2#10) && t.nodes[4]? == some (.internal 5#41 3#10 0#10) &&
      t.nodeCount == 5#10 && t.leafCount == 3#9 && t.status.word == 0x18001002#32) = true := by decide +kernel

/-- 95_test_vectors V34: a leaf for symbol 0, and ties between a leaf and an older slot. -/
theorem test_buildTree_ties : nextMeets (step (running 0x18000000#32
      { State.reset with freq := (resetFreq.setIfInBounds 0 1#32).setIfInBounds 0xFF 2#32 }))
    (fun t => t.nodes[3]? == some (.internal 2#41 0#10 2#10) && t.nodes[4]? == some (.internal 4#41 1#10 3#10)) =
    true := by decide +kernel

/-- 95_test_vectors V37. -/
theorem test_readNode_internal : nextMeets (step (running 0x19000004#32 (afterTree [])))
    (fun t => regRead 0x2C#8 t == 0x00000003#32 && t.resSym == 0#9 && t.resWlo == 5#32) = true := by decide +kernel

/-- 95_test_vectors V38 and V39. -/
theorem test_readNode_leaf : nextMeets (step (running 0x19000002#32 (afterTree [])))
      (fun t => regRead 0x2C#8 t == 0x80000000#32 && t.resSym == 256#9 && t.resWlo == 1#32) = true ∧
    nextMeets (step (running 0x19000005#32 (afterTree []))) (fun t => t.status.word == 0x19001376#32) = true := by
  decide +kernel

/-- 95_test_vectors V52. -/
theorem test_genCodes : nextMeets (step (running 0x20000000#32 (afterTree [])))
    (fun t => t.codeAt 0x61 == ⟨true, 1#9, 1#256⟩ && t.codeAt 0x62 == ⟨true, 2#9, 0#256⟩ &&
      t.codeAt 256 == ⟨true, 2#9, 1#256⟩ && t.codeAt 0x63 == ⟨false, 0#9, 0#256⟩ &&
      t.status.word == 0x20003002#32) = true := by decide +kernel

/-- 95_test_vectors V53 and V54. -/
theorem test_lookupCode : nextMeets (step (running 0x21000100#32 (afterCodes [])))
      (fun t => regRead 0x20#8 t == 0x80000002#32 && regRead 0x40#8 t == 1#32 && regRead 0x5C#8 t == 0#32) = true ∧
    nextMeets (step (running 0x21000063#32 (afterCodes []))) (fun t => regRead 0x20#8 t == 0#32) = true := by
  decide +kernel

/-- 44_header_codec R600. -/
theorem test_writeMagic : nextMeets (step (running 0x28000000#32 State.reset))
    (fun t => t.outCh.bits == stream [0xFA, 0xCE, 0x82, 0x01]) = true := by decide +kernel

/-- 95_test_vectors W1: the header 0x262C0261. -/
theorem test_serializeHeader : nextMeets (step (running 0x29000000#32 (afterTree [])))
    (fun t => t.outCh.bits == stream [0x26, 0x2C, 0x02, 0x61]) = true := by decide +kernel

/-- 95_test_vectors W4 and V66. -/
theorem test_checkMagic : nextMeets (step (running 0x2A000000#32 (withIn (stream [0xFA, 0xCE, 0x82, 0x00, 0x26]))))
      (fun t => t.status.errCode == 1#4 && t.errInfo == 0xFACE8200#32 && t.inCh.pos == 32) = true ∧
    nextMeets (step (running 0x2A000000#32 (withIn (stream [0xFA, 0xCE, 0x82]))))
      (fun t => t.errInfo == 0#32 && t.status.infoEof && t.inCh.pos == 0) = true := by decide +kernel

/-- 95_test_vectors W3: the slots in completion order. -/
theorem test_deserializeHeader : nextMeets
    (step (running 0x2B000000#32 (withIn (stream [0x26, 0x2C, 0x02, 0x61]))))
    (fun t => t.nodes[0]? == some (.leaf 0x62#9 0#41) && t.nodes[2]? == some (.internal 0#41 0#10 1#10) &&
      t.nodes[4]? == some (.internal 0#41 2#10 3#10) && t.nodeCount == 5#10 && t.leafCount == 3#9) = true := by
  decide +kernel

/-- 95_test_vectors V69 and V70 without the magic. -/
theorem test_deserializeHeader_rejects : nextMeets
      (step (running 0x2B000000#32 (withIn (true :: msb 9 0x1FF))))
      (fun t => t.status.errSub == 2#4 && t.errInfo == 0x1FF#32) = true ∧
    nextMeets (step (running 0x2B000000#32 (withIn (true :: msb 9 0x61))))
      (fun t => t.status.errSub == 4#4 && t.errInfo == 0x61#32 && t.nodeCount == 0#10) = true := by decide +kernel

/-- 95_test_vectors V90. -/
theorem test_rewindInput : nextMeets (step (running 0x30000000#32
      { State.reset with inCh := { bits := stream [1, 2, 3, 4], pos := 32 } })) (fun t => t.inCh.pos == 0) = true ∧
    nextMeets (step { running 0x30000000#32 State.reset with io := [.fail 7#32] })
      (fun t => t.status.word == 0x30000256#32 && t.errInfo == 7#32) = true := by decide +kernel

/-- 95_test_vectors V82 and V83. -/
theorem test_encodeSymbol_stops : nextMeets (step (running 0x31000063#32 (afterCodes [])))
      (fun t => t.status.word == 0x31003086#32 && t.errInfo == 0x63#32 && t.outCh.bits == []) = true ∧
    nextMeets (step (running 0x31000061#32 (afterTree []))) (fun t => t.status.word == 0x31001276#32) = true := by
  decide +kernel

/-- 95_test_vectors W1: the code of 256 is 01. -/
theorem test_encodeSymbol : nextMeets (step (running 0x31000100#32 (afterCodes [])))
    (fun t => t.outCh.bits == [false, true]) = true := by decide +kernel

/-- 95_test_vectors V80. -/
theorem test_encodePayload : nextMeets (step (running 0x32000000#32 (afterCodes (stream [0x61, 0x61, 0x61, 0x62]))))
    (fun t => t.outCh.bits == msb 7 0b1110001 && t.inCh.pos == 32) = true := by decide +kernel

/-- 95_test_vectors V89: the padded byte image. -/
theorem test_closeOutput : nextMeets (step (running 0x33000000#32
      { State.reset with outCh := { bits := stream [0x61] ++ msb 7 0b1110001, closed := false } }))
    (fun t => t.outCh.closed && byteImage t.params.pad t.outCh.bits == [0x61#8, 0xE2#8]) = true := by decide +kernel

/-- 95_test_vectors V86: the fourth and the sixth DECODE_SYMBOL. -/
theorem test_decodeSymbol : nextMeets (step (running 0x34000000#32
      { afterTree (msb 7 0b1110001) with inCh := { bits := msb 7 0b1110001, pos := 3 } }))
      (fun t => t.resSym == 0x62#9 && t.inCh.pos == 5 && t.status.word == 0x34001002#32) = true ∧
    nextMeets (step (running 0x34000000#32
      { afterTree (msb 7 0b1110001) with inCh := { bits := msb 7 0b1110001, pos := 7 }, resSym := 256#9 }))
      (fun t => t.resSym == 256#9 && t.status.word == 0x34001036#32) = true := by decide +kernel

/-- 45_payload_codec R700 on W1's payload, with a bit after it that is not read (R703). -/
theorem test_decodePayload : nextMeets (step (running 0x35000000#32 (afterTree (msb 8 0b11100010))))
    (fun t => t.outCh.bits == stream [0x61, 0x61, 0x61, 0x62] && t.inCh.pos == 7 && t.status.eosSeen) = true := by
  decide +kernel

/-- 95_test_vectors W2. -/
theorem test_compress_empty : nextMeets (step (running 0x40000000#32 State.reset))
    (fun t => byteImage t.params.pad t.outCh.bits == [0xFA#8, 0xCE#8, 0x82#8, 0x01#8, 0xC0#8, 0x00#8] &&
      t.outCh.bits.length == 42 && t.status.word == 0x40003002#32) = true := by decide +kernel

/-- 95_test_vectors V102. -/
theorem test_compress : nextMeets (step (running 0x40000000#32 (withIn (stream [0x61, 0x61, 0x61, 0x61]))))
    (fun t => byteImage t.params.pad t.outCh.bits ==
      [0xFA#8, 0xCE#8, 0x82#8, 0x01#8, 0x60#8, 0x13#8, 0x0F#8, 0x80#8]) = true := by decide +kernel

/-- 95_test_vectors W1. -/
theorem test_decompress : nextMeets (step (running 0x41000000#32
      (withIn (stream [0xFA, 0xCE, 0x82, 0x01, 0x26, 0x2C, 0x02, 0x61, 0xE2]))))
    (fun t => t.outCh == { bits := stream [0x61, 0x61, 0x61, 0x62], closed := true } && t.inCh.pos == 71 &&
      t.status.word == 0x41005002#32) = true := by decide +kernel

/-- 95_test_vectors W5: the payload cut before its last bit. -/
theorem test_decompress_truncated : nextMeets (step (running 0x41000000#32
      (withIn ((stream [0xFA, 0xCE, 0x82, 0x01, 0x26, 0x2C, 0x02, 0x61, 0xE2]).take 70))))
    (fun t => t.outCh == { bits := stream [0x61, 0x61, 0x61, 0x62], closed := true } && t.inCh.pos == 70 &&
      t.status.word == 0x41001036#32 && t.errOp == 0x35#8) = true := by decide +kernel

/-! ## Witnesses: states and operands that meet the hypotheses of the statements -/

theorem pass_all {s : State} (h : s.io = []) : s.ioClear := by
  intro d hd
  rw [h] at hd
  cases hd

theorem no_reset_of_pass {s : State} (h : s.io = []) : s.noReset := by
  intro d hd
  rw [h] at hd
  cases hd

/-- A short input has no count of 2^32. -/
theorem count_short (p : Bits) (h : p.length < 2 ^ 32) (b : Nat) : (wholeBytes p).count b < 2 ^ 32 := by
  have h1 := List.count_le_length (a := b) (l := wholeBytes p)
  have h2 : (wholeBytes p).length = p.length / 8 := by simp [wholeBytes]
  have h3 := Nat.div_le_self p.length 8
  omega

/-- W1's arena is a complete tree (10_state R125). -/
theorem afterTree_complete (p : Bits) : CompleteTree (afterTree p) where
  leafCount_pos := by show 1 ≤ 3; decide
  leafCount_le := by show 3 ≤ 257; decide
  nodeCount_eq := by show 5 = 2 * 3 - 1; decide
  children_below := by
    have h : ∀ i, i < 5 → ((nodesW1[i]?.map Node.children).getD []).all (fun c => decide (c < i)) = true := by
      decide +kernel
    intro i hi w l r hn
    have := h i hi
    change nodesW1[i]? = _ at hn
    rw [hn] at this
    simpa [Node.children] using this
  one_parent := by show (childIndices nodesW1 5).Perm (List.range 4); decide +kernel
  symbols_ok := by
    have h : ∀ i, i < 5 → (nodesW1[i]?.map Node.sym).getD 0#9 ≤ 256#9 := by decide +kernel
    intro i hi sym w hn
    have := h i hi
    change nodesW1[i]? = _ at hn
    rw [hn] at this
    exact this
  root_ok := by
    intro sym w hn
    have h : nodesW1[4]? = some (.internal 5#41 3#10 0#10) := by decide +kernel
    change nodesW1[4]? = _ at hn
    rw [h] at hn
    cases hn

theorem afterTree_tree (p : Bits) : (afterTree p).tree = some treeW1 := by
  show treeAt nodesW1 5 4 = some treeW1
  decide +kernel

theorem treeW1_acceptable : treeW1.acceptable := by
  refine ⟨by decide, by decide, fun sym h => by cases h⟩

theorem treeW1_walks : treeW1.walk (msb 7 0b1110001) = some (0x61#9, msb 6 0b110001) ∧
    treeW1.walk [false] = none := by decide

/-- W1's payload (95_test_vectors). -/
theorem treeW1_decodes : treeW1.decodes (msb 7 0b1110001) [0x61#9, 0x61#9, 0x61#9, 0x62#9] [] :=
  ⟨by decide, msb 6 0b110001, by decide, by decide, msb 5 0b10001, by decide, by decide, msb 4 0b0001, by decide,
    by decide, msb 2 0b01, by decide, rfl⟩

/-- W5's payload (95_test_vectors). -/
theorem treeW1_breaksOff : treeW1.breaksOff (msb 6 0b111000) [0x61#9, 0x61#9, 0x61#9, 0x62#9] :=
  ⟨by decide, msb 5 0b11000, by decide, by decide, msb 4 0b1000, by decide, by decide, msb 3 0b000, by decide,
    by decide, msb 1 0b0, by decide, rfl⟩

theorem witness_DecodeOfEncode : (Instr.writeFreq 256#10).WellFormed ∧ (Instr.readNode 512#10).WellFormed ∧
    Instr.nop.WellFormed := by decide

theorem witness_EncodeOfDecode : decode 0x19000200#32 = .ok (.readNode 512#10) := by decide

/-- Every clause of LegalityInOrder, at a boundary. -/
theorem witness_LegalityInOrder : legalCommand 0#32 0x42000000#32 = .error .badOpcode ∧
    legalCommand 0#32 0x41000400#32 = .error .rsvNonzero ∧ legalCommand 1#32 0x12000101#32 = .error .badOperand ∧
    legalCommand 1#32 0x19000201#32 = .error .badOperand ∧ legalCommand 1#32 0x40000001#32 = .error .badOperand ∧
    legalCommand 0#32 0x11000100#32 = .error .badOperand ∧
    legalCommand 1#32 0x11000100#32 = .ok (.writeFreq 256#10) ∧
    legalCommand 0#32 0x110000FF#32 = .ok (.writeFreq 255#10) ∧
    legalCommand 0#32 0x19000200#32 = .ok (.readNode 512#10) := by decide

theorem witness_CommandWordTaken (w : Word) : State.reset.status.busy = false ∧
    ({ State.reset with host := [.write 0x00#8 4 w] }).host = .write 0x00#8 4 w :: [] ∧
    legalCommand State.reset.arg 0x00000000#32 = .ok .nop ∧
    legalCommand State.reset.arg 0x00000001#32 = .error .badOperand ∧
    (State.reset.readsIn .countFreq = true ∧ State.reset.inLink = .connected) ∧
    State.reset.readsIn .decodeSymbol = false := ⟨rfl, rfl, by decide, by decide, ⟨rfl, rfl⟩, rfl⟩

theorem witness_CmdWriteWhileBusyDropped : (running 0x10000000#32 State.reset).status.busy = true ∧
    ∃ t, step { running 0x00000000#32 State.reset with
        status := { (running 0x00000000#32 State.reset).status with cmdOverrun := true } } = .next t ∧
      t.status.cmdOverrun = true ∧ (running 0x00000000#32 State.reset).noReset ∧
      decode (running 0x00000000#32 State.reset).cmd ≠ .ok .softReset :=
  ⟨rfl, _, rfl, rfl, no_reset_of_pass rfl, by decide⟩

theorem witness_StepRunsDecodedCommand : (running 0x18000000#32 State.reset).status.busy = true ∧
    decode (running 0x18000000#32 State.reset).cmd = .ok .buildTree ∧
    (running 0x18000000#32 State.reset).host = [] ∧ legalCommand State.reset.arg 0x18000000#32 = .ok .buildTree ∧
    ∃ t, exec .nop { running 0x00000000#32 State.reset with host := [.writeCmdLate 0#32] } = .next t :=
  ⟨rfl, by decide, rfl, by decide, _, rfl⟩

theorem witness_IdleKeepsState : State.reset.status.busy = false ∧ State.reset.host = [] ∧
    ({ State.reset with status := { Status.zero with done := true }, host := [.wait] }).status.done = true :=
  ⟨rfl, rfl, rfl⟩

theorem witness_RegisterWritesReachOnlyCmdAndArg : (0x04#8).toNat % 4 = 0 ∧ (0xFC#8).toNat % 4 = 0 ∧
    (0xFC#8 : BitVec 8) ≠ 0x00#8 ∧ (0xFC#8 : BitVec 8) ≠ 0x08#8 ∧ (0x08#8).toNat % 4 = 0 := by decide

theorem witness_ReadsHaveNoSideEffect : ∃ t, step { State.reset with host := [.read 0x04#8 4] } = .next t := ⟨_, rfl⟩

theorem witness_ReadsWhileBusy : (running 0x10000000#32 State.reset).status.busy = true ∧
    (0x04#8).toNat % 4 = 0 ∧ (0x30#8).toNat % 4 = 0 ∧
    ∃ t, step { running 0x10000000#32 State.reset with host := [.write 0x08#8 4 1#32] } = .next t ∧
      t.status.busy = true := ⟨rfl, by decide, by decide, _, rfl, rfl⟩

theorem witness_RefusedHostActions : (2 ≠ 4 ∨ (0x01#8).toNat % 4 ≠ 0) ∧ (4 ≠ 4 ∨ (0x02#8).toNat % 4 ≠ 0) ∧
    (running 0x10000000#32 State.reset).status.busy = true ∧ State.reset.status.busy = false ∧
    legalCommand State.reset.arg 0x34000000#32 = .ok .decodeSymbol ∧
    (afterTree []).readsIn .decodeSymbol = true ∧ ({ afterTree [] with inLink := .due }).inLink = .due ∧
    ({ afterTree [] with inLink := .released }).inLink = .released ∧
    ({ State.reset with host := [.setIn [true] 5] }).host = .setIn [true] 5 :: [] ∧ min 5 [true].length = 1 ∧
    ({ State.reset with outCh := { bits := [true], closed := true }, host := [.readOut] }).outCh.closed = true ∧
    ((8 - [true].length % 8) % 8 = 7 ∧ (8 - (stream [0x61]).length % 8) % 8 = 0) := by
  refine ⟨by decide, by decide, rfl, rfl, by decide, rfl, rfl, rfl, rfl, rfl, rfl, by decide⟩

theorem witness_HardwareResetState : ({ running 0x10000000#32 State.reset with host := [.reset] }).host =
    .reset :: [] ∧ ({ State.reset with host := [.reset] }).host = .reset :: [] := ⟨rfl, rfl⟩

/-- Both ends of a command: completion, and abandonment by a drawn hardware reset. -/
theorem witness_CommandEndsOnce : (∃ t, exec .nop State.reset = .next t ∧ t.status.done = true) ∧
    ∃ t, exec .checkMagic { State.reset with io := [.reset] } = .next t ∧ t.status = Status.zero :=
  ⟨⟨_, rfl, rfl⟩, _, rfl, rfl⟩

theorem witness_CountFreqCounts : (withIn (stream [0x61, 0x61])).ioClear ∧
    ∀ b, (wholeBytes (withIn (stream [0x61, 0x61])).inRest).count b < 2 ^ 32 :=
  ⟨pass_all rfl, count_short _ (by decide)⟩

/-- An input of `n` zero bytes. -/
theorem wholeBytes_zeros (n : Nat) : wholeBytes (List.replicate (8 * n) false) = List.replicate n 0 := by
  rw [List.eq_replicate_iff]
  refine ⟨by simp [wholeBytes], fun b hb => ?_⟩
  obtain ⟨j, hj, rfl⟩ := List.mem_map.mp hb
  rw [List.drop_replicate, List.take_replicate]
  generalize min 8 (8 * n - 8 * j) = m
  have : ∀ m acc, (List.replicate m false).foldl (fun acc b => 2 * acc + b.toNat) acc = 2 ^ m * acc := by
    intro m
    induction m with
    | zero => simp
    | succ m ih => intro acc; rw [List.replicate_succ, List.foldl_cons, ih]; simp; ring
  exact (this m 0).trans (Nat.mul_zero _)

/-- 95_test_vectors V26: 2^32 zero bytes. -/
theorem witness_CountOverflowRaised : ∃ (s : State) (bs : List Nat) (b : Nat) (rest : List Nat), s.ioClear ∧
    wholeBytes s.inRest = bs ++ b :: rest ∧ bs.count b = 2 ^ 32 - 1 ∧ ∀ c, bs.count c < 2 ^ 32 := by
  have h : ∀ n : Nat, ∃ (s : State) (bs : List Nat) (b : Nat) (rest : List Nat), s.ioClear ∧
      wholeBytes s.inRest = bs ++ b :: rest ∧ bs.count b = n ∧ ∀ c, bs.count c < n + 1 := by
    intro n
    refine ⟨withIn (List.replicate (8 * (n + 1)) false), List.replicate n 0, 0, [], pass_all rfl, ?_, ?_, fun c => ?_⟩
    · show wholeBytes (List.replicate (8 * (n + 1)) false) = _
      rw [wholeBytes_zeros, List.replicate_succ']
    · simp
    · exact Nat.lt_succ_of_le (List.count_le_length.trans (by simp))
  obtain ⟨s, bs, b, rest, h1, h2, h3, h4⟩ := h (2 ^ 32 - 1)
  exact ⟨s, bs, b, rest, h1, h2, h3, h4⟩

theorem witness_SymbolRange : (0#10).toNat ≤ 256 ∧ (256#10).toNat ≤ 256 := by decide

theorem witness_LateArgWriteIgnored : State.reset.status.busy = false ∧ (0x62#10).toNat ≤ 256 ∧
    ¬ (0x62#10 = 256#10 ∧ State.reset.arg = 0#32) := by decide

/-- Both clauses of BuildTreeBuilds. -/
theorem witness_BuildTreeBuilds : ((List.range 257).filter fun b => State.reset.freqAt b ≠ 0#32).length ≠ 0 ∧
    ((List.range 257).filter fun b => ({ State.reset with freq := Vector.replicate 257 0#32 }).freqAt b ≠
      0#32).length = 0 := by decide +kernel

theorem witness_ExtractMinOrder : ([2, 1] : List Nat) ≠ [] ∧ (1 : Nat) ∈ [2, 1] ∧
    nodeWeight nodesW1 1 = nodeWeight nodesW1 (extractMin .seq 0 nodesW1 [2, 1]) := by decide +kernel

theorem witness_ReadNodeRuns : (afterTree []).status.treeValid = true ∧ (4#10).toNat < (afterTree []).nodeCount.toNat ∧
    (afterTree []).nodes[(4#10).toNat]? = some (.internal 5#41 3#10 0#10) ∧
    (afterTree []).nodes[(2#10).toNat]? = some (.leaf 256#9 1#41) := by decide +kernel

theorem witness_PrerequisitesGate : State.reset.status.treeValid = false ∧ State.reset.status.codesValid = false ∧
    (afterTree []).status.treeValid = true ∧ (afterTree []).nodeCount.toNat ≤ (5#10).toNat := by decide

theorem witness_CompleteTreeHasTree : CompleteTree (afterTree []) := afterTree_complete []

theorem witness_GenCodesRuns : (afterTree []).status.treeValid = true ∧ (afterTree []).tree = some treeW1 ∧
    ∀ q ∈ treeW1.paths, q.1.toNat ≤ 256 := ⟨rfl, afterTree_tree [], treeW1_acceptable.1⟩

theorem witness_GeneratedCodesPrefixFree : treeW1.leaves ≤ 257 ∧ (treeW1.paths.map (·.1)).Nodup ∧
    ∃ t, exec .genCodes (afterTree []) = .next t ∧ (t.codeAt 0x61).valid = true := by
  refine ⟨by decide, by decide, ?_⟩
  have h : nextMeets (exec .genCodes (afterTree [])) (fun t => (t.codeAt 0x61).valid) = true := by decide +kernel
  exact exists_next h

theorem witness_LookupCodeRuns : (256#10).toNat ≤ 256 ∧ (afterCodes []).status.codesValid = true := by decide

theorem witness_WriteMagicRuns : State.reset.ioClear ∧ State.reset.outCh.closed = false := ⟨pass_all rfl, rfl⟩

theorem witness_SerializeHeaderRuns : (afterTree []).status.treeValid = true ∧ (afterTree []).tree = some treeW1 ∧
    (afterTree []).ioClear ∧ (afterTree []).outCh.closed = false := ⟨rfl, afterTree_tree [], pass_all rfl, rfl⟩

/-- The three cases of CheckMagicRuns: MAGIC, another word, 31 bits. -/
theorem witness_CheckMagicRuns :
    BitVec.ofNat 32 (val ((stream [0xFA, 0xCE, 0x82, 0x01]).take 32)) = State.reset.params.magic ∧
    BitVec.ofNat 32 (val ((stream [0xFA, 0xCE, 0x82, 0x00]).take 32)) ≠ State.reset.params.magic ∧
    ((stream [0xFA, 0xCE, 0x82, 0x01]).take 31).length < 0 + 32 ∧ (withIn []).ioClear :=
  ⟨by decide, by decide, by decide, pass_all rfl⟩

theorem witness_DeserializeHeaderRuns :
    (withIn (stream [0x26, 0x2C, 0x02, 0x61] ++ [true])).inRest = treeW1.header ++ [true] ∧ treeW1.acceptable ∧
    (withIn (treeW1.header)).ioClear := ⟨by decide, treeW1_acceptable, pass_all rfl⟩

/-- The clauses of DeserializeHeaderRejects, at the ends of their ranges: a place at the very start, one after a left
leaf, and one 256 levels down. -/
theorem witness_DeserializeHeaderRejects :
    (internalsSoFar [some treeW1, none] = 4 ∧
      headerSoFar [some treeW1, none] = false :: (treeW1.header ++ [false]) ∧
      (withIn (headerSoFar [some treeW1, none])).inRest = headerSoFar [some treeW1, none] ∧
      (withIn (headerSoFar [] ++ true :: msb 8 0)).inRest = headerSoFar [] ++ true :: msb 8 0 ∧
      internalsSoFar (List.replicate 256 none) = 256 ∧
      ∀ T, some T ∈ [some treeW1, none] → ∀ q ∈ T.paths, q.1.toNat ≤ 256) ∧
    ((withIn (treeW1.header.take 31)).inRest <+: treeW1.header ∧
      (withIn (treeW1.header.take 31)).inRest ≠ treeW1.header) ∧
    (256 < 257 ∧ (withIn (true :: (msb 9 257 ++ []))).inRest = true :: (msb 9 257 ++ [])) ∧
    (511 < 512 ∧ (withIn (true :: (msb 9 511 ++ []))).inRest = true :: (msb 9 511 ++ [])) ∧
    (255 < 256 ∧ (withIn (true :: (msb 9 255 ++ []))).inRest = true :: (msb 9 255 ++ [])) ∧
    (withIn (List.replicate 257 false ++ [])).inRest = List.replicate 257 false ++ [] := by
  refine ⟨⟨by decide, rfl, rfl, rfl, by decide +kernel, fun T hT => ?_⟩, ⟨List.take_prefix _ _, by decide⟩, ⟨by decide, rfl⟩, ⟨by decide, rfl⟩, ⟨by decide, rfl⟩, rfl⟩
  have e : T = treeW1 := by simpa using hT
  rw [e]
  exact treeW1_acceptable.1

theorem witness_HeaderRoundTrip : (afterTree []).status.treeValid = true ∧ CompleteTree (afterTree []) ∧
    (afterTree []).ioClear ∧ (afterTree []).outCh.closed = false ∧ (afterTree []).outCh.bits = [] ∧
    ∀ t : State, (withIn (t.outCh.bits ++ [false])).ioClear ∧
      (withIn (t.outCh.bits ++ [false])).inRest = t.outCh.bits ++ [false] :=
  ⟨rfl, afterTree_complete [], pass_all rfl, rfl, rfl, fun _ => ⟨pass_all rfl, rfl⟩⟩

theorem witness_RewindAndCloseRun : State.reset.ioClear ∧ State.reset.outCh.closed = false := ⟨pass_all rfl, rfl⟩

theorem witness_ChannelFailureReported : ({ State.reset with io := [.fail 7#32] }).io = .fail 7#32 :: [] ∧
    ({ State.reset with io := [.fail 7#32] }).outCh.closed = false ∧
    (∃ t, exec .countFreq { withIn (stream [0x61, 0x62]) with io := [.pass, .fail 7#32, .pass] } = .next t ∧
      t.status.err = some (.ioError .inRead)) ∧
    (∃ t, exec .decompress { State.reset with io := [.fail 7#32, .fail 8#32, .pass] } = .next t ∧
      t.status.err = some (.ioError .inRead)) ∧
    ∃ t, exec .decompress { State.reset with io := [.pass, .fail 7#32] } = .next t ∧ t.status.closeFailed = true := by
  have h : nextMeets (exec .countFreq { withIn (stream [0x61, 0x62]) with io := [.pass, .fail 7#32, .pass] })
    (fun t => t.status.err == some (.ioError .inRead)) = true := by decide +kernel
  obtain ⟨t, ht, he⟩ := exists_next h
  exact ⟨rfl, rfl, ⟨t, ht, by simpa using he⟩, ⟨_, rfl, rfl⟩, _, rfl, rfl⟩

/-- Both clauses of EncodeSymbolRuns. -/
theorem witness_EncodeSymbolRuns : (256#10).toNat ≤ 256 ∧ (afterCodes []).status.codesValid = true ∧
    (afterCodes []).ioClear ∧ (afterCodes []).outCh.closed = false ∧ ((afterCodes []).codeAt 256).valid = true ∧
    ((afterCodes []).codeAt 0x63).valid = false :=
  ⟨by decide, rfl, pass_all rfl, rfl, by decide +kernel, by decide +kernel⟩

/-- The three clauses of EncodePayloadRuns: a byte with no code, no END_OF_STREAM code, all codes. -/
theorem witness_EncodePayloadRuns :
    (wholeBytes (afterCodes (stream [0x61, 0x63])).inRest = [0x61] ++ 0x63 :: [] ∧
      ((afterCodes (stream [0x61, 0x63])).codeAt 0x61).valid = true ∧
      ((afterCodes (stream [0x61, 0x63])).codeAt 0x63).valid = false) ∧
    ({ afterCodes (stream [0x61]) with codes := codesW1.set 256 CodeEntry.none }.codeAt 256).valid = false ∧
    (afterCodes (stream [0x61, 0x62])).ioClear ∧
    (∀ b ∈ wholeBytes (afterCodes (stream [0x61, 0x62])).inRest,
      ((afterCodes (stream [0x61, 0x62])).codeAt b).valid = true) ∧
    ((afterCodes (stream [0x61, 0x62])).codeAt 256).valid = true :=
  ⟨⟨by decide, by decide +kernel, by decide +kernel⟩, by decide +kernel, pass_all rfl, by decide +kernel,
    by decide +kernel⟩

/-- Both clauses of DecodeSymbolRuns: a whole code left, and a code cut off. -/
theorem witness_DecodeSymbolRuns : (afterTree (msb 7 0b1110001)).tree = some treeW1 ∧
    treeW1.walk (afterTree (msb 7 0b1110001)).inRest = some (0x61#9, msb 6 0b110001) ∧
    treeW1.walk (afterTree [false]).inRest = none ∧ (afterTree [false]).ioClear ∧
    (afterTree [false]).inCh.pos ≤ (afterTree [false]).inCh.bits.length :=
  ⟨afterTree_tree _, treeW1_walks.1, treeW1_walks.2, pass_all rfl, by decide⟩

theorem witness_DecodePayloadRuns : (afterTree (msb 7 0b1110001)).status.treeValid = true ∧
    (afterTree (msb 7 0b1110001)).tree = some treeW1 ∧ (∀ sym, treeW1 = .leaf sym → sym = 256#9) ∧
    (afterTree (msb 7 0b1110001)).ioClear ∧
    treeW1.decodes (afterTree (msb 7 0b1110001)).inRest [0x61#9, 0x61#9, 0x61#9, 0x62#9] [] :=
  ⟨rfl, afterTree_tree _, treeW1_acceptable.2.2, pass_all rfl, treeW1_decodes⟩

theorem witness_DecodePayloadTruncated : (afterTree (msb 6 0b111000)).tree = some treeW1 ∧
    (afterTree (msb 6 0b111000)).ioClear ∧
    treeW1.breaksOff (afterTree (msb 6 0b111000)).inRest [0x61#9, 0x61#9, 0x61#9, 0x62#9] :=
  ⟨afterTree_tree _, pass_all rfl, treeW1_breaksOff⟩

theorem witness_CompressRuns : (withIn (stream [0x61, 0x62])).ioClear ∧
    (withIn (stream [0x61, 0x62])).outCh.closed = false ∧ (withIn (stream [0x61, 0x62])).inCh.pos = 0 ∧
    ∀ b, (wholeBytes (withIn (stream [0x61, 0x62])).inRest).count b < 2 ^ 32 :=
  ⟨pass_all rfl, rfl, rfl, count_short _ (by decide)⟩

theorem witness_DecompressRuns : (withIn (stream [0xFA, 0xCE, 0x82, 0x01, 0x26, 0x2C, 0x02, 0x61, 0xE2])).inRest =
      msb 32 State.reset.params.magic.toNat ++ treeW1.header ++ msb 8 0xE2 ∧ treeW1.acceptable ∧
    treeW1.decodes (msb 8 0xE2) [0x61#9, 0x61#9, 0x61#9, 0x62#9] [false] :=
  ⟨by decide, treeW1_acceptable, by decide, msb 7 0b1100010, by decide, by decide, msb 6 0b100010, by decide,
    by decide, msb 5 0b00010, by decide, by decide, msb 3 0b010, by decide, rfl⟩

/-- The premises of both halves of CompressThenDecompress, for the input "aab". -/
theorem witness_CompressThenDecompress :
    (∀ b, ([0x61#8, 0x61#8, 0x62#8] : List (BitVec 8)).count b < 2 ^ 32) ∧
    (withIn (([0x61#8, 0x61#8, 0x62#8] : List (BitVec 8)).flatMap fun b => msb 8 b.toNat)).ioClear ∧
    State.reset.outCh = { bits := [], closed := false } ∧
    ∀ t : State, (withIn (t.outCh.bits ++ [true])).ioClear ∧
      (withIn (t.outCh.bits ++ [true])).inCh = { bits := t.outCh.bits ++ [true], pos := 0 } :=
  ⟨fun b => lt_of_le_of_lt List.count_le_length (by decide), pass_all rfl, rfl, fun _ => ⟨pass_all rfl, rfl⟩⟩

theorem witness_MacroErrorPath : State.reset.noReset ∧ State.reset.outCh.closed = false ∧
    (0x28#8 : Opcode) ≠ 0x33#8 ∧ (∀ c io, State.reset.io ≠ .fail c :: io) ∧
    ({ State.reset with io := [.fail 7#32] }).noReset ∧
    ({ State.reset with io := [.fail 7#32] }).io = .fail 7#32 :: [] ∧
    runsTo [] State.reset State.reset ∧
    (∃ v, countFreqBody { State.reset with io := [.fail 7#32] } = .error (.raised (.ioError .inRead) 7#32) v) ∧
    (compressSteps = [] ++ (0x10#8, countFreqBody) :: compressSteps.tail) ∧
    (decompressSteps = [] ++ (0x2A#8, decompressMagicBody) :: decompressSteps.tail) ∧
    ({ State.reset with outCh := { bits := [], closed := true } }).outCh.closed = true :=
  ⟨no_reset_of_pass rfl, rfl, by decide, fun _ _ h => List.noConfusion rfl (heq_of_eq h),
    fun d hd => List.mem_singleton.mp hd ▸ (by decide), rfl, rfl, ⟨_, rfl⟩, rfl, rfl, rfl⟩

theorem witness_DecompressRejectsBadMagic : (withIn (stream [0xFA, 0xCE, 0x82, 0x00])).ioClear ∧
    0 + 32 ≤ (stream [0xFA, 0xCE, 0x82, 0x00]).length ∧
    BitVec.ofNat 32 (val ((withIn (stream [0xFA, 0xCE, 0x82, 0x00])).inRest.take 32)) ≠ State.reset.params.magic :=
  ⟨pass_all rfl, by decide, by decide⟩

/-- The premises of the frames: a command that reaches a next state with no hardware reset drawn. -/
theorem witness_Frames : State.reset.noReset ∧ Instr.readFreq 0#10 ≠ .softReset ∧
    ∃ t, exec (.readFreq 0#10) State.reset = .next t := ⟨no_reset_of_pass rfl, by decide, _, rfl⟩

theorem witness_StaleTreeInvalidated : ∃ t, exec (.writeFreq 0#10) (afterCodes []) = .next t ∧
    t.status.treeValid = false := ⟨_, rfl, rfl⟩

/-- The builder clauses of StaleTreeInvalidated, with a tree built and with none, and its DECOMPRESS clause with codes
in place before. -/
theorem witness_StaleTreeInvalidated_builders :
    (∃ t, exec .buildTree State.reset = .next t ∧ t.status.treeValid = true) ∧
    (∃ t, exec .deserializeHeader (withIn []) = .next t ∧ t.status.treeValid = false) ∧
    (∃ t, exec .compress (withIn []) = .next t ∧ t.status.codesValid = true) ∧ (withIn []).noReset ∧
    (∃ t, exec .compress { withIn [] with io := [.fail 7#32] } = .next t ∧
      t.status.err = some (.ioError .inRead) ∧ t.errOp = 0x10#8) ∧
    ∃ t, exec .decompress (afterCodes []) = .next t ∧ t.status.err = some .invalidFormat ∧ t.errOp = 0x2A#8 ∧
      t.status.treeValid = true ∧ t.status.codesValid = false := by
  have h1 : nextMeets (exec .buildTree State.reset) (fun t => t.status.treeValid) = true := by decide +kernel
  have h2 : nextMeets (exec .compress (withIn [])) (fun t => t.status.codesValid) = true := by decide +kernel
  have h3 : nextMeets (exec .compress { withIn [] with io := [.fail 7#32] })
    (fun t => t.status.err == some (.ioError .inRead) && t.errOp == 0x10#8) = true := by decide +kernel
  obtain ⟨t, ht, he⟩ := exists_next h3
  exact ⟨exists_next h1, ⟨_, rfl, rfl⟩, exists_next h2, no_reset_of_pass rfl, ⟨t, ht, by simpa using he⟩, _, rfl, rfl, rfl,
    rfl, rfl⟩

/-- The invariant holds in a state that no fresh reset gives: a tree and codes in place, a command running. -/
theorem inv_running : Inv (running 0x34000000#32 (afterCodes [true])) where
  eos_counted := by show resetFreq[256]?.getD 0#32 ≠ 0#32; decide +kernel
  tree_complete := fun _ =>
    ⟨(afterTree_complete []).leafCount_pos, (afterTree_complete []).leafCount_le, (afterTree_complete []).nodeCount_eq,
      (afterTree_complete []).children_below, (afterTree_complete []).one_parent, (afterTree_complete []).symbols_ok,
      (afterTree_complete []).root_ok⟩
  codes_need_tree := fun _ => rfl
  codes_current := fun _ T hT => by
    have e : some treeW1 = some T := (afterTree_tree [true]).symm.trans hT
    cases e
    have h : ∀ sym, sym < 257 → (afterCodes [true]).codeAt sym =
        match treeW1.codeOf sym with
        | some p => CodeEntry.ofPath p
        | none => CodeEntry.none := by decide +kernel
    exact h
  in_pos_le := by decide
  busy_legal := fun _ => ⟨.decodeSymbol, by decide⟩

theorem witness_StepKeepsInv : Inv (running 0x34000000#32 (afterCodes [true])) ∧
    ∃ t, step (running 0x34000000#32 (afterCodes [true])) = .next t ∧ t.resSym = 0x61#9 := by
  refine ⟨inv_running, ?_⟩
  have h : nextMeets (step (running 0x34000000#32 (afterCodes [true]))) (fun t => t.resSym == 0x61#9) = true := by
    decide +kernel
  obtain ⟨t, ht, hs⟩ := exists_next h
  exact ⟨t, ht, by simpa using hs⟩

theorem witness_EveryCommandTerminates : Inv (running 0x34000000#32 (afterCodes [true])) ∧
    (Instr.lookupCode 256#10).WellFormed := ⟨inv_running, by decide⟩

theorem witness_ParametersNeverChange : (∃ t, step State.reset = .next t) ∧
    ({ State.reset with host := [.read 0x30#8 4] } : State).host = .read 0x30#8 4 :: [] := ⟨⟨_, rfl⟩, rfl⟩

/-- Both clauses of LogOnlyGrows. -/
theorem witness_LogOnlyGrows : (∃ t, step (running 0x00000000#32 State.reset) = .next t ∧ t.log.length = 1) ∧
    ∃ t, step { State.reset with host := [.reset] } = .next t ∧ t.log = [] := ⟨⟨_, rfl, rfl⟩, _, rfl, rfl⟩

end Sys2Proof.Tests
end

section
/-! The invariant of 10_state R125 over one step: commands keep its table clauses and leave the machine idle; host
operations keep it one by one. -/

namespace Sys2Proof

/-- Every row of the opcode map builds well-formed commands from the operands its format admits (30_encoding R301). -/
theorem opcodeMap_wellFormed (v : Opnd) :
    ∀ row ∈ opcodeMap, formatAdmits row.2.1 v = true → (row.2.2 v).WellFormed := by
  simp [opcodeMap, opcodeRowsTree, opcodeRowsHeader, opcodeRowsPayload, formatAdmits, Instr.WellFormed,
    Instr.wellFormed]

/-- A word that decodes carries an operand in the range of its format (30_encoding R302). -/
theorem decode_wellFormed {w : Word} {i : Instr} (h : decode w = .ok i) : i.WellFormed := by
  obtain ⟨fmt, build, hrow, -, hfmt, rfl⟩ := decode_ok h
  obtain ⟨row, hfind, heq⟩ := Option.map_eq_some_iff.mp hrow
  have hmap := opcodeMap_wellFormed (opndField w) row (List.mem_of_find?_eq_some hfind)
  rw [heq] at hmap
  exact hmap hfmt

end Sys2Proof

namespace Sys2Proof.Machine

/-- A legal word is no WRITE_FREQ that would store a zero count for END_OF_STREAM (30_encoding R302, check 4). -/
theorem legalCommand_counts {arg w : Word} {i : Instr} (h : legalCommand arg w = .ok i) :
    ¬ (i = .writeFreq 256#10 ∧ arg = 0#32) := by
  unfold legalCommand at h
  split at h
  · cases h
  · split_ifs at h
    cases h
    assumption

/-- COMPRESS keeps the table clauses of the invariant, however it ends. -/
theorem execCompress_sound {s : State} (hs : Sound s) : ∃ t, execCompress s = .next t ∧ Sound t :=
  runSteps_cons_sound runs_countFreq (fun _ hs =>
  runSteps_cons_sound runs_buildTree (fun _ hs =>
  runSteps_cons_sound runs_genCodes (fun _ hs =>
  runSteps_cons_sound runs_writeMagic.2 (fun _ hs =>
  runSteps_cons_sound runs_serialize (fun _ hs =>
  runSteps_cons_sound runs_rewind.2 (fun _ hs =>
  runSteps_cons_sound runs_encodePayload.2 (fun _ hs =>
  runSteps_cons_sound runs_closeOutput.2 (fun _ hs => runSteps_nil_sound hs.1) hs) hs) hs) hs) hs) hs) hs) hs

/-- DECOMPRESS keeps the table clauses of the invariant, however it ends. -/
theorem execDecompress_sound {s : State} (hs : Sound s) : ∃ t, execDecompress s = .next t ∧ Sound t :=
  runSteps_cons_sound runs_decompressMagic (fun _ hs =>
  runSteps_cons_sound runs_deserialize (fun _ hs =>
  runSteps_cons_sound runs_decodePayload (fun _ hs =>
  runSteps_cons_sound runs_closeOutput.2 (fun _ hs => runSteps_nil_sound hs.1) hs) hs) hs) hs

/-- Every well-formed command, judged legal with the ARG it read, reaches a state with the table clauses of the
invariant (10_state R125, 40_control R408). -/
theorem exec_sound {i : Instr} {s : State} (hs : Sound s) (hi : i.WellFormed)
    (hcount : ¬ (i = .writeFreq 256#10 ∧ s.accArg = 0#32)) : ∃ t, exec i s = .next t ∧ Sound t := by
  have tree : ∀ s, SoundTree s → Sound s := fun _ h => h.1
  cases i with
  | nop => exact ⟨_, rfl, sound_complete hs⟩
  | softReset => exact runCommand_sound (op := 0x01#8) runs_softReset (fun _ => id) hs
  | countFreq => exact runCommand_sound runs_countFreq (fun _ => id) hs
  | writeFreq sym =>
    exact runCommand_sound (op := 0x11#8) (runs_writeFreq sym) (fun _ => id) 
      ⟨hs, of_decide_eq_true hi, by simpa using hcount⟩
  | readFreq sym => exact runCommand_sound (op := 0x12#8) (runs_readFreq sym) (fun _ => id) hs
  | buildTree => exact runCommand_sound runs_buildTree tree hs
  | readNode idx => exact runCommand_sound (runs_bind runs_requireTree fun _ => runs_readNode idx) (fun _ => id) hs
  | genCodes => exact runCommand_sound (runs_bind runs_requireTree fun _ => runs_genCodes) tree hs
  | lookupCode sym =>
    exact runCommand_sound (runs_bind runs_requireCodes fun _ => runs_lookupCode sym) (fun _ => id) hs
  | writeMagic => exact runCommand_sound runs_writeMagic.1 (fun _ => id) hs
  | serializeHeader => exact runCommand_sound (runs_bind runs_requireTree fun _ => runs_serialize) tree hs
  | checkMagic => exact runCommand_sound runs_checkMagic (fun _ => id) hs
  | deserializeHeader => exact runCommand_sound runs_deserialize tree hs
  | rewindInput => exact runCommand_sound runs_rewind.1 (fun _ => id) hs
  | encodeSymbol sym =>
    exact runCommand_sound (runs_bind runs_requireCodes fun _ => runs_encodeCode _) (fun _ => id) hs
  | encodePayload =>
    exact runCommand_sound (runs_bind runs_requireCodes fun _ => runs_encodePayload.1) (fun _ => id) hs
  | closeOutput => exact runCommand_sound runs_closeOutput.1 (fun _ => id) hs
  | decodeSymbol => exact runCommand_sound (runs_bind runs_requireTree fun _ => runs_decodeSymbol) tree hs
  | decodePayload => exact runCommand_sound (runs_bind runs_requireTree fun _ => runs_decodePayload) tree hs
  | compress => exact execCompress_sound hs
  | decompress => exact execDecompress_sound hs

/-- A predicate on states that does not speak of the channels and the draws is closed under channel calls. -/
theorem closed_offChannels {P : State → Prop} (hP : ∀ (s : State) inCh outCh io draws, P s →
    P { s with inCh := inCh, outCh := outCh, io := io, draws := draws }) : Closed P (fun _ => True) true true where
  reads := fun _ {s _} h _ hs => by rw [h.only]; exact hP s _ _ _ _ hs
  writes := fun _ {s _} h _ hs => by rw [h.only]; exact hP s _ _ _ _ hs
  raised := fun _ _ => trivial
  stuck := fun _ => trivial
  cut := fun _ _ => trivial

/-- The predicate that holds of every state is kept by every write. -/
theorem updates_true : Updates fun _ => True := by constructor <;> intros <;> trivial

/-- A command that reaches a next state has released BUSY (40_control R406, 60_exceptions R820,
70_reset_and_hazards R901). -/
theorem exec_idle {i : Instr} {s t : State} (h : exec i s = .next t) : t.status.busy = false :=
  exec_holds (Q := fun t => t.status.busy = false) (closed_offChannels fun _ _ _ _ _ => id) updates_true trivial h
    (fun _ _ => rfl) (fun _ _ _ _ _ => rfl) (fun _ _ _ _ _ => rfl) fun _ _ _ => rfl

/-- The clauses of the invariant that are about the tables, the flags and IN. -/
theorem Inv.sound {s : State} (h : Inv s) : Sound s :=
  ⟨h.eos_counted, h.tree_complete, h.codes_need_tree, h.codes_current, h.in_pos_le⟩

theorem Sound.inv {s : State} (h : Sound s) (hb : s.status.busy = true → ∃ i, legalCommand s.accArg s.cmd = .ok i) :
    Inv s :=
  ⟨h.eos_counted, h.tree_complete, h.codes_need_tree, h.codes_current, h.in_pos_le, hb⟩

theorem Sound.inv_idle {s : State} (h : Sound s) (hb : s.status.busy = false) : Inv s :=
  h.inv fun hb' => absurd (hb.symm.trans hb') (by decide)

/-- BLOCK running the accepted command keeps the table clauses of the invariant. -/
theorem Inv.sound_ran {i : Instr} {s t : State} (h : Inv s) (hb : s.status.busy = true) (hd : decode s.cmd = .ok i)
    (he : exec i s = .next t) : Sound t := by
  obtain ⟨j, hj⟩ := h.busy_legal hb
  obtain rfl : j = i := Except.ok.inj ((legalCommand_decode hj).symm.trans hd)
  obtain ⟨u, hu, hsu⟩ := exec_sound h.sound (decode_wellFormed hd) (legalCommand_counts hj)
  obtain rfl : u = t := Host.Outcome.next.inj (hu.symm.trans he)
  exact hsu

/-- A word taken from the host keeps the invariant: BUSY is set for a legal word only (40_control R400, R404). -/
theorem Sound.inv_takeCommand {s : State} (h : Sound s) (w : Word) :
    Inv (s.takeCommand w) := by
  obtain ⟨i, hi, e⟩ | ⟨sub, -, e⟩ := takeCommand_cases s w <;> rw [e]
  · exact Sound.inv (h.congr (by simp) (by simp) (by simp) (by simp) (by simp) (by simp) (by simp)
      (by simpa using h.in_pos_le)) fun _ => ⟨i, by simpa using hi⟩
  · have hc : Sound (s.clearReport w) := h.congr rfl rfl rfl rfl rfl rfl rfl h.in_pos_le
    exact (sound_raise hc _ _ _).inv_idle rfl

end Sys2Proof.Machine

namespace Sys2Proof

open Machine

/-- Settles O57, by cases on what the step was: BLOCK's turn keeps the table clauses and releases BUSY, a CMD write
sets BUSY only for a legal word, and every other host operation leaves what the invariant speaks of. -/
theorem stepKeepsInv : Obligations.StepKeepsInv := by
  intro s t hI hstep
  have hS := hI.sound
  cases step_cases hstep with
  | ran i hb hd he _ => exact (hI.sound_ran hb hd he).inv_idle (exec_idle he)
  | ranLate i v rest hb hd he _ =>
    have hu := hI.sound_ran hb hd he
    have hidle := exec_idle he
    exact Sound.inv_idle (hu.congr rfl rfl rfl rfl rfl rfl rfl hu.in_pos_le) hidle
  | idle => exact hI
  | dropped | argWritten | passed | registerRead | outRead | outSet =>
    exact Sound.inv (hS.congr rfl rfl rfl rfl rfl rfl rfl hS.in_pos_le) hI.busy_legal
  | taken op rest w =>
    have hr : Sound { s with host := rest } := hS.congr rfl rfl rfl rfl rfl rfl rfl hS.in_pos_le
    exact hr.inv_takeCommand w
  | inSet op rest bits pos hb _ _ hpos => exact Sound.inv (hS.congr rfl rfl rfl rfl rfl rfl rfl hpos) hI.busy_legal
  | inReleased op rest hb => exact Sound.inv (hS.congr rfl rfl rfl rfl rfl rfl rfl (Nat.zero_le _)) hI.busy_legal
  | wasReset rest => exact Sound.inv_idle (sound_hardReset hS.in_pos_le) rfl

/-- Settles O56: nothing is built at reset, and END_OF_STREAM has the count 1. -/
theorem invAtReset : Obligations.InvAtReset :=
  (soundBare (resetFreq_eos State.reset) rfl rfl le_rfl).1.inv_idle rfl

end Sys2Proof
end

section
/-! Frames of 10_state: each result register, table, flag and channel is left alone by every command that the rules do
not name as its writer. -/

namespace Sys2Proof.Machine

/-! ## Parts of the state, each blind to the commands that do not write it -/

section Blindness

variable {i : Instr} (hr : i ≠ .softReset)
include hr

theorem blind_resSym
    (hw : ¬ (i = .decodeSymbol ∨ (∃ v, i = .readFreq v) ∨ (∃ v, i = .readNode v) ∨ ∃ v, i = .lookupCode v)) :
    Blind State.resSym i := by
  constructor
  case notReset => exact hr
  case resSym => exact fun h => absurd h hw
  all_goals simp

theorem blind_weight (hw : ¬ ((∃ v, i = .readFreq v) ∨ ∃ v, i = .readNode v)) :
    Blind (fun s => (s.resWlo, s.resWhi)) i := by
  constructor
  case notReset => exact hr
  case weight => exact fun h => absurd h hw
  all_goals simp

theorem blind_resNode (hw : ¬ ∃ v, i = .readNode v) : Blind State.resNode i := by
  constructor
  case notReset => exact hr
  case resNode => exact fun h => absurd h hw
  all_goals simp

theorem blind_resCode (hw : ¬ ∃ v, i = .lookupCode v) : Blind (fun s => (s.resLen, s.resCode)) i := by
  constructor
  case notReset => exact hr
  case resCode => exact fun h => absurd h hw
  all_goals simp

theorem blind_freq (hw : ¬ (i = .countFreq ∨ i = .compress ∨ ∃ v, i = .writeFreq v)) : Blind State.freq i := by
  constructor
  case notReset => exact hr
  case freq => exact fun h => absurd h hw
  all_goals simp

theorem blind_tree (hw : ¬ (i = .buildTree ∨ i = .deserializeHeader ∨ i = .compress ∨ i = .decompress)) :
    Blind (fun s => (s.nodes, s.nodeCount, s.leafCount)) i := by
  constructor
  case notReset => exact hr
  case tree => exact fun h => absurd h hw
  all_goals simp

theorem blind_codes (hw : ¬ (i = .genCodes ∨ i = .compress)) : Blind State.codes i := by
  constructor
  case notReset => exact hr
  case codes => exact fun h => absurd h hw
  all_goals simp

/-- What no command writes but SOFT_RESET, and that one only ARG, CMD_OVERRUN and LAST_OP of it (10_state R111, R112,
R113, R135). -/
theorem blind_hostSide : Blind (fun s => (s.params, s.cmd, s.host, s.readLog, s.inLink, s.outReads, s.arg)) i := by
  constructor
  case notReset => exact hr
  all_goals simp

theorem blind_seen : Blind (fun s => (s.status.cmdOverrun, s.status.lastOp)) i := by
  constructor
  case notReset => exact hr
  all_goals simp

theorem blind_eosSeen (hw : ¬ (i = .decodeSymbol ∨ i = .decodePayload ∨ i = .decompress)) :
    Blind (fun s => s.status.eosSeen) i := by
  constructor
  case notReset => exact hr
  case eosSeen => exact fun h => absurd h hw
  all_goals simp

theorem blind_treeValid (hf : ¬ (i = .countFreq ∨ i = .compress ∨ ∃ v, i = .writeFreq v))
    (ht : ¬ (i = .buildTree ∨ i = .deserializeHeader ∨ i = .compress ∨ i = .decompress)) :
    Blind (fun s => s.status.treeValid) i := by
  constructor
  case notReset => exact hr
  case freq => exact fun h => absurd h hf
  case tree => exact fun h => absurd h ht
  all_goals simp

theorem blind_codesValid (hf : ¬ (i = .countFreq ∨ i = .compress ∨ ∃ v, i = .writeFreq v))
    (ht : ¬ (i = .buildTree ∨ i = .deserializeHeader ∨ i = .compress ∨ i = .decompress))
    (hc : ¬ (i = .genCodes ∨ i = .compress ∨ i = .decompress)) : Blind (fun s => s.status.codesValid) i := by
  constructor
  case notReset => exact hr
  case freq => exact fun h => absurd h hf
  case tree => exact fun h => absurd h ht
  case codesValid => exact fun h => absurd h hc
  all_goals simp

theorem blind_closeFailed (hw : ¬ (i = .compress ∨ i = .decompress)) : Blind (fun s => s.status.closeFailed) i := by
  constructor
  case notReset => exact hr
  case closeFailed => exact fun h => absurd h hw
  all_goals simp

theorem blind_infoEof (hw : ¬ (i = .checkMagic ∨ i = .decompress)) : Blind (fun s => s.status.infoEof) i := by
  constructor
  case notReset => exact hr
  case infoEof => exact fun h => absurd h hw
  all_goals simp

end Blindness

/-- SOFT_RESET leaves CMD, the parameters and the host's side (40_control R411). -/
theorem execSoftReset_hostSide {s t : State} (h : exec .softReset s = .next t) :
    t.params = s.params ∧ t.cmd = s.cmd ∧ t.host = s.host ∧ t.readLog = s.readLog ∧ t.inLink = s.inLink ∧
      t.outReads = s.outReads := by
  cases h
  exact ⟨rfl, rfl, rfl, rfl, rfl, rfl⟩

end Sys2Proof.Machine

namespace Sys2Proof

open Machine

/-- Settles O50: each result register is blind to every command that is not one of its writers. -/
theorem resultsFrame : Obligations.ResultsFrame := by
  intro i s t hn h hr
  refine ⟨fun hf hx hl hd => ?_, fun hf hx => ?_, fun hx => ?_, fun hl => ?_⟩
  · exact exec_blind (blind_resSym hr (by simp [hf, hx, hl, hd])) hn h
  · exact Prod.mk.inj (exec_blind (blind_weight hr (by simp [hf, hx])) hn h)
  · exact exec_blind (blind_resNode hr (by simp [hx])) hn h
  · exact Prod.mk.inj (exec_blind (blind_resCode hr (by simp [hl])) hn h)

/-- Settles O51: each table is blind to every command that is not one of its writers. -/
theorem tablesFrame : Obligations.TablesFrame := by
  intro i s t hn h hr
  refine ⟨fun hc hw hm => ?_, fun hb hd hm hm' => ?_, fun hg hm => ?_⟩
  · exact exec_blind (blind_freq hr (by simp [hc, hw, hm])) hn h
  · simpa [KeepsTree] using exec_blind (blind_tree hr (by simp [hb, hd, hm, hm'])) hn h
  · exact exec_blind (blind_codes hr (by simp [hg, hm])) hn h

/-- Settles O53: SOFT_RESET by its one state update, every other command because the host's side is blind to it. -/
theorem hostSideFrame : Obligations.HostSideFrame := by
  intro i s t hn h
  by_cases hr : i = .softReset
  · subst hr
    obtain ⟨hp, hc, hh, hl, hi, ho⟩ := execSoftReset_hostSide h
    exact ⟨hp, hc, hh, hl, hi, ho, fun hr => absurd rfl hr⟩
  · simpa [hr] using exec_blind (blind_hostSide hr) hn h

/-- Settles O54: each STATUS field is blind to every command that is not one of its writers. -/
theorem flagsFrame : Obligations.FlagsFrame := by
  intro i s t hn h hr
  obtain ⟨hover, hlast⟩ := Prod.mk.inj (exec_blind (blind_seen hr) hn h)
  refine ⟨hover, hlast, fun hy hp hm => ?_, fun hmem hw => ?_, fun hm hm' => ?_, fun hc hm => ?_⟩
  · exact exec_blind (blind_eosSeen hr (by simp [hy, hp, hm])) hn h
  · simp only [List.mem_cons, List.not_mem_nil, or_false, not_or] at hmem
    obtain ⟨hc, hb, hd, hm, hm'⟩ := hmem
    have hf : ¬ (i = .countFreq ∨ i = .compress ∨ ∃ v, i = .writeFreq v) := by simp [hc, hm, hw]
    have ht : ¬ (i = .buildTree ∨ i = .deserializeHeader ∨ i = .compress ∨ i = .decompress) := by
      simp [hb, hd, hm, hm']
    exact ⟨exec_blind (blind_treeValid hr hf ht) hn h,
      fun hg => exec_blind (blind_codesValid hr hf ht (by simp [hg, hm, hm'])) hn h⟩
  · exact exec_blind (blind_closeFailed hr (by simp [hm, hm'])) hn h
  · exact exec_blind (blind_infoEof hr (by simp [hc, hm])) hn h

end Sys2Proof
end

section
/-! Frames of the channels (10_state R140, R141): what every command keeps of IN and OUT, whatever the channels do, and
which command leaves which channel alone. -/

namespace Sys2Proof.Machine

/-- READ_NODE's body writes four result registers or is stuck (42_tree_builder R510). -/
theorem holds_readNode {P : State → Prop} {E : Stop → Prop} {r w : Bool} (hC : Closed P E r w)
    (hres : ∀ (s : State) nd sym lo hi, P s → P { s with resNode := nd, resSym := sym, resWlo := lo, resWhi := hi })
    (idx : Opnd) : (readNodeBody idx).Holds P E := by
  intro s hs
  simp only [readNodeBody, Body.bind_apply, Body.get_apply]
  cases s.nodes[operandIndex idx]? with
  | none => exact holds_stuck hC _ s hs
  | some nd => exact ⟨fun _ _ h => (by cases h; exact hres _ _ _ _ _ hs), fun _ _ h => (by cases h)⟩

/-- A predicate on the parameters, the log, the channels and the draws of the environment is kept by every write of a
command body that is no channel call. -/
theorem updates_of_congr {P : State → Prop}
    (hP : ∀ {s t : State}, t.params = s.params → t.log = s.log → t.inCh = s.inCh → t.outCh = s.outCh → t.io = s.io →
      P s → P t) : Updates P where
  soft _ := hP rfl rfl rfl rfl rfl
  eof _ := hP rfl rfl rfl rfl rfl
  eos _ _ := hP rfl rfl rfl rfl rfl
  freq _ _ := hP rfl rfl rfl rfl rfl
  inval _ := hP rfl rfl rfl rfl rfl
  gone _ := hP rfl rfl rfl rfl rfl
  done _ _ _ := hP rfl rfl rfl rfl rfl
  nodes _ _ _ := hP rfl rfl rfl rfl rfl
  cv _ _ := hP rfl rfl rfl rfl rfl
  codes _ _ := hP rfl rfl rfl rfl rfl
  res _ _ _ _ _ _ _ := hP rfl rfl rfl rfl rfl

/-- A predicate on states that speaks of the channels and the draws of the environment alone. -/
structure OfChannels (P : State → Prop) : Prop where
  congr : ∀ {s t : State}, t.inCh = s.inCh → t.outCh = s.outCh → t.io = s.io → P s → P t

section

variable {P : State → Prop} {E : Stop → Prop} {r w : Bool} (hP : OfChannels P)
include hP

/-- A primitive command's completion, error entry or hardware reset leaves the channels where its body left them. -/
theorem OfChannels.of_runCommand {op : Opcode} {body : Body Unit} {s t : State} (hb : body.Holds P E) (hs : P s)
    (h : runCommand op body s = .next t) : P t :=
  runCommand_holds hb hs (fun _ => hP.congr rfl rfl rfl) (fun _ _ _ => hP.congr rfl rfl rfl)
    (fun u hu _ => hP.congr (s := u) rfl rfl rfl hu) h

theorem OfChannels.of_modify {f : State → State} (hin : ∀ s, (f s).inCh = s.inCh) (hout : ∀ s, (f s).outCh = s.outCh)
    (hio : ∀ s, (f s).io = s.io) : (modify f : Body Unit).Holds P E :=
  holds_modify fun s => hP.congr (hin s) (hout s) (hio s)

/-- A command that makes no channel call leaves the channels and the draws. -/
theorem OfChannels.exec_noCall (hC : Closed P E r w) {i : Instr}
    (hi : i ∈ [.nop, .softReset, .buildTree, .genCodes] ∨
      ∃ v, i ∈ [.writeFreq v, .readFreq v, .readNode v, .lookupCode v])
    {s t : State} (hs : P s) (h : exec i s = .next t) : P t := by
  simp only [List.mem_cons, List.not_mem_nil, or_false] at hi
  obtain (rfl | rfl | rfl | rfl) | ⟨v, rfl | rfl | rfl | rfl⟩ := hi
  · exact hP.of_runCommand (op := 0x00#8) (body := pure ()) (holds_pure (E := E) _) hs h
  · exact hP.of_runCommand (op := 0x01#8) (body := softResetBody)
      (hP.of_modify (E := E) (fun _ => rfl) (fun _ => rfl) fun _ => rfl) hs h
  · exact hP.of_runCommand (holds_buildTree hC (fun _ _ _ => hP.congr rfl rfl rfl) (fun _ => hP.congr rfl rfl rfl)
      fun _ _ _ => hP.congr rfl rfl rfl) hs h
  · exact hP.of_runCommand (holds_bind (holds_requireTree hC) fun _ =>
      holds_genCodes hC (fun _ _ => hP.congr rfl rfl rfl) fun _ _ => hP.congr rfl rfl rfl) hs h
  · exact hP.of_runCommand (op := 0x11#8) (body := writeFreqBody v)
      (hP.of_modify (E := E) (fun _ => rfl) (fun _ => rfl) fun _ => rfl) hs h
  · exact hP.of_runCommand (op := 0x12#8) (body := readFreqBody v)
      (hP.of_modify (E := E) (fun _ => rfl) (fun _ => rfl) fun _ => rfl) hs h
  · exact hP.of_runCommand (holds_bind (holds_requireTree hC) fun _ => holds_bind (holds_requireIndex hC v) fun _ =>
      holds_readNode hC (fun _ _ _ _ _ => hP.congr rfl rfl rfl) v) hs h
  · have hb : (lookupCodeBody v).Holds P E := hP.of_modify (fun _ => rfl) (fun _ => rfl) fun _ => rfl
    exact hP.of_runCommand (holds_bind (holds_requireCodes hC) fun _ => hb) hs h

/-- A command that only reads IN leaves what reads of IN leave. -/
theorem OfChannels.exec_reads (hC : Closed P E true w) {i : Instr}
    (hi : i ∈ [.countFreq, .checkMagic, .deserializeHeader, .rewindInput, .decodeSymbol])
    {s t : State} (hs : P s) (h : exec i s = .next t) : P t := by
  simp only [List.mem_cons, List.not_mem_nil, or_false] at hi
  obtain rfl | rfl | rfl | rfl | rfl := hi
  · exact hP.of_runCommand (holds_countFreq hC (fun _ => hP.congr rfl rfl rfl)
      fun _ _ _ _ => hP.congr rfl rfl rfl) hs h
  · exact hP.of_runCommand (holds_checkMagic hC fun _ => hP.congr rfl rfl rfl) hs h
  · exact hP.of_runCommand (holds_deserialize hC (fun _ _ _ => hP.congr rfl rfl rfl) (fun _ => hP.congr rfl rfl rfl)
      (fun _ => hP.congr rfl rfl rfl) fun _ _ _ => hP.congr rfl rfl rfl) hs h
  · exact hP.of_runCommand (holds_rewind hC) hs h
  · exact hP.of_runCommand (holds_bind (holds_requireTree hC) fun _ =>
      holds_decodeSymbol hC (fun _ _ => hP.congr rfl rfl rfl) fun _ _ => hP.congr rfl rfl rfl) hs h

/-- A command that only writes OUT leaves what writes of OUT leave. -/
theorem OfChannels.exec_writes (hC : Closed P E r true) {i : Instr}
    (hi : i ∈ [.writeMagic, .serializeHeader, .closeOutput] ∨ ∃ v, i = .encodeSymbol v)
    {s t : State} (hs : P s) (h : exec i s = .next t) : P t := by
  simp only [List.mem_cons, List.not_mem_nil, or_false] at hi
  obtain (rfl | rfl | rfl) | ⟨v, rfl⟩ := hi
  · exact hP.of_runCommand (holds_writeMagic hC) hs h
  · exact hP.of_runCommand (holds_bind (holds_requireTree hC) fun _ => holds_serialize hC) hs h
  · exact hP.of_runCommand (holds_closeOutput hC) hs h
  · exact hP.of_runCommand (holds_bind (holds_requireCodes hC) fun _ => holds_encodeCode hC _) hs h

end

/-! ## What every command keeps of the channels -/

/-- IN's bits are those of `s`, OUT has grown from `s`, and has stayed closed if it was. -/
structure ChannelsFrom (s u : State) : Prop where
  in_bits : u.inCh.bits = s.inCh.bits
  out_grows : s.outCh.bits <+: u.outCh.bits
  stays_closed : s.outCh.closed = true → u.outCh.closed = true

theorem ChannelsFrom.step {s u v : State} (h : ChannelsFrom s u) (k : ChannelStep u v) : ChannelsFrom s v :=
  ⟨k.in_bits.trans h.in_bits, h.out_grows.trans k.out_grows, k.stays_closed ∘ h.stays_closed⟩

theorem closed_channelsFrom (s : State) : Closed (ChannelsFrom s) (fun _ => True) true true where
  reads := fun _ {_ _} k _ h => h.step k
  writes := fun _ {_ _} k _ h => h.step k
  raised := fun _ _ => trivial
  stuck := fun _ => trivial
  cut := fun _ _ => trivial

theorem ofChannels_channelsFrom (s : State) : OfChannels (ChannelsFrom s) where
  congr hin hout _ h := ⟨hin ▸ h.in_bits, hout ▸ h.out_grows, hout ▸ h.stays_closed⟩

/-- No command changes IN's bits, takes bits of OUT away or reopens it, even when a hardware reset cuts it off. -/
theorem exec_channelsFrom {i : Instr} {s t : State} (h : exec i s = .next t) : ChannelsFrom s t :=
  have hP := ofChannels_channelsFrom s
  exec_holds (closed_channelsFrom s) (updates_of_congr fun _ _ => hP.congr) ⟨rfl, List.prefix_rfl, id⟩ h
    (fun _ => hP.congr rfl rfl rfl) (fun _ _ _ _ => hP.congr rfl rfl rfl) (fun _ _ _ _ => hP.congr rfl rfl rfl)
    fun u hu _ => hP.congr (s := u) rfl rfl rfl hu

/-! ## The parts single commands keep -/

theorem ofChannels_keepsChannels (s : State) : OfChannels (KeepsChannels s) where
  congr hin hout hio h := ⟨hin.trans h.1, hout.trans h.2.1, hio.trans h.2.2⟩

theorem closed_keepsChannels (s : State) : Closed (KeepsChannels s) (fun _ => True) false false :=
  ⟨nofun, nofun, fun _ _ => trivial, fun _ => trivial, fun _ _ => trivial⟩

theorem ofChannels_outCh (s : State) : OfChannels fun u => u.outCh = s.outCh where
  congr _ hout _ h := hout.trans h

theorem closed_outCh (s : State) : Closed (fun u => u.outCh = s.outCh) (fun _ => True) true false :=
  ⟨fun _ {_ _} _ hout h => hout.trans h, nofun, fun _ _ => trivial, fun _ => trivial, fun _ _ => trivial⟩

theorem ofChannels_inCh (s : State) : OfChannels fun u => u.inCh = s.inCh where
  congr hin _ _ h := hin.trans h

theorem closed_inCh (s : State) : Closed (fun u => u.inCh = s.inCh) (fun _ => True) false true :=
  ⟨nofun, fun _ {_ _} _ hin h => hin.trans h, fun _ _ => trivial, fun _ => trivial, fun _ _ => trivial⟩

end Sys2Proof.Machine

namespace Sys2Proof

open Machine

/-- Settles O52: channel calls only let OUT grow and never touch IN's bits, and each command makes only the calls of
its group. -/
theorem channelsFrame : Obligations.ChannelsFrame := by
  intro i s t h
  obtain ⟨hin, hgrow, hclosed⟩ := exec_channelsFrom h
  refine ⟨hin, hgrow, hclosed, fun hi => ?_, fun hi => ?_, fun hi => ?_⟩
  · exact (ofChannels_keepsChannels s).exec_noCall (closed_keepsChannels s) hi ⟨rfl, rfl, rfl⟩ h
  · exact (ofChannels_outCh s).exec_reads (closed_outCh s) hi rfl h
  · exact (ofChannels_inCh s).exec_writes (closed_inCh s) hi rfl h

end Sys2Proof
end

section
/-! Host register accesses (10_state R110, R137), and what a step keeps of the parameters, the acceptance copy and the
completion log. -/

namespace Sys2Proof.Machine

/-! ## Register accesses -/

theorem step_hostTurn {s : State} {op : HostOp} {rest : List HostOp} (h : s.host = op :: rest) :
    step s = hostTurn op rest s := by
  unfold step
  rw [h]

theorem accessOk_aligned {off : BitVec 8} (h : off.toNat % 4 = 0) : accessOk off 4 = true := by simp [accessOk, h]

/-- An aligned write of a register other than CMD (10_state R110). -/
theorem hostWrite_aligned {off : BitVec 8} (ha : off.toNat % 4 = 0) (h0 : off ≠ 0x00#8) (v : Word) (s : State) :
    hostWrite off 4 v s = .next (if off = 0x08#8 then { s with arg := v } else s) := by
  simp only [hostWrite, accessOk_aligned ha, if_neg h0, Bool.not_true, Bool.false_eq_true, if_false]
  split_ifs <;> rfl

theorem hostRead_busy {off : BitVec 8} (ha : off.toNat % 4 = 0) {s : State} (hb : s.status.busy = true) :
    hostRead off 4 s = .next { s with
      readLog := s.readLog ++ [{ off := off, value := busyRead off s }], draws := s.draws + 1 } := by
  simp [hostRead, accessOk_aligned ha, hb]

theorem hostRead_idle {off : BitVec 8} (ha : off.toNat % 4 = 0) {s : State} (hb : s.status.busy = false) :
    hostRead off 4 s = .next { s with readLog := s.readLog ++ [{ off := off, value := regRead off s }] } := by
  simp [hostRead, accessOk_aligned ha, hb]

/-- A read has no side effect: the read log and the counter of free values move on (20_memory R205). -/
theorem hostRead_next {off : BitVec 8} {bytes : Nat} {s t : State} (h : hostRead off bytes s = .next t) :
    t = { s with readLog := t.readLog, draws := t.draws } := by
  unfold hostRead at h
  split_ifs at h <;> cases h <;> rfl

/-! ## What steps keep -/

theorem updates_params (s : State) : Updates fun u => u.params = s.params :=
  updates_of_congr fun hparams _ _ _ _ h => hparams.trans h

/-- No command changes a parameter (00_scope R8). -/
theorem exec_params {i : Instr} {s t : State} (h : exec i s = .next t) : t.params = s.params :=
  exec_holds (Q := fun t => t.params = s.params) (closed_offChannels fun _ _ _ _ _ => id)
    (updates_params s) rfl h (fun _ hu => hu) (fun _ _ _ _ hu => hu) (fun _ _ _ _ hu => hu) fun _ hu _ => hu

/-- Inside a command that started in `s`: nothing logged yet, and draws only taken. -/
structure LogKept (s u : State) : Prop where
  log : u.log = s.log
  noReset : s.noReset → u.noReset

theorem closed_logKept (s : State) : Closed (LogKept s) (fun e => e = .cut → ¬ s.noReset) true true where
  reads := fun _ {_ _} h _ hs => ⟨by rw [h.only]; exact hs.log, fun hn => h.noReset (hs.noReset hn)⟩
  writes := fun _ {_ _} h _ hs => ⟨by rw [h.only]; exact hs.log, fun hn => h.noReset (hs.noReset hn)⟩
  raised := nofun
  stuck := nofun
  cut := fun hs hn _ hs' => hn (hs.noReset hs')

theorem updates_logKept (s : State) : Updates (LogKept s) :=
  updates_of_congr fun _ hlog _ _ hio h =>
    ⟨hlog.trans h.log, fun hn => by unfold State.noReset; rw [hio]; exact h.noReset hn⟩

/-- A command adds to the log, unless a hardware reset that was drawn empties it (10_state R151, 70_reset_and_hazards
R901). -/
theorem exec_log {i : Instr} {s t : State} (h : exec i s = .next t) :
    s.log <+: t.log ∨ (¬ s.noReset ∧ t.log = []) := by
  have grown : ∀ (u : State) e, LogKept s u → s.log <+: u.log ++ [e] := fun u e hu => hu.log ▸ List.prefix_append _ _
  exact exec_holds (Q := fun t => s.log <+: t.log ∨ (¬ s.noReset ∧ t.log = [])) (closed_logKept s) (updates_logKept s)
    ⟨rfl, id⟩ h (fun u hu => .inl (grown u _ hu)) (fun u _ _ _ hu => .inl (grown u _ hu))
    (fun u _ _ _ hu => .inl (grown u _ hu)) fun _ _ hcut => .inr ⟨hcut rfl, rfl⟩

theorem takeCommand_params (s : State) (w : Word) : (s.takeCommand w).params = s.params := by
  obtain ⟨i, -, e⟩ | ⟨sub, -, e⟩ := takeCommand_cases s w <;> simp [e]

/-- A word taken from the host leaves the log when it is legal and adds its own completion when it is not. -/
theorem takeCommand_log (s : State) (w : Word) : s.log <+: (s.takeCommand w).log := by
  obtain ⟨i, -, e⟩ | ⟨sub, -, e⟩ := takeCommand_cases s w <;> simp [e]

/-- The acceptance copy of STATUS stays as long as the command runs (10_state R137). -/
theorem step_accStatus {s t : State} (h : step s = .next t) (hs : s.status.busy = true) (ht : t.status.busy = true) :
    t.accStatus = s.accStatus := by
  cases step_cases h with
  | ran i _ _ he | ranLate i _ _ _ _ he => exact absurd ((exec_idle he).symm.trans ht) (by decide)
  | idle | dropped | argWritten | passed | registerRead | inSet | inReleased | outRead | outSet => rfl
  | taken _ _ _ hb => exact absurd (hb.symm.trans hs) (by decide)
  | wasReset => cases ht

/-- No step changes a parameter (00_scope R8). -/
theorem step_params {s t : State} (h : step s = .next t) : t.params = s.params := by
  cases step_cases h with
  | ran i _ _ he => exact exec_params he
  | ranLate i _ _ _ _ he =>
    have hparams := exec_params he
    exact hparams
  | idle | dropped | argWritten | passed | registerRead | inSet | inReleased | outRead | outSet | wasReset => rfl
  | taken => exact takeCommand_params _ _

end Sys2Proof.Machine

namespace Sys2Proof

open Machine

/-- Settles O12: a read while BUSY = 1 is `busyRead`, and only the end of the command changes the acceptance copy. -/
theorem readsWhileBusy : Obligations.ReadsWhileBusy := by
  refine ⟨fun s off rest hb ha hh => ?_, fun s => ⟨rfl, rfl⟩, fun s t h hs ht => step_accStatus h hs ht,
    fun s t off bytes rest hh h => ?_⟩
  · have hstep := (step_hostTurn hh).trans (hostRead_busy ha (s := { s with host := rest }) hb)
    refine ⟨_, busyRead off s, hstep, rfl, ?_, ?_, ?_, ?_⟩ <;> rintro rfl <;> rfl
  · rw [step_hostTurn hh] at h
    exact hostRead_next (s := { s with host := rest }) h

/-- Settles O59: the reads of MAGIC_ID, BUSY or not, give the parameter, which no step changes. -/
theorem parametersNeverChange : Obligations.ParametersNeverChange := by
  refine ⟨fun s t => step_params, fun s rest hh => ?_⟩
  rw [step_hostTurn hh]
  cases hb : s.status.busy with
  | true => exact ⟨_, hostRead_busy (s := { s with host := rest }) rfl hb, rfl⟩
  | false => exact ⟨_, hostRead_idle (s := { s with host := rest }) rfl hb, rfl⟩

/-- Settles O60: commands and words taken from the host append, and no other host operation but a reset touches the
log. -/
theorem logOnlyGrows : Obligations.LogOnlyGrows := by
  intro s t h
  cases step_cases h with
  | ran i _ _ he | ranLate i _ _ _ _ he => exact (exec_log he).imp_right fun ⟨hn, hl⟩ => ⟨.inl hn, hl⟩
  | idle | dropped | argWritten | passed | registerRead | inSet | inReleased | outRead | outSet =>
    exact .inl List.prefix_rfl
  | taken _ rest w => exact .inl (takeCommand_log { s with host := rest } w)
  | wasReset rest hh => exact .inr ⟨.inr ⟨rest, hh⟩, rfl⟩

/-- Settles O10: an aligned write of any register but CMD and ARG is ignored, and one of ARG writes ARG alone. -/
theorem registerWritesReachOnlyCmdAndArg : Obligations.RegisterWritesReachOnlyCmdAndArg := by
  intro s off v rest ha hh
  have hstep : off ≠ 0x00#8 → step s = .next (if off = 0x08#8 then { s with host := rest, arg := v }
      else { s with host := rest }) := fun h0 =>
    (step_hostTurn hh).trans (hostWrite_aligned ha h0 v { s with host := rest })
  constructor
  · intro h0 h8
    rw [hstep h0, if_neg h8]
  · intro h8
    rw [hstep (by rw [h8]; decide), if_pos h8]

end Sys2Proof
end

section
/-! The 32-bit values of the register window (10_state R110 to R136), their values at reset (R160), and the tree that a
complete NODE memory holds (R125). -/

namespace Sys2Proof.Machine

/-! ## Fields of a register value -/

/-- A register value is its fields, each with its place value. -/
theorem toNat_append_eq {m n : Nat} (x : BitVec m) (y : BitVec n) : (x ++ y).toNat = 2 ^ n * x.toNat + y.toNat := by
  rw [BitVec.toNat_append, ← Nat.shiftLeft_add_eq_or_of_lt y.isLt, Nat.shiftLeft_eq, Nat.mul_comm]

@[simp] theorem flagBit_toNat (b : Bool) : (flagBit b).toNat = b.toNat := BitVec.toNat_ofBool b

/-- STATUS, field by field (10_state R112). -/
theorem Status.word_toNat (st : Status) : st.word.toNat =
    st.busy.toNat + 2 * st.done.toNat + 4 * st.err.isSome.toNat + 2 ^ 4 * st.errCode.toNat + 2 ^ 8 * st.errSub.toNat +
      2 ^ 12 * st.treeValid.toNat + 2 ^ 13 * st.codesValid.toNat + 2 ^ 14 * st.eosSeen.toNat +
      2 ^ 15 * st.cmdOverrun.toNat + 2 ^ 16 * st.closeFailed.toNat + 2 ^ 17 * st.infoEof.toNat +
      2 ^ 24 * st.lastOp.toNat := by
  unfold Status.word
  simp only [toNat_append_eq, flagBit_toNat, BitVec.toNat_ofNat]
  omega

/-- RES_LEN, field by field (10_state R131). -/
theorem resLen_toNat (r : ResLen) :
    (flagBit r.cvalid ++ (0#22 ++ r.len)).toNat = 2 ^ 31 * r.cvalid.toNat + r.len.toNat := by
  simp only [toNat_append_eq, flagBit_toNat, BitVec.toNat_ofNat]
  omega

/-- RES_NODE, field by field (10_state R134). -/
theorem resNode_toNat (r : ResNode) : (flagBit r.kind ++ (0#5 ++ (r.right ++ (0#6 ++ r.left)))).toNat =
    2 ^ 31 * r.kind.toNat + 2 ^ 16 * r.right.toNat + r.left.toNat := by
  simp only [toNat_append_eq, flagBit_toNat, BitVec.toNat_ofNat]
  omega

theorem resCodeWord_toNat (rc : BitVec 256) (k : Nat) :
    (resCodeWord rc k).toNat = rc.toNat / 2 ^ (32 * k) % 2 ^ 32 := by
  simp [resCodeWord, Nat.shiftRight_eq_div_pow]

/-- Reserved offsets read 0 (10_state R110). -/
theorem regRead_reserved {off : BitVec 8} (h : (0x34 ≤ off.toNat ∧ off.toNat ≤ 0x3C) ∨ 0x60 ≤ off.toNat) (s : State) :
    regRead off s = 0#32 := by
  unfold regRead
  split
  case h_22 => rfl
  all_goals omega

/-- RES_CODEk (10_state R136). -/
theorem regRead_resCode {k : Nat} (h : k < 8) (s : State) :
    regRead (BitVec.ofNat 8 (0x40 + 4 * k)) s = resCodeWord s.resCode k := by
  interval_cases k <;> rfl

/-- Every register but MAGIC_ID reads 0 at reset (10_state R160). -/
theorem regRead_reset {off : BitVec 8} (h : off ≠ 0x30#8) : regRead off State.reset = 0#32 := by
  unfold regRead
  split
  case h_13 heq => exact absurd (BitVec.eq_of_toNat_eq heq) h
  all_goals rfl

end Sys2Proof.Machine

namespace Sys2Proof

open Machine

/-- Settles O9: each register by its offset, the registers with fields by their place values, and the error numbers by
cases on the error. -/
theorem registerLayout : Obligations.RegisterLayout := by
  intro s
  refine ⟨fun h => ?_, fun e _ => ?_, fun n hn h => ?_, rfl, rfl, rfl, ?_, ?_, ?_, ?_, rfl,
    fun off h => regRead_reserved h s, s.status.word_toNat, resLen_toNat _, ?_, resNode_toNat _, rfl, fun k hk => ?_⟩
  · simp [Status.errCode, Status.errSub, h]
  · cases e with
    | malformedHeader sub | ioError sub | illegalCommand sub | notReady sub => cases sub <;> simp
    | _ => simp
  · simp only [Status.errCode, Status.errSub, h]
    clear h
    revert n
    decide
  · exact BitVec.toNat_setWidth_of_le (by decide)
  · exact BitVec.toNat_setWidth_of_le (by decide)
  · exact BitVec.toNat_setWidth_of_le (by decide)
  · exact BitVec.toNat_setWidth_of_le (by decide)
  · exact BitVec.toNat_setWidth_of_le (by decide)
  · rw [regRead_resCode hk, resCodeWord_toNat]

/-- Settles O15: the fields of State.reset, the registers by their offsets, and FREQ by its one count. -/
theorem resetValues : Obligations.ResetValues := by
  refine ⟨rfl, rfl, rfl, rfl, fun off h => regRead_reset h, rfl, fun b hb => ?_, resetFreq_get 256, rfl⟩
  exact (resetFreq_get b).trans (if_neg (by omega))

/-- Settles O28: the slots are one tree, whose leaves and internal nodes are all NODE_COUNT = 2 * LEAF_COUNT - 1 of
them. -/
theorem completeTreeHasTree : Obligations.CompleteTreeHasTree := by
  intro s h
  obtain ⟨T, hT, hacc⟩ := h.holds_tree
  have hpos := h.leafCount_pos
  have hnodes := h.nodeCount_eq
  have hslot : s.tree = some (slotTree s.nodes (s.nodeCount.toNat - 1)) :=
    h.arena.treeAt_slot (i := s.nodeCount.toNat - 1) (by omega) (by omega)
  have hsize : T.leaves + T.internals = s.nodeCount.toNat := by
    rw [Option.some.inj (hT.symm.trans hslot)]
    exact h.arena.count
  have hleaves := T.leaves_eq
  exact ⟨T, hT, by omega, by omega, hacc⟩

end Sys2Proof
end

section
/-! TREE_VALID and CODES_VALID after the commands that write FREQ or replace the tree (10_state R123), and after the
sequenced commands COMPRESS and DECOMPRESS by the step that failed (46_orchestration R720, R730). -/

namespace Sys2Proof.Machine

/-- TREE_VALID and CODES_VALID. -/
def State.valid (s : State) : Bool × Bool := (s.status.treeValid, s.status.codesValid)

/-- Channel calls leave the validity flags. -/
theorem closed_valid (v : Bool × Bool) : Closed (fun u => u.valid = v) (fun _ => True) true true :=
  closed_offChannels fun _ _ _ _ _ => id

/-! ## The bodies that write the validity flags -/

/-- COUNT_FREQ's body after its first update sets neither flag (41_frequency R450). -/
theorem holds_countRest {P : State → Prop} {E : Stop → Prop} (hC : Closed P E true true)
    (hP : ∀ s b c, P s → P (State.setFreq s b c)) :
    (do countLoop ((← get).inLeft / 8 + 1) : Body Unit).Holds P E :=
  holds_bind holds_get fun _ => holds_countLoop hC (fun _ _ _ _ => hP _ _ _) _

/-- BUILD_TREE sets TREE_VALID when it succeeds, and CODES_VALID never (42_tree_builder R500). -/
theorem buildTreeBody_valid (s : State) : (∀ u, buildTreeBody s = .ok () u → u.valid = (true, false)) ∧
    ∀ e u, buildTreeBody s = .error e u → u.valid = (false, false) := by
  by_cases hc : s.counted = []
  · rw [buildTreeBody_empty hc]
    exact ⟨fun _ h => (by cases h), fun _ _ h => by cases h; rfl⟩
  · obtain ⟨v, T, hv, hb⟩ := buildTreeBody_builds hc
    rw [hv]
    exact ⟨fun _ h => (by cases h; exact Prod.ext hb.treeValid hb.codesValid), fun _ _ h => by cases h⟩

/-- An error of the first body of two, or of the second. -/
theorem bind_error {α β : Type} {m : Body α} {f : α → Body β} {s t : State} {e : Stop} (h : (m >>= f) s = .error e t) :
    m s = .error e t ∨ ∃ a u, m s = .ok a u ∧ f a u = .error e t := by
  rw [Body.bind_apply] at h
  cases hm : m s with
  | ok a u => exact .inr ⟨a, u, rfl, by simpa [hm] using h⟩
  | error e' u => exact .inl (by simpa [hm] using h)

theorem nodesLostOnError_error {m : Body Unit} {s t : State} {e : Stop} (h : nodesLostOnError m s = .error e t) :
    ∃ u, m s = .error e u ∧ t.valid = u.valid := by
  unfold nodesLostOnError at h
  split at h
  · rename_i hm
    cases h
    exact ⟨_, hm, rfl⟩
  · exact ⟨t, h, rfl⟩

/-- DESERIALIZE_HEADER sets TREE_VALID when it succeeds, and CODES_VALID never (44_header_codec R630). -/
theorem deserializeBody_valid (s : State) : (∀ u, deserializeBody s = .ok () u → u.valid = (true, false)) ∧
    ∀ e u, deserializeBody s = .error e u → u.valid = (false, false) := by
  refine ⟨fun u h => ?_, fun e t h => ?_⟩
  · obtain ⟨-, htree, hcodes, -⟩ := deserializeBody_complete h
    exact Prod.ext htree hcodes
  · obtain ⟨u, hu, ht⟩ := nodesLostOnError_error h
    have hparse := holds_parse (closed_valid (false, false)) (fun _ _ _ h => h) 257 ⟨0, 0, 0⟩ s.treeGone rfl
    rw [ht]
    obtain h | ⟨_, v, hv, h⟩ := bind_error hu
    · cases h
    cases hv
    obtain h | ⟨x, v, hv, h⟩ := bind_error h
    · exact (hparse.2 _ _ h).1
    have hx := hparse.1 _ _ hv
    simp only [Body.bind_apply, Body.get_apply] at h
    cases hroot : badRootLeaf v.nodes[x.1]? with
    | none => rw [hroot] at h; cases h
    | some sym => rw [hroot] at h; cases h; exact hx

/-- GEN_CODES sets CODES_VALID when it succeeds, leaves TREE_VALID, and raises no error (43_code_table R550). -/
theorem genCodesBody_valid (s : State) :
    (∀ u, genCodesBody s = .ok () u → u.valid = (s.status.treeValid, true)) ∧
    ∀ e info u, genCodesBody s ≠ .error (.raised e info) u := by
  simp only [genCodesBody, Body.bind_apply, Body.modify_apply, Body.get_apply]
  generalize visit _ _ _ _ _ = codes
  cases codes with
  | none => exact ⟨fun _ h => (by cases h), fun _ _ _ h => by cases h⟩
  | some c => exact ⟨fun _ h => (by cases h; rfl), fun _ _ _ h => by cases h⟩

/-! ## Primitive commands -/

/-- A body that sets neither flag, in a command that starts with both clear, ends the command with both clear. -/
theorem runCommand_validClear {op : Opcode} {body : Body Unit} {s t : State}
    (hb : body.Holds (fun u => u.valid = (false, false)) fun _ => True) (hs : s.valid = (false, false))
    (h : runCommand op body s = .next t) : t.valid = (false, false) :=
  runCommand_holds (Q := fun u => u.valid = (false, false)) hb hs (fun _ hu => hu) (fun _ _ _ hu => hu)
    (fun _ _ _ => rfl) h

/-- The commands that write FREQ, and SOFT_RESET, clear both flags (10_state R123). -/
theorem exec_validClear {i : Instr} (hi : i = .countFreq ∨ (∃ v, i = .writeFreq v) ∨ i = .softReset) {s t : State}
    (h : exec i s = .next t) : t.valid = (false, false) := by
  obtain rfl | ⟨v, rfl⟩ | rfl := hi
  · exact runCommand_validClear (s := { s.invalidateTree with freq := resetFreq })
      (holds_countRest (closed_valid _) fun _ _ _ h => h) rfl h
  · cases h; rfl
  · cases h; rfl

/-- The log and the command word are those of `s`. -/
def LogOf (s u : State) : Prop := u.log = s.log ∧ u.cmd = s.cmd

theorem closed_logOf (s : State) : Closed (LogOf s) (fun _ => True) true true :=
  closed_offChannels fun _ _ _ _ _ => id

/-- A command whose body sets TREE_VALID only when it succeeds, and CODES_VALID never (10_state R123). -/
theorem runCommand_builder {op : Opcode} {body : Body Unit} {s t : State}
    (hv : (∀ u, body s = .ok () u → u.valid = (true, false)) ∧ ∀ e u, body s = .error e u → u.valid = (false, false))
    (hlog : body.Holds (LogOf s) fun _ => True) (h : runCommand op body s = .next t) :
    t.status.codesValid = false ∧ (t.status.treeValid = true →
      t.log = s.log ++ [{ cmd := s.cmd, err := none, info := 0#32, op := 0#8 }]) := by
  obtain ⟨u, hu, rfl⟩ | ⟨e, info, u, hu, rfl⟩ | ⟨u, hu, rfl⟩ := runCommand_next h
  · obtain ⟨hl, hc⟩ := (hlog s ⟨rfl, rfl⟩).1 _ _ hu
    exact ⟨congrArg Prod.snd (hv.1 u hu), fun _ => by rw [State.complete_log, hl, hc]⟩
  · obtain ⟨htree, hcodes⟩ := Prod.mk.inj (hv.2 _ u hu)
    exact ⟨hcodes, fun ht => absurd (htree.symm.trans ht) (by decide)⟩
  · exact ⟨rfl, fun ht => by cases ht⟩

/-- BUILD_TREE and DESERIALIZE_HEADER (10_state R123). -/
theorem exec_builder {i : Instr} (hi : i = .buildTree ∨ i = .deserializeHeader) {s t : State}
    (h : exec i s = .next t) : t.status.codesValid = false ∧ (t.status.treeValid = true →
      t.log = s.log ++ [{ cmd := s.cmd, err := none, info := 0#32, op := 0#8 }]) := by
  obtain rfl | rfl := hi
  · exact runCommand_builder (buildTreeBody_valid s)
      (holds_buildTree (closed_logOf s) (fun _ _ _ h => h) (fun _ h => h) fun _ _ _ h => h) h
  · exact runCommand_builder (deserializeBody_valid s)
      (holds_deserialize (closed_logOf s) (fun _ _ _ h => h) (fun _ h => h) (fun _ h => h) fun _ _ _ h => h) h

/-! ## COMPRESS and DECOMPRESS, when no hardware reset is drawn -/

/-- How a body run from `s` leaves the validity flags: `done` after success, `failed` after an error; no hardware
reset cuts it off. -/
structure Body.Flags (m : Body Unit) (s : State) (done failed : Bool × Bool) : Prop where
  ok : ∀ u, m s = .ok () u → u.valid = done ∧ u.noReset
  raised : ∀ e info u, m s = .error (.raised e info) u → u.valid = failed ∧ u.noReset
  uncut : ∀ u, m s ≠ .error .cut u

theorem closed_noReset : Closed State.noReset (· ≠ .cut) true true where
  reads := fun _ {_ _} h _ => h.noReset
  writes := fun _ {_ _} h _ => h.noReset
  raised := nofun
  stuck := nofun
  cut := fun hs hn => absurd hs hn

theorem closed_validKept (v : Bool × Bool) : Closed (fun u => u.valid = v ∧ u.noReset) (· ≠ .cut) true true :=
  closed_part State.valid (fun _ _ _ _ _ => rfl) v

/-- A body that never writes the flags. -/
theorem flags_kept {m : Body Unit} {v : Bool × Bool} {s : State} (hm : KeepsPart State.valid v m) (hv : s.valid = v)
    (hn : s.noReset) : m.Flags s v v :=
  have h := hm s ⟨hv, hn⟩
  ⟨fun u hu => h.1 () u hu, fun _ _ u hu => (h.2 _ u hu).1, fun u hu => (h.2 _ u hu).2 rfl⟩

/-- A body whose flags after each end are known, and which keeps the absence of a reset. -/
theorem flags_of {m : Body Unit} {done failed : Bool × Bool} {s : State} (hm : m.Holds State.noReset (· ≠ .cut))
    (hn : s.noReset) (hok : ∀ u, m s = .ok () u → u.valid = done)
    (herr : ∀ e info u, m s = .error (.raised e info) u → u.valid = failed) : m.Flags s done failed :=
  have h := hm s hn
  ⟨fun u hu => ⟨hok u hu, h.1 () u hu⟩, fun e info u hu => ⟨herr e info u hu, (h.2 _ u hu).1⟩,
    fun u hu => (h.2 _ u hu).2 rfl⟩

section

variable {s : State} (hn : s.noReset)
include hn

theorem flags_countFreq : countFreqBody.Flags s (false, false) (false, false) :=
  have h := flags_kept (s := { s.invalidateTree with freq := resetFreq })
    (holds_countRest (closed_validKept (false, false)) fun _ _ _ h => h) rfl hn
  ⟨h.ok, h.raised, h.uncut⟩

theorem flags_buildTree : buildTreeBody.Flags s (true, false) (false, false) :=
  flags_of (holds_buildTree closed_noReset (fun _ _ _ h => h) (fun _ h => h) fun _ _ _ h => h) hn
    (buildTreeBody_valid s).1 fun _ _ => (buildTreeBody_valid s).2 _

theorem flags_genCodes (hv : s.valid = (true, false)) (failed : Bool × Bool) :
    genCodesBody.Flags s (true, true) failed := by
  refine flags_of (holds_genCodes closed_noReset (fun _ _ h => h) fun _ _ h => h) hn
    (fun u hu => ?_) fun e info u hu => ?_
  · obtain ⟨htree, -⟩ := Prod.mk.inj hv
    rw [(genCodesBody_valid s).1 u hu, htree]
  · exact absurd hu ((genCodesBody_valid s).2 e info u)

theorem flags_decompressMagic :
    decompressMagicBody.Flags s (s.status.treeValid, false) (s.status.treeValid, false) :=
  have h := flags_kept (s := s.setCodesValid false)
    (holds_checkMagic (closed_validKept (s.status.treeValid, false)) fun _ h => h) rfl hn
  ⟨h.ok, h.raised, h.uncut⟩

theorem flags_deserialize : deserializeBody.Flags s (true, false) (false, false) :=
  flags_of (holds_deserialize closed_noReset (fun _ _ _ h => h) (fun _ h => h) (fun _ h => h) fun _ _ _ h => h) hn
    (deserializeBody_valid s).1 fun _ _ => (deserializeBody_valid s).2 _

end

/-- COMPRESS or DECOMPRESS ended with the flags `done` after success, `failed op` after an error in the body of `op`. -/
def EndedWith (done : Bool × Bool) (failed : Opcode → Bool × Bool) (t : State) : Prop :=
  (∃ u : State, u.valid = done ∧ t = u.complete) ∨
  ∃ (op : Opcode) (e : Err) (info : Word) (u : State), u.valid = failed op ∧ t = u.raise e info op

/-- The error path leaves the flags as the failing body left them (46_orchestration R740). -/
theorem errorPath_valid {op : Opcode} {e : Err} {info : Word} {s t : State} (hn : s.noReset)
    (h : errorPath op e info s = .next t) : ∃ u : State, u.valid = s.valid ∧ t = u.raise e info op := by
  have kept : ∀ {u : State}, ChannelStep s u → u.valid = s.valid := fun hu => by rw [hu.only]; rfl
  obtain ⟨-, rfl⟩ | ⟨-, u, hu, -, ⟨-, rfl⟩ | ⟨c, -, rfl⟩ | ⟨-, hcut, -⟩⟩ := errorPath_next h
  · exact ⟨s, rfl, rfl⟩
  · exact ⟨u, kept hu, rfl⟩
  · exact ⟨{ u with status := { u.status with closeFailed := true } }, kept (u := u) hu, rfl⟩
  · exact absurd hn hcut

section

variable {done : Bool × Bool} {failed : Opcode → Bool × Bool} {rest : List (Opcode × Body Unit)} {s t : State}

/-- One step of COMPRESS or DECOMPRESS, and then the rest of it. -/
theorem runSteps_cons_flags {op : Opcode} {body : Body Unit} {v : Bool × Bool} (hb : body.Flags s v (failed op))
    (hrest : ∀ u : State, u.valid = v → u.noReset → runSteps rest u = .next t → EndedWith done failed t)
    (h : runSteps ((op, body) :: rest) s = .next t) : EndedWith done failed t := by
  unfold runSteps at h
  split at h <;> rename_i hr
  · obtain ⟨hv, hn⟩ := hb.ok _ hr
    exact hrest _ hv hn h
  · obtain ⟨hv, hn⟩ := hb.raised _ _ _ hr
    obtain ⟨u, hu, rfl⟩ := errorPath_valid hn h
    exact .inr ⟨op, _, _, u, hu.trans hv, rfl⟩
  · cases h
  · exact absurd hr (hb.uncut _)

/-- Steps that keep the flags. -/
theorem runSteps_kept_flags (hb : ∀ b ∈ rest, KeepsPart State.valid done b.2 ∧ failed b.1 = done)
    (hv : s.valid = done) (hn : s.noReset) (h : runSteps rest s = .next t) : EndedWith done failed t := by
  induction rest generalizing s with
  | nil => cases h; exact .inl ⟨s, hv, rfl⟩
  | cons b rest ih =>
    obtain ⟨hkeep, hfail⟩ := hb b List.mem_cons_self
    have hflags := flags_kept hkeep hv hn
    rw [← hfail] at hflags
    exact runSteps_cons_flags hflags
      (fun u hu => ih (fun b hb' => hb b (List.mem_cons_of_mem _ hb')) (hu.trans hfail)) h

end

/-- COMPRESS: both flags are 0 when COUNT_FREQ or BUILD_TREE failed, both 1 after any later end (46_orchestration
R720). -/
theorem execCompress_flags {s t : State} (hn : s.noReset) (h : execCompress s = .next t) :
    EndedWith (true, true) (fun op => (decide (op ≠ 0x10#8 ∧ op ≠ 0x18#8), decide (op ≠ 0x10#8 ∧ op ≠ 0x18#8))) t := by
  refine runSteps_cons_flags (flags_countFreq hn) (fun u _ hu => ?_) h
  refine runSteps_cons_flags (flags_buildTree hu) (fun v hv hnv => ?_)
  refine runSteps_cons_flags (flags_genCodes hnv hv _) (fun w hw hnw => ?_)
  have hC := closed_validKept (true, true)
  refine runSteps_kept_flags ?_ hw hnw
  simp only [List.forall_mem_cons, List.not_mem_nil]
  exact ⟨⟨holds_writeMagic hC, rfl⟩, ⟨holds_serialize hC, rfl⟩, ⟨holds_rewind hC, rfl⟩, ⟨holds_encodePayload hC, rfl⟩,
    ⟨holds_closeOutput hC, rfl⟩, nofun⟩

/-- DECOMPRESS: CODES_VALID is 0; TREE_VALID stays when CHECK_MAGIC failed, is 0 when DESERIALIZE_HEADER failed, 1 after
any later end (46_orchestration R730). -/
theorem execDecompress_flags {s t : State} (hn : s.noReset) (h : execDecompress s = .next t) :
    EndedWith (true, false)
      (fun op => (if op = 0x2A#8 then s.status.treeValid else decide (op ≠ 0x2B#8), false)) t := by
  refine runSteps_cons_flags (flags_decompressMagic hn) (fun u _ hu => ?_) h
  refine runSteps_cons_flags (flags_deserialize hu) (fun v hv hnv => ?_)
  have hC := closed_validKept (true, false)
  refine runSteps_kept_flags ?_ hv hnv
  simp only [List.forall_mem_cons, List.not_mem_nil]
  exact ⟨⟨holds_decodePayload hC fun _ _ h => h, rfl⟩, ⟨holds_closeOutput hC, rfl⟩, nofun⟩

/-- DECOMPRESS leaves CODES_VALID = 0 whatever the channels do (46_orchestration R730, log 35). -/
theorem execDecompress_codesValid {s t : State} (h : execDecompress s = .next t) : t.status.codesValid = false := by
  have hC : Closed (fun u : State => u.status.codesValid = false) (fun _ => True) true true :=
    closed_offChannels fun _ _ _ _ _ => id
  refine runSteps_holds (s := s.setCodesValid false) (Q := fun u => u.status.codesValid = false) hC
    (steps := (0x2A#8, checkMagicBody) :: decompressSteps.tail) ?_ rfl (fun _ hu => hu) (fun _ _ _ _ hu => hu)
    (fun _ _ _ _ hu => hu) (fun _ _ _ => rfl) h
  simp only [decompressSteps, List.tail_cons, List.forall_mem_cons, List.not_mem_nil]
  exact ⟨holds_checkMagic hC fun _ h => h,
    holds_deserialize hC (fun _ _ _ h => h) (fun _ h => h) (fun _ _ => rfl) (fun _ _ _ h => h),
    holds_decodePayload hC fun _ _ h => h, holds_closeOutput hC, nofun⟩

/-! ## What the completion entry says of how a command ended -/

/-- A success is no error completion: its entry carries no error (40_control R406, 60_exceptions R820). -/
theorem not_failedWith_complete {e : Err} {info : Word} {op : Opcode} {s u : State} :
    ¬ FailedWith e info op s u.complete := by
  rintro ⟨-, -, -, -, -, hlog⟩
  have hentry := (List.append_inj' hlog rfl).2
  simp at hentry

/-- An error completion is no success. -/
theorem raise_log_ne_success {e : Err} {info : Word} {op : Opcode} {s u : State} :
    (u.raise e info op).log ≠ s.log ++ [{ cmd := s.cmd, err := none, info := 0#32, op := 0#8 }] := by
  intro hlog
  have hentry := (List.append_inj' hlog rfl).2
  simp at hentry

/-- The flags after an error completion are those of the opcode in ERR_OP. -/
theorem EndedWith.failed {done : Bool × Bool} {failed : Opcode → Bool × Bool} {s t : State}
    (h : EndedWith done failed t) {e : Err} {info : Word} {op : Opcode} (hf : FailedWith e info op s t) :
    t.valid = failed op := by
  obtain ⟨u, -, rfl⟩ | ⟨op', e', info', u, hu, rfl⟩ := h
  · exact absurd hf not_failedWith_complete
  · obtain ⟨-, -, -, -, hop, -⟩ := hf
    exact hop ▸ hu

/-- The flags after a success. -/
theorem EndedWith.succeeded {done : Bool × Bool} {failed : Opcode → Bool × Bool} {s t : State}
    (h : EndedWith done failed t) (hs : t.log = s.log ++ [{ cmd := s.cmd, err := none, info := 0#32, op := 0#8 }]) :
    t.valid = done := by
  obtain ⟨u, hu, rfl⟩ | ⟨op', e', info', u, hu, rfl⟩ := h
  · exact hu
  · exact absurd hs raise_log_ne_success

end Sys2Proof.Machine

namespace Sys2Proof

open Machine

/-- Settles O55: the primitive commands by what their bodies leave, COMPRESS and DECOMPRESS by the step at which
they ended. -/
theorem staleTreeInvalidated : Obligations.StaleTreeInvalidated := by
  intro i s t h
  refine ⟨fun hi => Prod.mk.inj (exec_validClear hi h), fun hi => exec_builder hi h, ?_, ?_⟩
  · rintro rfl hn
    have hend := execCompress_flags hn h
    refine ⟨?_, fun e info op hf => congrArg Prod.fst (hend.failed hf), fun hs => congrArg Prod.fst (hend.succeeded hs)⟩
    obtain ⟨u, hu, rfl⟩ | ⟨op, e, info, u, hu, rfl⟩ := hend
    all_goals exact (congrArg Prod.snd hu).trans (congrArg Prod.fst hu).symm
  · rintro rfl
    refine ⟨execDecompress_codesValid h, fun hn => ?_⟩
    have hend := execDecompress_flags hn h
    have htree : ∀ e info op, FailedWith e info op s t →
        t.status.treeValid = if op = 0x2A#8 then s.status.treeValid else decide (op ≠ 0x2B#8) :=
      fun e info op hf => congrArg Prod.fst (hend.failed hf)
    exact ⟨fun e info hf => htree _ _ _ hf, fun e info hf => htree _ _ _ hf,
      fun e info op hf hA hB => by rw [htree _ _ _ hf, if_neg hA, decide_eq_true hB],
      fun hs => congrArg Prod.fst (hend.succeeded hs)⟩

end Sys2Proof
end

section
/-! Channel failures (20_memory R214, 60_exceptions R801), what a host register read leaves (R205), and what the host
may and may not do (R202, R222, 70_reset_and_hazards R910, R920). -/

namespace Sys2Proof.Machine

/-! ## A failure that was drawn, command by command -/

theorem reports_readNode {subs : List IoSub} (idx : Opnd) : (readNodeBody idx).Reports subs := by
  intro code rest before s hs
  simp only [readNodeBody, Body.bind_apply, Body.get_apply]
  cases s.nodes[operandIndex idx]? with
  | none => exact trivial
  | some nd => exact ⟨⟨rfl, rfl, rfl⟩, hs.waits_congr rfl rfl⟩

theorem reports_requireIndex {subs : List IoSub} (idx : Opnd) : (requireIndex idx).Reports subs :=
  reports_bind reports_get fun _ => reports_require _ _

theorem reports_softReset {subs : List IoSub} : softResetBody.Reports subs :=
  reports_modify fun _ => ⟨⟨rfl, rfl, rfl⟩, rfl, rfl⟩

theorem reports_writeFreq {subs : List IoSub} (sym : Opnd) : (writeFreqBody sym).Reports subs :=
  reports_modify fun _ => ⟨⟨rfl, rfl, rfl⟩, rfl, rfl⟩

theorem reports_readFreq {subs : List IoSub} (sym : Opnd) : (readFreqBody sym).Reports subs :=
  reports_modify fun _ => ⟨⟨rfl, rfl, rfl⟩, rfl, rfl⟩

theorem reports_lookupCode {subs : List IoSub} (sym : Opnd) : (lookupCodeBody sym).Reports subs :=
  reports_modify fun _ => ⟨⟨rfl, rfl, rfl⟩, rfl, rfl⟩

theorem reports_decompressMagic {subs : List IoSub} (h : .inRead ∈ subs) : decompressMagicBody.Reports subs :=
  reports_bind (reports_modify fun _ => ⟨⟨rfl, rfl, rfl⟩, rfl, rfl⟩) fun _ => reports_checkMagic h

/-- Every way a primitive command ends when a failure is drawn: before it, or with it, reported with the sub-code of a
call that the command makes. -/
theorem exec_reports {i : Instr} {code : Word} {rest before : List IoDraw} {s t : State} (hc : i ≠ .compress)
    (hd : i ≠ .decompress) (hs : Failing code rest before s) (h : exec i s = .next t) :
    t.inCh.bits = s.inCh.bits ∧ (Unmet code rest before s t ∨
      (t.io = rest ∧ t.outCh.closed = false ∧
        ∃ sub ∈ callSubs i, FailedWith (.ioError sub) code i.opcode s t)) := by
  have read : .inRead ∈ [IoSub.inRead] := List.mem_singleton_self _
  have write : .outWrite ∈ [IoSub.outWrite] := List.mem_singleton_self _
  have read' : .inRead ∈ [IoSub.inRead, .outWrite] := List.mem_cons_self ..
  have write' : .outWrite ∈ [IoSub.inRead, .outWrite] := List.mem_cons_of_mem _ write
  cases i with
  | nop => exact runCommand_reports (reports_pure ()) hs h
  | softReset => exact runCommand_reports reports_softReset hs h
  | countFreq => exact runCommand_reports (reports_countFreq read) hs h
  | writeFreq sym => exact runCommand_reports (reports_writeFreq sym) hs h
  | readFreq sym => exact runCommand_reports (reports_readFreq sym) hs h
  | buildTree => exact runCommand_reports reports_buildTree hs h
  | readNode idx =>
    exact runCommand_reports (reports_bind reports_requireTree fun _ =>
      reports_bind (reports_requireIndex idx) fun _ => reports_readNode idx) hs h
  | genCodes => exact runCommand_reports (reports_bind reports_requireTree fun _ => reports_genCodes) hs h
  | lookupCode sym =>
    exact runCommand_reports (reports_bind reports_requireCodes fun _ => reports_lookupCode sym) hs h
  | writeMagic => exact runCommand_reports (reports_writeMagic write) hs h
  | serializeHeader =>
    exact runCommand_reports (reports_bind reports_requireTree fun _ => reports_serialize write) hs h
  | checkMagic => exact runCommand_reports (reports_checkMagic read) hs h
  | deserializeHeader => exact runCommand_reports (reports_deserialize read) hs h
  | rewindInput => exact runCommand_reports (reports_rewind (List.mem_singleton_self _)) hs h
  | encodeSymbol sym =>
    exact runCommand_reports (reports_bind reports_requireCodes fun _ => reports_encodeCode write _) hs h
  | encodePayload =>
    exact runCommand_reports (reports_bind reports_requireCodes fun _ => reports_encodePayload read' write') hs h
  | closeOutput =>
    exact (runClose_reports hs h).imp_right (Or.imp_right fun ⟨hio, hopen, hf⟩ =>
      ⟨hio, hopen, _, List.mem_singleton_self _, hf⟩)
  | decodeSymbol =>
    exact runCommand_reports (reports_bind reports_requireTree fun _ => reports_decodeSymbol read) hs h
  | decodePayload =>
    exact runCommand_reports (reports_bind reports_requireTree fun _ => reports_decodePayload read' write') hs h
  | compress => exact absurd rfl hc
  | decompress => exact absurd rfl hd

/-- A step of COMPRESS or DECOMPRESS other than its close: it reports failures with the sub-codes of its opcode. -/
def StepReports (subs : List (Opcode × IoSub)) (b : Opcode × Body Unit) : Prop :=
  b.1 ≠ closeOutputOp ∧ ∃ l, b.2.Reports l ∧ ∀ sub ∈ l, (b.1, sub) ∈ subs

/-- The steps of COMPRESS before its close, each with the calls it makes (46_orchestration R720). -/
theorem compress_stepReports : ∀ b ∈ compressSteps.dropLast, StepReports (macroSubs .compress) b := by
  simp only [compressSteps, List.dropLast, List.forall_mem_cons]
  exact ⟨⟨by decide, [.inRead], reports_countFreq (by decide), by decide⟩,
    ⟨by decide, [], reports_buildTree, by decide⟩,
    ⟨by decide, [], reports_genCodes, by decide⟩,
    ⟨by decide, [.outWrite], reports_writeMagic (by decide), by decide⟩,
    ⟨by decide, [.outWrite], reports_serialize (by decide), by decide⟩,
    ⟨by decide, [.inReset], reports_rewind (by decide), by decide⟩,
    ⟨by decide, [.inRead, .outWrite], reports_encodePayload (by decide) (by decide), by decide⟩,
    nofun⟩

/-- The same for DECOMPRESS (46_orchestration R730). -/
theorem decompress_stepReports : ∀ b ∈ decompressSteps.dropLast, StepReports (macroSubs .decompress) b := by
  simp only [decompressSteps, List.dropLast, List.forall_mem_cons]
  exact ⟨⟨by decide, [.inRead], reports_decompressMagic (by decide), by decide⟩,
    ⟨by decide, [.inRead], reports_deserialize (by decide), by decide⟩,
    ⟨by decide, [.inRead, .outWrite], reports_decodePayload (by decide) (by decide), by decide⟩,
    nofun⟩

/-- Every way COMPRESS and DECOMPRESS end when a failure is drawn. -/
theorem execMacro_reports {i : Instr} {code : Word} {rest before : List IoDraw} {s t : State}
    (hi : i = .compress ∨ i = .decompress) (hrest : ∀ d ∈ rest, d ≠ .reset) (hs : Failing code rest before s)
    (h : exec i s = .next t) : t.inCh.bits = s.inCh.bits ∧ (Unmet code rest before s t ∨
      (∃ p ∈ macroSubs i, FailedWith (.ioError p.2) code p.1 s t ∧
        t.io = if p.1 = closeOutputOp then rest else rest.tail) ∨
      (t.io = rest ∧ t.status.closeFailed = true ∧
        ∃ e info op, FailedWith e info op s t ∧ ∀ sub, e ≠ .ioError sub)) := by
  obtain rfl | rfl := hi
  · exact runSteps_reports hrest compress_stepReports (by decide) hs h
  · exact runSteps_reports hrest decompress_stepReports (by decide) hs h

/-! ## The first channel call fails -/

section FirstCall

variable {s : State} {e : Word} {io : List IoDraw} (hio : s.io = .fail e :: io)
include hio

theorem readIn_fails (n : Nat) :
    readIn n s = .error (.raised (.ioError .inRead) e) { s with io := io }.loseInPos := by
  simp [readIn, inRead, hio]

theorem rewindBody_fails : rewindBody s = .error (.raised (.ioError .inReset) e) { s with io := io }.loseInPos := by
  simp [rewindBody, inReset, hio, checkIo_apply]

theorem checkMagicBody_fails :
    checkMagicBody s = .error (.raised (.ioError .inRead) e) { s with io := io }.loseInPos := by
  rw [checkMagicBody, Body.bind_apply, readIn_fails hio]

theorem writeOut_fails (ho : s.outCh.closed = false) (n v : Nat) :
    writeOut n v s = .error (.raised (.ioError .outWrite) e) { s with io := io }.extendOutFreely := by
  simp [writeOut, outWrite, hio, ho, checkIo_apply]

theorem writeMagicBody_fails (ho : s.outCh.closed = false) :
    writeMagicBody s = .error (.raised (.ioError .outWrite) e) { s with io := io }.extendOutFreely := by
  rw [writeMagicBody, Body.bind_apply, Body.get_apply]
  exact writeOut_fails hio ho _ _

theorem closeOutputBody_fails (ho : s.outCh.closed = false) :
    closeOutputBody s = .error (.raised (.ioError .outClose) e) { s with io := io } := by
  simp [closeOutputBody, outClose, hio, ho, checkIo_apply]

end FirstCall

/-! ## Host accesses -/

/-- A read that is answered adds one value to the read log, the register's own while idle (20_memory R205). -/
theorem hostRead_value {off : BitVec 8} {bytes : Nat} {s t : State} (h : hostRead off bytes s = .next t) :
    ∃ v, t = { s with readLog := s.readLog ++ [{ off := off, value := v }], draws := t.draws } ∧
      (s.status.busy = false → v = regRead off s) := by
  unfold hostRead at h
  split_ifs at h with _ hb <;> cases h
  · exact ⟨busyRead off s, rfl, fun hidle => absurd hb (by simp [hidle])⟩
  · exact ⟨regRead off s, rfl, fun _ => rfl⟩

theorem accessOk_eq_false {off : BitVec 8} {bytes : Nat} (h : bytes ≠ 4 ∨ off.toNat % 4 ≠ 0) :
    accessOk off bytes = false := by
  simpa [accessOk, or_iff_not_imp_left] using h

theorem hostWrite_badAccess {off : BitVec 8} {bytes : Nat} (h : accessOk off bytes = false) (v : Word) (s : State) :
    hostWrite off bytes v s = .refused .badAccess := by simp [hostWrite, h]

theorem hostRead_badAccess {off : BitVec 8} {bytes : Nat} (h : accessOk off bytes = false) (s : State) :
    hostRead off bytes s = .refused .badAccess := by simp [hostRead, h]

theorem hostChannel_busy {s : State} (hb : s.status.busy = true) (act : State → State) :
    hostChannel act s = .refused .channelTouched := by simp [hostChannel, hb]

theorem hostChannel_idle {s : State} (hb : s.status.busy = false) (act : State → State) :
    hostChannel act s = .next (act s) := by simp [hostChannel, hb]

/-- A CMD write to an idle machine issues the command. -/
theorem hostWrite_cmd_idle {s : State} (hb : s.status.busy = false) (w : Word) :
    hostWrite 0x00#8 4 w s = issueCommand w s := by
  simp [hostWrite, accessOk, writeCmd, hb]

theorem issueCommand_refused {w : Word} {s : State} {r : Refusal} (h : s.brokenDuty w = some r) :
    issueCommand w s = .refused r := by simp [issueCommand, h]

/-- The duty about IN that a legal command reading IN finds, by how IN is attached (70_reset_and_hazards R910, R920). -/
theorem brokenDuty_reads {s : State} {w : Word} {i : Instr} (hl : legalCommand s.arg w = .ok i)
    (hr : s.readsIn i = true) :
    (s.inLink = .due → s.brokenDuty w = some .inNotReleased) ∧
      (s.inLink = .released → s.brokenDuty w = some .inNotConnected) := by
  constructor <;> intro hlink <;> simp [State.brokenDuty, hl, hr, hlink]

end Sys2Proof.Machine

namespace Sys2Proof

open Machine

/-- Settles O39: every body reports the failure that was drawn, and CHECK_MAGIC, REWIND_INPUT, WRITE_MAGIC and
CLOSE_OUTPUT meet it at their first call. -/
theorem channelFailureReported : Obligations.ChannelFailureReported := by
  refine ⟨fun i s t before rest code hpass hrest hio ho h => ?_, fun s e io hio ho => ⟨?_, ?_, ?_, ?_⟩⟩
  · have hs : Failing code rest before s := ⟨hpass, hio, ho⟩
    by_cases hm : i = .compress ∨ i = .decompress
    · obtain ⟨hin, hend⟩ := execMacro_reports hm hrest hs h
      exact ⟨hin, fun hc hd => absurd hm (not_or.mpr ⟨hc, hd⟩), fun _ => hend⟩
    · obtain ⟨hc, hd⟩ := not_or.mp hm
      obtain ⟨hin, hend⟩ := exec_reports hc hd hs h
      exact ⟨hin, fun _ _ => hend, fun hm' => absurd hm' hm⟩
  · exact ⟨_, runCommand_raised (checkMagicBody_fails hio), Unlogged.failed ⟨rfl, rfl, rfl⟩ _ _ _, rfl, rfl⟩
  · exact ⟨_, runCommand_raised (rewindBody_fails hio), Unlogged.failed ⟨rfl, rfl, rfl⟩ _ _ _, rfl, rfl⟩
  · exact ⟨_, runCommand_raised (writeMagicBody_fails hio ho), Unlogged.failed ⟨rfl, rfl, rfl⟩ _ _ _, rfl, ho⟩
  · exact ⟨_, runCommand_raised (closeOutputBody_fails hio ho), Unlogged.failed ⟨rfl, rfl, rfl⟩ _ _ _, rfl, rfl⟩

/-- Settles O11: the step is `hostRead`, which adds its one value to the read log. -/
theorem readsHaveNoSideEffect : Obligations.ReadsHaveNoSideEffect := by
  intro s t off bytes rest hh h
  rw [step_hostTurn hh] at h
  exact hostRead_value (s := { s with host := rest }) h

/-- Settles O13: by the operation's kind, a register access of a bad shape, a channel action while BUSY or idle, or a
CMD write that finds a duty about IN broken. -/
theorem refusedHostActions : Obligations.RefusedHostActions := by
  refine ⟨fun s off bytes v rest hbad => ?_, fun s bits pos closed rest => ⟨fun hb hh => ?_, fun hb => ?_⟩,
    fun s w i rest hb hh hl hr => ?_⟩
  · have hacc := accessOk_eq_false hbad
    exact ⟨fun hh => (step_hostTurn hh).trans (hostWrite_badAccess hacc v _),
      fun hh => (step_hostTurn hh).trans (hostRead_badAccess hacc _)⟩
  · have busy := hostChannel_busy (s := { s with host := rest }) hb
    obtain hh | hh | hh | hh | hh := hh
    · exact (step_hostTurn hh).trans (busy fun t => t.connectIn bits pos)
    · exact (step_hostTurn hh).trans (busy fun t => t.connectOut bits closed)
    · exact (step_hostTurn hh).trans (busy id)
    · exact (step_hostTurn hh).trans (busy State.readOut)
    · exact (step_hostTurn hh).trans (busy State.releaseIn)
  · have idle := hostChannel_idle (s := { s with host := rest }) hb
    refine ⟨fun hh => (step_hostTurn hh).trans (idle fun t => t.connectIn bits pos),
      fun hh => (step_hostTurn hh).trans (idle fun t => t.connectOut bits closed),
      fun hh => (step_hostTurn hh).trans (idle id), fun hh => (step_hostTurn hh).trans (idle State.releaseIn),
      fun hh => ⟨_, (step_hostTurn hh).trans (idle State.readOut), fun ho => ?_, fun ho => ?_⟩⟩
    · exact if_neg (by simp [ho])
    · exact ⟨byteImage s.params.pad s.outCh.bits, if_pos ho, byteImage_bits _ _⟩
  · have hstep : step s = issueCommand w { s with host := rest } :=
      (step_hostTurn hh).trans (hostWrite_cmd_idle (s := { s with host := rest }) hb w)
    obtain ⟨due, released⟩ := brokenDuty_reads hl hr
    have duty := State.brokenDuty_host s rest w
    exact ⟨fun hlink => hstep.trans (issueCommand_refused (duty.trans (due hlink))),
      fun hlink => hstep.trans (issueCommand_refused (duty.trans (released hlink)))⟩

end Sys2Proof
end

section
/-! The command word (30_encoding): what the rows of the opcode map say of their commands, what the decoder and the
legality checks answer, and the round trip in both directions. -/

namespace Sys2Proof

/-! ## The opcode map -/

/-- A row that is found is a row of the map. -/
theorem opcodeRow_mem {opc : Opcode} {fmt : Format} {build : Opnd → Instr} (h : opcodeRow opc = some (fmt, build)) :
    (opc, fmt, build) ∈ opcodeMap := by
  obtain ⟨⟨opc', row⟩, hfind, rfl⟩ := Option.map_eq_some_iff.mp h
  obtain rfl : opc' = opc := by simpa using List.find?_some hfind
  exact List.mem_of_find?_eq_some hfind

theorem opcodeRow_eq_none_iff (opc : Opcode) : opcodeRow opc = none ↔ opc ∉ opcodeMap.map Prod.fst := by
  simp only [opcodeRow, Option.map_eq_none_iff, List.find?_eq_none, List.mem_map, beq_iff_eq, not_exists, not_and]

/-- The opcode of a command finds the row that builds it, whose format admits the operand of a well-formed command. -/
theorem opcodeRow_opcode {i : Instr} (h : i.WellFormed) :
    ∃ fmt build, opcodeRow i.opcode = some (fmt, build) ∧ formatAdmits fmt i.opnd = true ∧ build i.opnd = i := by
  cases i <;> exact ⟨_, _, rfl, h, rfl⟩

/-- A row builds commands with its opcode and with the operand they were built from. -/
theorem opcodeMap_fields (v : Opnd) : ∀ row ∈ opcodeMap, formatAdmits row.2.1 v = true →
    (row.2.2 v).opcode = row.1 ∧ (row.2.2 v).opnd = v := by
  simp +contextual [opcodeMap, opcodeRowsTree, opcodeRowsHeader, opcodeRowsPayload, formatAdmits, Instr.opcode,
    Instr.opnd]

/-- The opcodes of format S (30_encoding R301, R320). -/
def symbolOpcodes : List Opcode := [0x11#8, 0x12#8, 0x21#8, 0x31#8]

/-- The legal operands of an opcode, in the numbers of 30_encoding R301: a symbol, a node index, or zero. -/
abbrev OpndInRange (opc : Opcode) (v : Opnd) : Prop :=
  if opc ∈ symbolOpcodes then v.toNat ≤ 256 else if opc = 0x19#8 then v.toNat ≤ 512 else v = 0#10

/-- The format of each row admits the operands in the range of its opcode. -/
theorem opcodeMap_admits (v : Opnd) :
    ∀ row ∈ opcodeMap, formatAdmits row.2.1 v = true ↔ OpndInRange row.1 v := by
  simp [opcodeMap, opcodeRowsTree, opcodeRowsHeader, opcodeRowsPayload, formatAdmits, OpndInRange, symbolOpcodes]

/-! ## The decoder -/

/-- Check 1 of 30_encoding R302. -/
theorem decode_of_no_opcode {w : Word} (h : opcField w ∉ opcodeMap.map Prod.fst) : decode w = .error .badOpcode := by
  simp only [decode, (opcodeRow_eq_none_iff _).mpr h]

/-- Checks 2 and 3 of 30_encoding R302, on a word whose opcode has a row. -/
theorem decode_of_row {w : Word} {fmt : Format} {build : Opnd → Instr}
    (h : opcodeRow (opcField w) = some (fmt, build)) :
    decode w = if rsvField w ≠ 0#14 then .error .rsvNonzero
      else if ¬ OpndInRange (opcField w) (opndField w) then .error .badOperand else .ok (build (opndField w)) := by
  have hadmits := opcodeMap_admits (opndField w) _ (opcodeRow_mem h)
  simp only [decode, h, bne_iff_ne, Bool.not_eq_true', ← Bool.not_eq_true, hadmits]

/-- Checks 2 and 3 of 30_encoding R302, for the opcodes of the map. -/
theorem decode_of_opcode {w : Word} (h : opcField w ∈ opcodeMap.map Prod.fst) :
    ∃ i, decode w = if rsvField w ≠ 0#14 then .error .rsvNonzero
      else if ¬ OpndInRange (opcField w) (opndField w) then .error .badOperand else .ok i := by
  obtain ⟨⟨fmt, build⟩, hrow⟩ := Option.ne_none_iff_exists'.mp fun hnone => (opcodeRow_eq_none_iff _).mp hnone h
  exact ⟨build (opndField w), decode_of_row hrow⟩

/-- The command a word decodes to carries the word's opcode and operand. -/
theorem decode_fields {w : Word} {i : Instr} (h : decode w = .ok i) :
    i.opcode = opcField w ∧ i.opnd = opndField w := by
  obtain ⟨fmt, build, hrow, -, hfmt, rfl⟩ := decode_ok h
  exact opcodeMap_fields _ _ (opcodeRow_mem hrow) hfmt

/-- The word of a command with the opcode and the operand of `w` is `w`, when RSV is zero. -/
theorem encode_of_fields {w : Word} {i : Instr} (hopc : i.opcode = opcField w) (hrsv : rsvField w = 0#14)
    (hopnd : i.opnd = opndField w) : encode i = w := by
  rw [encode, hopc, hopnd, ← hrsv, pack_fields]

/-- Settles O1: the fields of an encoded word are the command's own, and its opcode finds the row that builds it. -/
theorem decodeOfEncode : Obligations.DecodeOfEncode := by
  intro i hi
  obtain ⟨fmt, build, hrow, hadmits, hbuild⟩ := opcodeRow_opcode hi
  have hrange := (opcodeMap_admits i.opnd _ (opcodeRow_mem hrow)).mp hadmits
  rw [← opcField_encode] at hrow
  rw [decode_of_row hrow, opcField_encode, rsvField_encode, opndField_encode, hbuild, if_neg (not_not.mpr rfl),
    if_neg (not_not.mpr hrange)]

/-- Settles O2: the command has the word's opcode and operand, RSV was checked to be zero, and a word is its three
fields. -/
theorem encodeOfDecode : Obligations.EncodeOfDecode := by
  intro w i h
  obtain ⟨hopc, hopnd⟩ := decode_fields h
  obtain ⟨fmt, build, -, hrsv, -⟩ := decode_ok h
  exact ⟨encode_of_fields hopc hrsv hopnd, decode_wellFormed h⟩

end Sys2Proof

namespace Sys2Proof.Machine

/-! ## The four checks -/

theorem legalCommand_of_decode_error {arg w : Word} {sub : IllegalSub} (h : decode w = .error sub) :
    legalCommand arg w = .error sub := by simp [legalCommand, h]

/-- Check 4 of 30_encoding R302, on the fields of the word. -/
theorem legalCommand_of_decode_ok {arg w : Word} {i : Instr} (h : decode w = .ok i) :
    legalCommand arg w =
      if opcField w = 0x11#8 ∧ opndField w = 256#10 ∧ arg = 0#32 then .error .badOperand else .ok i := by
  obtain ⟨hopc, hopnd⟩ := decode_fields h
  have hi : i = .writeFreq 256#10 ↔ opcField w = 0x11#8 ∧ opndField w = 256#10 := by
    rw [← hopc, ← hopnd]
    cases i <;> simp [Instr.opcode, Instr.opnd]
  simp only [legalCommand, h, hi, and_assoc]

/-- An illegal word completes at once, and what the protocol records is all that changes (40_control R404). -/
theorem takeCommand_illegal {s : State} {w : Word} {sub : IllegalSub} (h : legalCommand s.arg w = .error sub) :
    s.takeCommand w = (s.clearReport w).raise (.illegalCommand sub) w (opcField w) := by
  simp only [State.takeCommand, h]

end Sys2Proof.Machine

namespace Sys2Proof

open Machine

/-- Settles O4: by the first check that fails; a word that fails none of them decodes, and its command is well-formed
and encodes to it. -/
theorem legalityInOrder : Obligations.LegalityInOrder := by
  intro s w opcodes formatS inRange
  refine ⟨?_, fun sub h => takeCommand_illegal h⟩
  by_cases hopc : opcField w ∈ opcodes
  · obtain ⟨i, hdecode⟩ : ∃ i, decode w = if rsvField w ≠ 0#14 then .error .rsvNonzero
        else if ¬ inRange then .error .badOperand else .ok i := decode_of_opcode hopc
    rw [if_neg (not_not.mpr hopc)]
    split_ifs at hdecode ⊢ with hrsv hrange hcount
    · exact legalCommand_of_decode_error hdecode
    · exact (legalCommand_of_decode_ok hdecode).trans (if_pos hcount)
    · obtain ⟨hencode, hwf⟩ := encodeOfDecode w i hdecode
      exact ⟨i, (legalCommand_of_decode_ok hdecode).trans (if_neg hcount), hwf, hencode⟩
    · exact legalCommand_of_decode_error hdecode
  · rw [if_pos hopc]
    exact legalCommand_of_decode_error (decode_of_no_opcode hopc)

/-- Settles O3: the decoder runs on each word. -/
theorem specWordsDecode : Obligations.SpecWordsDecode := by
  unfold Obligations.SpecWordsDecode
  decide

end Sys2Proof
end

section
/-! The command protocol (40_control R400 to R411): a CMD write idle and while BUSY, the step that runs the decoded
command, how a command ends, its prerequisites, and the two control commands. -/

namespace Sys2Proof.Machine

/-! ## Every command reaches a next state -/

/-- WRITE_FREQ reaches a next state whatever it stores, the zero count of END_OF_STREAM included, which only the
legality check refuses (30_encoding R302, check 4). -/
theorem exec_writeFreq_next (sym : Opnd) (s : State) : ∃ t, exec (.writeFreq sym) s = .next t := ⟨_, rfl⟩

/-! ## How a command ends -/

/-- Inside a command that started in `s`: nothing logged, CMD and IN's bits kept, draws only taken. -/
structure Inside (s u : State) : Prop where
  unlogged : Unlogged s u
  noReset : s.noReset → u.noReset

theorem Inside.refl (s : State) : Inside s s := ⟨.refl s, id⟩

theorem Inside.congr {s u v : State} (hlog : v.log = u.log) (hcmd : v.cmd = u.cmd) (hin : v.inCh = u.inCh)
    (hio : v.io = u.io) (h : Inside s u) : Inside s v where
  unlogged := h.unlogged.trans ⟨hlog, hcmd, by rw [hin]⟩
  noReset := fun hn => by unfold State.noReset; rw [hio]; exact h.noReset hn

theorem Inside.step {s u v : State} (h : Inside s u) (k : ChannelStep u v) : Inside s v :=
  ⟨h.unlogged.trans k.unlogged, fun hn => k.noReset (h.noReset hn)⟩

theorem closed_inside (s : State) : Closed (Inside s) (fun e => e = .cut → ¬ s.noReset) true true where
  reads := fun _ {_ _} k _ h => h.step k
  writes := fun _ {_ _} k _ h => h.step k
  raised := nofun
  stuck := nofun
  cut := fun h hcut _ hn => hcut (h.noReset hn)

theorem updates_inside (s : State) : Updates (Inside s) where
  soft _ := Inside.congr rfl rfl rfl rfl
  eof _ := Inside.congr rfl rfl rfl rfl
  eos _ _ := Inside.congr rfl rfl rfl rfl
  freq _ _ := Inside.congr rfl rfl rfl rfl
  inval _ := Inside.congr rfl rfl rfl rfl
  gone _ := Inside.congr rfl rfl rfl rfl
  done _ _ _ := Inside.congr rfl rfl rfl rfl
  nodes _ _ _ := Inside.congr rfl rfl rfl rfl
  cv _ _ := Inside.congr rfl rfl rfl rfl
  codes _ _ := Inside.congr rfl rfl rfl rfl
  res _ _ _ _ _ _ _ := Inside.congr rfl rfl rfl rfl

/-- From `s` to `t` a command completed once, with success or with an error (40_control R406, 60_exceptions R820). -/
def CompletedOnce (s t : State) : Prop :=
  t.status.busy = false ∧ t.status.done = true ∧
    (t.log = s.log ++ [{ cmd := s.cmd, err := none, info := 0#32, op := 0#8 }] ∨
      ∃ e info op, FailedWith e info op s t)

theorem Inside.completedOnce_complete {s u : State} (h : Inside s u) : CompletedOnce s u.complete :=
  ⟨rfl, rfl, .inl (by rw [State.complete_log, h.unlogged.log, h.unlogged.cmd])⟩

theorem Inside.completedOnce_raise {s u : State} (h : Inside s u) (e : Err) (info : Word) (op : Opcode) :
    CompletedOnce s (u.raise e info op) :=
  ⟨rfl, rfl, .inr ⟨e, info, op, h.unlogged.failed e info op⟩⟩

/-- A command that reaches a next state completed once, or a hardware reset that was drawn abandoned it
(70_reset_and_hazards R901). -/
theorem exec_completedOnce {i : Instr} {s t : State} (h : exec i s = .next t) :
    CompletedOnce s t ∨ (¬ s.noReset ∧ ∃ u : State, t = u.hardReset) :=
  exec_holds (Q := fun t => CompletedOnce s t ∨ (¬ s.noReset ∧ ∃ u : State, t = u.hardReset))
    (closed_inside s) (updates_inside s) (.refl s) h
    (fun _ hu => .inl hu.completedOnce_complete)
    (fun _ e info op hu => .inl (hu.completedOnce_raise e info op))
    (fun u e info op hu => .inl (Inside.completedOnce_raise (hu.congr (u := u) rfl rfl rfl rfl) e info op))
    fun u _ hcut => .inr ⟨hcut rfl, u, rfl⟩

/-! ## A word written to CMD -/

/-- A CMD write to a BUSY machine is dropped (40_control R402). -/
theorem hostWrite_cmd_busy {s : State} (hb : s.status.busy = true) (w : Word) :
    hostWrite 0x00#8 4 w s = .next { s with status := { s.status with cmdOverrun := true } } := by
  simp [hostWrite, accessOk, writeCmd, hb]

/-- A host that keeps IN connected for the commands that read it breaks no duty (70_reset_and_hazards R910, R920). -/
theorem brokenDuty_eq_none {s : State} {w : Word}
    (h : ∀ i, legalCommand s.arg w = .ok i → s.readsIn i = true → s.inLink = .connected) : s.brokenDuty w = none := by
  cases hl : legalCommand s.arg w with
  | error sub => simp [State.brokenDuty, hl]
  | ok i =>
    cases hr : s.readsIn i with
    | false => simp [State.brokenDuty, hl, hr]
    | true => simp [State.brokenDuty, hl, hr, h i hl hr]

theorem issueCommand_taken {s : State} {w : Word} (h : s.brokenDuty w = none) :
    issueCommand w s = .next (s.takeCommand w) := by simp [issueCommand, h]

theorem takeCommand_legal {s : State} {w : Word} {i : Instr} (h : legalCommand s.arg w = .ok i) :
    s.takeCommand w = (s.clearReport w).accept.markInDue i := by
  simp only [State.takeCommand, h]

/-- What a word taken from the host records and what it leaves, legal or not (40_control R403, R404). -/
theorem takeCommand_keeps (s : State) (w : Word) :
    let t := s.takeCommand w
    t.host = s.host ∧ t.cmd = w ∧ t.status.lastOp = opcField w ∧ t.status.closeFailed = false ∧
      t.status.infoEof = false ∧ KeepsValid s t ∧ t.status.eosSeen = s.status.eosSeen ∧
      t.status.cmdOverrun = s.status.cmdOverrun ∧ KeepsResults s t ∧ KeepsFreq s t ∧ KeepsTree s t ∧
      KeepsCodes s t ∧ KeepsChannels s t ∧ t.arg = s.arg := by
  obtain ⟨i, -, e⟩ | ⟨sub, -, e⟩ := takeCommand_cases s w <;>
    simp [e, KeepsValid, KeepsResults, KeepsFreq, KeepsTree, KeepsCodes, KeepsChannels]

theorem takeCommand_cmdOverrun (s : State) (w : Word) :
    (s.takeCommand w).status.cmdOverrun = s.status.cmdOverrun := by
  obtain ⟨-, -, -, -, -, -, -, hover, -⟩ := takeCommand_keeps s w
  exact hover

/-! ## BLOCK's turn -/

theorem runBlock_decoded {s : State} {i : Instr} (h : decode s.cmd = .ok i) : runBlock s = exec i s := by
  simp only [runBlock, h]

/-- With no host operation left, or the host waiting, a BUSY machine runs its command (40_control R400). -/
theorem step_busy {s : State} (hb : s.status.busy = true) (hh : s.host = [] ∨ ∃ rest, s.host = .wait :: rest) :
    step s = runBlock s := by
  obtain hh | ⟨rest, hh⟩ := hh
  · simp only [step, hh, hb, if_true]
  · rw [step_hostTurn hh]
    exact if_pos hb

/-- A CMD write that lands before the completion sets CMD_OVERRUN besides (40_control R402, log 6). -/
theorem runBlockLate_next {s t : State} (h : runBlock s = .next t) (rest : List HostOp) :
    runBlockLate rest s = .next { t with
      host := rest, status := { t.status with cmdOverrun := t.status.cmdOverrun || t.status.done } } := by
  simp only [runBlockLate, h]

/-- A legal word placed for BLOCK stands in CMD, accepted, with the host waiting. -/
theorem withCommand_legal {s : State} {w : Word} {i : Instr} (h : legalCommand s.arg w = .ok i) :
    (s.withCommand w).status.busy = true ∧ (s.withCommand w).cmd = w ∧ (s.withCommand w).host = .wait :: s.host := by
  simp [State.withCommand, h]

theorem withFetchWord_toNat (s : State) (w : Word) : s.withFetchWord 32 w.toNat = s.withCommand w := by
  rw [State.withFetchWord, Nat.mod_eq_of_lt w.isLt, BitVec.ofNat_toNat, BitVec.setWidth_eq]

/-- CMD_OVERRUN, once set, is kept by every command but SOFT_RESET, when no hardware reset is drawn. -/
theorem exec_cmdOverrun {i : Instr} {s t : State} (hi : i ≠ .softReset) (hn : s.noReset) (h : exec i s = .next t) :
    t.status.cmdOverrun = s.status.cmdOverrun :=
  (Prod.mk.inj (exec_blind (blind_seen hi) hn h)).1

/-! ## Prerequisites -/

/-- A command that needs a tree, in a state with none (40_control R405). -/
theorem runCommand_requireTree_unmet {s : State} (h : s.status.treeValid = false) (op : Opcode) (body : Body Unit) :
    runCommand op (do requireTree; body) s = .next (s.raise (.notReady .noTree) 0#32 op) :=
  runCommand_raised (by simp [requireTree_apply, h])

/-- A command that needs codes, in a state with none (40_control R405). -/
theorem runCommand_requireCodes_unmet {s : State} (h : s.status.codesValid = false) (op : Opcode) (body : Body Unit) :
    runCommand op (do requireCodes; body) s = .next (s.raise (.notReady .noCodes) 0#32 op) :=
  runCommand_raised (by simp [requireCodes_apply, h])

theorem requireIndex_unmet {s : State} {idx : Opnd} (h : s.nodeCount.toNat ≤ idx.toNat) :
    requireIndex idx s = .error (.raised (.notReady .badIndex) 0#32) s := by
  have hidx : ¬ operandIndex idx < s.nodeCount.toNat := Nat.not_lt.mpr h
  simp [requireIndex, hidx]

end Sys2Proof.Machine

namespace Sys2Proof

open Machine

/-- Settles O58: the invariant gives the table clauses that every body needs, but for a WRITE_FREQ that the legality
check would have refused, which only stores a count. -/
theorem everyCommandTerminates : Obligations.EveryCommandTerminates := by
  intro i s hI hi
  by_cases hcount : i = .writeFreq 256#10 ∧ s.accArg = 0#32
  · obtain ⟨rfl, -⟩ := hcount
    exact exec_writeFreq_next _ s
  · obtain ⟨t, ht, -⟩ := exec_sound hI.sound hi hcount
    exact ⟨t, ht⟩

/-- Settles O6: the dropped write by the host port, and CMD_OVERRUN by cases on what the step was. -/
theorem cmdWriteWhileBusyDropped : Obligations.CmdWriteWhileBusyDropped := by
  refine ⟨fun s w rest hb hh => (step_hostTurn hh).trans (hostWrite_cmd_busy (s := { s with host := rest }) hb w),
    fun s t h hover hreset hn hsoft => ?_⟩
  have ran : ∀ {i u}, s.status.busy = true → decode s.cmd = .ok i → exec i s = .next u →
      u.status.cmdOverrun = true := fun {i u} hb hd he =>
    (exec_cmdOverrun (fun hi => hsoft hb (hi ▸ hd)) hn he).trans hover
  cases step_cases h with
  | ran i hb hd he => exact ran hb hd he
  | ranLate i v rest hb hd he => simp [ran hb hd he]
  | dropped => rfl
  | idle | argWritten | passed | registerRead | inSet | inReleased | outRead | outSet => exact hover
  | taken op rest w => exact (takeCommand_cmdOverrun { s with host := rest } w).trans hover
  | wasReset rest hh => exact absurd hh (hreset rest)

/-- Settles O16: a body logs nothing and leaves CMD, so a completion adds the one entry of its own; a cut body ends in
the reset state, and OUT only grew. -/
theorem commandEndsOnce : Obligations.CommandEndsOnce := by
  intro i s t h
  have hgrow := (exec_channelsFrom h).out_grows
  obtain hdone | ⟨hn, u, rfl⟩ := exec_completedOnce h
  · exact .inl hdone
  · exact .inr ⟨hn, rfl, rfl, rfl, hgrow⟩

/-- Settles O5: with the duties about IN kept the word is taken, and then it is legal or not. -/
theorem commandWordTaken : Obligations.CommandWordTaken := by
  intro s w rest hb hh hduty
  have hnone : { s with host := rest }.brokenDuty w = none :=
    (State.brokenDuty_host s rest w).trans (brokenDuty_eq_none hduty)
  have hstep : step s = .next ({ s with host := rest }.takeCommand w) :=
    ((step_hostTurn hh).trans (hostWrite_cmd_idle (s := { s with host := rest }) hb w)).trans
      (issueCommand_taken hnone)
  obtain ⟨hhost, hcmd, hop, hclose, heof, hvalid, heos, hover, hres, hfreq, htree, hcodes, hch, harg⟩ :=
    takeCommand_keeps { s with host := rest } w
  refine ⟨_, hstep, hhost, hcmd, hop, hclose, heof, hvalid, heos, hover, hres, hfreq, htree, hcodes, hch, harg,
    fun i hl => ?_, fun sub hl => ?_⟩
  · rw [takeCommand_legal (s := { s with host := rest }) hl]
    simp
  · rw [takeCommand_illegal (s := { s with host := rest }) hl]
    simp [hb]

/-- Settles O7: BLOCK's turn decodes CMD, and a placed legal word stands in CMD, accepted and waited for. -/
theorem stepRunsDecodedCommand : Obligations.StepRunsDecodedCommand := by
  refine ⟨fun s i hb hd => ⟨fun hh => (step_busy hb hh).trans (runBlock_decoded hd), fun v rest t hh he => ?_⟩,
    fun s w i hl => ?_⟩
  · rw [step_hostTurn hh]
    exact (if_pos hb).trans (runBlockLate_next ((runBlock_decoded hd).trans he) rest)
  · rw [withFetchWord_toNat]
    obtain ⟨hb, hc, hh⟩ := withCommand_legal hl
    have hd : decode (s.withCommand w).cmd = .ok i := by rw [hc, legalCommand_decode hl]
    exact ⟨hb, hc, (step_busy hb (.inr ⟨_, hh⟩)).trans (runBlock_decoded hd)⟩

/-- Settles O17: the completion is all that NOP does. -/
theorem nopRuns : Obligations.NopRuns := by
  intro s
  refine ⟨s.complete, rfl, ?_⟩
  simp [Succeeded, KeepsReport, KeepsHost, KeepsResults, KeepsFreq, KeepsTree, KeepsCodes, KeepsChannels, KeepsValid,
    KeepsSeen]

/-- Settles O18: the body is one update to the reset values, and the completion sets DONE and adds its entry. -/
theorem softResetRuns : Obligations.SoftResetRuns := by
  intro s
  refine ⟨_, rfl, rfl, rfl, rfl, rfl, rfl, rfl, rfl, rfl, rfl, rfl, rfl, rfl, rfl, fun b hb => ?_, resetFreq_get 256, rfl,
    rfl, ⟨rfl, rfl, rfl⟩, rfl, rfl⟩
  exact (resetFreq_get b).trans (if_neg (by omega))

/-- Settles O27: each command's first act is its prerequisite. -/
theorem prerequisitesGate : Obligations.PrerequisitesGate := by
  intro s idx sym
  refine ⟨fun h => ?_, fun ht hidx => ?_, fun h => ?_⟩
  · have unmet := runCommand_requireTree_unmet h
    exact ⟨unmet _ _, unmet _ _, unmet _ _, unmet _ _, unmet _ _⟩
  · exact runCommand_raised (by simp [requireTree_apply, ht, requireIndex_unmet hidx])
  · have unmet := runCommand_requireCodes_unmet h
    exact ⟨unmet _ _, unmet _ _, unmet _ _⟩

end Sys2Proof
end

section
/-! The frequency counter (41_frequency R450 to R470): COUNT_FREQ counts the whole bytes of IN or stops at the byte
whose count is full, WRITE_FREQ stores ARG in one entry, READ_FREQ copies one entry. -/

namespace Sys2Proof.Machine

/-! ## COUNT_FREQ stops at a full count -/

/-- The state in which COUNT_FREQ reads its first byte (41_frequency R450). -/
def State.countStart (s : State) : State := { s.invalidateTree with freq := resetFreq }

theorem countFreqBody_eq (s : State) : countFreqBody s = countLoop (s.inLeft / 8 + 1) s.countStart := rfl

theorem freqAt_countStart (s : State) (c : Nat) : (s.countStart.freqAt c).toNat = if c = 256 then 1 else 0 := by
  rw [show s.countStart.freqAt c = _ from resetFreq_get c]
  split <;> rfl

/-- END_OF_STREAM is no byte of IN. -/
theorem count_eos_eq_zero {p : Bits} {bs rest : List Nat} (hw : wholeBytes p = bs ++ rest) : bs.count 256 = 0 :=
  List.count_eq_zero.mpr fun hmem =>
    absurd (wholeBytes_lt (p := p) (hw ▸ List.mem_append_left rest hmem)) (by decide)

/-- COUNT_FREQ has read the bytes `bs` and one byte more, and has counted `bs` only (41_frequency R450). -/
structure CountedBefore (bs : List Nat) (s u : State) : Prop where
  unlogged : Unlogged s u
  treeValid : u.status.treeValid = false
  codesValid : u.status.codesValid = false
  inCh : u.inCh = { s.inCh with pos := s.inCh.pos + 8 * (bs.length + 1) }
  outCh : u.outCh = s.outCh
  count : ∀ c, c < 256 → (u.freqAt c).toNat = bs.count c
  eos : u.freqAt 256 = 1#32

theorem countFreqBody_overflows {s : State} {bs : List Nat} {b : Nat} {rest : List Nat} (h : s.ioClear)
    (hw : wholeBytes s.inRest = bs ++ b :: rest) (hb : bs.count b = 2 ^ 32 - 1) (hc : ∀ c, bs.count c < 2 ^ 32) :
    ∃ u, countFreqBody s = .error (.raised .countOverflow (BitVec.ofNat 32 b)) u ∧ CountedBefore bs s u := by
  have heos := count_eos_eq_zero hw
  have hturns : s.countStart.inRest.length / 8 < s.inLeft / 8 + 1 := by
    rw [inRest_length]
    exact Nat.lt_succ_self _
  have hroom : ∀ c, (s.countStart.freqAt c).toNat + bs.count c < 2 ^ 32 := fun c => by
    rw [freqAt_countStart]
    split
    · subst c; omega
    · rw [Nat.zero_add]; exact hc c
  have hfull : (s.countStart.freqAt b).toNat + bs.count b = 2 ^ 32 - 1 := by
    have hb256 : b ≠ 256 := by
      rintro rfl
      omega
    rw [freqAt_countStart, if_neg hb256, Nat.zero_add, hb]
  obtain ⟨u, hu, hleft, hcount⟩ := countLoop_overflow _ (s := s.countStart) h hturns hw hroom hfull
  simp only [freqAt_countStart] at hcount
  exact ⟨u, (countFreqBody_eq s).trans hu, {
    unlogged := by rw [hleft]; exact ⟨rfl, rfl, rfl⟩
    treeValid := by rw [hleft]; rfl
    codesValid := by rw [hleft]; rfl
    inCh := by rw [hleft]; rfl
    outCh := by rw [hleft]; rfl
    count := fun c hlt => by rw [hcount, if_neg (Nat.ne_of_lt hlt), Nat.zero_add]
    eos := BitVec.eq_of_toNat_eq (by rw [hcount, if_pos rfl, heos]; rfl) }⟩

/-! ## One entry of FREQ -/

theorem exec_writeFreq (sym : Opnd) (s : State) :
    exec (.writeFreq sym) s = .next (s.invalidateTree.setFreq sym.toNat s.accArg).complete := rfl

theorem exec_readFreq (sym : Opnd) (s : State) :
    exec (.readFreq sym) s =
      .next (State.complete { s with resSym := symbolField sym, resWlo := s.freqAt sym.toNat, resWhi := 0#9 }) := rfl

/-- A symbol operand in range fits in RES_SYM (10_state R130). -/
theorem symbolField_toNat {sym : Opnd} (h : sym.toNat ≤ 256) : (symbolField sym).toNat = sym.toNat := by
  rw [symbolField, BitVec.toNat_setWidth]
  exact Nat.mod_eq_of_lt (by omega)

end Sys2Proof.Machine

namespace Sys2Proof

open Machine

/-- Settles O19: the body counts and is otherwise quiet, and the completion writes only BUSY, DONE and the log. -/
theorem countFreqCounts : Obligations.CountFreqCounts := by
  intro s h hc
  obtain ⟨u, hu, counted⟩ := countFreqBody_counts h hc
  have quiet := counted.quiet
  exact ⟨u.complete, runCommand_ok hu, quiet.succeeded, counted.count, counted.eos, counted.treeValid,
    counted.codesValid, quiet.in_bits, counted.pos, counted.outCh, quiet.keepsHost, quiet.results, counted.tree,
    counted.codes, counted.eosSeen, quiet.cmdOverrun, quiet.lastOp⟩

/-- Settles O20: the body stops with the bytes before the failing one counted, and the error entry leaves FREQ, the
validity flags and the channels as the body left them. -/
theorem countOverflowRaised : Obligations.CountOverflowRaised := by
  intro s bs b rest h hw hb hc
  obtain ⟨u, hu, counted⟩ := countFreqBody_overflows h hw hb hc
  exact ⟨_, runCommand_raised hu, counted.unlogged.failed _ _ _, counted.count, counted.eos, counted.treeValid,
    counted.codesValid, counted.inCh, counted.outCh⟩

/-- Settles O21: the body is one write of FREQ after the validity flags are cleared. -/
theorem writeFreqStores : Obligations.WriteFreqStores := by
  intro s sym hsym
  have hread : ∀ c, (s.invalidateTree.setFreq sym.toNat s.accArg).complete.freqAt c =
      if c = sym.toNat then s.accArg else s.freqAt c := fun c =>
    freqAt_setFreq s.invalidateTree sym.toNat c s.accArg (Nat.lt_succ_of_le hsym)
  refine ⟨_, exec_writeFreq sym s, ?_, ?_, fun c hne => ?_, ?_⟩
  · simp [Succeeded, KeepsReport]
  · rw [hread, if_pos rfl]
  · rw [hread, if_neg hne]
  · simp [KeepsHost, KeepsResults, KeepsTree, KeepsCodes, KeepsChannels, KeepsSeen]

/-- Settles O23: the body is one update of RES_SYM, RES_WLO and RES_WHI, and RES_SYM holds the whole symbol. -/
theorem readFreqRuns : Obligations.ReadFreqRuns := by
  intro s sym hsym
  refine ⟨_, exec_readFreq sym s, ?_, symbolField_toNat hsym, ?_⟩
  · simp [Succeeded, KeepsReport]
  · simp [KeepsHost, KeepsFreq, KeepsTree, KeepsCodes, KeepsChannels, KeepsValid, KeepsSeen]

end Sys2Proof
end

section
/-! The tree builder (42_tree_builder R500 to R510): extractMin answers a lightest member of the queue, BUILD_TREE
builds its tree or raises EMPTY_INPUT, READ_NODE copies one node. -/

namespace Sys2Proof.Machine

/-! ## The minimum of the queue -/

theorem mem_lightest {nodes : Vector Node 513} {pq : List Nat} {i : Nat} :
    i ∈ lightest nodes pq ↔ i ∈ pq ∧ ∀ j ∈ pq, nodeWeight nodes i ≤ nodeWeight nodes j := by
  simp [lightest]

theorem extractMin_mem_lightest (tie : TieBreak) (d : Nat) (nodes : Vector Node 513) {pq : List Nat} (h : pq ≠ []) :
    extractMin tie d nodes pq ∈ lightest nodes pq := by
  have hne : lightest nodes pq ≠ [] := lightest_ne h
  cases tie with
  | seq =>
    rw [extractMin, List.min?_eq_some_min hne]
    exact List.min_mem hne
  | any =>
    have hlt : Config.freeTie d % (lightest nodes pq).length < (lightest nodes pq).length :=
      Nat.mod_lt _ (List.length_pos_iff.mpr hne)
    rw [extractMin, List.getElem?_eq_getElem hlt]
    exact List.getElem_mem hlt

/-- Under SEQ the least index of the lightest members is taken (42_tree_builder R503). -/
theorem extractMin_seq_le {nodes : Vector Node 513} {pq : List Nat} {j : Nat} (d : Nat) (h : j ∈ lightest nodes pq) :
    extractMin .seq d nodes pq ≤ j :=
  List.min?_getD_le_of_mem h

/-! ## The outcomes of BUILD_TREE -/

theorem BuiltTree.leaf_at {s u : State} {T : HTree} (h : BuiltTree s u T) {k sym : Nat}
    (hk : s.counted[k]? = some sym) : u.nodes[k]? = some (leafOf s.freqAt sym) := by
  obtain ⟨hlt, -⟩ := List.getElem?_eq_some_iff.mp hk
  rw [h.leaf k hlt, List.getElem?_map, hk, Option.map_some]

theorem exec_buildTree_counted {s : State} (h : s.counted ≠ []) :
    ∃ u T, exec .buildTree s = .next u.complete ∧ BuiltTree s u T := by
  obtain ⟨u, T, hu, built⟩ := buildTreeBody_builds h
  exact ⟨u, T, runCommand_ok hu, built⟩

theorem exec_buildTree_empty {s : State} (h : s.counted = []) :
    exec .buildTree s = .next (s.treeGone.freeNodes.raise .emptyInput 0#32 0x18#8) :=
  runCommand_raised (buildTreeBody_empty h)

/-! ## One node -/

theorem requireIndex_met {s : State} {idx : Opnd} (h : idx.toNat < s.nodeCount.toNat) :
    requireIndex idx s = .ok () s := by
  have hidx : operandIndex idx < s.nodeCount.toNat := h
  simp [requireIndex, hidx]

/-- READ_NODE with both prerequisites met (42_tree_builder R510). -/
theorem exec_readNode {s : State} {idx : Opnd} {nd : Node} (ht : s.status.treeValid = true)
    (hidx : idx.toNat < s.nodeCount.toNat) (hnd : s.nodes[idx.toNat]? = some nd) :
    exec (.readNode idx) s = .next (State.complete { s with
      resNode := { kind := nd.isLeaf, right := nd.right, left := nd.left }, resSym := nd.sym,
      resWlo := nd.weight.extractLsb' 0 32, resWhi := nd.weight.extractLsb' 32 9 }) := by
  have hslot : s.nodes[operandIndex idx]? = some nd := hnd
  refine runCommand_ok ?_
  simp [requireTree_apply, ht, requireIndex_met hidx, readNodeBody, hslot]

end Sys2Proof.Machine

namespace Sys2Proof

open Machine

/-- Settles O24: the body's tree stands in the completed state, and with no counted symbol the body raises after the
old tree is gone. -/
theorem buildTreeBuilds : Obligations.BuildTreeBuilds := by
  intro s
  refine ⟨fun hL => ?_, fun hL => ?_⟩
  · obtain ⟨u, T, hexec, built⟩ := exec_buildTree_counted (s := s) (List.ne_nil_of_length_pos (Nat.pos_of_ne_zero hL))
    obtain ⟨queue, hstart, hturn⟩ := built.turns
    rw [List.length_range] at hturn
    have quiet := built.quiet
    have channels := built.channels
    exact ⟨u.complete, hexec, quiet.succeeded, built.treeValid, built.codesValid, built.leafCount, built.nodeCount,
      fun _ _ => built.leaf_at, built.internal, ⟨queue, hstart, fun k hk => hturn k (Nat.add_lt_of_lt_sub hk)⟩,
      built.weight, quiet.keepsHost, quiet.results, built.freq, built.codes,
      ⟨channels.inCh, channels.outCh, channels.io⟩, built.eosSeen, quiet.cmdOverrun, quiet.lastOp⟩
  · have unlogged : Unlogged s s.treeGone.freeNodes := ⟨rfl, rfl, rfl⟩
    exact ⟨_, exec_buildTree_empty (List.eq_nil_of_length_eq_zero hL), unlogged.failed _ _ _, rfl, rfl, rfl, rfl⟩

/-- Settles O25: the answer is one of the lightest members, under SEQ the least of them. -/
theorem extractMinOrder : Obligations.ExtractMinOrder := by
  intro nodes pq d hne
  have hmin := fun tie => mem_lightest.mp (extractMin_mem_lightest tie d nodes hne)
  refine ⟨hmin, fun j hj hw => extractMin_seq_le d (mem_lightest.mpr ⟨hj, ?_⟩)⟩
  obtain ⟨-, hle⟩ := hmin .seq
  rw [hw]
  exact hle

/-- Settles O26: the body is one update of the result registers, and RES_WLO and RES_WHI are the low 32 and the high 9
bits of the weight. -/
theorem readNodeRuns : Obligations.ReadNodeRuns := by
  intro s idx nd ht hidx hnd
  refine ⟨_, exec_readNode ht hidx hnd, ?_, rfl, rfl, ?_, ?_, ?_⟩
  · simp [Succeeded, KeepsReport]
  · exact BitVec.extractLsb'_toNat 0 32 nd.weight
  · have hwhi : nd.weight.toNat / 2 ^ 32 < 2 ^ 9 := by omega
    rw [State.complete_resWhi, BitVec.extractLsb'_toNat, Nat.shiftRight_eq_div_pow, Nat.mod_eq_of_lt hwhi]
  · simp [KeepsHost, KeepsFreq, KeepsTree, KeepsCodes, KeepsChannels, KeepsValid, KeepsSeen]

end Sys2Proof
end

section
/-! The code table (43_code_table R550 to R560): GEN_CODES writes the codes of the tree in NODE, these are prefix-free
when the leaves hold distinct symbols, LOOKUP_CODE copies one entry. -/

namespace Sys2Proof.Machine

/-! ## GEN_CODES -/

@[simp] theorem State.complete_codeAt (s : State) (i : Nat) : s.complete.codeAt i = s.codeAt i := rfl

/-- GEN_CODES with its prerequisite met completes for every tree with legal symbols (43_code_table R550). -/
theorem exec_genCodes {s : State} {T : HTree} (hv : s.status.treeValid = true) (ht : s.tree = some T)
    (hs : ∀ q ∈ T.paths, q.1.toNat ≤ 256) : ∃ u, exec .genCodes s = .next u.complete ∧ CodesOf s u T := by
  obtain ⟨u, hu, codes⟩ := genCodesBody_codes ht hs
  refine ⟨u, runCommand_ok ?_, codes⟩
  rw [Body.bind_apply, requireTree_apply, if_pos hv]
  exact hu

/-! ## The codes of a tree of distinct symbols -/

/-- A valid entry is the code of a symbol that a leaf holds. -/
theorem CodesOf.exists_leaf {s u : State} {T : HTree} (h : CodesOf s u T) {sym : Nat} (hsym : sym < 257)
    (hvalid : (u.codeAt sym).valid = true) : ∃ q ∈ T.paths, q.1.toNat = sym := by
  have hcode := h.code sym hsym
  cases hpath : T.codeOf sym with
  | none =>
    simp only [hpath] at hcode
    rw [hcode] at hvalid
    exact absurd hvalid Bool.false_ne_true
  | some p =>
    obtain ⟨q, hq, hqsym, -⟩ := HTree.codeOf_mem hpath
    exact ⟨q, hq, hqsym⟩

/-- With distinct symbols the entry of a leaf's symbol is the leaf's own path, which fits in the 256 bits of an entry
when there are at most 257 leaves (43_code_table R551). -/
theorem CodesOf.valid_path {s u : State} {T : HTree} (h : CodesOf s u T) (hleaves : T.leaves ≤ 257)
    (hs : ∀ q ∈ T.paths, q.1.toNat ≤ 256) (hd : (T.paths.map (·.1)).Nodup) {q : BitVec 9 × Bits} (hq : q ∈ T.paths) :
    (u.codeAt q.1.toNat).valid = true ∧ (u.codeAt q.1.toNat).path = q.2 := by
  have hcode := h.code q.1.toNat (Nat.lt_succ_of_le (hs q hq))
  simp only [HTree.codeOf_nodup hd hq] at hcode
  rw [hcode]
  exact ⟨rfl, CodeEntry.path_ofPath (Nat.le_of_lt_succ ((HTree.path_length hq).trans_le hleaves))⟩

/-! ## One entry of CODE -/

/-- LOOKUP_CODE with its prerequisite met (43_code_table R560). -/
theorem exec_lookupCode {s : State} (sym : Opnd) (hv : s.status.codesValid = true) :
    exec (.lookupCode sym) s = .next (State.complete { s with
      resSym := symbolField sym,
      resLen := { cvalid := (s.codeAt sym.toNat).valid, len := (s.codeAt sym.toNat).len },
      resCode := (s.codeAt sym.toNat).bits }) := by
  refine runCommand_ok ?_
  rw [Body.bind_apply, requireCodes_apply, if_pos hv]
  rfl

end Sys2Proof.Machine

namespace Sys2Proof

open Machine

/-- Settles O29: the body writes the table of the tree's codes and is otherwise quiet, and the completion writes only
BUSY, DONE and the log. -/
theorem genCodesRuns : Obligations.GenCodesRuns := by
  intro s T hv ht hs
  obtain ⟨u, hexec, codes⟩ := exec_genCodes hv ht hs
  have quiet := codes.quiet
  have channels := codes.channels
  exact ⟨u.complete, hexec, quiet.succeeded, codes.codesValid, codes.treeValid.trans hv, codes.code, quiet.keepsHost,
    quiet.results, codes.freq, codes.tree, ⟨channels.inCh, channels.outCh, channels.io⟩, codes.eosSeen,
    quiet.cmdOverrun, quiet.lastOp⟩

/-- Settles O30: each valid entry is the path of a leaf that holds its symbol, and no leaf's path starts another
leaf's. -/
theorem generatedCodesPrefixFree : Obligations.GeneratedCodesPrefixFree := by
  intro s t T hv ht hleaves hs hd hexec
  obtain ⟨u, hnext, codes⟩ := exec_genCodes hv ht hs
  obtain rfl : u.complete = t := Host.Outcome.next.inj (hnext.symm.trans hexec)
  simp only [State.complete_codeAt]
  have entry : ∀ q ∈ T.paths, (u.codeAt q.1.toNat).valid = true ∧ (u.codeAt q.1.toNat).path = q.2 :=
    fun _ => codes.valid_path hleaves hs hd
  refine ⟨entry, fun _ => codes.exists_leaf, fun a b ha hb hne hva hvb hprefix => hne ?_⟩
  obtain ⟨qa, hqa, rfl⟩ := codes.exists_leaf ha hva
  obtain ⟨qb, hqb, rfl⟩ := codes.exists_leaf hb hvb
  obtain ⟨-, hpatha⟩ := entry qa hqa
  obtain ⟨-, hpathb⟩ := entry qb hqb
  rw [hpatha, hpathb] at hprefix
  rw [HTree.path_inj hqa hqb hprefix]

/-- Settles O31: the body is one update of RES_SYM, RES_LEN and RES_CODE, and RES_SYM holds the whole symbol. -/
theorem lookupCodeRuns : Obligations.LookupCodeRuns := by
  intro s sym hsym hv
  refine ⟨_, exec_lookupCode sym hv, ?_, symbolField_toNat hsym, ?_⟩
  · simp [Succeeded, KeepsReport]
  · simp [KeepsHost, KeepsFreq, KeepsTree, KeepsCodes, KeepsChannels, KeepsValid, KeepsSeen]

end Sys2Proof
end

section
/-! The stream envelope and the header codec (44_header_codec R600 to R632): WRITE_MAGIC and CHECK_MAGIC, the header
that SERIALIZE_HEADER writes and DESERIALIZE_HEADER reads back or rejects, DECOMPRESS of a stream without MAGIC. -/

namespace Sys2Proof.Machine

/-! ## Commands that append to OUT -/

/-- A body that only appended to OUT, and then success: the completion adds BUSY, DONE and the log entry. -/
theorem Wrote.completes {s u : State} {p : Bits} (h : Wrote s u p) :
    Succeeded s u.complete ∧ u.complete.outCh = { s.outCh with bits := s.outCh.bits ++ p } ∧
      u.complete.inCh = s.inCh ∧ KeepsHost s u.complete ∧ KeepsResults s u.complete ∧ KeepsFreq s u.complete ∧
      KeepsTree s u.complete ∧ KeepsCodes s u.complete ∧ KeepsValid s u.complete ∧ KeepsSeen s u.complete := by
  have quiet := h.quiet
  obtain ⟨inCh, status, freq, tree, codes, outCh⟩ := h.rest
  exact ⟨quiet.succeeded, outCh, inCh, quiet.keepsHost, quiet.results, freq, tree, codes,
    by simp [KeepsValid, status], by simp [KeepsSeen, status]⟩

/-- SERIALIZE_HEADER with its prerequisite met (44_header_codec R610). -/
theorem exec_serializeHeader {s : State} {T : HTree} (hv : s.status.treeValid = true) (ht : s.tree = some T)
    (h : s.ioClear) (ho : s.outCh.closed = false) :
    ∃ u, exec .serializeHeader s = .next u.complete ∧ Wrote s u T.header := by
  obtain ⟨u, hu, wrote⟩ := serializeBody_open ht h ho
  refine ⟨u, runCommand_ok ?_, wrote⟩
  rw [Body.bind_apply, requireTree_apply, if_pos hv]
  exact hu

/-! ## The 32-bit field of CHECK_MAGIC -/

/-- The state after one read of `n` bits that were there (20_memory R210). -/
def State.pastField (s : State) (n : Nat) : State :=
  { s with io := s.io.tail, inCh := { s.inCh with pos := s.inCh.pos + n } }

/-- CHECK_MAGIC's body on a whole field (44_header_codec R620). -/
theorem checkMagicBody_field {s : State} (h : s.ioClear) (hn : s.inCh.pos + 32 ≤ s.inCh.bits.length) :
    checkMagicBody s =
      if BitVec.ofNat 32 (val (s.inRest.take 32)) = s.params.magic then .ok () (s.pastField 32)
      else .error (.raised .invalidFormat (BitVec.ofNat 32 (val (s.inRest.take 32)))) (s.pastField 32) := by
  rw [checkMagicBody, Body.bind_apply, readIn_some h hn]
  simp only [Body.bind_apply, Body.get_apply]
  split <;> rfl

/-- CHECK_MAGIC's body on fewer than 32 bits (44_header_codec R620). -/
theorem checkMagicBody_eof {s : State} (h : s.ioClear) (hn : s.inCh.bits.length < s.inCh.pos + 32) :
    ∃ u, checkMagicBody s = .error (.raised .invalidFormat 0#32) u ∧ Unlogged s u ∧ u.status.infoEof = true ∧
      u.outCh = s.outCh := by
  rw [checkMagicBody, Body.bind_apply, readIn_eof h hn]
  exact ⟨_, rfl, ⟨rfl, rfl, rfl⟩, rfl, rfl⟩

/-- The error path when its close of an open OUT passes (46_orchestration R740). -/
theorem errorPath_open {s : State} (h : s.ioClear) (ho : s.outCh.closed = false) {op : Opcode}
    (hop : op ≠ closeOutputOp) (e : Err) (info : Word) : errorPath op e info s =
      .next (State.raise { s with io := s.io.tail, outCh := { s.outCh with closed := true } } e info op) := by
  rw [errorPath, if_neg hop, outClose_open h ho]

/-! ## An acceptable header -/

/-- Reads that took `p` off what is left of IN moved its position by the length of `p`. -/
theorem pos_eq_of_inRest {s u : State} {p : Bits} (hb : u.inCh.bits = s.inCh.bits)
    (hs : s.inCh.pos ≤ s.inCh.bits.length) (hu : u.inCh.pos ≤ u.inCh.bits.length) (hr : s.inRest = p ++ u.inRest) :
    u.inCh.pos = s.inCh.pos + p.length := by
  have hlen := congrArg List.length hr
  rw [List.length_append, inRest_length, inRest_length, State.inLeft, State.inLeft, hb] at hlen
  rw [hb] at hu
  omega

/-- A bit is left of IN only when its position lies within its string. -/
theorem pos_le_of_inRest {s : State} (h : 0 < s.inRest.length) : s.inCh.pos ≤ s.inCh.bits.length := by
  rw [inRest_length, State.inLeft] at h
  omega

/-- DESERIALIZE_HEADER on the header of an acceptable tree (44_header_codec R630). -/
theorem exec_deserializeHeader {s : State} {T : HTree} {rest : Bits} (h : s.ioClear)
    (hr : s.inRest = T.header ++ rest) (ha : T.acceptable) :
    ∃ u, exec .deserializeHeader s = .next u.complete ∧ Parsed s u T rest ∧
      u.inCh = { s.inCh with pos := s.inCh.pos + T.header.length } := by
  have hp : s.inCh.pos ≤ s.inCh.bits.length := pos_le_of_inRest (by
    have hleaves := T.leaves_eq
    rw [hr, List.length_append, T.length_header]
    omega)
  obtain ⟨u, hu, parsed⟩ := deserializeBody_ok h hp hr ha
  have hpos := pos_eq_of_inRest parsed.quiet.in_bits hp parsed.pos_le (parsed.rest_eq ▸ hr)
  exact ⟨u, runCommand_ok hu, parsed, congrArg₂ InChannel.mk parsed.quiet.in_bits hpos⟩

/-- The nodes of a tree read from a header have weight 0 (44_header_codec R630). -/
theorem SlotsAt.weight {nodes : Vector Node 513} {T : HTree} (h : SlotsAt nodes 0 T) {i : Nat} (hi : i < T.size) :
    nodeWeight nodes i = 0 := by
  have hlen : i < (T.slots 0).length := by rwa [HTree.length_slots]
  have hslot := h i hi
  rw [Nat.zero_add, List.getElem?_eq_getElem hlen] at hslot
  rw [nodeWeight, hslot, Option.map_some, HTree.slots_weight (List.getElem_mem hlen)]
  rfl

/-! ## A header that is rejected -/

/-- What DESERIALIZE_HEADER leaves when it raises: no tree, OUT as it was (44_header_codec R630, R631). -/
structure NoTreeLeft (s u : State) : Prop where
  unlogged : Unlogged s u
  treeValid : u.status.treeValid = false
  codesValid : u.status.codesValid = false
  nodeCount : u.nodeCount = 0#10
  leafCount : u.leafCount = 0#9
  outCh : u.outCh = s.outCh

/-- `parse` writes none of these, and the loss of NODE neither. -/
theorem ParseStop.noTreeLeft {s u : State} (h : ParseStop s.treeGone u) : NoTreeLeft s u.freeNodes := by
  rw [h.only]
  exact ⟨⟨rfl, rfl, rfl⟩, rfl, rfl, rfl, rfl, rfl⟩

/-- An EOF answer later in the header, in terms of where IN stood at its start (20_memory R210). -/
theorem ParseStop.posAfterEof {s u : State} (h : ParseStop s.treeGone u) {m : Nat}
    (hpos : u.inCh.pos = s.inCh.pos + m) (n : Nat) : u.posAfterEof n = s.posAfterEof (m + n) := by
  have hparams : u.params = s.params := by rw [h.only]; rfl
  have hbits : u.inCh.bits = s.inCh.bits := by rw [h.only]; rfl
  rw [State.posAfterEof, State.posAfterEof, hparams, hbits, hpos, Nat.add_assoc]

/-- DESERIALIZE_HEADER's body raises MALFORMED_HEADER with IN at `p` (44_header_codec R630, R631). -/
def HeaderRejected (s : State) (sub : HeaderSub) (info : Word) (p : Nat) : Prop :=
  ∃ u, deserializeBody s = .error (.raised (.malformedHeader sub) info) u ∧ NoTreeLeft s u ∧ u.inCh.pos = p

/-- What `parse` raises ends the body. -/
theorem headerRejected_of_parse {s : State} {sub : HeaderSub} {info : Word} {p : Nat}
    (h : ∃ u, parse 257 ⟨0, 0, 0⟩ s.treeGone = .error (.raised (.malformedHeader sub) info) u ∧
      ParseStop s.treeGone u ∧ u.inCh.pos = p) : HeaderRejected s sub info p := by
  obtain ⟨u, hu, hstop, hpos⟩ := h
  refine ⟨u.freeNodes, nodesLostOnError_raised ?_, hstop.noTreeLeft, hpos⟩
  rw [Body.bind_apply, Body.modify_apply]
  simp only [Body.bind_apply, hu]

section Rejected

variable {s : State} (h : s.ioClear)
include h

/-- The whole header is a leaf for a byte: ROOT_LEAF (44_header_codec R631). -/
theorem rejected_rootLeaf {sym : BitVec 9} {rest : Bits} (hsym : sym.toNat < 256)
    (hr : s.inRest = (HTree.leaf sym).header ++ rest) :
    HeaderRejected s .rootLeaf (sym.setWidth 32) (s.inCh.pos + 10) := by
  have hsize := HTree.size_leaf sym
  have hp : s.inCh.pos ≤ s.inCh.bits.length := pos_le_of_inRest (by rw [hr]; exact Nat.succ_pos _)
  obtain ⟨u, hu, parsed, hrest⟩ := parse_tree (.leaf sym)
    (fun q hq => by rw [List.mem_singleton.mp hq]; exact hsym.le) 257 ⟨0, 0, 0⟩ (s := s.treeGone) h hp hr
    (Nat.succ_pos 256) (Nat.zero_le 256) (by dsimp only; omega)
  have hroot : badRootLeaf u.nodes[0]? = some sym := by
    rw [show u.nodes[0]? = _ from parsed.slotsAt (by omega) 0 (by omega)]
    exact if_neg (Nat.ne_of_lt hsym)
  have hpos : u.inCh.pos = s.inCh.pos + 10 := by
    have hread := pos_eq_of_inRest (s := s.treeGone) parsed.nodes_only.1.in_bits hp parsed.pos_le (hrest ▸ hr)
    rwa [HTree.length_header] at hread
  have hstop : ParseStop s.treeGone u := (ParseStop.mk rfl : ParseStop u u).trans_parsed parsed
  refine ⟨u.freeNodes, nodesLostOnError_raised ?_, hstop.noTreeLeft, hpos⟩
  simp only [Body.bind_apply, Body.modify_apply, hu, Body.get_apply, hsize, Nat.zero_add, Nat.sub_self, hroot,
    raise_apply]

/-- IN ends before the first bit of the header: EOF (44_header_codec R630). -/
theorem rejected_empty (hl : s.inCh.bits.length < s.inCh.pos + 1) : HeaderRejected s .eof 0#32 (s.posAfterEof 0) :=
  headerRejected_of_parse (parse_end (s := s.treeGone) h hl 256 _)

/-- IN ends inside the header of a tree that fits: EOF (44_header_codec R630). -/
theorem rejected_inside {T : HTree} (ha : T.acceptable) (hprefix : s.inRest <+: T.header) (hne : s.inRest ≠ T.header) :
    ∃ p, HeaderRejected s .eof 0#32 p := by
  by_cases hp : s.inCh.pos ≤ s.inCh.bits.length
  · have hsize := ha.size_le
    obtain ⟨hs, hi, -⟩ := ha
    obtain ⟨more, hmore⟩ := hprefix
    have hmissing : more ≠ [] := by
      rintro rfl
      exact hne (by rw [← hmore, List.append_nil])
    obtain ⟨u, hu, hstop⟩ := parse_eof T hs 257 ⟨0, 0, 0⟩ (s := s.treeGone) h hp hmore.symm hmissing
      (Nat.lt_succ_of_le hi) (by dsimp only; omega) (by dsimp only; omega)
    exact ⟨_, headerRejected_of_parse ⟨u, hu, hstop, rfl⟩⟩
  · exact ⟨_, rejected_empty h (by omega)⟩

section Place

variable {place : List (Option HTree)} (hs : ∀ T, some T ∈ place → ∀ q ∈ T.paths, q.1.toNat ≤ 256)
  (hi : internalsSoFar place ≤ 256)
include hs hi

/-- What `parse` raises at a place inside the header ends the body. -/
theorem rejected_at_place {rest : Bits} {sub : HeaderSub} {info : Word} {p : Nat}
    (hp : s.inCh.pos ≤ s.inCh.bits.length) (hr : s.inRest = headerSoFar place ++ rest)
    (here : ∀ (j : Nat) (m : ParseCount) (u : State), m.internals = internalsSoFar place → u.ioClear →
      ParseStop s.treeGone u → u.inRest = rest → u.inCh.pos = s.inCh.pos + (headerSoFar place).length →
      u.inCh.pos ≤ u.inCh.bits.length →
      ∃ v, parse (j + 1) m u = .error (.raised (.malformedHeader sub) info) v ∧ ParseStop u v ∧ v.inCh.pos = p) :
    HeaderRejected s sub info p :=
  headerRejected_of_parse (parse_place place hs 257 ⟨0, 0, 0⟩ (s := s.treeGone) h hp hr (Nat.lt_succ_of_le hi)
    (by dsimp only; omega) (by dsimp only; omega) fun j m u hm => here j m u (hm.trans (Nat.zero_add _)))

/-- IN ends before the next node's first bit: EOF. -/
theorem rejected_end (hr : s.inRest = headerSoFar place) :
    HeaderRejected s .eof 0#32 (s.posAfterEof (headerSoFar place).length) := by
  by_cases hp : s.inCh.pos ≤ s.inCh.bits.length
  · refine rejected_at_place h hs hi hp (hr.trans (List.append_nil _).symm) fun j m u _ hc hstop hrest hpos _ => ?_
    have hlen := inRest_length u
    rw [hrest, List.length_nil, State.inLeft] at hlen
    obtain ⟨v, hv, hstop', hend⟩ := parse_end hc (by omega) j m
    exact ⟨v, hv, hstop', by rw [hend, hstop.posAfterEof hpos, Nat.add_zero]⟩
  · have hlen := inRest_length s
    rw [hr, State.inLeft] at hlen
    rw [show (headerSoFar place).length = 0 by omega]
    exact rejected_empty h (by omega)

/-- IN ends inside a leaf's symbol field: EOF. -/
theorem rejected_symbol_end {q : Bits} (hq : q.length < 9) (hr : s.inRest = headerSoFar place ++ true :: q) :
    HeaderRejected s .eof 0#32 (s.posAfterEof ((headerSoFar place).length + 1)) := by
  refine rejected_at_place h hs hi (pos_le_of_inRest (by simp [hr])) hr fun j m u _ hc hstop hrest hpos hle => ?_
  obtain ⟨v, hv, hstop', hend⟩ := parse_symbol_end hc hle hrest hq j m
  exact ⟨v, hv, hstop', by rw [hend, hstop.posAfterEof hpos]⟩

/-- A leaf holds a symbol above 256: BAD_SYMBOL. -/
theorem rejected_badSymbol {v : Nat} {rest : Bits} (hv : 256 < v) (hv' : v < 512)
    (hr : s.inRest = headerSoFar place ++ true :: (msb 9 v ++ rest)) :
    HeaderRejected s .badSymbol (BitVec.ofNat 32 v) (s.inCh.pos + (headerSoFar place).length + 10) := by
  refine rejected_at_place h hs hi (pos_le_of_inRest (by simp [hr])) hr fun j m u _ hc _ hrest hpos hle => ?_
  rw [← hpos]
  exact parse_badSymbol hv hv' hc hle hrest j m

/-- The next internal-node bit is the 257th: CAPACITY. -/
theorem rejected_capacity {rest : Bits} (hfull : internalsSoFar place = 256)
    (hr : s.inRest = headerSoFar place ++ false :: rest) :
    HeaderRejected s .capacity 0#32 (s.inCh.pos + (headerSoFar place).length + 1) := by
  refine rejected_at_place h hs hi (pos_le_of_inRest (by simp [hr])) hr fun j m u hm hc _ hrest hpos hle => ?_
  rw [← hpos]
  exact parse_capacity hc hle hrest j (hm.trans hfull)

end Place

end Rejected

/-- `n` left turns and nothing else: the place, its bits, its internal nodes. -/
theorem leftTurns (n : Nat) : headerSoFar (List.replicate n none) = List.replicate n false ∧
    internalsSoFar (List.replicate n none) = n := by
  induction n with
  | zero => exact ⟨rfl, rfl⟩
  | succ n ih =>
    obtain ⟨hbits, hcount⟩ := ih
    exact ⟨congrArg (false :: ·) hbits, congrArg (· + 1) hcount⟩

end Sys2Proof.Machine

namespace Sys2Proof

open Machine

/-- Settles O37: SERIALIZE_HEADER writes the header of the acceptable tree that a complete tree is, and
DESERIALIZE_HEADER reads exactly that header. -/
theorem headerRoundTrip : Obligations.HeaderRoundTrip := by
  intro s u hv hcomplete hs ho hempty hu
  obtain ⟨T, hT, ha⟩ := hcomplete.holds_tree
  obtain ⟨t, ht, wrote⟩ := exec_serializeHeader hv hT hs ho
  obtain ⟨succeeded, hout, -⟩ := wrote.completes
  refine ⟨t.complete, ht, succeeded, fun rest hr => ?_⟩
  rw [hout, hempty, List.nil_append] at hr
  obtain ⟨v, hexec, parsed, -⟩ := exec_deserializeHeader hu hr ha
  have hread : v.complete.tree = some T := parsed.tree
  exact ⟨v.complete, hexec, parsed.quiet.succeeded, hread.trans hT.symm, by rw [hread]; exact Option.some_ne_none T,
    parsed.rest_eq⟩

/-- Settles O33: the traversal of NODE writes the preorder header. -/
theorem serializeHeaderRuns : Obligations.SerializeHeaderRuns := by
  intro s T hv hT h ho
  obtain ⟨u, hu, wrote⟩ := exec_serializeHeader hv hT h ho
  exact ⟨T.length_header, u.complete, hu, wrote.completes⟩

/-- Settles O35: `parse` stores the nodes of the tree in completion order with weight 0 and stops at the end of the
header. -/
theorem deserializeHeaderRuns : Obligations.DeserializeHeaderRuns := by
  intro s T rest h hr ha
  obtain ⟨u, hu, parsed, hin⟩ := exec_deserializeHeader h hr ha
  have quiet := parsed.quiet
  have hcount : u.nodeCount.toNat = 2 * T.leaves - 1 := by
    have hleaves := T.leaves_eq
    rw [parsed.nodeCount, HTree.size]
    omega
  exact ⟨u.complete, hu, quiet.succeeded, parsed.tree, parsed.complete.congr rfl rfl rfl, parsed.treeValid,
    parsed.codesValid, parsed.leafCount, hcount, fun i hi => parsed.slots.weight (parsed.nodeCount ▸ hi), hin,
    parsed.outCh, quiet.keepsHost, quiet.results, parsed.freq, parsed.codes, parsed.eosSeen, quiet.cmdOverrun,
    quiet.lastOp⟩

/-- Settles O36: `parse` raises at the place where the header breaks off or turns bad, the body at its root check;
257 internal-node bits are the place 256 left turns down. -/
theorem deserializeHeaderRejects : Obligations.DeserializeHeaderRejects := by
  intro s h rejects
  have reject : ∀ {sub info position p}, (∀ p', position = some p' → p' = p) → HeaderRejected s sub info p →
      rejects sub info position := by
    rintro sub info position p hposition ⟨u, hu, lost, rfl⟩
    exact ⟨_, runCommand_raised hu, lost.unlogged.failed _ _ _, lost.treeValid, lost.codesValid, lost.nodeCount,
      lost.leafCount, lost.unlogged.in_bits, fun p' hp' => (hposition p' hp').symm, lost.outCh⟩
  have rejectAt : ∀ {sub info p}, HeaderRejected s sub info p → rejects sub info (some p) :=
    fun hrej => reject (fun p' hp' => (Option.some.inj hp').symm) hrej
  refine ⟨fun T ha hprefix hne => ?_, fun v rest hv hr => ?_, fun rest hr => ?_, fun place hs hi =>
    ⟨fun hr => rejectAt (rejected_end h hs hi hr), fun q hq hr => rejectAt (rejected_symbol_end h hs hi hq hr),
      fun v rest hv hv' hr => rejectAt (rejected_badSymbol h hs hi hv hv' hr),
      fun hfull rest hr => rejectAt (rejected_capacity h hs hi hfull hr)⟩⟩
  · obtain ⟨p, hp⟩ := rejected_inside h ha hprefix hne
    exact reject nofun hp
  · have hsym : (BitVec.ofNat 9 v).toNat = v := toNat_ofNat_lt (by omega)
    have hinfo : (BitVec.ofNat 9 v).setWidth 32 = BitVec.ofNat 32 v :=
      BitVec.eq_of_toNat_eq (by rw [BitVec.toNat_setWidth, hsym, BitVec.toNat_ofNat])
    rw [← hinfo]
    exact rejectAt (rejected_rootLeaf h (by rwa [hsym]) (by rw [hr, HTree.header, hsym, List.cons_append]))
  · obtain ⟨hbits, hcount⟩ := leftTurns 256
    have hrej := rejected_capacity h (place := List.replicate 256 none) (rest := rest)
      (fun T hT => absurd (List.eq_of_mem_replicate hT) (Option.some_ne_none T)) hcount.le hcount
      (by rw [hr, hbits, List.replicate_succ' (n := 256), List.append_assoc, List.singleton_append])
    rw [hbits, List.length_replicate] at hrej
    exact rejectAt hrej

/-- Settles O32: the body is one write of the 32 bits of MAGIC. -/
theorem writeMagicRuns : Obligations.WriteMagicRuns := by
  intro s h ho
  obtain ⟨u, hu, wrote⟩ := writeMagicBody_open h ho
  exact ⟨u.complete, runCommand_ok hu, wrote.completes⟩

/-- Settles O34: the body is one 32-bit read and a comparison. -/
theorem checkMagicRuns : Obligations.CheckMagicRuns := by
  intro s h v
  refine ⟨fun hn => ⟨fun hv => ?_, fun hv => ?_⟩, fun hn => ?_⟩
  · have hbody := (checkMagicBody_field h hn).trans (if_pos hv)
    refine ⟨_, runCommand_ok hbody, ?_, rfl, rfl, ?_⟩
    · simp [Succeeded, KeepsReport, State.pastField]
    · simp [KeepsHost, KeepsResults, KeepsFreq, KeepsTree, KeepsCodes, KeepsValid, KeepsSeen, State.pastField]
  · have hbody := (checkMagicBody_field h hn).trans (if_neg hv)
    have unlogged : Unlogged s (s.pastField 32) := ⟨rfl, rfl, rfl⟩
    exact ⟨_, runCommand_raised hbody, unlogged.failed _ _ _, rfl, rfl, rfl⟩
  · obtain ⟨u, hu, unlogged, heof, hout⟩ := checkMagicBody_eof h hn
    exact ⟨_, runCommand_raised hu, unlogged.failed _ _ _, heof, hout⟩

/-- Settles O49: the first step is the body of CHECK_MAGIC after CODES_VALID is cleared, and the error path closes
OUT. -/
theorem decompressRejectsBadMagic : Obligations.DecompressRejectsBadMagic := by
  intro s h ho hn hv
  have hbody := (checkMagicBody_field (s := s.setCodesValid false) h hn).trans (if_neg hv)
  have hend := errorPath_open (s := (s.setCodesValid false).pastField 32) (ioClear_tail h) ho
    (by decide : (0x2A#8 : Opcode) ≠ closeOutputOp) .invalidFormat (BitVec.ofNat 32 (val (s.inRest.take 32)))
  have unlogged : Unlogged s { (s.setCodesValid false).pastField 32 with
    io := s.io.tail.tail, outCh := { s.outCh with closed := true } } := ⟨rfl, rfl, rfl⟩
  exact ⟨_, (runSteps_raised hbody).trans hend, unlogged.failed _ _ _, rfl, rfl, rfl, ⟨rfl, rfl, rfl⟩, rfl, rfl, rfl,
    rfl⟩

end Sys2Proof
end

section
/-! The payload codec and channel control (45_payload_codec R650 to R703): REWIND_INPUT and CLOSE_OUTPUT, the codes
that ENCODE_SYMBOL and ENCODE_PAYLOAD append, the tree walks of DECODE_SYMBOL and DECODE_PAYLOAD. -/

namespace Sys2Proof.Machine

/-! ## Bodies that change the channels only -/

/-- `u` differs from `s` in IN's position, OUT and the draws taken: all that the bodies of the payload codec write,
besides EOS_SEEN and RES_SYM. -/
def OnlyChannels (s u : State) : Prop :=
  ∃ pos outCh io, u = { s with inCh := { s.inCh with pos := pos }, outCh := outCh, io := io }

theorem OnlyChannels.refl (s : State) : OnlyChannels s s := ⟨_, _, _, rfl⟩

theorem ReadTo.onlyChannels {s u : State} (h : ReadTo s u) : OnlyChannels s u := ⟨_, _, _, h.only⟩

theorem DecodedTo.onlyChannels {s u : State} {p : Bits} (h : DecodedTo s u p) : OnlyChannels s u := ⟨_, _, _, h.only⟩

theorem OnlyChannels.setEosSeen {s u : State} (h : OnlyChannels s u) (b : Bool) :
    OnlyChannels (s.setEosSeen b) (u.setEosSeen b) := by
  obtain ⟨pos, outCh, io, rfl⟩ := h
  exact ⟨pos, outCh, io, rfl⟩

theorem OnlyChannels.setResSym {s u : State} (h : OnlyChannels s u) (sym : BitVec 9) :
    OnlyChannels { s with resSym := sym } { u with resSym := sym } := by
  obtain ⟨pos, outCh, io, rfl⟩ := h
  exact ⟨pos, outCh, io, rfl⟩

/-- Success after such a body (40_control R406). -/
theorem OnlyChannels.completes {s u : State} (h : OnlyChannels s u) :
    Succeeded s u.complete ∧ KeepsHost s u.complete ∧ KeepsResults s u.complete ∧ KeepsFreq s u.complete ∧
      KeepsTree s u.complete ∧ KeepsCodes s u.complete ∧ KeepsValid s u.complete ∧ KeepsSeen s u.complete := by
  obtain ⟨pos, outCh, io, rfl⟩ := h
  simp [Succeeded, KeepsReport, KeepsHost, KeepsResults, KeepsFreq, KeepsTree, KeepsCodes, KeepsValid, KeepsSeen]

/-- The error entry after such a body (60_exceptions R820). -/
theorem OnlyChannels.raises {s u : State} (h : OnlyChannels s u) (e : Err) (info : Word) (op : Opcode) :
    FailedWith e info op s (u.raise e info op) ∧ KeepsResults s (u.raise e info op) ∧
      KeepsValid s (u.raise e info op) ∧ KeepsSeen s (u.raise e info op) := by
  obtain ⟨pos, outCh, io, rfl⟩ := h
  simp [FailedWith, KeepsResults, KeepsValid, KeepsSeen]

/-! ## Commands whose prerequisite is met -/

theorem runCommand_requireTree_met {s : State} (h : s.status.treeValid = true) (op : Opcode) (body : Body Unit) :
    runCommand op (do requireTree; body) s = runCommand op body s := by
  rw [runCommand, Body.bind_apply, requireTree_apply, if_pos h, runCommand]

theorem runCommand_requireCodes_met {s : State} (h : s.status.codesValid = true) (op : Opcode) (body : Body Unit) :
    runCommand op (do requireCodes; body) s = runCommand op body s := by
  rw [runCommand, Body.bind_apply, requireCodes_apply, if_pos h, runCommand]

theorem exec_encodeSymbol {s : State} (h : s.status.codesValid = true) (sym : Opnd) :
    exec (.encodeSymbol sym) s = runCommand 0x31#8 (encodeCode sym.toNat) s := runCommand_requireCodes_met h _ _

theorem exec_encodePayload {s : State} (h : s.status.codesValid = true) :
    exec .encodePayload s = runCommand 0x32#8 encodePayloadBody s := runCommand_requireCodes_met h _ _

theorem exec_decodeSymbol {s : State} (h : s.status.treeValid = true) :
    exec .decodeSymbol s = runCommand 0x34#8 decodeSymbolBody s := runCommand_requireTree_met h _ _

theorem exec_decodePayload {s : State} (h : s.status.treeValid = true) :
    exec .decodePayload s = runCommand 0x35#8 decodePayloadBody s := runCommand_requireTree_met h _ _

/-! ## Encoding -/

/-- `encode(sym)` without a code (45_payload_codec R660). -/
theorem encodeCode_missing {s : State} {sym : Nat} (hv : (s.codeAt sym).valid = false) :
    encodeCode sym s = .error (.raised .missingCode (BitVec.ofNat 32 sym)) s := by
  simp [encodeCode, hv]

/-- ENCODE_PAYLOAD's body at a byte with no code (45_payload_codec R670). -/
theorem encodePayloadBody_missing {s : State} (h : s.ioClear) (ho : s.outCh.closed = false) {bs : List Nat} {b : Nat}
    {rest : List Nat} (hw : wholeBytes s.inRest = bs ++ b :: rest) (hv : ∀ c ∈ bs, (s.codeAt c).valid = true)
    (hb : (s.codeAt b).valid = false) :
    ∃ u, encodePayloadBody s = .error (.raised .missingCode (BitVec.ofNat 32 b)) u ∧
      u = { s with io := u.io, inCh := { s.inCh with pos := s.inCh.pos + 8 * (bs.length + 1) },
                   outCh := { s.outCh with bits := s.outCh.bits ++ bs.flatMap fun c => (s.codeAt c).path } } := by
  obtain ⟨u, hu, heq⟩ := encodeLoop_missing bs (s.inLeft / 8 + 1) h ho (by rw [inRest_length]; omega) hw hv hb
  refine ⟨u, ?_, heq⟩
  simp only [encodePayloadBody, Body.bind_apply, Body.get_apply, hu]

/-- ENCODE_PAYLOAD's body when only END_OF_STREAM has no code (45_payload_codec R670). -/
theorem encodePayloadBody_noEos {s : State} (h : s.ioClear) (ho : s.outCh.closed = false)
    (hv : ∀ b ∈ wholeBytes s.inRest, (s.codeAt b).valid = true) (he : (s.codeAt 256).valid = false) :
    ∃ u, encodePayloadBody s = .error (.raised .missingCode 256#32) u ∧
      u = { s with io := u.io, inCh := { s.inCh with pos := s.posAfterBytes },
                   outCh := { s.outCh with
                     bits := s.outCh.bits ++ (wholeBytes s.inRest).flatMap fun b => (s.codeAt b).path } } := by
  obtain ⟨u, hu, -, heq⟩ := encodeLoop_open (s.inLeft / 8 + 1) h ho (by rw [inRest_length]; omega) hv
  have hmissing : (u.codeAt 256).valid = false := by rw [heq]; exact he
  refine ⟨u, ?_, heq⟩
  simp only [encodePayloadBody, Body.bind_apply, Body.get_apply, hu]
  exact encodeCode_missing hmissing

/-! ## Decoding -/

/-- With nothing left of IN, its position inside the string is the end. -/
theorem inCh_at_end {s u : State} (hb : u.inCh.bits = s.inCh.bits) (hp : u.inCh.pos ≤ u.inCh.bits.length)
    (hr : u.inRest = []) : u.inCh = { s.inCh with pos := s.inCh.bits.length } := by
  have hend : u.inCh.bits.length ≤ u.inCh.pos := List.drop_eq_nil_iff.mp hr
  exact congrArg₂ InChannel.mk hb ((hp.antisymm hend).trans (congrArg List.length hb))

/-- DECODE_SYMBOL's body on a whole code (45_payload_codec R690). -/
theorem decodeSymbolBody_leaf {s : State} {T : HTree} (ht : s.tree = some T) (h : s.ioClear)
    (hp : s.inCh.pos ≤ s.inCh.bits.length) {sym : BitVec 9} {rest : Bits} (hw : T.walk s.inRest = some (sym, rest)) :
    ∃ u, decodeSymbolBody s = .ok () ({ u with resSym := sym }.setEosSeen (sym.toNat == Config.endOfStream)) ∧
      ReadTo (s.setEosSeen false) u ∧ u.inRest = rest := by
  obtain ⟨u, hu, hto, hr⟩ := (walk_tree (s := s.setEosSeen false) ht h hp).1 sym rest hw
  refine ⟨u, ?_, hto, hr⟩
  simp only [decodeSymbolBody, Body.bind_apply, Body.modify_apply, hu]

/-- DECODE_SYMBOL's body when IN ends at an internal node (45_payload_codec R690). -/
theorem decodeSymbolBody_truncated {s : State} {T : HTree} (ht : s.tree = some T) (h : s.ioClear)
    (hp : s.inCh.pos ≤ s.inCh.bits.length) (hw : T.walk s.inRest = none) :
    ∃ u, decodeSymbolBody s = .error (.raised .truncatedStream 0#32) u ∧ ReadTo (s.setEosSeen false) u ∧
      u.inRest = [] := by
  obtain ⟨u, hu, hto, hr⟩ := (walk_tree (s := s.setEosSeen false) ht h hp).2 hw
  refine ⟨u, ?_, hto, hr⟩
  simp only [decodeSymbolBody, Body.bind_apply, Body.modify_apply, hu]

/-- DECODE_PAYLOAD's body when IN ends inside a code (45_payload_codec R700, R702). -/
theorem decodePayloadBody_truncated {s : State} {T : HTree} (ht : s.tree = some T)
    (hT : ∀ sym, T = .leaf sym → sym = 256#9) (h : s.ioClear) (ho : s.outCh.closed = false)
    (hp : s.inCh.pos ≤ s.inCh.bits.length) {bs : List (BitVec 9)} (hd : T.breaksOff s.inRest bs) :
    ∃ u, decodePayloadBody s = .error (.raised .truncatedStream 0#32) u ∧
      DecodedTo (s.setEosSeen false) u (bs.flatMap fun b => msb 8 b.toNat) ∧ u.inRest = [] := by
  obtain ⟨u, hu, hto, hr⟩ := decodeLoop_truncated (s.inLeft + 1) (s := s.setEosSeen false) ht hT h ho hp
    (by show s.inRest.length < _; rw [inRest_length]; exact Nat.lt_succ_self _) hd
  refine ⟨u, ?_, hto, hr⟩
  simp only [decodePayloadBody, Body.bind_apply, Body.get_apply, Body.modify_apply]
  exact hu

theorem DecodedTo.outCh {s u : State} {p : Bits} (h : DecodedTo s u p) :
    u.outCh = { s.outCh with bits := s.outCh.bits ++ p } := by rw [h.only]

theorem DecodedTo.in_bits {s u : State} {p : Bits} (h : DecodedTo s u p) : u.inCh.bits = s.inCh.bits := by rw [h.only]

end Sys2Proof.Machine

namespace Sys2Proof

open Machine

/-- Settles O41: the three ends of the encode loop and of the code of END_OF_STREAM after it. -/
theorem encodePayloadRuns : Obligations.EncodePayloadRuns := by
  intro s hvalid h ho
  rw [exec_encodePayload hvalid]
  refine ⟨fun bs b rest hw hv hb => ?_, fun hv he => ?_, fun hv he => ?_⟩
  · obtain ⟨u, hu, heq⟩ := encodePayloadBody_missing h ho hw hv hb
    have only : OnlyChannels s u := ⟨_, _, _, heq⟩
    obtain ⟨failed, results, valid, -⟩ := only.raises .missingCode (BitVec.ofNat 32 b) 0x32#8
    exact ⟨_, runCommand_raised hu, failed, congrArg State.outCh heq, congrArg State.inCh heq, results, valid⟩
  · obtain ⟨u, hu, heq⟩ := encodePayloadBody_noEos h ho hv he
    have only : OnlyChannels s u := ⟨_, _, _, heq⟩
    obtain ⟨failed, results, valid, -⟩ := only.raises .missingCode 256#32 0x32#8
    exact ⟨_, runCommand_raised hu, failed, congrArg State.outCh heq, congrArg State.inCh heq, results, valid⟩
  · obtain ⟨u, hu, -, heq⟩ := encodePayloadBody_open h ho hv he
    have only : OnlyChannels s u := ⟨_, _, _, heq⟩
    obtain ⟨succeeded, kept⟩ := only.completes
    exact ⟨_, runCommand_ok hu, succeeded, congrArg State.outCh heq, congrArg State.inCh heq, kept⟩

/-- Settles O42: one walk from the root, which reads IN only; its symbol and EOS_SEEN are written after it. -/
theorem decodeSymbolRuns : Obligations.DecodeSymbolRuns := by
  intro s T hvalid ht h hp
  rw [exec_decodeSymbol hvalid]
  refine ⟨fun sym rest hw => ?_, fun hw => ?_⟩
  · obtain ⟨u, hu, hto, hr⟩ := decodeSymbolBody_leaf ht h hp hw
    obtain ⟨succeeded, host, ⟨hsym, hlen, hwlo, hwhi, hnode, hcode⟩, freq, tree, codes, valid, eosSeen, overrun,
      lastOp⟩ := ((hto.onlyChannels.setResSym sym).setEosSeen (sym.toNat == Config.endOfStream)).completes
    have heos : (sym.toNat == Config.endOfStream) = decide (sym = 256#9) :=
      (beq_eq_decide _ _).trans (decide_eq_decide.mpr (BitVec.toNat_inj (y := 256#9)))
    obtain ⟨-, hout, -⟩ := hto.quiet
    exact ⟨_, runCommand_ok hu, succeeded, hsym, eosSeen.trans heos, hr, hto.bits, hout, hlen, hwlo, hwhi, hnode, hcode,
      host, freq, tree, codes, valid, overrun, lastOp⟩
  · obtain ⟨u, hu, hto, hr⟩ := decodeSymbolBody_truncated ht h hp hw
    obtain ⟨failed, results, -, eosSeen, -⟩ := hto.onlyChannels.raises .truncatedStream 0#32 0x34#8
    obtain ⟨-, hout, -⟩ := hto.quiet
    exact ⟨_, runCommand_raised hu, failed, eosSeen, inCh_at_end (s := s) hto.bits hto.pos_le hr, hout, results⟩

/-- Settles O43: the decode loop ends after the END_OF_STREAM code and sets EOS_SEEN. -/
theorem decodePayloadRuns : Obligations.DecodePayloadRuns := by
  intro s T bs rest hvalid ht hT h ho hp hd
  rw [exec_decodePayload hvalid]
  obtain ⟨u, hu, hto, hr⟩ := decodePayloadBody_done ht hT h ho hp hd
  obtain ⟨succeeded, host, results, freq, tree, codes, valid, eosSeen, overrun, lastOp⟩ :=
    (hto.onlyChannels.setEosSeen true).completes
  exact ⟨_, runCommand_ok hu, succeeded, eosSeen, hto.outCh, hr, hto.in_bits, host, results, freq, tree, codes, valid,
    overrun, lastOp⟩

/-- Settles O44: the walk that finds no leaf raises TRUNCATED_STREAM with IN at its end. -/
theorem decodePayloadTruncated : Obligations.DecodePayloadTruncated := by
  intro s T bs hvalid ht hT h ho hp hd
  rw [exec_decodePayload hvalid]
  obtain ⟨u, hu, hto, hr⟩ := decodePayloadBody_truncated ht hT h ho hp hd
  obtain ⟨failed, -, -, eosSeen, -⟩ := hto.onlyChannels.raises .truncatedStream 0#32 0x35#8
  exact ⟨_, runCommand_raised hu, failed, eosSeen, hto.outCh, inCh_at_end (s := s) hto.in_bits hto.pos_le hr⟩

/-- Settles O38: each body is one channel call. -/
theorem rewindAndCloseRun : Obligations.RewindAndCloseRun := by
  intro s h
  refine ⟨?_, fun ho => ?_⟩
  · have only : OnlyChannels s { s with io := s.io.tail, inCh := { s.inCh with pos := 0 } } := ⟨_, _, _, rfl⟩
    obtain ⟨succeeded, kept⟩ := only.completes
    exact ⟨_, runCommand_ok (rewindBody_clear h), succeeded, rfl, rfl, kept⟩
  · have only : OnlyChannels s { s with io := s.io.tail, outCh := { s.outCh with closed := true } } := ⟨_, _, _, rfl⟩
    obtain ⟨succeeded, kept⟩ := only.completes
    exact ⟨_, runCommand_ok (closeOutputBody_open h ho), succeeded, rfl, rfl, kept⟩

/-- Settles O40: the body writes the symbol's code, or raises before any write. -/
theorem encodeSymbolRuns : Obligations.EncodeSymbolRuns := by
  intro s sym _ hvalid h ho
  rw [exec_encodeSymbol hvalid]
  refine ⟨fun hv => ?_, fun hv => ?_⟩
  · obtain ⟨u, hu, hclear, heq⟩ := encodeCode_open h ho hv
    have wrote : Wrote s u (s.codeAt sym.toNat).path := ⟨heq, hclear⟩
    exact ⟨_, runCommand_ok hu, wrote.completes⟩
  · obtain ⟨failed, -⟩ := (OnlyChannels.refl s).raises .missingCode (BitVec.ofNat 32 sym.toNat) 0x31#8
    exact ⟨_, runCommand_raised (encodeCode_missing hv), failed, rfl, rfl, rfl⟩

end Sys2Proof
end

section
/-! The macro commands (46_orchestration R720 to R751): the order of their bodies and the error path, the stream that
COMPRESS writes, the bytes that DECOMPRESS decodes from it, and the round trip of the two. -/

namespace Sys2Proof.Machine

/-! ## Bodies that change the channels only, one after the other -/

theorem OnlyChannels.trans {s t u : State} (h : OnlyChannels s t) (k : OnlyChannels t u) : OnlyChannels s u := by
  obtain ⟨_, _, _, rfl⟩ := h
  obtain ⟨pos, outCh, io, rfl⟩ := k
  exact ⟨pos, outCh, io, rfl⟩

theorem Wrote.onlyChannels {s u : State} {p : Bits} (h : Wrote s u p) : OnlyChannels s u := ⟨_, _, _, h.only⟩

/-- Such a body is quiet: it writes only what `Quiet` leaves out. -/
theorem OnlyChannels.quiet {s u : State} (h : OnlyChannels s u) : Quiet s u := by
  obtain ⟨pos, outCh, io, rfl⟩ := h
  exact ⟨rfl, rfl, rfl, rfl, rfl, rfl, rfl, rfl, rfl, rfl, rfl, rfl, rfl, rfl, rfl, ⟨rfl, rfl, rfl, rfl, rfl, rfl⟩, rfl⟩

/-- It also leaves what `Quiet` lets a body write: the tables, the tree and STATUS. -/
theorem OnlyChannels.kept {s u : State} (h : OnlyChannels s u) :
    u.tree = s.tree ∧ u.status = s.status ∧ u.freq = s.freq ∧ u.codes = s.codes := by
  obtain ⟨pos, outCh, io, rfl⟩ := h
  exact ⟨rfl, rfl, rfl, rfl⟩

theorem OnlyChannels.codeAt {s u : State} (h : OnlyChannels s u) : u.codeAt = s.codeAt := by
  obtain ⟨pos, outCh, io, rfl⟩ := h
  rfl

/-- With IN at its start, all of it is left. -/
theorem inRest_of_pos_zero {s : State} (h : s.inCh.pos = 0) : s.inRest = s.inCh.bits := by
  rw [State.inRest, h, List.drop_zero]

/-- A rewind makes all of IN ready to be read again (45_payload_codec R650). -/
theorem rewindBody_rewinds {s : State} (h : s.ioClear) :
    ∃ u, rewindBody s = .ok () u ∧ OnlyChannels s u ∧ u.ioClear ∧ u.inRest = s.inCh.bits ∧ u.outCh = s.outCh :=
  ⟨_, rewindBody_clear h, ⟨_, _, _, rfl⟩, ioClear_tail h, inRest_of_pos_zero rfl, rfl⟩

/-- A macro command whose steps before CLOSE_OUTPUT succeed closes an open OUT and succeeds (46_orchestration R720,
R730). -/
theorem runSteps_close {before : List (Opcode × Body Unit)} {s t : State} (hb : runsTo before s t) (h : t.ioClear)
    (ho : t.outCh.closed = false) :
    ∃ u, runSteps (before ++ [(closeOutputOp, closeOutputBody)]) s = .next u.complete ∧ OnlyChannels t u ∧
      u.inCh = t.inCh ∧ u.outCh = { t.outCh with closed := true } := by
  refine ⟨{ t with io := t.io.tail, outCh := { t.outCh with closed := true } }, ?_, ⟨_, _, _, rfl⟩, rfl, rfl⟩
  rw [runsTo_runSteps hb, runSteps_ok (closeOutputBody_open h ho), runSteps_nil]

/-! ## The error path -/

/-- A close of a closed OUT writes nothing but the counter of free values, and answers as OUT_AFTER_CLOSE says
(20_memory R215). -/
theorem closeClosed_answers (s : State) :
    ∃ r d, s.closeClosed = (r, { s with draws := d }) ∧
      (∀ append, s.params.afterCloseClose = .fixed (.ok append) → r = .ok) ∧
      (∀ c, s.params.afterCloseClose = .fixed (.ioErr c) → r = .ioErr c) := by
  unfold State.closeClosed
  cases s.params.afterCloseClose with
  | fixed a =>
    cases a with
    | ok append => exact ⟨.ok, s.draws, rfl, fun _ _ => rfl, nofun⟩
    | ioErr c => exact ⟨.ioErr c, s.draws, rfl, nofun, fun _ h => by cases h; rfl⟩
  | drawn =>
    rw [State.closedAnswer]
    cases Config.freeClosed s.draws with
    | ok append => exact ⟨.ok, s.draws + 1, rfl, nofun, nofun⟩
    | ioErr c => exact ⟨.ioErr c, s.draws + 1, rfl, nofun, nofun⟩

/-- A close of an open OUT before which no hardware reset is drawn closes it, or is failed by the channel and leaves it
open (20_memory R213). -/
theorem outClose_answers {s : State} (hn : s.noReset) (ho : s.outCh.closed = false) :
    ∃ r, outClose s = .ok r { s with io := s.io.tail, outCh := { s.outCh with closed := decide (r = .ok) } } ∧
      ((∀ c io, s.io ≠ .fail c :: io) → r = .ok) ∧ (∀ c io, s.io = .fail c :: io → r ≠ .ok) := by
  cases hio : s.io with
  | nil => exact ⟨.ok, by simp [outClose, hio, ho], fun _ => rfl, nofun⟩
  | cons d io =>
    cases d with
    | pass => exact ⟨.ok, by simp [outClose, hio, ho], fun _ => rfl, nofun⟩
    | fail c =>
      refine ⟨.ioErr c, ?_, fun h => absurd rfl (h c io), nofun⟩
      have hsame : s.outCh = { s.outCh with closed := false } := by rw [← ho]
      simp only [outClose, hio, ho]
      rw [hsame]
      rfl
    | reset => exact absurd hn (not_noReset hio)

/-- The error path around the one close that it makes (46_orchestration R740): the error is reported, and an answer
other than OK sets CLOSE_FAILED. -/
theorem errorPath_closes {s : State} {op : Opcode} {r : IoReply} {closed : Bool} {d : Nat} (hop : op ≠ closeOutputOp)
    (h : outClose s = .ok r { s with io := s.io.tail, outCh := { s.outCh with closed := closed }, draws := d })
    (e : Err) (info : Word) :
    ∃ t, errorPath op e info s = .next t ∧
      (FailedWith e info op s t ∧ KeepsResults s t ∧ KeepsFreq s t ∧ KeepsTree s t ∧ KeepsCodes s t ∧ KeepsValid s t) ∧
      t.outCh = { s.outCh with closed := closed } ∧ t.inCh = s.inCh ∧ t.io = s.io.tail ∧
      (r = .ok → t.status.closeFailed = s.status.closeFailed) ∧ (r ≠ .ok → t.status.closeFailed = true) := by
  rw [errorPath, if_neg hop, h]
  cases r with
  | ok =>
    refine ⟨_, rfl, ?_, rfl, rfl, rfl, fun _ => rfl, fun hr => absurd rfl hr⟩
    simp [FailedWith, KeepsResults, KeepsFreq, KeepsTree, KeepsCodes, KeepsValid]
  | ioErr c =>
    refine ⟨_, rfl, ?_, rfl, rfl, rfl, nofun, fun _ => rfl⟩
    simp [FailedWith, KeepsResults, KeepsFreq, KeepsTree, KeepsCodes, KeepsValid]

/-- Steps whose first failing body raises an error end in the error path with that body's opcode. -/
theorem runSteps_fails {before after : List (Opcode × Body Unit)} {op : Opcode} {body : Body Unit} {s u v : State}
    {e : Err} {info : Word} (hbefore : runsTo before s u) (hbody : body u = .error (.raised e info) v) :
    runSteps (before ++ (op, body) :: after) s = errorPath op e info v := by
  rw [runsTo_runSteps hbefore, runSteps_raised hbody]

/-! ## COMPRESS: the count, the tree and the codes -/

/-- The symbols with a count after COUNT_FREQ are the bytes of IN and END_OF_STREAM (41_frequency R450). -/
theorem Counted.counted_perm {s u : State} (h : Counted s u) :
    u.counted.Perm (256 :: (wholeBytes s.inRest).dedup) := by
  have hnodup : (256 :: (wholeBytes s.inRest).dedup).Nodup :=
    List.nodup_cons.mpr ⟨fun hb => absurd (wholeBytes_lt (List.mem_dedup.mp hb)) (lt_irrefl 256), List.nodup_dedup _⟩
  refine (List.perm_ext_iff_of_nodup (counted_nodup u) hnodup).mpr fun b => ?_
  rw [List.mem_cons, List.mem_dedup]
  have byte : b < 256 → (b ∈ u.counted ↔ b ∈ wholeBytes s.inRest) := fun hb => by
    rw [mem_counted (by omega), ← List.count_pos_iff, ← h.count b hb, Nat.pos_iff_ne_zero, ne_eq, ne_eq,
      ← BitVec.toNat_inj]
    rfl
  constructor
  · intro hb
    by_cases heq : b = 256
    · exact .inl heq
    · have := counted_lt hb
      exact .inr ((byte (by omega)).mp hb)
  · rintro (rfl | hb)
    · rw [mem_counted (by omega), h.eos]
      decide
    · exact (byte (wholeBytes_lt hb)).mpr hb

/-- COUNT_FREQ, BUILD_TREE and GEN_CODES have run from `s`, and `T` is the tree built (46_orchestration R720). -/
structure Tabled (s u : State) (T : HTree) : Prop where
  quiet : Quiet s u
  clear : u.ioClear
  outCh : u.outCh = s.outCh
  eosSeen : u.status.eosSeen = s.status.eosSeen
  treeValid : u.status.treeValid = true
  codesValid : u.status.codesValid = true
  tree : u.tree = some T
  symbols : (T.paths.map fun q => q.1.toNat).Perm (256 :: (wholeBytes s.inRest).dedup)
  code : ∀ sym ∈ 256 :: wholeBytes s.inRest, (u.codeAt sym).valid = true ∧ T.codeOf sym = some (u.codeAt sym).path

theorem KeepsTree.tree {s u : State} (h : KeepsTree s u) : u.tree = s.tree := by
  obtain ⟨hnodes, hcount, -⟩ := h
  rw [State.tree, State.tree, State.root, State.root, hnodes, hcount]

/-- The codes of a tree of at most 257 leaves, entry by entry (43_code_table R551). -/
theorem CodesOf.entry {s u : State} {T : HTree} (h : CodesOf s u T) (hleaves : T.leaves ≤ 257)
    {q : BitVec 9 × Bits} (hq : q ∈ T.paths) (hs : q.1.toNat ≤ 256) :
    (u.codeAt q.1.toNat).valid = true ∧ T.codeOf q.1.toNat = some (u.codeAt q.1.toNat).path := by
  obtain ⟨p, hp⟩ := HTree.codeOf_some hq
  obtain ⟨q', hq', -, rfl⟩ := HTree.codeOf_mem hp
  have hcode := h.code q.1.toNat (Nat.lt_succ_of_le hs)
  simp only [hp] at hcode
  rw [hcode, hp, CodeEntry.path_ofPath (Nat.le_of_lt_succ ((HTree.path_length hq').trans_le hleaves))]
  exact ⟨rfl, rfl⟩

/-- The first three steps of COMPRESS (46_orchestration R720): the prerequisites of BUILD_TREE's and GEN_CODES' bodies
are met by the steps before them. -/
theorem compress_tables {s : State} (h : s.ioClear) (hc : ∀ b, (wholeBytes s.inRest).count b < 2 ^ 32) :
    ∃ u T, runsTo (compressSteps.take 3) s u ∧ Tabled s u T := by
  obtain ⟨a, ha, counted⟩ := countFreqBody_counts h hc
  have hperm := counted.counted_perm
  obtain ⟨b, T, hb, built⟩ := buildTreeBody_builds (s := a) fun hnil => by
    rw [hnil] at hperm
    simpa using hperm.length_eq
  have hsym : ∀ q ∈ T.paths, q.1.toNat ≤ 256 := fun q hq =>
    Nat.le_of_lt_succ (counted_lt (built.symbols.subset (List.mem_map_of_mem hq)))
  have hleaves : T.leaves ≤ 257 := by
    rw [← T.length_paths, ← List.length_map (f := fun q : BitVec 9 × Bits => q.1.toNat), built.symbols.length_eq]
    exact counted_length a
  obtain ⟨u, hu, codes⟩ := genCodesBody_codes built.tree hsym
  have symbols := built.symbols.trans hperm
  refine ⟨u, T, ⟨a, ha, b, hb, u, hu, rfl⟩, ?_⟩
  exact {
    quiet := (counted.quiet.trans built.quiet).trans codes.quiet
    clear := codes.channels.clear (built.channels.clear counted.clear)
    outCh := codes.channels.outCh.trans (built.channels.outCh.trans counted.outCh)
    eosSeen := codes.eosSeen.trans (built.eosSeen.trans counted.eosSeen)
    treeValid := codes.treeValid.trans built.treeValid
    codesValid := codes.codesValid
    tree := codes.tree.tree.trans built.tree
    symbols := symbols
    code := fun sym hm => by
      have hmem : sym ∈ T.paths.map fun q => q.1.toNat := symbols.symm.subset (by simpa using hm)
      obtain ⟨q, hq, rfl⟩ := List.mem_map.mp hmem
      exact codes.entry hleaves hq (hsym q hq) }

/-! ## COMPRESS: the stream -/

/-- The last five steps of COMPRESS, from a tree and codes for the bytes of IN (46_orchestration R720). -/
theorem compress_writes {s : State} {T : HTree} (h : s.ioClear) (ho : s.outCh.closed = false) (ht : s.tree = some T)
    (hv : ∀ sym ∈ 256 :: wholeBytes s.inCh.bits, (s.codeAt sym).valid = true) :
    ∃ u, runSteps (compressSteps.drop 3) s = .next u.complete ∧ OnlyChannels s u ∧
      u.outCh = { closed := true, bits := s.outCh.bits ++ msb 32 s.params.magic.toNat ++ T.header ++
        ((wholeBytes s.inCh.bits).flatMap fun b => (s.codeAt b).path) ++ (s.codeAt 256).path } := by
  obtain ⟨a, ha, magic⟩ := writeMagicBody_open h ho
  obtain ⟨-, -, -, treea, -, outa⟩ := magic.rest
  obtain ⟨b, hb, header⟩ := serializeBody_open (s := a) (treea.tree.trans ht) magic.clear (by rw [outa]; exact ho)
  obtain ⟨-, -, -, -, -, outb⟩ := header.rest
  obtain ⟨c, hc, rewound, clearc, restc, outc⟩ := rewindBody_rewinds header.clear
  have onlyc := (magic.onlyChannels.trans header.onlyChannels).trans rewound
  have hrest : c.inRest = s.inCh.bits := by rw [restc, header.quiet.in_bits, magic.quiet.in_bits]
  have openc : c.outCh.closed = false := by rw [outc, outb, outa]; exact ho
  obtain ⟨d, hd, cleard, heqd⟩ := encodePayloadBody_open clearc openc
    (by rw [hrest, onlyc.codeAt]; exact fun sym hm => hv sym (List.mem_cons_of_mem _ hm))
    (by rw [onlyc.codeAt]; exact hv 256 List.mem_cons_self)
  have outd := congrArg State.outCh heqd
  obtain ⟨u, hu, onlyu, -, outu⟩ := runSteps_close (before := (compressSteps.drop 3).take 4) (s := s)
    ⟨a, ha, b, hb, c, hc, d, hd, rfl⟩ cleard (by rw [outd]; exact openc)
  refine ⟨u, hu, (onlyc.trans ⟨_, _, _, heqd⟩).trans onlyu, ?_⟩
  simp only [outu, outd, outc, outb, outa, hrest, onlyc.codeAt]

/-- What COMPRESS has done when its last body ends: `T` is the tree it built for the bytes of IN (46_orchestration
R720). -/
structure Compressed (s u : State) (T : HTree) : Prop where
  quiet : Quiet s u
  eosSeen : u.status.eosSeen = s.status.eosSeen
  treeValid : u.status.treeValid = true
  codesValid : u.status.codesValid = true
  tree : u.tree = some T
  symbols : (T.paths.map fun q => q.1.toNat).Perm (256 :: (wholeBytes s.inRest).dedup)
  code : ∀ sym ∈ 256 :: wholeBytes s.inRest, ∃ p, T.codeOf sym = some p
  outCh : u.outCh = { closed := true, bits := s.outCh.bits ++ msb 32 s.params.magic.toNat ++ T.header ++
    ((wholeBytes s.inRest).flatMap fun b => (T.codeOf b).getD []) ++ (T.codeOf 256).getD [] }

/-- COMPRESS of an input at position 0 (46_orchestration R720): what the last five steps write, in terms of the tree. -/
theorem exec_compress {s : State} (h : s.ioClear) (ho : s.outCh.closed = false) (hp : s.inCh.pos = 0)
    (hc : ∀ b, (wholeBytes s.inRest).count b < 2 ^ 32) :
    ∃ u T, exec .compress s = .next u.complete ∧ Compressed s u T := by
  obtain ⟨a, T, ha, tabled⟩ := compress_tables h hc
  have hbits : a.inCh.bits = s.inRest := tabled.quiet.in_bits.trans (inRest_of_pos_zero hp).symm
  obtain ⟨u, hu, only, hout⟩ := compress_writes tabled.clear (by rw [tabled.outCh]; exact ho) tabled.tree
    (by rw [hbits]; exact fun sym hm => (tabled.code sym hm).1)
  obtain ⟨tree, status, -, -⟩ := only.kept
  have hcode : ∀ sym ∈ 256 :: wholeBytes s.inRest, (a.codeAt sym).path = (T.codeOf sym).getD [] :=
    fun sym hm => by rw [(tabled.code sym hm).2, Option.getD_some]
  rw [hbits, tabled.outCh, tabled.quiet.params, hcode 256 List.mem_cons_self,
    List.flatMap_congr fun b hb => hcode b (List.mem_cons_of_mem _ hb)] at hout
  exact ⟨u, T, (runsTo_runSteps (rest := compressSteps.drop 3) ha).trans hu, {
    quiet := tabled.quiet.trans only.quiet
    eosSeen := by rw [status]; exact tabled.eosSeen
    treeValid := by rw [status]; exact tabled.treeValid
    codesValid := by rw [status]; exact tabled.codesValid
    tree := tree.trans tabled.tree
    symbols := tabled.symbols
    code := fun sym hm => ⟨_, (tabled.code sym hm).2⟩
    outCh := hout }⟩

section

variable {s u : State} {T : HTree} (h : Compressed s u T)
include h

/-- One leaf for each byte value of IN, and one for END_OF_STREAM (46_orchestration R751). -/
theorem Compressed.leaves : T.leaves = (wholeBytes s.inRest).dedup.length + 1 := by
  rw [← T.length_paths, ← List.length_map (f := fun q : BitVec 9 × Bits => q.1.toNat), h.symbols.length_eq,
    List.length_cons]

/-- The size of the stream (46_orchestration R751). -/
theorem Compressed.length : u.outCh.bits.length = s.outCh.bits.length + (32 + (T.internals + 10 * T.leaves) +
    ((wholeBytes s.inRest).map fun b => ((T.codeOf b).getD []).length).sum + ((T.codeOf 256).getD []).length) := by
  simp only [h.outCh, List.length_append, length_msb, T.length_header, List.length_flatMap]
  omega

/-- DESERIALIZE_HEADER accepts the header that COMPRESS wrote (30_encoding R332). -/
theorem Compressed.acceptable : T.acceptable := by
  have hsym : ∀ q ∈ T.paths, q.1.toNat = 256 ∨ q.1.toNat < 256 := fun q hq => by
    have hm := h.symbols.subset (List.mem_map_of_mem hq)
    rw [List.mem_cons, List.mem_dedup] at hm
    exact hm.imp_right wholeBytes_lt
  refine ⟨fun q hq => (hsym q hq).elim le_of_eq le_of_lt, ?_, ?_⟩
  · have hbytes : (wholeBytes s.inRest).dedup.length ≤ (List.range 256).length :=
      ((List.nodup_dedup _).subperm fun b hb => List.mem_range.mpr (wholeBytes_lt (List.mem_dedup.mp hb))).length_le
    have hleaves := h.leaves
    rw [T.leaves_eq] at hleaves
    rw [List.length_range] at hbytes
    omega
  · rintro sym rfl
    have hm := h.symbols.symm.subset List.mem_cons_self
    exact BitVec.eq_of_toNat_eq (List.mem_singleton.mp hm).symm

end

/-! ## Decoding a payload of codes -/

/-- A symbol's code leads the walk to that symbol (45_payload_codec R690). -/
theorem HTree.walk_code {T : HTree} {sym : BitVec 9} {p : Bits} (h : T.codeOf sym.toNat = some p) (rest : Bits) :
    T.walk (p ++ rest) = some (sym, rest) := by
  obtain ⟨q, hq, hsym, rfl⟩ := HTree.codeOf_mem h
  rw [HTree.walk_path hq, BitVec.eq_of_toNat_eq hsym]

/-- The codes of bytes and then of END_OF_STREAM decode to those bytes, whatever follows (45_payload_codec R700,
R703). -/
theorem HTree.decodes_codes {T : HTree} {bs : List (BitVec 9)}
    (hb : ∀ b ∈ bs, b ≠ 256#9 ∧ ∃ p, T.codeOf b.toNat = some p) (he : ∃ p, T.codeOf 256 = some p) (rest : Bits) :
    T.decodes ((bs.flatMap fun b => (T.codeOf b.toNat).getD []) ++ ((T.codeOf 256).getD [] ++ rest)) bs rest := by
  induction bs with
  | nil =>
    obtain ⟨p, hp⟩ := he
    rw [hp]
    exact HTree.walk_code (sym := 256#9) hp rest
  | cons b bs ih =>
    obtain ⟨⟨hne, p, hp⟩, hbs⟩ := List.forall_mem_cons.mp hb
    refine ⟨hne, _, ?_, ih hbs⟩
    rw [List.flatMap_cons, List.append_assoc, hp, Option.getD_some]
    exact HTree.walk_code hp _

/-- The symbol of a byte. -/
def byteSymbol (b : BitVec 8) : BitVec 9 := b.setWidth 9

theorem byteSymbol_toNat (b : BitVec 8) : (byteSymbol b).toNat = b.toNat := by
  rw [byteSymbol, BitVec.toNat_setWidth, Nat.mod_eq_of_lt (b.isLt.trans (by norm_num))]

theorem byteSymbol_ne (b : BitVec 8) : byteSymbol b ≠ 256#9 := fun h => by
  have hb := byteSymbol_toNat b
  rw [h] at hb
  exact absurd hb (Nat.ne_of_gt b.isLt)

/-- A bound on how often a byte occurs also bounds how often a byte value does. -/
theorem count_toNat_lt {S : List (BitVec 8)} {m : Nat} (h : ∀ b, S.count b < m) (n : Nat) :
    (S.map (·.toNat)).count n < m := by
  by_cases hn : n ∈ S.map (·.toNat)
  · obtain ⟨b, -, rfl⟩ := List.mem_map.mp hn
    rw [List.count_map_of_injective _ _ fun _ _ => BitVec.eq_of_toNat_eq]
    exact h b
  · rw [List.count_eq_zero.mpr hn]
    exact Nat.zero_lt_of_lt (h 0#8)

/-! ## DECOMPRESS -/

/-- What DECOMPRESS has done when its last body ends, `bs` decoded with the tree `T` of the header (46_orchestration
R730). -/
structure Decompressed (s u : State) (T : HTree) (bs : List (BitVec 9)) (rest : Bits) : Prop where
  quiet : Quiet s u
  treeValid : u.status.treeValid = true
  codesValid : u.status.codesValid = false
  eosSeen : u.status.eosSeen = true
  tree : u.tree = some T
  freq : u.freq = s.freq
  codes : u.codes = s.codes
  rest_eq : u.inRest = rest
  outCh : u.outCh = { closed := true, bits := s.outCh.bits ++ bs.flatMap fun b => msb 8 b.toNat }

theorem quiet_setCodesValid (s : State) (b : Bool) : Quiet s (s.setCodesValid b) :=
  ⟨rfl, rfl, rfl, rfl, rfl, rfl, rfl, rfl, rfl, rfl, rfl, rfl, rfl, rfl, rfl, ⟨rfl, rfl, rfl, rfl, rfl, rfl⟩, rfl⟩

theorem quiet_setEosSeen (s : State) (b : Bool) : Quiet s (s.setEosSeen b) :=
  ⟨rfl, rfl, rfl, rfl, rfl, rfl, rfl, rfl, rfl, rfl, rfl, rfl, rfl, rfl, rfl, ⟨rfl, rfl, rfl, rfl, rfl, rfl⟩, rfl⟩

/-- DECOMPRESS of a well-formed stream (46_orchestration R730). -/
theorem exec_decompress {s : State} {T : HTree} {p : Bits} {bs : List (BitVec 9)} {rest : Bits} (h : s.ioClear)
    (ho : s.outCh.closed = false) (hr : s.inRest = msb 32 s.params.magic.toNat ++ T.header ++ p) (ha : T.acceptable)
    (hd : T.decodes p bs rest) : ∃ u, exec .decompress s = .next u.complete ∧ Decompressed s u T bs rest := by
  obtain ⟨a, hmagic, read, resta⟩ :=
    checkMagicBody_ok (s := s.setCodesValid false) h (hr.trans (List.append_assoc _ _ _))
  obtain ⟨quieta, outa, freqa, codesa, -⟩ := read.quiet
  obtain ⟨b, hb, parsed⟩ := deserializeBody_ok read.clear read.pos_le resta ha
  have outb : b.outCh = s.outCh := parsed.outCh.trans outa
  obtain ⟨c, hc, decoded, restc⟩ := decodePayloadBody_done parsed.tree ha.2.2 parsed.clear (by rw [outb]; exact ho)
    parsed.pos_le (parsed.rest_eq.symm ▸ hd)
  have outc : c.outCh = { s.outCh with bits := s.outCh.bits ++ bs.flatMap fun b => msb 8 b.toNat } :=
    outb ▸ decoded.outCh
  obtain ⟨u, hu, onlyu, inu, outu⟩ := runSteps_close (before := decompressSteps.take 3) (s := s)
    ⟨a, hmagic, b, hb, c.setEosSeen true, hc, rfl⟩ decoded.clear (outc ▸ ho)
  have only : OnlyChannels (b.setEosSeen true) u := (decoded.onlyChannels.setEosSeen true).trans onlyu
  obtain ⟨tree, status, freq, codes⟩ := only.kept
  exact ⟨u, hu, {
    quiet := ((quiet_setCodesValid s false).trans quieta).trans
      (parsed.quiet.trans ((quiet_setEosSeen b true).trans only.quiet))
    treeValid := by rw [status]; exact parsed.treeValid
    codesValid := by rw [status]; exact parsed.codesValid
    eosSeen := by rw [status]; rfl
    tree := tree.trans parsed.tree
    freq := freq.trans (parsed.freq.trans freqa)
    codes := codes.trans (parsed.codes.trans codesa)
    rest_eq := by rw [State.inRest, inu]; exact restc
    outCh := by rw [outu, State.setEosSeen_outCh, outc] }⟩

end Sys2Proof.Machine

namespace Sys2Proof

open Machine

/-- Settles O45: the tree of the bytes counted, its header and its codes; the size is the length of the stream. -/
theorem compressRuns : Obligations.CompressRuns := by
  intro s h ho hp hc
  obtain ⟨u, T, hu, compressed⟩ := exec_compress h ho hp hc
  have quiet := compressed.quiet
  exact ⟨u.complete, T, hu, quiet.succeeded, compressed.treeValid, compressed.codesValid, compressed.tree,
    fun b hb => compressed.code b (List.mem_cons_of_mem _ hb), compressed.code 256 List.mem_cons_self, compressed.outCh,
    compressed.leaves, T.leaves_eq.symm, compressed.length, quiet.in_bits, quiet.keepsHost, quiet.results,
    compressed.eosSeen, quiet.cmdOverrun, quiet.lastOp⟩

/-- Settles O46: the header is read back as its tree, the payload decoded with it. -/
theorem decompressRuns : Obligations.DecompressRuns := by
  intro s T p bs rest h ho hr ha hd
  obtain ⟨u, hu, decompressed⟩ := exec_decompress h ho hr ha hd
  have quiet := decompressed.quiet
  exact ⟨u.complete, hu, quiet.succeeded, decompressed.treeValid, decompressed.codesValid, decompressed.eosSeen,
    decompressed.tree, decompressed.outCh, decompressed.rest_eq, quiet.in_bits, quiet.keepsHost, quiet.results,
    decompressed.freq, decompressed.codes, quiet.cmdOverrun, quiet.lastOp⟩

/-- Settles O47: the header gives the tree back, and with it the codes of the bytes lead back to the bytes. -/
theorem compressThenDecompress : Obligations.CompressThenDecompress := by
  intro S s hS h hin hout
  have hbytes : wholeBytes s.inRest = S.map (·.toNat) := by
    rw [inRest_of_pos_zero (by rw [hin]), hin, wholeBytes_bytes]
  obtain ⟨u, T, hu, compressed⟩ := exec_compress h (by rw [hout]) (by rw [hin]) fun b => by
    rw [hbytes]; exact count_toNat_lt hS b
  refine ⟨u.complete, hu, compressed.quiet.succeeded, fun s' pad h' hmagic hin' hout' => ?_⟩
  have hcode := compressed.code
  have hstream := compressed.outCh
  rw [hbytes] at hcode hstream
  have hread : s'.inRest = msb 32 s'.params.magic.toNat ++ T.header ++
      (((S.map byteSymbol).flatMap fun b => (T.codeOf b.toNat).getD []) ++ ((T.codeOf 256).getD [] ++ pad)) := by
    rw [inRest_of_pos_zero (by rw [hin']), hin', hmagic, State.complete_outCh, hstream, hout]
    simp [List.flatMap_map, byteSymbol_toNat]
  have hdecodes := HTree.decodes_codes (T := T) (bs := S.map byteSymbol)
    (List.forall_mem_map.mpr fun b hb => ⟨byteSymbol_ne b, byteSymbol_toNat b ▸
      hcode b.toNat (List.mem_cons_of_mem _ (List.mem_map_of_mem hb))⟩)
    (hcode 256 List.mem_cons_self) pad
  obtain ⟨v, hv, decompressed⟩ := exec_decompress h' (by rw [hout']) hread compressed.acceptable hdecodes
  refine ⟨v.complete, hv, decompressed.quiet.succeeded, decompressed.outCh.trans ?_⟩
  simp [hout', List.flatMap_map, byteSymbol_toNat]

/-- Settles O48: the bodies before the failing one lead to it, and the error path makes at most one close, whose answer
only CLOSE_FAILED shows. -/
theorem macroErrorPath : Obligations.MacroErrorPath := by
  refine ⟨⟨rfl, rfl⟩, fun before after op body s u v e info hbefore hbody => ⟨fun hsteps => ?_, fun hsteps => ?_⟩,
    fun s op e info hn hclosed hop => ?_, fun s op e info hn ho => ?_⟩
  · rw [← runSteps_fails hbefore hbody, ← hsteps]; rfl
  · rw [← runSteps_fails hbefore hbody, ← hsteps]; rfl
  · obtain ⟨r, d, hanswer, hok, herr⟩ := closeClosed_answers s.takeDraw
    obtain ⟨hclose, -⟩ := outClose_closed (fun io hio => not_noReset hio hn) hclosed
    rw [hanswer] at hclose
    obtain ⟨t, ht, ⟨failed, results, freq, tree, codes, valid⟩, hout, hin, hio, hsame, hset⟩ :=
      errorPath_closes (closed := s.outCh.closed) hop hclose e info
    exact ⟨t, ht, failed, hout, hin, hio, results, freq, tree, codes, valid,
      (eq_or_ne r .ok).imp hsame hset, fun append hp => hsame (hok append hp),
      fun c hp => hset (herr c hp ▸ nofun)⟩
  · by_cases hop : op = closeOutputOp
    · obtain ⟨failed, results, valid, -⟩ := (OnlyChannels.refl s).raises e info op
      exact ⟨_, if_pos hop, failed, rfl, rfl, results, rfl, ⟨rfl, rfl, rfl⟩, rfl, valid, fun _ => ⟨rfl, rfl, rfl⟩,
        fun h => absurd hop h⟩
    · obtain ⟨r, hclose, hok, herr⟩ := outClose_answers hn ho
      obtain ⟨t, ht, ⟨failed, results, freq, tree, codes, valid⟩, hout, hin, hio, hsame, hset⟩ :=
        errorPath_closes (d := s.draws) hop hclose e info
      refine ⟨t, ht, failed, by rw [hout], hin, results, freq, tree, codes, valid, fun h => absurd h hop,
        fun _ => ⟨hio, fun hpass => ?_, fun c io hfail => ?_⟩⟩
      · have hr := hok hpass
        exact ⟨by rw [hout, decide_eq_true hr], hsame hr⟩
      · have hr := herr c io hfail
        exact ⟨by rw [hout, decide_eq_false hr], hset hr⟩

end Sys2Proof
end

section
/-! The machine with BUSY = 0 and no command to run: the idle step (60_exceptions R835) and the end of a WAIT
(30_encoding R340). -/

namespace Sys2Proof.Machine

/-- With no host operation left, a step changes nothing (60_exceptions R835). -/
theorem step_idle {s : State} (hb : s.status.busy = false) (hh : s.host = []) : step s = .next s := by
  simp only [step, hh, hb, Bool.false_eq_true, if_false]

/-- The host goes on to its next operation once it reads BUSY = 0 and DONE = 1 (30_encoding R340, log 28). -/
theorem step_waitDone {s : State} {rest : List HostOp} (hb : s.status.busy = false) (hd : s.status.done = true)
    (hh : s.host = .wait :: rest) : step s = .next { s with host := rest } := by
  rw [step_hostTurn hh]
  simp only [hostTurn, hb, hd, Bool.false_eq_true, if_false, if_true]

end Sys2Proof.Machine

namespace Sys2Proof

open Machine

/-- Settles O8: BLOCK has no command to run, so only the host's WAIT can move, and DONE = 1 ends it. -/
theorem idleKeepsState : Obligations.IdleKeepsState :=
  fun _ hb => ⟨step_idle hb, fun _ hh hd => step_waitDone hb hd hh⟩

end Sys2Proof
end

section
/-! Hardware reset from any state (70_reset_and_hazards R900), and the operand that WRITE_FREQ takes when the host goes
on to write ARG before the command runs (70_reset_and_hazards R933). -/

namespace Sys2Proof.Machine

/-- A hardware reset the host issues takes effect at once, BUSY or not (70_reset_and_hazards R900). -/
theorem step_reset {s : State} {rest : List HostOp} (hh : s.host = .reset :: rest) :
    step s = .next { s with host := rest }.hardReset := step_hostTurn hh

/-- A WRITE_FREQ of a symbol in range is legal, unless it would store a zero count for END_OF_STREAM (30_encoding
R302). -/
theorem legalCommand_writeFreq {arg : Word} {sym : Opnd} (hsym : sym.toNat ≤ 256)
    (hcount : ¬ (sym = 256#10 ∧ arg = 0#32)) :
    legalCommand arg (encode (.writeFreq sym)) = .ok (.writeFreq sym) := by
  have hd : decode (encode (.writeFreq sym)) = .ok (.writeFreq sym) := decodeOfEncode _ (decide_eq_true hsym)
  simp only [legalCommand, hd, Instr.writeFreq.injEq, if_neg hcount]

/-- A legal word that does not read IN is accepted (40_control R400, 70_reset_and_hazards R920). -/
theorem step_accepts {s : State} {w : Word} {i : Instr} {rest : List HostOp} (hb : s.status.busy = false)
    (hh : s.host = .write 0x00#8 4 w :: rest) (hl : legalCommand s.arg w = .ok i) (hr : s.readsIn i = false) :
    step s = .next (({ s with host := rest }.clearReport w).accept.markInDue i) := by
  have hduty : s.brokenDuty w = none := by simp [State.brokenDuty, hl, hr]
  calc step s = issueCommand w { s with host := rest } :=
        (step_hostTurn hh).trans (hostWrite_cmd_idle (s := { s with host := rest }) hb w)
    _ = .next ({ s with host := rest }.takeCommand w) :=
        issueCommand_taken ((State.brokenDuty_host s rest w).trans hduty)
    _ = _ := congrArg _ (takeCommand_legal (s := { s with host := rest }) hl)

/-- A write of ARG changes ARG alone, BUSY or not (10_state R113). -/
theorem step_argWrite {s : State} {v : Word} {rest : List HostOp} (hh : s.host = .write 0x08#8 4 v :: rest) :
    step s = .next { s with host := rest, arg := v } :=
  (registerWritesReachOnlyCmdAndArg s 0x08#8 v rest rfl hh).2 rfl

end Sys2Proof.Machine

namespace Sys2Proof

open Machine

/-- Settles O14: the step is `hardReset` whatever BUSY is, and FREQ is the table of `State.reset`. -/
theorem hardwareResetState : Obligations.HardwareResetState := by
  intro s rest hh
  obtain ⟨-, -, -, -, -, -, hbytes, heos, -⟩ := resetValues
  exact ⟨_, step_reset hh, rfl, rfl, rfl, rfl, rfl, rfl, rfl, rfl, rfl, rfl, rfl, rfl, rfl, hbytes, heos, rfl, rfl, rfl,
    rfl, rfl, rfl⟩

/-- Settles O22: the acceptance copies ARG, the late write changes ARG and leaves the copy, and WRITE_FREQ stores the
copy. -/
theorem lateArgWriteIgnored : Obligations.LateArgWriteIgnored := by
  intro s sym v hb hsym hcount hh
  have hl := legalCommand_writeFreq hsym hcount
  have hrun : ∀ t : State, t.status.busy = true → t.cmd = encode (.writeFreq sym) → t.host = [.wait] →
      step t = .next (t.invalidateTree.setFreq sym.toNat t.accArg).complete := fun t htb htc hth =>
    (step_busy htb (.inr ⟨[], hth⟩)).trans (runBlock_decoded (htc ▸ legalCommand_decode hl))
  refine ⟨_, _, _, step_accepts hb hh hl rfl, step_argWrite rfl, hrun _ rfl rfl rfl, ?_, rfl, rfl, rfl, rfl⟩
  exact (freqAt_setFreq _ sym.toNat sym.toNat _ (Nat.lt_succ_of_le hsym)).trans (if_pos rfl)

end Sys2Proof
end
